-- ==== Sys2Proof/Word.lean ====
section
/-! DEFINITION. The plain types of the core: bytes, 32-bit words, 64-bit scalars, polynomials. -/

namespace Sys2Proof

/-- One byte of buffer memory (10_state.md R40). -/
abbrev Byte := BitVec 8

/-- A 32-bit word of the register interface (20_memory.md R63). -/
abbrev Word := BitVec 32

/-- A scalar register's contents (10_state.md R25). -/
abbrev Word64 := BitVec 64

/-- A polynomial: its coefficients as signed integers, index 0 first (00_scope.md R16). A slot's
polynomial has 256 of them, each a W-bit two's complement value (10_state.md R21); the invariant of
Safety.lean says so. -/
abbrev Poly := List Int

/-- A byte string, lowest address first (00_scope.md R11). -/
abbrev Bytes := List Byte

/-- The ring degree (00_scope.md R7). -/
abbrev ringDegree : Nat := 256

end Sys2Proof
end

