-- ==== Sys2Proof/Syntax.lean ====
section
/-! DEFINITION. The commands of `MBR-1`: one constructor per row of 30_encoding.md R97. -/

namespace Sys2Proof

/-- A decoded command. Slot and scalar operands are the register numbers of the fields `RD`, `RA`, `RB`;
`d`, `eta`, `v` the value of `WD`; `mode` the value of `MODE` (30_encoding.md R91, R93). Operands from the `ARG`
registers are not part of the command word (R94). -/
inductive Instr where
  /-- `NOP` (46_system.md R290) -/
  | nop
  /-- `ZEROIZE` (46_system.md R291) -/
  | zeroize (mode : Nat)
  /-- `MRED sd, sa` (40_reducer.md R124) -/
  | mred (sd sa : Nat)
  /-- `BRED sd, sa` (40_reducer.md R125) -/
  | bred (sd sa : Nat)
  /-- `FQMUL sd, sa, sb` (40_reducer.md R126) -/
  | fqmul (sd sa sb : Nat)
  /-- `PADD pd, pa, pb` (40_reducer.md R127) -/
  | padd (pd pa pb : Nat)
  /-- `PSUB pd, pa, pb` (40_reducer.md R128) -/
  | psub (pd pa pb : Nat)
  /-- `PRED pd, pa` (40_reducer.md R129) -/
  | pred (pd pa : Nat)
  /-- `PTOMONT pd, pa` (40_reducer.md R130) -/
  | ptomont (pd pa : Nat)
  /-- `NTT pd, pa` (41_transform.md R154) -/
  | ntt (pd pa : Nat)
  /-- `INTT pd, pa` (41_transform.md R155) -/
  | intt (pd pa : Nat)
  /-- `BASEMUL pd, pa, pb` (41_transform.md R156) -/
  | basemul (pd pa pb : Nat)
  /-- `XINIT v` (42_sampler.md R173) -/
  | xinit (v : Nat)
  /-- `XABSORB` (42_sampler.md R174) -/
  | xabsorb
  /-- `XSQUEEZE` (42_sampler.md R175) -/
  | xsqueeze
  /-- `CBD pd, eta` (42_sampler.md R178) -/
  | cbd (pd eta : Nat)
  /-- `GETNOISE pd, eta` (42_sampler.md R179) -/
  | getnoise (pd eta : Nat)
  /-- `REJPARSE pd` (42_sampler.md R181) -/
  | rejparse (pd : Nat)
  /-- `GENUNI pd` (42_sampler.md R182) -/
  | genuni (pd : Nat)
  /-- `CHALLENGE pd` (42_sampler.md R184) -/
  | challenge (pd : Nat)
  /-- `PACK pa, d` (43_codec.md R201) -/
  | pack (pa d : Nat)
  /-- `UNPACK pd, d` (43_codec.md R202) -/
  | unpack (pd d : Nat)
  /-- `COMPRESS pd, pa, d` (43_codec.md R204) -/
  | compress (pd pa d : Nat)
  /-- `DECOMPRESS pd, pa, d` (43_codec.md R205) -/
  | decompress (pd pa d : Nat)
  /-- `SIG_KEYGEN` (44_signature.md R232) -/
  | sigKeygen (mode : Nat)
  /-- `SIG_SIGN` (44_signature.md R236) -/
  | sigSign (mode : Nat)
  /-- `SIG_VERIFY` (44_signature.md R243) -/
  | sigVerify
  /-- `KEM_KEYGEN` (45_kem.md R270) -/
  | kemKeygen (mode : Nat)
  /-- `KEM_ENCAP` (45_kem.md R272) -/
  | kemEncap (mode : Nat)
  /-- `KEM_DECAP` (45_kem.md R273) -/
  | kemDecap
  deriving DecidableEq, Repr

end Sys2Proof
end

