-- ==== Sys2Proof/WellFormed.lean ====
section
/-! DEFINITION. Which commands a word can carry: every operand fits its field (30_encoding.md R91). Whether the
value is legal on a configuration is R95's question (Machine/Operands.lean). -/

namespace Sys2Proof

/-- A register field (`RD`, `RA`, `RB`) has 4 bits (30_encoding.md R91). -/
def fitsReg (n : Nat) : Bool := decide (n < 16)

/-- The field `WD` has 5 bits (30_encoding.md R91). -/
def fitsWd (d : Nat) : Bool := decide (d < 32)

/-- The field `MODE` has 2 bits (30_encoding.md R91). -/
def fitsMode (m : Nat) : Bool := decide (m < 4)

/-- Every operand of the command fits its field of the command word. -/
def Instr.wellFormed : Instr → Bool
  | .nop => true
  | .zeroize mode => fitsMode mode
  | .mred sd sa => fitsReg sd && fitsReg sa
  | .bred sd sa => fitsReg sd && fitsReg sa
  | .fqmul sd sa sb => fitsReg sd && fitsReg sa && fitsReg sb
  | .padd pd pa pb => fitsReg pd && fitsReg pa && fitsReg pb
  | .psub pd pa pb => fitsReg pd && fitsReg pa && fitsReg pb
  | .pred pd pa => fitsReg pd && fitsReg pa
  | .ptomont pd pa => fitsReg pd && fitsReg pa
  | .ntt pd pa => fitsReg pd && fitsReg pa
  | .intt pd pa => fitsReg pd && fitsReg pa
  | .basemul pd pa pb => fitsReg pd && fitsReg pa && fitsReg pb
  | .xinit v => fitsWd v
  | .xabsorb => true
  | .xsqueeze => true
  | .cbd pd eta => fitsReg pd && fitsWd eta
  | .getnoise pd eta => fitsReg pd && fitsWd eta
  | .rejparse pd => fitsReg pd
  | .genuni pd => fitsReg pd
  | .challenge pd => fitsReg pd
  | .pack pa d => fitsReg pa && fitsWd d
  | .unpack pd d => fitsReg pd && fitsWd d
  | .compress pd pa d => fitsReg pd && fitsReg pa && fitsWd d
  | .decompress pd pa d => fitsReg pd && fitsReg pa && fitsWd d
  | .sigKeygen mode => fitsMode mode
  | .sigSign mode => fitsMode mode
  | .sigVerify => true
  | .kemKeygen mode => fitsMode mode
  | .kemEncap mode => fitsMode mode
  | .kemDecap => true

end Sys2Proof
end

