-- ==== Sys2Proof/Decode.lean ====
section
/-! DEFINITION. From a command word to a command and back (30_encoding.md R90 to R98). Decoding is total: a word
that matches no row of R97 is rejected by name. -/

namespace Sys2Proof

/-- The eleven formats (30_encoding.md R92). -/
inductive Format where
  | f0 | fm | fs2 | fs3 | fp2 | fp3 | fw | fd | fdw | faw | fp2w
  deriving DecidableEq, Repr

/-- The `mask` of fixed bits of a format (30_encoding.md R92). -/
def Format.mask : Format → Word
  | .f0 => 0xFFFFFFFF#32
  | .fm => 0xF9FFFFFF#32
  | .fs2 => 0xFFFF00FF#32
  | .fs3 => 0xFFF000FF#32
  | .fp2 => 0xFFFF00FF#32
  | .fp3 => 0xFFF000FF#32
  | .fw => 0xFE0FFFFF#32
  | .fd => 0xFFFFF0FF#32
  | .fdw => 0xFE0FF0FF#32
  | .faw => 0xFE0F0FFF#32
  | .fp2w => 0xFE0F00FF#32

/-- Why a word is no command (30_encoding.md R98). -/
inductive DecodeError where
  /-- the value of `OPC` is not in the table -/
  | unknownOpcode
  /-- a bit the format fixes at 0 (bits 31:27, or a field the format does not use) is 1 -/
  | nonzeroUnusedField
  deriving DecidableEq, Repr

/-- Bits `7:0` (30_encoding.md R91). -/
def fieldOpc (w : Word) : Nat := w.toNat % 2 ^ 8

/-- Bits `11:8` (30_encoding.md R91). -/
def fieldRd (w : Word) : Nat := w.toNat / 2 ^ 8 % 2 ^ 4

/-- Bits `15:12` (30_encoding.md R91). -/
def fieldRa (w : Word) : Nat := w.toNat / 2 ^ 12 % 2 ^ 4

/-- Bits `19:16` (30_encoding.md R91). -/
def fieldRb (w : Word) : Nat := w.toNat / 2 ^ 16 % 2 ^ 4

/-- Bits `24:20` (30_encoding.md R91). -/
def fieldWd (w : Word) : Nat := w.toNat / 2 ^ 20 % 2 ^ 5

/-- Bits `26:25` (30_encoding.md R91). -/
def fieldMode (w : Word) : Nat := w.toNat / 2 ^ 25 % 2 ^ 2

/-- `w and mask = match`, where `match` is the opcode in bits 7:0 and 0 elsewhere (30_encoding.md R92). -/
def inFormat (f : Format) (w : Word) (i : Instr) : Except DecodeError Instr :=
  if w &&& f.mask = BitVec.ofNat 32 (fieldOpc w) then .ok i else .error .nonzeroUnusedField

/-- The row of 30_encoding.md R97 that a word matches. -/
def decode (w : Word) : Except DecodeError Instr :=
  match fieldOpc w with
  | 0x00 => inFormat .f0 w .nop
  | 0x01 => inFormat .fm w (.zeroize (fieldMode w))
  | 0x10 => inFormat .fs2 w (.mred (fieldRd w) (fieldRa w))
  | 0x11 => inFormat .fs2 w (.bred (fieldRd w) (fieldRa w))
  | 0x12 => inFormat .fs3 w (.fqmul (fieldRd w) (fieldRa w) (fieldRb w))
  | 0x20 => inFormat .fp3 w (.padd (fieldRd w) (fieldRa w) (fieldRb w))
  | 0x21 => inFormat .fp3 w (.psub (fieldRd w) (fieldRa w) (fieldRb w))
  | 0x22 => inFormat .fp2 w (.pred (fieldRd w) (fieldRa w))
  | 0x23 => inFormat .fp2 w (.ptomont (fieldRd w) (fieldRa w))
  | 0x30 => inFormat .fp2 w (.ntt (fieldRd w) (fieldRa w))
  | 0x31 => inFormat .fp2 w (.intt (fieldRd w) (fieldRa w))
  | 0x32 => inFormat .fp3 w (.basemul (fieldRd w) (fieldRa w) (fieldRb w))
  | 0x40 => inFormat .fw w (.xinit (fieldWd w))
  | 0x41 => inFormat .f0 w .xabsorb
  | 0x42 => inFormat .f0 w .xsqueeze
  | 0x43 => inFormat .fdw w (.cbd (fieldRd w) (fieldWd w))
  | 0x44 => inFormat .fdw w (.getnoise (fieldRd w) (fieldWd w))
  | 0x45 => inFormat .fd w (.rejparse (fieldRd w))
  | 0x46 => inFormat .fd w (.genuni (fieldRd w))
  | 0x47 => inFormat .fd w (.challenge (fieldRd w))
  | 0x50 => inFormat .faw w (.pack (fieldRa w) (fieldWd w))
  | 0x51 => inFormat .fdw w (.unpack (fieldRd w) (fieldWd w))
  | 0x52 => inFormat .fp2w w (.compress (fieldRd w) (fieldRa w) (fieldWd w))
  | 0x53 => inFormat .fp2w w (.decompress (fieldRd w) (fieldRa w) (fieldWd w))
  | 0x60 => inFormat .fm w (.sigKeygen (fieldMode w))
  | 0x61 => inFormat .fm w (.sigSign (fieldMode w))
  | 0x62 => inFormat .f0 w .sigVerify
  | 0x70 => inFormat .fm w (.kemKeygen (fieldMode w))
  | 0x71 => inFormat .fm w (.kemEncap (fieldMode w))
  | 0x72 => inFormat .f0 w .kemDecap
  | _ => .error .unknownOpcode

/-! ## The encoder -/

/-- `OPC` of a command (30_encoding.md R97). -/
def Instr.opcode : Instr → Nat
  | .nop => 0x00
  | .zeroize _ => 0x01
  | .mred _ _ => 0x10
  | .bred _ _ => 0x11
  | .fqmul _ _ _ => 0x12
  | .padd _ _ _ => 0x20
  | .psub _ _ _ => 0x21
  | .pred _ _ => 0x22
  | .ptomont _ _ => 0x23
  | .ntt _ _ => 0x30
  | .intt _ _ => 0x31
  | .basemul _ _ _ => 0x32
  | .xinit _ => 0x40
  | .xabsorb => 0x41
  | .xsqueeze => 0x42
  | .cbd _ _ => 0x43
  | .getnoise _ _ => 0x44
  | .rejparse _ => 0x45
  | .genuni _ => 0x46
  | .challenge _ => 0x47
  | .pack _ _ => 0x50
  | .unpack _ _ => 0x51
  | .compress _ _ _ => 0x52
  | .decompress _ _ _ => 0x53
  | .sigKeygen _ => 0x60
  | .sigSign _ => 0x61
  | .sigVerify => 0x62
  | .kemKeygen _ => 0x70
  | .kemEncap _ => 0x71
  | .kemDecap => 0x72

/-- The format of a command (30_encoding.md R97). -/
def Instr.format : Instr → Format
  | .nop => .f0
  | .zeroize _ => .fm
  | .mred _ _ => .fs2
  | .bred _ _ => .fs2
  | .fqmul _ _ _ => .fs3
  | .padd _ _ _ => .fp3
  | .psub _ _ _ => .fp3
  | .pred _ _ => .fp2
  | .ptomont _ _ => .fp2
  | .ntt _ _ => .fp2
  | .intt _ _ => .fp2
  | .basemul _ _ _ => .fp3
  | .xinit _ => .fw
  | .xabsorb => .f0
  | .xsqueeze => .f0
  | .cbd _ _ => .fdw
  | .getnoise _ _ => .fdw
  | .rejparse _ => .fd
  | .genuni _ => .fd
  | .challenge _ => .fd
  | .pack _ _ => .faw
  | .unpack _ _ => .fdw
  | .compress _ _ _ => .fp2w
  | .decompress _ _ _ => .fp2w
  | .sigKeygen _ => .fm
  | .sigSign _ => .fm
  | .sigVerify => .f0
  | .kemKeygen _ => .fm
  | .kemEncap _ => .fm
  | .kemDecap => .f0

/-- A command word from its fields (30_encoding.md R91). -/
def packFields (opc rd ra rb wd mode : Nat) : Word :=
  BitVec.ofNat 32 (opc + 2 ^ 8 * rd + 2 ^ 12 * ra + 2 ^ 16 * rb + 2 ^ 20 * wd + 2 ^ 25 * mode)

/-- The command word of a well-formed command (30_encoding.md R91, R92, R97). -/
def encode : Instr → Word
  | .nop => packFields 0x00 0 0 0 0 0
  | .zeroize mode => packFields 0x01 0 0 0 0 mode
  | .mred sd sa => packFields 0x10 sd sa 0 0 0
  | .bred sd sa => packFields 0x11 sd sa 0 0 0
  | .fqmul sd sa sb => packFields 0x12 sd sa sb 0 0
  | .padd pd pa pb => packFields 0x20 pd pa pb 0 0
  | .psub pd pa pb => packFields 0x21 pd pa pb 0 0
  | .pred pd pa => packFields 0x22 pd pa 0 0 0
  | .ptomont pd pa => packFields 0x23 pd pa 0 0 0
  | .ntt pd pa => packFields 0x30 pd pa 0 0 0
  | .intt pd pa => packFields 0x31 pd pa 0 0 0
  | .basemul pd pa pb => packFields 0x32 pd pa pb 0 0
  | .xinit v => packFields 0x40 0 0 0 v 0
  | .xabsorb => packFields 0x41 0 0 0 0 0
  | .xsqueeze => packFields 0x42 0 0 0 0 0
  | .cbd pd eta => packFields 0x43 pd 0 0 eta 0
  | .getnoise pd eta => packFields 0x44 pd 0 0 eta 0
  | .rejparse pd => packFields 0x45 pd 0 0 0 0
  | .genuni pd => packFields 0x46 pd 0 0 0 0
  | .challenge pd => packFields 0x47 pd 0 0 0 0
  | .pack pa d => packFields 0x50 0 pa 0 d 0
  | .unpack pd d => packFields 0x51 pd 0 0 d 0
  | .compress pd pa d => packFields 0x52 pd pa 0 d 0
  | .decompress pd pa d => packFields 0x53 pd pa 0 d 0
  | .sigKeygen mode => packFields 0x60 0 0 0 0 mode
  | .sigSign mode => packFields 0x61 0 0 0 0 mode
  | .sigVerify => packFields 0x62 0 0 0 0 0
  | .kemKeygen mode => packFields 0x70 0 0 0 0 mode
  | .kemEncap mode => packFields 0x71 0 0 0 0 mode
  | .kemDecap => packFields 0x72 0 0 0 0 0

/-- The command read from a word given by its bits (bit 0 least significant, bits above `nbits` zero); `none` where
the decoder rejects it. A command is one 32-bit word written to `CMD` (30_encoding.md R90), so no byte order enters. -/
def decodeTableWord (nbits w : Nat) : Option Instr :=
  match decode (BitVec.ofNat 32 (w % 2 ^ nbits)) with
  | .ok i => some i
  | .error _ => none

end Sys2Proof
end

