-- ==== Sys2Proof/Machine/Arith.lean ====
section
/-! DEFINITION. Integer and byte-string notation of 00_scope.md R12 and R15. -/

namespace Sys2Proof.Machine

/-- `wrap_n(v)`: the n-bit two's complement reading of `v` (00_scope.md R12). -/
def wrap (n : Nat) (v : Int) : Int := Int.bmod v (2 ^ n)

/-- `a mod± m`: the centred remainder, in `(-m/2, m/2]` (00_scope.md R12). -/
def cmod (a : Int) (m : Nat) : Int :=
  if 2 * (a % m) ≤ m then a % m else a % m - m

/-- `bitlen(v)` (00_scope.md R12). -/
def bitlen (v : Nat) : Nat := if v = 0 then 0 else Nat.log2 v + 1

/-- Bit `k` of an unsigned number. -/
def bitOf (v k : Nat) : Nat := (v >>> k) % 2

/-- `int_le(S)` (00_scope.md R15). -/
def intLe (bs : Bytes) : Nat := bs.foldr (fun b acc => b.toNat + 256 * acc) 0

/-- `le_n(v)`: the `n` low bytes of `v`, least significant first (00_scope.md R15). -/
def leBytes : Nat → Nat → Bytes
  | 0, _ => []
  | n + 1, v => BitVec.ofNat 8 v :: leBytes n (v / 256)

/-- `S[a:b]` (00_scope.md R14). -/
def slice (bs : Bytes) (a b : Nat) : Bytes := (bs.drop a).take (b - a)

/-- `||f||inf` of a polynomial with integer coefficients (00_scope.md R16). -/
def polyNorm (f : Poly) : Nat := f.foldl (fun m v => max m v.natAbs) 0

/-- `||v||inf` of a vector of polynomials (00_scope.md R16). -/
def vecNorm (v : List Poly) : Nat := v.foldl (fun m f => max m (polyNorm f)) 0

/-- `canon(f)` (00_scope.md R16). -/
def canon (q : Nat) (f : Poly) : Poly := f.map (· % (q : Int))

/-- `cent(f)` (00_scope.md R16). -/
def cent (q : Nat) (f : Poly) : Poly := f.map (cmod · q)

end Sys2Proof.Machine
end

