-- ==== Sys2Proof/Config.lean ====
section
/-! DEFINITION. The configuration record `Cfg` (00_scope.md R8), the reference configurations (R9), and the
free values: uninterpreted constants with no body. -/

namespace Sys2Proof

/-- `Cfg.Hash` (42_sampler.md R170): which suite of four functions the core was built with.
DESIGN CHOICE (log 9): a suite is named by plain data, so that State stays comparable; `other` covers any suite. -/
inductive HashSuite where
  /-- the reference suite of 47_hash_suite_reference.md (SHAKE128, SHAKE256, SHA3-256, SHA3-512) -/
  | keccak
  /-- a degenerate suite whose four functions answer the byte `b` everywhere -/
  | constant (b : Byte)
  /-- suite number `n`: four uninterpreted functions (`Config.otherXofa` and its fellows) -/
  | other (n : Nat)
  deriving DecidableEq, Repr

/-- The KEM constants of a configuration with `HAS_KEM = 1` (00_scope.md R8). -/
structure KemCfg where
  /-- `K`, the module rank -/
  k : Nat
  /-- `ETA`, the noise parameter -/
  eta : Nat
  /-- `DT`, compression width of the public vector -/
  dt : Nat
  /-- `DU`, compression width of the ciphertext's `u` -/
  du : Nat
  /-- `DV`, compression width of the ciphertext's `v` -/
  dv : Nat
  deriving DecidableEq, Repr

/-- The signature constants of a configuration with `HAS_SIG = 1` (00_scope.md R8). -/
structure SigCfg where
  /-- `SK`, matrix rows -/
  sk : Nat
  /-- `SL`, matrix columns -/
  sl : Nat
  /-- `SETA`, noise parameter -/
  seta : Nat
  /-- `TAU`, challenge weight -/
  tau : Nat
  /-- `GAMMA1`, mask range -/
  gamma1 : Nat
  /-- `GAMMA2`, rounding range -/
  gamma2 : Nat
  /-- `OMEGA`, hint cap -/
  omega : Nat
  /-- `DROP`, dropped bits -/
  drop : Nat
  deriving DecidableEq, Repr

/-- The record `Cfg` "resolved once at construction" (00_scope.md R8). `HAS_KEM` and `HAS_SIG` are whether
`kem` and `sig` are present. The derived fields `R`, `QINV`, `LOGQ` are computed (Machine/Params.lean). -/
structure Cfg where
  /-- `Q`, the modulus -/
  q : Nat
  /-- `W`, coefficient width in bits -/
  w : Nat
  /-- `ZETA`, a primitive 256th root of unity modulo `Q` -/
  zeta : Nat
  /-- `NP`, polynomial slots -/
  np : Nat
  /-- `BMEM_SIZE`, bytes of buffer memory -/
  bmemSize : Nat
  /-- `CS`, chunk stride of the rejection sampler in bits -/
  cs : Nat
  /-- `CW`, kept chunk width in bits -/
  cw : Nat
  /-- `NONCEBYTES` -/
  nonceBytes : Nat
  /-- `BLK_A`, block size of `XOFA` in bytes -/
  blkA : Nat
  /-- `BLK_B`, block size of `XOFB` in bytes -/
  blkB : Nat
  /-- `MAX_XOF_BLOCKS` -/
  maxXofBlocks : Nat
  /-- `MAX_SIGN_RETRIES` -/
  maxSignRetries : Nat
  /-- present iff `HAS_KEM = 1` -/
  kem : Option KemCfg
  /-- present iff `HAS_SIG = 1` -/
  sig : Option SigCfg
  /-- `Hash` -/
  hash : HashSuite
  deriving DecidableEq, Repr

/-- The reference KEM constants (00_scope.md R9). -/
def KemCfg.reference : KemCfg := { k := 2, eta := 2, dt := 11, du := 10, dv := 4 }

/-- The reference signature constants (00_scope.md R9). -/
def SigCfg.reference : SigCfg :=
  { sk := 4, sl := 4, seta := 2, tau := 39, gamma1 := 131072, gamma2 := 95232, omega := 80, drop := 13 }

/-- Profile P1 with the reference KEM configuration, `HAS_SIG = 0` (00_scope.md R9; `I1` of 95_test_vectors.md). -/
def Cfg.referenceKem : Cfg :=
  { q := 3329, w := 16, zeta := 17, np := 16, bmemSize := 16384, cs := 12, cw := 12, nonceBytes := 1
    blkA := 168, blkB := 136, maxXofBlocks := 64, maxSignRetries := 1000
    kem := some .reference, sig := none, hash := .keccak }

/-- Profile P2 with the reference signature configuration, `HAS_KEM = 0` (00_scope.md R9; `I2` of
95_test_vectors.md). -/
def Cfg.referenceSig : Cfg :=
  { q := 8380417, w := 32, zeta := 3073009, np := 16, bmemSize := 16384, cs := 24, cw := 23, nonceBytes := 2
    blkA := 168, blkB := 136, maxXofBlocks := 64, maxSignRetries := 1000
    kem := none, sig := some .reference, hash := .keccak }

/-- Profile P2 with both protocols present: the reference signature constants and the reference KEM constants.
DESIGN CHOICE (log 2): the instance `State.reset` shows, so that all 30 commands are legal on it. -/
def Cfg.referenceBoth : Cfg := { Cfg.referenceSig with kem := some .reference }

/-! ## Free values

Each is a constant without a body: nothing in Lean can evaluate it, so a claim holds whatever it is. -/

/-- Byte `k` of the entropy source's free answers (10_state.md R47, 93_implementation_defined.md U8; log 8). -/
opaque Config.entropyByte : Nat → Byte

/-- Free answer `k` of the bypass coin (10_state.md R48, 93_implementation_defined.md U9; log 8). -/
opaque Config.coin : Nat → Bool

/-- Byte `k` of `XOFA(m)` in suite `n` (42_sampler.md R170; log 9). -/
opaque Config.otherXofa : (n : Nat) → (m : Bytes) → (k : Nat) → Byte

/-- Byte `k` of `XOFB(m)` in suite `n` (42_sampler.md R170; log 9). -/
opaque Config.otherXofb : (n : Nat) → (m : Bytes) → (k : Nat) → Byte

/-- Byte `k` of the 32 bytes of `H(m)` in suite `n` (42_sampler.md R170; log 9). -/
opaque Config.otherH : (n : Nat) → (m : Bytes) → (k : Nat) → Byte

/-- Byte `k` of the 64 bytes of `G(m)` in suite `n` (42_sampler.md R170; log 9). -/
opaque Config.otherG : (n : Nat) → (m : Bytes) → (k : Nat) → Byte

end Sys2Proof
end

