-- ==== Sys2Proof/Machine/State.lean ====
section
/-! DEFINITION. The state of the core (10_state.md R20), the reasons a step can stop, and the state after reset
(R49). Plain data throughout. -/

namespace Sys2Proof.Machine

/-- Why the model stops where the hardware goes on (93_implementation_defined.md §1, treatment `fault`). -/
inductive Fault where
  /-- A command or the host read the byte of buffer memory at this address (the first one of the operand found),
  which nothing has written since reset (10_state.md R50, 60_exceptions.md R329, U1). Raised by every command that
  reads `B` and by host reads of the BMEM window. SAFE: the hardware returns some byte and goes on; the model stops
  (log 5). -/
  | noValue (addr : Nat)
  deriving DecidableEq, Repr

/-- What the model rejects as outside the spec. -/
inductive Refusal where
  /-- No meaning yet for the command of this mnemonic. Raised by no arm of `exec`. SAFE. -/
  | notModelled (mnemonic : String)
  /-- A host access other than those 20_memory.md R72 allows while `BUSY = 1` (U2). Raised by `hostAccess`. SAFE:
  the spec says nothing of what follows (log 13). -/
  | busyAccess (offset : Nat)
  /-- A host access that is not an aligned 32-bit word (20_memory.md R63, U6). Raised by `hostAccess`. SAFE. -/
  | unalignedAccess (offset : Nat)
  /-- The configuration breaks a constraint of 00_scope.md R8, so it is no configuration of this hardware (U10).
  Raised by `step`. SAFE (log 15). -/
  | badConfiguration
  deriving DecidableEq, Repr

/-- Which of the four functions the XOF unit computes (42_sampler.md R172): variants 0 to 3 of `XINIT`. -/
inductive XofVariant where
  | xofa | xofb | h | g
  deriving DecidableEq, Repr

/-- The XOF unit's record `(v, absorbed, pos, squeezing)` (10_state.md R43). -/
structure Xof where
  variant : XofVariant
  absorbed : Bytes
  /-- stream bytes already squeezed -/
  pos : Nat
  squeezing : Bool
  deriving DecidableEq, Repr

/-- The fields of `STATUS` (10_state.md R27); the other bits read as 0 and ignore writes. -/
structure Status where
  busy : Bool
  done : Bool
  err : Bool
  halt : Bool
  cmdovr : Bool
  errcode : BitVec 8
  deriving DecidableEq, Repr

/-- What is captured when a command is accepted (30_encoding.md R96 step 0): the command word and `ARG0..ARG5`. It
is read only while `BUSY = 1`. -/
structure Latch where
  word : Word
  args : Vector Word 6
  deriving DecidableEq, Repr

/-- The answers of the entropy source and of the bypass coin (00_scope.md R14). The MODEL's own field (log 8): the
listed answers are given first, oldest first; after them each draw is a free value of `Config`, numbered by `taken`. -/
structure Draws where
  entropy : Bytes
  coins : List Bool
  taken : Nat
  deriving DecidableEq, Repr

/-- The width of a host access (20_memory.md R63). -/
inductive AccessSize where
  | byte | half | word
  deriving DecidableEq, Repr

/-- What can happen at the core's boundary, one at a time (20_memory.md R60, R70). -/
inductive BusEvent where
  /-- the engine's turn: it completes the command in flight, and does nothing when there is none -/
  | core
  /-- the host reads at a byte offset -/
  | read (size : AccessSize) (offset : Nat)
  /-- the host writes at a byte offset -/
  | write (size : AccessSize) (offset : Nat) (data : Word)
  /-- the reset input is asserted and released -/
  | resetPin
  deriving DecidableEq, Repr

/-- Buffer memory: the bytes that have a value, by strictly rising address. An unlisted address has no value
(10_state.md R50). -/
abbrev Memory := List Host.Cell

/-- The state of the core (10_state.md R20), its configuration, and the model's own fields. -/
structure State where
  /-- `Cfg` (00_scope.md R8); no step changes it -/
  cfg : Cfg
  /-- `P[0..NP-1]` (10_state.md R21) -/
  p : List Poly
  /-- `s[0..3]` (10_state.md R25) -/
  sreg : Vector Word64 4
  /-- `B` (10_state.md R40) -/
  mem : Memory
  /-- `xof` (10_state.md R43); absent is the spec's `none` -/
  xof : Option Xof
  /-- `ARG0..ARG5` (10_state.md R32) -/
  arg : Vector Word 6
  /-- `CTRL.IE` (10_state.md R30) -/
  ie : Bool
  /-- `STATUS` (10_state.md R27) -/
  status : Status
  /-- `RESULT` (10_state.md R28) -/
  result : Word
  /-- `RETRY` (10_state.md R29) -/
  retry : Word
  /-- the command in flight (30_encoding.md R96 step 0) -/
  latch : Latch
  /-- answers of the external sources; the model's own -/
  draws : Draws
  /-- bus events still to happen, oldest first; the model's own -/
  bus : List BusEvent
  /-- the word the last bus read returned; the model's own -/
  busData : Word
  deriving DecidableEq, Repr

/-- The polynomial 0. -/
def zeroPoly : Poly := List.replicate ringDegree 0

/-- `STATUS` idle: every field 0 (10_state.md R27). -/
def Status.idle : Status :=
  { busy := false, done := false, err := false, halt := false, cmdovr := false, errcode := 0 }

/-- The state after reset of the instance `c` (10_state.md R49). Slots and scalar registers: the spec gives no
value; DESIGN CHOICE 0 (log 3, log 4). Latch: DESIGN CHOICE 0 (log 10). -/
def State.resetOf (c : Cfg) : State :=
  { cfg := c
    p := List.replicate c.np zeroPoly
    sreg := Vector.replicate 4 0
    mem := []
    xof := none
    arg := Vector.replicate 6 0
    ie := false
    status := .idle
    result := 0
    retry := 0
    latch := { word := 0, args := Vector.replicate 6 0 }
    draws := { entropy := [], coins := [], taken := 0 }
    bus := []
    busData := 0 }

/-- The machine right after reset (10_state.md R49), on the instance of log 2. -/
def State.reset : State := State.resetOf .referenceBoth

end Sys2Proof.Machine
end

