-- ==== Sys2Proof/Machine/Ops.lean ====
section
/-! DEFINITION. The shared operations: buffer memory, slots, scalar registers, draws; accepting a command,
completing it, raising an error, and the return from one. -/

namespace Sys2Proof.Machine

/-- How a command, a host access or a step ends. -/
abbrev Outcome := Host.Outcome State Fault Refusal

/-! ## Buffer memory (10_state.md R40, 00_scope.md R13) -/

/-- The canonical form of memory: addresses strictly rise. (An unlisted address has no value, so no listed entry can
equal what an unlisted one reads as.) -/
abbrev Memory.wf (m : Memory) : Prop := m.Pairwise (fun x y => x.1 < y.1)

/-- The byte at an address, if anything wrote it since reset (10_state.md R50). -/
def Memory.read (m : Memory) (a : Nat) : Option Byte := List.lookup a m

/-- The cells of a byte string stored from address `a` upward. -/
def cellsAt (a : Nat) (bs : Bytes) : Memory := (bs.zipIdx a).map (fun x => (x.2, x.1))

/-- Store a byte string at `a`, `a+1`, … (the string replaces whatever stood there). -/
def Memory.writeBytes (m : Memory) (a : Nat) (bs : Bytes) : Memory :=
  m.filter (fun x => decide (x.1 < a)) ++ cellsAt a bs ++ m.filter (fun x => decide (a + bs.length ≤ x.1))

/-- The `n` bytes from address `a` at the head of a memory that lists nothing below `a`; an error names the first
address without a value. -/
def Memory.readRun : Memory → Nat → Nat → Except Nat Bytes
  | _, _, 0 => .ok []
  | [], a, _ + 1 => .error a
  | (k, b) :: m, a, n + 1 =>
    if k = a then
      match Memory.readRun m (a + 1) n with
      | .ok bs => .ok (b :: bs)
      | .error e => .error e
    else .error a

/-- `MemRead(a, n)`: the bytes `B[a] … B[a+n-1]`, or the first address among them without a value. -/
def Memory.readBytes (m : Memory) (a n : Nat) : Except Nat Bytes :=
  Memory.readRun (m.dropWhile (fun x => decide (x.1 < a))) a n

/-- Go on with the bytes `MemRead(a, n)`; a byte without a value is a fault of the model (10_state.md R50). -/
def reading (s : State) (a n : Nat) (k : Bytes → Outcome) : Outcome :=
  match s.mem.readBytes a n with
  | .ok bs => k bs
  | .error e => .fault (.noValue e)

/-- `MemWrite(a, n, v)`: the first `n` bytes of `v` at `a..a+n-1` (00_scope.md R13). -/
def memWrite (s : State) (a n : Nat) (v : Bytes) : State :=
  { s with mem := s.mem.writeBytes a (v.take n) }

/-! ## Slots and scalar registers (10_state.md R21, R25; 00_scope.md R13) -/

/-- A polynomial as a slot holds it: 256 coefficients, each wrapped to `w` bits (00_scope.md R13). -/
def fitPoly (w : Nat) (f : Poly) : Poly := ((f ++ zeroPoly).take ringDegree).map (wrap w)

/-- `P[k]`. -/
def getSlot (s : State) (k : Nat) : Poly := s.p.getD k zeroPoly

/-- `P[k] <- f`: all 256 coefficients, each `wrap_W` of its value (00_scope.md R13). -/
def setSlot (s : State) (k : Nat) (f : Poly) : State := { s with p := s.p.set k (fitPoly s.cfg.w f) }

/-- `s[n]`, a signed 64-bit integer. -/
def getScalar (s : State) (n : Nat) : Int := (s.sreg.getD n 0).toInt

/-- `s[n] <- v`, `wrap_64(v)` (00_scope.md R13). -/
def setScalar (s : State) (n : Nat) (v : Int) : State :=
  { s with sreg := s.sreg.setIfInBounds n (BitVec.ofInt 64 v) }

/-- `xof <- none` (42_sampler.md R176). -/
def dropXof (s : State) : State := { s with xof := none }

/-- Zero every slot and scalar register and set `xof <- none` (46_system.md R291, R293; 60_exceptions.md R326). -/
def zeroWorking (s : State) : State :=
  { s with p := List.replicate s.cfg.np zeroPoly, sreg := Vector.replicate 4 0, xof := none }

/-- `RESULT <- n` (10_state.md R28). -/
def setResult (s : State) (n : Nat) : State := { s with result := BitVec.ofNat 32 n }

/-- `RETRY <- n` (10_state.md R29). -/
def setRetry (s : State) (n : Nat) : State := { s with retry := BitVec.ofNat 32 n }

/-! ## Draws (00_scope.md R14) -/

/-- `Entropy(n)`: `n` bytes of the entropy source (10_state.md R47). -/
def drawEntropy : Nat → Draws → Bytes × Draws
  | 0, d => ([], d)
  | n + 1, d =>
    match d.entropy with
    | b :: rest =>
      let (bs, d') := drawEntropy n { d with entropy := rest }
      (b :: bs, d')
    | [] =>
      let (bs, d') := drawEntropy n { d with taken := d.taken + 1 }
      (Config.entropyByte d.taken :: bs, d')

/-- `Coin()` (10_state.md R48). -/
def drawCoin (d : Draws) : Bool × Draws :=
  match d.coins with
  | b :: rest => (b, { d with coins := rest })
  | [] => (Config.coin d.taken, { d with taken := d.taken + 1 })

/-! ## The life of a command (30_encoding.md R96) and its errors (60_exceptions.md) -/

/-- The error codes (60_exceptions.md R320). -/
inductive ErrorCode where
  | illegalCmd | invalidLen | addr | xofSeq | rejExhausted
  deriving DecidableEq, Repr

/-- The value of `ERRCODE` (60_exceptions.md R320). -/
def ErrorCode.code : ErrorCode → BitVec 8
  | .illegalCmd => 1
  | .invalidLen => 2
  | .addr => 3
  | .xofSeq => 4
  | .rejExhausted => 5

/-- Step 0 of 30_encoding.md R96: capture the command word and the `ARG` registers; `BUSY <- 1`, `DONE <- 0`,
`RESULT <- 0`, `RETRY <- 0`. -/
def accept (w : Word) (s : State) : State :=
  { s with
    latch := { word := w, args := s.arg }
    status := { s.status with busy := true, done := false }
    result := 0
    retry := 0 }

/-- Step 5 of 30_encoding.md R96: `BUSY <- 0`, `DONE <- 1`. -/
def complete (s : State) : State := { s with status := { s.status with busy := false, done := true } }

/-- Record an error and complete: `ERR <- 1`, `ERRCODE <- code`, `BUSY <- 0`, `DONE <- 1`. This is the whole of
`raise E` for a recoverable error (60_exceptions.md R322); the fatal one adds to it (R326). -/
def raise (e : ErrorCode) (s : State) : State :=
  complete { s with status := { s.status with err := true, errcode := e.code } }

/-- A command ends with a recoverable error (60_exceptions.md R322). -/
def raised (e : ErrorCode) (s : State) : Outcome := .next (raise e s)

/-- `raise ERR_REJ_EXHAUSTED`: slots and scalars zeroed, `xof <- none`, the error recorded, `HALT <- 1`
(60_exceptions.md R326). -/
def raiseFatal (s : State) : State :=
  raise .rejExhausted { zeroWorking s with status := { s.status with halt := true } }

/-- A command ends with its effect done. -/
def finish (s : State) : Outcome := .next (complete s)

/-- A protocol command ends with its effect done: the working state is zeroed (46_system.md R293). -/
def finishProtocol (s : State) : Outcome := finish (zeroWorking s)

/-- Return from a recoverable error: the host writes 1 to `STATUS.ERR`; `ERR <- 0`, `ERRCODE <- 0` unless `HALT` is 1
(60_exceptions.md R327, R326; 10_state.md R27). -/
def acknowledgeError (st : Status) : Status :=
  if st.halt then st else { st with err := false, errcode := 0 }

/-- The reset state of the same instance, hardware or soft (10_state.md R49, 70_reset_and_hazards.md R360, R361).
What lies outside the core goes on: the external sources, the bus and what it last returned (log 20). -/
def resetCore (s : State) : State :=
  { State.resetOf s.cfg with draws := s.draws, bus := s.bus, busData := s.busData }

end Sys2Proof.Machine
end

