-- ==== Sys2Proof/Machine/Params.lean ====
section
/-! DEFINITION. What `Cfg` determines: derived constants, the twiddle ROM, sizes, and the constraints a
configuration must meet (00_scope.md R8, 41_transform.md R151, 44_signature.md R222, 45_kem.md R261). -/

namespace Sys2Proof.Machine

/-- `R = 2^W` (00_scope.md R8). -/
def radix (c : Cfg) : Nat := 2 ^ c.w

/-- One Newton step towards the inverse of `q` modulo `2^w`: it doubles the number of correct low bits. -/
def inverseStep (q w : Nat) (x : Int) : Int := x * (2 - q * x) % (2 ^ w : Nat)

/-- `QINV = Q^(-1) mod 2^W` (00_scope.md R8). `Q` is its own inverse modulo 8, and four Newton steps make the 3
correct bits 48. -/
def qinv (c : Cfg) : Int :=
  inverseStep c.q c.w (inverseStep c.q c.w (inverseStep c.q c.w (inverseStep c.q c.w c.q)))

/-- `LOGQ`, the smallest `l` with `2^l > Q - 1` (00_scope.md R8). -/
def logq (c : Cfg) : Nat := bitlen (c.q - 1)

/-- `R2 = R^2 mod Q` (40_reducer.md R130). -/
def montR2 (c : Cfg) : Int := ((radix c * radix c % c.q : Nat) : Int)

/-- `128^(-1) mod Q`: `128 * (Q - (Q-1)/128) = 128 Q - (Q - 1) = 1 (mod Q)` since `Q = 1 (mod 128)`. -/
def inv128 (c : Cfg) : Nat := c.q - (c.q - 1) / 128

/-- `F = (R * 128^(-1)) mod Q` (41_transform.md R155). -/
def finalF (c : Cfg) : Int := ((radix c * inv128 c % c.q : Nat) : Int)

/-- `brv7(i)`: the 7 bits of `i` reversed (41_transform.md R151). -/
def brv7 (i : Nat) : Nat := (List.range 7).foldl (fun acc t => 2 * acc + bitOf i t) 0

/-- `ZETA^e mod Q`. -/
def zetaPow (c : Cfg) (e : Nat) : Nat := c.zeta ^ e % c.q

/-- `ZROM[i] = (ZETA^brv7(i) * R) mod± Q` (41_transform.md R151). -/
def zromEntry (c : Cfg) (i : Nat) : Int := cmod (zetaPow c (brv7 i) * radix c) c.q

/-- The twiddle ROM, index 0 first (10_state.md R42). -/
def zrom (c : Cfg) : List Int := (List.range 128).map (zromEntry c)

/-- `g_m = ZETA^(2*brv7(m) + 1) mod Q` (41_transform.md R152). -/
def rootG (c : Cfg) (m : Nat) : Int := (zetaPow c (2 * brv7 m + 1) : Int)

/-! ## Signature constants and sizes (44_signature.md R222) -/

/-- `BETA`. -/
def beta (g : SigCfg) : Nat := g.tau * g.seta
/-- `EB`, width of a packed secret coefficient. -/
def secretBits (g : SigCfg) : Nat := bitlen (2 * g.seta)
/-- `T1B`, width of a packed `t1` coefficient. -/
def t1Bits (c : Cfg) (g : SigCfg) : Nat := logq c - g.drop
/-- `ZB`, width of a packed response or mask coefficient. -/
def zBits (g : SigCfg) : Nat := bitlen g.gamma1
/-- `M`, number of high-part values. -/
def highCount (c : Cfg) (g : SigCfg) : Nat := (c.q - 1) / (2 * g.gamma2)
/-- `W1B`, width of a packed commitment coefficient. -/
def w1Bits (c : Cfg) (g : SigCfg) : Nat := bitlen (highCount c g - 1)
/-- `PKB`. -/
def sigPkBytes (c : Cfg) (g : SigCfg) : Nat := 32 + 32 * t1Bits c g * g.sk
/-- `SKB`. -/
def sigSkBytes (g : SigCfg) : Nat := 64 + 32 * secretBits g * (g.sl + g.sk) + 32 * g.drop * g.sk + 32
/-- `SIGB`. -/
def sigBytes (g : SigCfg) : Nat := 32 + 32 * zBits g * g.sl + g.omega + g.sk

/-! ## KEM sizes (45_kem.md R261) -/

/-- `KPKB`. -/
def kemPkBytes (m : KemCfg) : Nat := 32 + 32 * m.dt * m.k
/-- `KSKB`. -/
def kemSkBytes (c : Cfg) (m : KemCfg) : Nat := kemPkBytes m + 32 * logq c * m.k + 64
/-- `CTB`. -/
def ctBytes (m : KemCfg) : Nat := 32 * m.du * m.k + 32 * m.dv

/-! ## Constraints -/

/-- No odd number from `d` on, up to the square root of `q`, divides `q` (`fuel` bounds the search). -/
def noOddDivisor : Nat → Nat → Nat → Bool
  | 0, _, _ => true
  | fuel + 1, d, q => if q < d * d then true else if q % d = 0 then false else noOddDivisor fuel (d + 2) q

/-- An odd prime. -/
def oddPrime (q : Nat) : Bool := decide (3 ≤ q) && decide (q % 2 = 1) && noOddDivisor q 3 q

/-- `lo <= v <= hi`. -/
def within (lo v hi : Nat) : Bool := decide (lo ≤ v) && decide (v ≤ hi)

/-- The constraints on the KEM constants (00_scope.md R8, 45_kem.md R261). -/
def kemValid (c : Cfg) (m : KemCfg) : Bool :=
  List.all
    [within 1 m.k 4, within 2 m.eta 5, within 1 m.dt (logq c - 1), within 1 m.du (logq c - 1), within 1 m.dv (logq c - 1),
      decide (kemPkBytes m ≤ c.bmemSize), decide (kemSkBytes c m ≤ c.bmemSize), decide (ctBytes m ≤ c.bmemSize)] id

/-- The constraints on the signature constants (00_scope.md R8, 44_signature.md R222). -/
def sigValid (c : Cfg) (g : SigCfg) : Bool :=
  List.all
    [within 1 g.sk 7, within 1 g.sl 7, within 2 g.seta 5, within 1 g.tau 63, within 1 g.gamma1 (2 ^ (c.w - 3)),
      decide (g.gamma1 = 2 ^ Nat.log2 g.gamma1), decide (1 ≤ g.gamma2), decide ((c.q - 1) % (2 * g.gamma2) = 0),
      within 1 g.omega 255, within 1 g.drop (logq c - 1), decide (2 * beta g < g.gamma2), decide (c.nonceBytes = 2),
      decide (c.maxSignRetries * g.sl < 2 ^ 16), decide (sigPkBytes c g ≤ c.bmemSize), decide (sigSkBytes g ≤ c.bmemSize),
      decide (sigBytes g ≤ c.bmemSize)] id

/-- The constraints every configuration meets (00_scope.md R8). `ZETA < Q` is DEDUCED (log 16). -/
def cfgValid (c : Cfg) : Bool :=
  List.all
    [decide (c.w = 16) || decide (c.w = 32), oddPrime c.q, decide (c.q % 256 = 1), decide (c.q < 2 ^ (c.w - 2)),
      decide (c.zeta < c.q), decide (zetaPow c 128 = c.q - 1), within 1 c.np 16, decide (c.bmemSize % 4 = 0),
      decide (c.bmemSize ≤ 65536), decide (c.cw = logq c), decide (c.cs = c.cw) || decide (c.cs = 8 * ((c.cw + 7) / 8)),
      decide (24 % c.cs = 0) || decide (c.cs % 8 = 0), within 1 c.nonceBytes 2, within 1 c.blkA 255, within 1 c.blkB 255,
      within 1 c.maxXofBlocks 65535, within 1 c.maxSignRetries 65535, c.kem.all (kemValid c), c.sig.all (sigValid c)] id

end Sys2Proof.Machine
end

