-- ==== Sys2Proof/Machine/Operands.lean ====
section
/-! DEFINITION. Operands: the captured `ARG` values (30_encoding.md R94), the legal field values (R95), and the
checks on buffers (20_memory.md R67, R68). -/

namespace Sys2Proof.Machine

/-- `ARG[k]` as the command in flight captured it, an unsigned 32-bit number (30_encoding.md R94, R96 step 0). -/
def operand (s : State) (k : Nat) : Nat := (s.latch.args.getD k 0).toNat

/-! ## Legal field values (30_encoding.md R95) -/

/-- A slot field is below `NP`. -/
def slotOk (s : State) (k : Nat) : Bool := decide (k < s.cfg.np)

/-- A scalar field is below 4. -/
def scalarOk (n : Nat) : Bool := decide (n < 4)

/-- `XINIT`: `WD` in 0..3. -/
def variantOk (v : Nat) : Bool := decide (v < 4)

/-- `CBD`, `GETNOISE`: `eta` in {2, 3, 4, 5}. -/
def etaOk (eta : Nat) : Bool := within 2 eta 5

/-- `PACK`, `UNPACK`: `d` in `1 .. min(W, 31)`. -/
def packWidthOk (s : State) (d : Nat) : Bool := within 1 d (min s.cfg.w 31)

/-- `COMPRESS`, `DECOMPRESS`: `d` in `1 .. LOGQ-1`. -/
def compressWidthOk (s : State) (d : Nat) : Bool := decide (1 ≤ d) && decide (d < logq s.cfg)

/-- `ZEROIZE`, `SIG_KEYGEN`, `KEM_KEYGEN`, `KEM_ENCAP`: `MODE` in {0, 1}. -/
def twoModes (mode : Nat) : Bool := decide (mode < 2)

/-- `SIG_SIGN`: `MODE` in {0, 1, 2}. -/
def threeModes (mode : Nat) : Bool := decide (mode < 3)

/-- `1 <= n <= 255`, the legal seed lengths. -/
def seedLenOk (n : Nat) : Bool := within 1 n 255

/-- `GETNOISE`: `nonce < 2^(8*NONCEBYTES)`. -/
def nonceOk (s : State) (n : Nat) : Bool := decide (n < 2 ^ (8 * s.cfg.nonceBytes))

/-- `GENUNI`: `nonce < 2^16`. -/
def indexPairOk (n : Nat) : Bool := decide (n < 2 ^ 16)

/-- `REJPARSE`: the coefficient count in is at most 256. -/
def countOk (n : Nat) : Bool := decide (n ≤ ringDegree)

/-! ## Buffers -/

/-- A buffer operand `(a, n)` lies in `B`: `a + n <= BMEM_SIZE` on unbounded integers; a zero-length operand is
always in bounds (20_memory.md R67). -/
def inBuffer (s : State) (a n : Nat) : Bool := decide (n = 0) || decide (a + n ≤ s.cfg.bmemSize)

/-- Two output buffers have no byte in common (20_memory.md R68). -/
def disjoint (a n b m : Nat) : Bool := decide (a + n ≤ b) || decide (b + m ≤ a)

/-- A command's randomness: `Entropy(n)` with `MODE = 0`, `MemRead(a, n)` otherwise (44_signature.md R232, 45_kem.md
R270, R272). -/
def seedInput (mode a n : Nat) (s : State) (k : Bytes → State → Outcome) : Outcome :=
  if mode = 0 then
    let (e, d) := drawEntropy n s.draws
    k e { s with draws := d }
  else reading s a n fun e => k e s

end Sys2Proof.Machine
end

