-- ==== Sys2Proof/Machine/Reducer.lean ====
section
/-! DEFINITION. The reduction functions and the commands of 40_reducer.md: `MRED`, `BRED`, `FQMUL`, `PADD`, `PSUB`,
`PRED`, `PTOMONT`. -/

namespace Sys2Proof.Machine

/-! ## The three reduction functions -/

/-- `montgomery_reduce(a)` (40_reducer.md R121). -/
def montgomeryReduce (c : Cfg) (a : Int) : Int :=
  let t := wrap c.w (a * qinv c)
  let u := (a - t * c.q) / (2 ^ c.w : Nat)
  wrap c.w u

/-- `barrett_reduce(a)`: `a mod Q` (40_reducer.md R122). -/
def barrettReduce (c : Cfg) (a : Int) : Int := a % (c.q : Int)

/-- `fqmul(a, b)` (40_reducer.md R123). -/
def fqmul (c : Cfg) (a b : Int) : Int := montgomeryReduce c (a * b)

/-! ## Scalar commands -/

/-- `MRED sd, sa` (40_reducer.md R124). -/
def execMred (sd sa : Nat) (s : State) : Outcome :=
  if !(scalarOk sd && scalarOk sa) then raised .illegalCmd s else
  finish (setScalar s sd (montgomeryReduce s.cfg (wrap (2 * s.cfg.w) (getScalar s sa))))

/-- `BRED sd, sa` (40_reducer.md R125). -/
def execBred (sd sa : Nat) (s : State) : Outcome :=
  if !(scalarOk sd && scalarOk sa) then raised .illegalCmd s else
  finish (setScalar s sd (barrettReduce s.cfg (wrap s.cfg.w (getScalar s sa))))

/-- `FQMUL sd, sa, sb` (40_reducer.md R126). -/
def execFqmul (sd sa sb : Nat) (s : State) : Outcome :=
  if !(scalarOk sd && scalarOk sa && scalarOk sb) then raised .illegalCmd s else
  finish (setScalar s sd (fqmul s.cfg (wrap s.cfg.w (getScalar s sa)) (wrap s.cfg.w (getScalar s sb))))

/-! ## Coefficient-wise commands (every one may name a source as its destination, R131) -/

/-- A command that writes `P[pd]` from `P[pa]` by the function `f`. -/
def slotUnary (f : Poly → Poly) (pd pa : Nat) (s : State) : Outcome :=
  if !(slotOk s pd && slotOk s pa) then raised .illegalCmd s else
  finish (setSlot s pd (f (getSlot s pa)))

/-- A command that writes `P[pd]` from `P[pa]` and `P[pb]` by the function `f`. -/
def slotBinary (f : Poly → Poly → Poly) (pd pa pb : Nat) (s : State) : Outcome :=
  if !(slotOk s pd && slotOk s pa && slotOk s pb) then raised .illegalCmd s else
  finish (setSlot s pd (f (getSlot s pa) (getSlot s pb)))

/-- Coefficient-wise sum, unreduced (40_reducer.md R127). -/
def polyAdd (f g : Poly) : Poly := List.zipWith (· + ·) f g

/-- Coefficient-wise difference, unreduced (40_reducer.md R128). -/
def polySub (f g : Poly) : Poly := List.zipWith (· - ·) f g

/-- `PADD pd, pa, pb`: the slot write wraps each sum to `W` bits (40_reducer.md R127, decision D6; log 11). -/
def execPadd (pd pa pb : Nat) (s : State) : Outcome := slotBinary polyAdd pd pa pb s

/-- `PSUB pd, pa, pb` (40_reducer.md R128; log 11). -/
def execPsub (pd pa pb : Nat) (s : State) : Outcome := slotBinary polySub pd pa pb s

/-- `PRED pd, pa` (40_reducer.md R129). -/
def execPred (pd pa : Nat) (s : State) : Outcome := slotUnary (fun f => f.map (barrettReduce s.cfg)) pd pa s

/-- `PTOMONT pd, pa` (40_reducer.md R130). -/
def execPtomont (pd pa : Nat) (s : State) : Outcome :=
  slotUnary (fun f => f.map (fun x => fqmul s.cfg x (montR2 s.cfg))) pd pa s

end Sys2Proof.Machine
end

