-- ==== Sys2Proof/Machine/Codec.lean ====
section
/-! DEFINITION. Serialization and compression (43_codec.md): `PACK`, `UNPACK`, `COMPRESS`, `DECOMPRESS`. -/

namespace Sys2Proof.Machine

/-! ## The bit layout (43_codec.md R200) -/

/-- `sum over i of c[i] * 2^(d*i)`, of the low `d` bits of each coefficient (43_codec.md R200, R201). -/
def packNat (d : Nat) (f : Poly) : Nat :=
  f.foldr (fun (x : Int) acc => (x % ((2 ^ d : Nat) : Int)).toNat + 2 ^ d * acc) 0

/-- `pack_d(c)`: `32*d` bytes (43_codec.md R200). -/
def packBytes (d : Nat) (f : Poly) : Bytes := leBytes (32 * d) (packNat d f)

/-- Code `i` of a packed number: `(v >> (d*i)) mod 2^d` (43_codec.md R200). -/
def codeAt (d v i : Nat) : Nat := (v >>> (d * i)) % 2 ^ d

/-- `unpack_d(S)`: 256 unsigned codes (43_codec.md R200). -/
def unpackBytes (d : Nat) (bs : Bytes) : Poly :=
  (List.range ringDegree).map (fun i => (codeAt d (intLe bs) i : Int))

/-- The packed polynomials of a vector one after another, element 0 first (43_codec.md R209). -/
def packVec (d : Nat) (v : List Poly) : Bytes := v.flatMap (packBytes d)

/-- `n` polynomials of `32*d` bytes each, from byte `off` of a string (43_codec.md R209). -/
def unpackVec (d n : Nat) (bs : Bytes) (off : Nat) : List Poly :=
  (List.range n).map (fun i => unpackBytes d (slice bs (off + 32 * d * i) (off + 32 * d * (i + 1))))

/-! ## The compression functions (43_codec.md R203) -/

/-- `compress_d(x)` (43_codec.md R203). -/
def compressCoeff (c : Cfg) (d : Nat) (x : Int) : Int :=
  ((x % (c.q : Int)) * (2 ^ d : Nat) + (c.q - 1) / 2) / c.q % (2 ^ d : Nat)

/-- `decompress_d(c)` (43_codec.md R203). -/
def decompressCoeff (c : Cfg) (d : Nat) (x : Int) : Int :=
  ((x % (2 ^ d : Nat)) * c.q + (2 ^ (d - 1) : Nat)) / (2 ^ d : Nat)

/-- `compress_d` of every coefficient. -/
def compressPoly (c : Cfg) (d : Nat) (f : Poly) : Poly := f.map (compressCoeff c d)

/-- `decompress_d` of every coefficient. -/
def decompressPoly (c : Cfg) (d : Nat) (f : Poly) : Poly := f.map (decompressCoeff c d)

/-! ## Commands -/

/-- `PACK pa, d, @dst` (43_codec.md R201). -/
def execPack (pa d : Nat) (s : State) : Outcome :=
  if !(slotOk s pa && packWidthOk s d) then raised .illegalCmd s else
  if !inBuffer s (operand s 0) (32 * d) then raised .addr s else
  finish (memWrite s (operand s 0) (32 * d) (packBytes d (getSlot s pa)))

/-- `UNPACK pd, d, @src` (43_codec.md R202); the slot write's `wrap_W` matters only at `d = W`. -/
def execUnpack (pd d : Nat) (s : State) : Outcome :=
  if !(slotOk s pd && packWidthOk s d) then raised .illegalCmd s else
  if !inBuffer s (operand s 0) (32 * d) then raised .addr s else
  reading s (operand s 0) (32 * d) fun bs => finish (setSlot s pd (unpackBytes d bs))

/-- `COMPRESS pd, pa, d` (43_codec.md R204). -/
def execCompress (pd pa d : Nat) (s : State) : Outcome :=
  if !compressWidthOk s d then raised .illegalCmd s else slotUnary (compressPoly s.cfg d) pd pa s

/-- `DECOMPRESS pd, pa, d` (43_codec.md R205). -/
def execDecompress (pd pa d : Nat) (s : State) : Outcome :=
  if !compressWidthOk s d then raised .illegalCmd s else slotUnary (decompressPoly s.cfg d) pd pa s

end Sys2Proof.Machine
end

