-- ==== Sys2Proof/Machine/Keccak.lean ====
section
/-! DEFINITION. The sponge over Keccak-f[1600] of the reference hash suite (47_hash_suite_reference.md R300 to R304). -/

namespace Sys2Proof.Machine

/-- The 25 lanes as five rows: row `y` holds `A[0][y] … A[4][y]` (47_hash_suite_reference.md R301). -/
abbrev Lanes := List (List Word64)

/-- Rotation offsets: row `y` holds `ROT[0][y] … ROT[4][y]` (47_hash_suite_reference.md R303). -/
def rotationOffsets : List (List Nat) :=
  [[0, 1, 62, 28, 27],
   [36, 44, 6, 55, 20],
   [3, 10, 43, 25, 39],
   [41, 45, 15, 21, 8],
   [18, 2, 61, 56, 14]]

/-- `RC[0..23]` (47_hash_suite_reference.md R303). -/
def roundConstants : List Word64 :=
  [0x0000000000000001, 0x0000000000008082, 0x800000000000808A, 0x8000000080008000,
   0x000000000000808B, 0x0000000080000001, 0x8000000080008081, 0x8000000000008009,
   0x000000000000008A, 0x0000000000000088, 0x0000000080008009, 0x000000008000000A]
  ++
  [0x000000008000808B, 0x800000000000008B, 0x8000000000008089, 0x8000000000008003,
   0x8000000000008002, 0x8000000000000080, 0x000000000000800A, 0x800000008000000A,
   0x8000000080008081, 0x8000000000008080, 0x0000000080000001, 0x8000000080008008]

/-- `rol(v, n)` (47_hash_suite_reference.md R301). -/
def rol (v : Word64) (n : Nat) : Word64 := v.rotateLeft n

/-- Lane-wise exclusive or of two rows. -/
def xorRow (r t : List Word64) : List Word64 := List.zipWith (· ^^^ ·) r t

/-- A row seen from position `n`: element `x` of the result is element `(x + n) mod 5`. -/
def turnRow (n : Nat) (r : List Word64) : List Word64 := r.drop n ++ r.take n

/-- The `C` of theta: the parity of each column. -/
def columnParity (a : Lanes) : List Word64 := a.foldl xorRow [0, 0, 0, 0, 0]

/-- theta (47_hash_suite_reference.md R302): `D[x] = C[x-1] xor rol(C[x+1], 1)`. -/
def theta (a : Lanes) : Lanes :=
  let c := columnParity a
  let d := xorRow (turnRow 4 c) ((turnRow 1 c).map (rol · 1))
  a.map (fun row => xorRow row d)

/-- rho: every lane rotated by its offset. -/
def rho (a : Lanes) : Lanes := List.zipWith (fun row offs => List.zipWith rol row offs) a rotationOffsets

/-- pi: `B[y][(2x + 3y) mod 5] = A[x][y]`; so lane `(X, Y)` of the result is lane `((X + 3Y) mod 5, X)` of `a`. -/
def lanePi (a : Lanes) : Lanes :=
  (List.range 5).map (fun yy => (List.range 5).map (fun xx => (a.getD xx []).getD ((xx + 3 * yy) % 5) 0))

/-- chi on one row: `B[x] xor ((not B[x+1]) and B[x+2])`. -/
def chiRow (row : List Word64) : List Word64 :=
  xorRow row (List.zipWith (fun u v => ~~~u &&& v) (turnRow 1 row) (turnRow 2 row))

/-- iota: the round constant into lane `(0, 0)`. -/
def iota (rc : Word64) : Lanes → Lanes
  | (l :: row) :: rest => ((l ^^^ rc) :: row) :: rest
  | a => a

/-- One round (47_hash_suite_reference.md R302). -/
def keccakRound (a : Lanes) (rc : Word64) : Lanes := iota rc ((lanePi (rho (theta a))).map chiRow)

/-- Keccak-f[1600] (47_hash_suite_reference.md R302). -/
def keccakF (a : Lanes) : Lanes := roundConstants.foldl keccakRound a

/-- The 200 zero bytes. -/
def zeroLanes : Lanes := List.replicate 5 (List.replicate 5 0)

/-- The 200 state bytes: lane `A[x][y]` holds bytes `8*(x+5y) …`, least significant first (R301). -/
def laneBytes (a : Lanes) : Bytes := a.flatten.flatMap (fun l => leBytes 8 l.toNat)

/-- The lanes of (at most) 200 state bytes, zero bytes beyond. -/
def lanesOf (bs : Bytes) : Lanes :=
  (List.range 5).map (fun y => (List.range 5).map (fun x =>
    BitVec.ofNat 64 (intLe ((bs.drop (8 * (x + 5 * y))).take 8))))

/-- The padded message for rate `r` and suffix byte `sfx` (47_hash_suite_reference.md R304). -/
def spongePad (r : Nat) (sfx : Byte) (m : Bytes) : Bytes :=
  let total := (m.length / r + 1) * r
  let p := m ++ sfx :: List.replicate (total - (m.length + 1)) 0
  p.modify (total - 1) (· ^^^ 0x80)

/-- Absorb one block: `state[0:r] xor b`, then the permutation. -/
def absorbBlock (a : Lanes) (block : Bytes) : Lanes :=
  keccakF (List.zipWith xorRow a (lanesOf block))

/-- The `r`-byte blocks of a padded message. -/
def spongeBlocks (r : Nat) (p : Bytes) : List Bytes :=
  (List.range (p.length / r)).map (fun i => (p.drop (r * i)).take r)

/-- The state after absorbing `m`. -/
def absorbAll (r : Nat) (sfx : Byte) (m : Bytes) : Lanes :=
  (spongeBlocks r (spongePad r sfx m)).foldl absorbBlock zeroLanes

/-- `k` output blocks of `r` bytes, the permutation between two of them. -/
def squeezeBlocks (r : Nat) : Nat → Lanes → Bytes
  | 0, _ => []
  | 1, a => (laneBytes a).take r
  | k + 2, a => (laneBytes a).take r ++ squeezeBlocks r (k + 1) (keccakF a)

/-- The first `n` bytes of the sponge's output stream (47_hash_suite_reference.md R304). -/
def spongeBytes (r : Nat) (sfx : Byte) (m : Bytes) (n : Nat) : Bytes :=
  (squeezeBlocks r ((n + r - 1) / r) (absorbAll r sfx m)).take n

end Sys2Proof.Machine
end

