-- ==== Sys2Proof/Machine/Hash.lean ====
section
/-! DEFINITION. The four functions of `Cfg.Hash` (42_sampler.md R170), for each suite of Config.lean (log 9). Streams are
given by their finite beginnings: `xofaBytes suite m n` is `XOFA(m)[0:n]`. -/

namespace Sys2Proof.Machine

/-- The first `n` bytes of the stream whose byte `k` is `f k`. -/
def streamOf (f : Nat → Byte) (n : Nat) : Bytes := (List.range n).map f

/-- `XOFA(m)[0:n]` (42_sampler.md R170; SHAKE128 in the reference suite, 47_hash_suite_reference.md R300). -/
def xofaBytes (suite : HashSuite) (m : Bytes) (n : Nat) : Bytes :=
  match suite with
  | .keccak => spongeBytes 168 0x1F m n
  | .constant b => List.replicate n b
  | .other k => streamOf (Config.otherXofa k m) n

/-- `XOFB(m)[0:n]` (42_sampler.md R170; SHAKE256 in the reference suite). -/
def xofbBytes (suite : HashSuite) (m : Bytes) (n : Nat) : Bytes :=
  match suite with
  | .keccak => spongeBytes 136 0x1F m n
  | .constant b => List.replicate n b
  | .other k => streamOf (Config.otherXofb k m) n

/-- `H(m)`, 32 bytes (42_sampler.md R170; SHA3-256 in the reference suite). -/
def hashH (suite : HashSuite) (m : Bytes) : Bytes :=
  match suite with
  | .keccak => spongeBytes 136 0x06 m 32
  | .constant b => List.replicate 32 b
  | .other k => streamOf (Config.otherH k m) 32

/-- `G(m)`, 64 bytes (42_sampler.md R170; SHA3-512 in the reference suite). -/
def hashG (suite : HashSuite) (m : Bytes) : Bytes :=
  match suite with
  | .keccak => spongeBytes 72 0x06 m 64
  | .constant b => List.replicate 64 b
  | .other k => streamOf (Config.otherG k m) 64

end Sys2Proof.Machine
end

