-- ==== Sys2Proof/Machine/Sampler.lean ====
section
/-! DEFINITION. The samplers (42_sampler.md): `XINIT`, `XABSORB`, `XSQUEEZE`, `CBD`, `GETNOISE`, `REJPARSE`, `GENUNI`,
`CHALLENGE`. -/

namespace Sys2Proof.Machine

/-! ## The XOF unit -/

/-- The variant numbered `v` (42_sampler.md R172, R173). -/
def variantOf (v : Nat) : XofVariant :=
  match v with
  | 0 => .xofa
  | 1 => .xofb
  | 2 => .h
  | _ => .g

/-- The limit of a variant's stream; absent where it is unbounded (42_sampler.md R172). -/
def xofLimit : XofVariant → Option Nat
  | .xofa => none
  | .xofb => none
  | .h => some 32
  | .g => some 64

/-- `S[0:n]` of the XOF unit's stream (42_sampler.md R172). -/
def xofStream (suite : HashSuite) (x : Xof) (n : Nat) : Bytes :=
  match x.variant with
  | .xofa => xofaBytes suite x.absorbed n
  | .xofb => xofbBytes suite x.absorbed n
  | .h => (hashH suite x.absorbed).take n
  | .g => (hashG suite x.absorbed).take n

/-- `XINIT v` (42_sampler.md R173). -/
def execXinit (v : Nat) (s : State) : Outcome :=
  if !variantOk v then raised .illegalCmd s else
  finish { s with xof := some { variant := variantOf v, absorbed := [], pos := 0, squeezing := false } }

/-- `XABSORB @src, n` (42_sampler.md R174). -/
def execXabsorb (s : State) : Outcome :=
  match s.xof with
  | none => raised .xofSeq s
  | some x =>
    if x.squeezing then raised .xofSeq s else
    if !inBuffer s (operand s 0) (operand s 1) then raised .addr s else
    reading s (operand s 0) (operand s 1) fun bs =>
      finish { s with xof := some { x with absorbed := x.absorbed ++ bs } }

/-- Whether `n` more bytes stay within the variant's limit (42_sampler.md R175). -/
def withinLimit (x : Xof) (n : Nat) : Bool :=
  match xofLimit x.variant with
  | none => true
  | some lim => decide (x.pos + n ≤ lim)

/-- `XSQUEEZE @dst, n` (42_sampler.md R175). -/
def execXsqueeze (s : State) : Outcome :=
  match s.xof with
  | none => raised .xofSeq s
  | some x =>
    if !withinLimit x (operand s 1) then raised .xofSeq s else
    if !inBuffer s (operand s 0) (operand s 1) then raised .addr s else
    finish
      { memWrite s (operand s 0) (operand s 1)
          (slice (xofStream s.cfg.hash x (x.pos + operand s 1)) x.pos (x.pos + operand s 1)) with
        xof := some { x with pos := x.pos + operand s 1, squeezing := true } }

/-! ## Centered binomial sampling (42_sampler.md R177) -/

/-- Hamming weight of the `eta` bits of `v` from bit `k`. -/
def bitWeight (v k eta : Nat) : Nat := ((List.range eta).map (fun t => bitOf v (k + t))).sum

/-- Coefficient `i` of `cbd`: weight of the first half less weight of the second. -/
def cbdCoeff (v eta i : Nat) : Int := (bitWeight v (2 * eta * i) eta : Int) - bitWeight v (2 * eta * i + eta) eta

/-- `cbd(buf, eta)` (42_sampler.md R177). -/
def cbdPoly (buf : Bytes) (eta : Nat) : Poly := (List.range ringDegree).map (cbdCoeff (intLe buf) eta)

/-- `CBD pd, eta, @src` (42_sampler.md R178). -/
def execCbd (pd eta : Nat) (s : State) : Outcome :=
  if !(etaOk eta && slotOk s pd) then raised .illegalCmd s else
  if !inBuffer s (operand s 0) (64 * eta) then raised .addr s else
  reading s (operand s 0) (64 * eta) fun bs => finish (setSlot s pd (cbdPoly bs eta))

/-- The noise polynomial of a seed and a nonce of `nb` bytes (42_sampler.md R179). -/
def noisePoly (suite : HashSuite) (nb : Nat) (seed : Bytes) (nonce eta : Nat) : Poly :=
  cbdPoly (xofbBytes suite (seed ++ leBytes nb nonce) (64 * eta)) eta

/-- `GETNOISE pd, eta, @seed, nonce, seedlen` (42_sampler.md R179). -/
def execGetnoise (pd eta : Nat) (s : State) : Outcome :=
  if !(etaOk eta && slotOk s pd && nonceOk s (operand s 1) && seedLenOk (operand s 2)) then raised .illegalCmd s else
  if !inBuffer s (operand s 0) (operand s 2) then raised .addr s else
  reading s (operand s 0) (operand s 2) fun seed =>
    finish (dropXof (setSlot s pd (noisePoly s.cfg.hash s.cfg.nonceBytes seed (operand s 1) eta)))

/-! ## Uniform rejection sampling (42_sampler.md R180) -/

/-- The scan of `rej`: at most `fuel` chunks, the next one starting at bit `off` of `bs`, while fewer than 256
coefficients are there. Answers the accepted values in order and the chunks scanned. -/
def rejScan (c : Cfg) : Nat → Bytes → Nat → Nat → List Int × Nat
  | 0, _, _, _ => ([], 0)
  | fuel + 1, bs, off, ctr =>
    if ctr < ringDegree then
      let v := (intLe (bs.take ((off + c.cs + 7) / 8)) >>> off) % 2 ^ c.cw
      let rest := bs.drop ((off + c.cs) / 8)
      if v < c.q then
        let (f, n) := rejScan c fuel rest ((off + c.cs) % 8) (ctr + 1)
        ((v : Int) :: f, n + 1)
      else
        let (f, n) := rejScan c fuel rest ((off + c.cs) % 8) ctr
        (f, n + 1)
    else ([], 0)

/-- `rej(buf, ctr0, f)` (42_sampler.md R180): the values for `f[ctr0], f[ctr0+1], …` and the chunks scanned. -/
def rejChunks (c : Cfg) (buf : Bytes) (ctr0 : Nat) : List Int × Nat :=
  rejScan c (8 * buf.length / c.cs) buf 0 ctr0

/-- `P[i] <- v_i` for `ctr0 <= i < ctr0 + |vs|`, other coefficients kept. -/
def overwriteFrom (f : Poly) (ctr0 : Nat) (vs : List Int) : Poly :=
  f.take ctr0 ++ vs ++ f.drop (ctr0 + vs.length)

/-- `REJPARSE pd, @src, n, ctr0` (42_sampler.md R181). -/
def execRejparse (pd : Nat) (s : State) : Outcome :=
  if !(slotOk s pd && countOk (operand s 2)) then raised .illegalCmd s else
  if !inBuffer s (operand s 0) (operand s 1) then raised .addr s else
  reading s (operand s 0) (operand s 1) fun bs =>
    let vs := (rejChunks s.cfg bs (operand s 2)).1
    finish (setResult (setSlot s pd (overwriteFrom (getSlot s pd) (operand s 2) vs)) (operand s 2 + vs.length))

/-- The uniform polynomial of a seed and an index pair, with the chunks scanned; absent where the stream's cap
`MAX_XOF_BLOCKS * BLK_A` is used up (42_sampler.md R182). -/
def uniformPoly (c : Cfg) (seed : Bytes) (x y : Nat) : Option (Poly × Nat) :=
  let r := rejChunks c (xofaBytes c.hash (seed ++ leBytes 1 x ++ leBytes 1 y) (c.maxXofBlocks * c.blkA)) 0
  if r.1.length < ringDegree then none else some r

/-- `GENUNI pd, @seed, nonce, seedlen` (42_sampler.md R182). -/
def execGenuni (pd : Nat) (s : State) : Outcome :=
  if !(slotOk s pd && indexPairOk (operand s 1) && seedLenOk (operand s 2)) then raised .illegalCmd s else
  if !inBuffer s (operand s 0) (operand s 2) then raised .addr s else
  reading s (operand s 0) (operand s 2) fun seed =>
    match uniformPoly s.cfg seed (operand s 1 % 256) (operand s 1 / 256) with
    | none => .next (raiseFatal s)
    | some (f, n) => finish (dropXof (setResult (setSlot s pd f) ((s.cfg.cs * n + 7) / 8)))

/-- A matrix of `rows * cols` transform-order elements, `Ahat[i][j] = uni(rho, x = j, y = i)` (44_signature.md R230,
45_kem.md R263); absent where one element's stream is used up. -/
def expandMatrix (c : Cfg) (rho : Bytes) (rows cols : Nat) : Option (List (List Poly)) :=
  (List.range rows).mapM fun i => (List.range cols).mapM fun j => (uniformPoly c rho j i).map Prod.fst

/-! ## Challenge sampling (42_sampler.md R183) -/

/-- Draw stream bytes until one is at most `i`; the rest of the stream and the bytes drawn with it. -/
def drawIndex (i : Nat) : Bytes → Option (Nat × Bytes × Nat)
  | [] => none
  | b :: rest =>
    if b.toNat ≤ i then some (b.toNat, rest, 1)
    else
      match drawIndex i rest with
      | none => none
      | some (v, r, n) => some (v, r, n + 1)

/-- The loop of `sample_in_ball` over the positions `i`: `c[i] = c[b]`, `c[b] = 1 - 2 * (signs mod 2)`. -/
def ballLoop : List Nat → Bytes → Poly → Nat → Nat → Option (Poly × Nat)
  | [], _, f, _, pos => some (f, pos)
  | i :: is, bs, f, signs, pos =>
    match drawIndex i bs with
    | none => none
    | some (b, rest, n) =>
      ballLoop is rest ((f.set i (f.getD b 0)).set b (1 - 2 * ((signs % 2 : Nat) : Int))) (signs >>> 1) (pos + n)

/-- `sample_in_ball(seed)` for weight `tau`: the polynomial and the stream bytes consumed; absent where the cap
`MAX_XOF_BLOCKS * BLK_B` is used up (42_sampler.md R183). The 8 sign bytes are read whatever the cap. -/
def sampleInBall (c : Cfg) (tau : Nat) (seed : Bytes) : Option (Poly × Nat) :=
  let stream := xofbBytes c.hash seed (max 8 (c.maxXofBlocks * c.blkB))
  ballLoop ((List.range tau).map (fun k => 256 - tau + k)) (stream.drop 8) zeroPoly (intLe (stream.take 8)) 8

/-- `CHALLENGE pd, @seed, seedlen` (42_sampler.md R184); illegal where `HAS_SIG = 0`. -/
def execChallenge (pd : Nat) (s : State) : Outcome :=
  match s.cfg.sig with
  | none => raised .illegalCmd s
  | some g =>
    if !(slotOk s pd && seedLenOk (operand s 1)) then raised .illegalCmd s else
    if !inBuffer s (operand s 0) (operand s 1) then raised .addr s else
    reading s (operand s 0) (operand s 1) fun seed =>
      match sampleInBall s.cfg g.tau seed with
      | none => .next (raiseFatal s)
      | some (f, pos) => finish (dropXof (setResult (setSlot s pd f) pos))

end Sys2Proof.Machine
end

