-- ==== Sys2Proof/Machine/Transform.lean ====
section
/-! DEFINITION. The transform engine (41_transform.md): the butterfly networks, `NTT`, `INTT`, `BASEMUL`, and the same
networks on exact residues, which the protocol commands use (44_signature.md R223). -/

namespace Sys2Proof.Machine

/-! ## The butterfly networks (41_transform.md R153: seven stages, half-distances 128 to 2) -/

/-- The twiddles of the stage of half-distance `len`: entries `128/len … 2*(128/len) - 1` of a table, the values that
`k` runs through in that stage of R154. -/
def stageTwiddles (table : List Int) (len : Nat) : List Int := (table.drop (128 / len)).take (128 / len)

/-- One block of a forward stage: `t = mul zeta r[j+len]`, `r[j+len] = red (r[j] - t)`, `r[j] = red (r[j] + t)`
(41_transform.md R154). -/
def forwardBlock (mul : Int → Int → Int) (red : Int → Int) (zeta : Int) (lo hi : Poly) : Poly :=
  let t := hi.map (mul zeta)
  List.zipWith (fun x y => red (x + y)) lo t ++ List.zipWith (fun x y => red (x - y)) lo t

/-- One forward stage: successive blocks of `2*len` coefficients, one twiddle each. -/
def forwardStage (mul : Int → Int → Int) (red : Int → Int) (len : Nat) : List Int → Poly → Poly
  | [], r => r
  | zeta :: zs, r =>
    forwardBlock mul red zeta (r.take len) ((r.drop len).take len) ++ forwardStage mul red len zs (r.drop (2 * len))

/-- The forward network (41_transform.md R154). -/
def forwardNetwork (mul : Int → Int → Int) (red : Int → Int) (table : List Int) (r : Poly) : Poly :=
  [128, 64, 32, 16, 8, 4, 2].foldl (fun r len => forwardStage mul red len (stageTwiddles table len) r) r

/-- One block of an inverse stage: `t = r[j]`, `r[j] = sum (t + r[j+len])`, `r[j+len] = mul zeta (red (r[j+len] - t))`
(41_transform.md R155). -/
def inverseBlock (mul : Int → Int → Int) (red sum : Int → Int) (zeta : Int) (lo hi : Poly) : Poly :=
  List.zipWith (fun x y => sum (red (x + y))) lo hi ++ List.zipWith (fun x y => mul zeta (red (y - x))) lo hi

/-- One inverse stage. -/
def inverseStage (mul : Int → Int → Int) (red sum : Int → Int) (len : Nat) : List Int → Poly → Poly
  | [], r => r
  | zeta :: zs, r =>
    inverseBlock mul red sum zeta (r.take len) ((r.drop len).take len)
      ++ inverseStage mul red sum len zs (r.drop (2 * len))

/-- The inverse network without its final factor; `k` runs downward, so each stage takes its twiddles in reverse
(41_transform.md R155). -/
def inverseNetwork (mul : Int → Int → Int) (red sum : Int → Int) (table : List Int) (r : Poly) : Poly :=
  [2, 4, 8, 16, 32, 64, 128].foldl
    (fun r len => inverseStage mul red sum len (stageTwiddles table len).reverse r) r

/-! ## Pairs -/

/-- Products of corresponding pairs; `pair z a0 a1 b0 b1` is one product and the list gives one `z` a pair. -/
def pairwiseProducts (pair : Int → Int → Int → Int → Int → Int × Int) : List Int → Poly → Poly → Poly
  | z :: zs, a0 :: a1 :: as, b0 :: b1 :: bs =>
    (pair z a0 a1 b0 b1).1 :: (pair z a0 a1 b0 b1).2 :: pairwiseProducts pair zs as bs
  | _, _, _ => []

/-- The twiddle of each of the 128 pairs: `ZROM[64+i]` for pair `2i`, `-ZROM[64+i]` for pair `2i+1`
(41_transform.md R156). -/
def pairTwiddles (table : List Int) : List Int := (table.drop 64).flatMap (fun z => [z, -z])

/-! ## The engine's functions -/

/-- The forward transform as the engine computes it (41_transform.md R154). -/
def nttPoly (c : Cfg) (f : Poly) : Poly := forwardNetwork (fqmul c) (wrap c.w) (zrom c) f

/-- The inverse transform as the engine computes it (41_transform.md R155). -/
def inttPoly (c : Cfg) (f : Poly) : Poly :=
  (inverseNetwork (fqmul c) (wrap c.w) (barrettReduce c) (zrom c) f).map (fun x => fqmul c x (finalF c))

/-- One pair product as the engine computes it (41_transform.md R156). For small inputs its first part can pass the output
bound that R158 derives; the pseudocode is followed (DEDUCED, log 24). -/
def basemulPair (c : Cfg) (z a0 a1 b0 b1 : Int) : Int × Int :=
  (wrap c.w (fqmul c (fqmul c a1 b1) z + fqmul c a0 b0), wrap c.w (fqmul c a0 b1 + fqmul c a1 b0))

/-- Base multiplication as the engine computes it (41_transform.md R156). -/
def basemulPoly (c : Cfg) (f g : Poly) : Poly := pairwiseProducts (basemulPair c) (pairTwiddles (zrom c)) f g

/-- `NTT pd, pa` (41_transform.md R154). -/
def execNtt (pd pa : Nat) (s : State) : Outcome := slotUnary (nttPoly s.cfg) pd pa s

/-- `INTT pd, pa` (41_transform.md R155). -/
def execIntt (pd pa : Nat) (s : State) : Outcome := slotUnary (inttPoly s.cfg) pd pa s

/-- `BASEMUL pd, pa, pb` (41_transform.md R156). -/
def execBasemul (pd pa pb : Nat) (s : State) : Outcome := slotBinary (basemulPoly s.cfg) pd pa pb s

/-! ## Exact residues (44_signature.md R223: "the residues are exact"; log 17)

The same networks with multiplication modulo `Q` in place of `fqmul` and with plain powers of `ZETA` in place of their
Montgomery forms. Every result is canonical. -/

/-- The table `ZETA^brv7(i) mod Q`. -/
def zetaTable (c : Cfg) : List Int := (List.range 128).map (fun i => (zetaPow c (brv7 i) : Int))

/-- Multiplication modulo `Q`. -/
def mulMod (c : Cfg) (x y : Int) : Int := x * y % (c.q : Int)

/-- `tr(f)`: the transform of 41_transform.md R152, canonical. -/
def exactNtt (c : Cfg) (f : Poly) : Poly :=
  forwardNetwork (mulMod c) (· % (c.q : Int)) (zetaTable c) (canon c.q f)

/-- `itr(f)`: the inverse of `exactNtt`, canonical. -/
def exactIntt (c : Cfg) (f : Poly) : Poly :=
  (inverseNetwork (mulMod c) (· % (c.q : Int)) id (zetaTable c) (canon c.q f)).map (mulMod c (inv128 c))

/-- One product modulo `X^2 - g` and `Q` (41_transform.md R156). -/
def exactPair (c : Cfg) (g a0 a1 b0 b1 : Int) : Int × Int :=
  ((a1 * b1 * g + a0 * b0) % (c.q : Int), (a0 * b1 + a1 * b0) % (c.q : Int))

/-- `f o g`: the pair product of two transform-order elements modulo `X^2 - g_m` (44_signature.md R223). -/
def exactPairs (c : Cfg) (f g : Poly) : Poly :=
  pairwiseProducts (exactPair c) ((List.range 128).map (rootG c)) f g

/-- The sum of two residue polynomials modulo `Q`. -/
def addMod (c : Cfg) (f g : Poly) : Poly := canon c.q (polyAdd f g)

/-- `sum over i of a[i] o b[i]` of two vectors of transform-order elements (45_kem.md R262). -/
def exactDot (c : Cfg) (a b : List Poly) : Poly :=
  (List.zipWith (exactPairs c) a b).foldl (addMod c) zeroPoly

/-- `A*v` for the matrix `Ahat` of transform-order elements and the vector `v` of normal-order polynomials
(44_signature.md R223). -/
def matTimes (c : Cfg) (ahat : List (List Poly)) (v : List Poly) : List Poly :=
  let vhat := v.map (exactNtt c)
  ahat.map (fun row => exactIntt c (exactDot c row vhat))

/-- `f * g` in `Rq`, canonical (00_scope.md R16). -/
def ringMul (c : Cfg) (f g : Poly) : Poly := exactIntt c (exactPairs c (exactNtt c f) (exactNtt c g))

end Sys2Proof.Machine
end

