-- ==== Sys2Proof/Machine/Kem.lean ====
section
/-! DEFINITION. The KEM protocol (45_kem.md): `KEM_KEYGEN`, `KEM_ENCAP`, `KEM_DECAP`. -/

namespace Sys2Proof.Machine

/-! ## The internal public-key-encryption primitive -/

/-- `noise(seed, n)` of the KEM (45_kem.md R262). -/
def kemNoise (c : Cfg) (m : KemCfg) (seed : Bytes) (n : Nat) : Poly := noisePoly c.hash c.nonceBytes seed n m.eta

/-- The rows of the transpose of a square matrix (45_kem.md R263). -/
def transpose (n : Nat) (a : List (List Poly)) : List (List Poly) :=
  (List.range n).map (fun i => a.map (fun row => row.getD i zeroPoly))

/-- `msgdec(m)` (45_kem.md R262, 43_codec.md R211). -/
def msgDec (c : Cfg) (msg : Bytes) : Poly := decompressPoly c 1 (unpackBytes 1 msg)

/-- `msgenc(f)` (45_kem.md R262, 43_codec.md R211). -/
def msgEnc (c : Cfg) (f : Poly) : Bytes := packBytes 1 (compressPoly c 1 f)

/-- `pke_keygen(d) = (pk, skpke)` (45_kem.md R266); absent where matrix expansion is exhausted. -/
def pkeKeygen (c : Cfg) (m : KemCfg) (d : Bytes) : Option (Bytes × Bytes) :=
  let seeds := hashG c.hash d
  let rho := slice seeds 0 32
  let sigma := slice seeds 32 64
  match expandMatrix c rho m.k m.k with
  | none => none
  | some ahat =>
    let sv := (List.range m.k).map (fun i => kemNoise c m sigma i)
    let ev := (List.range m.k).map (fun i => kemNoise c m sigma (m.k + i))
    let t := List.zipWith (addMod c) (matTimes c ahat sv) ev
    some (rho ++ packVec m.dt (t.map (compressPoly c m.dt)), packVec (logq c) (sv.map (exactNtt c)))

/-- `pke_enc(pk, m, coins)` (45_kem.md R267); absent where matrix expansion is exhausted. -/
def pkeEnc (c : Cfg) (m : KemCfg) (pk msg coins : Bytes) : Option Bytes :=
  let rho := slice pk 0 32
  let t := (unpackVec m.dt m.k pk 32).map (decompressPoly c m.dt)
  match expandMatrix c rho m.k m.k with
  | none => none
  | some ahat =>
    let rv := (List.range m.k).map (fun i => kemNoise c m coins i)
    let e1 := (List.range m.k).map (fun i => kemNoise c m coins (m.k + i))
    let e2 := kemNoise c m coins (2 * m.k)
    let u := List.zipWith (addMod c) (matTimes c (transpose m.k ahat) rv) e1
    let tr := exactIntt c (exactDot c (t.map (exactNtt c)) (rv.map (exactNtt c)))
    let v := addMod c (addMod c tr e2) (msgDec c msg)
    some (packVec m.du (u.map (compressPoly c m.du)) ++ packBytes m.dv (compressPoly c m.dv v))

/-- `pke_dec(skpke, ct)` (45_kem.md R268). -/
def pkeDec (c : Cfg) (m : KemCfg) (skpke ct : Bytes) : Bytes :=
  let u := (unpackVec m.du m.k ct 0).map (decompressPoly c m.du)
  let v := decompressPoly c m.dv (unpackBytes m.dv (slice ct (32 * m.du * m.k) (ctBytes m)))
  let shat := unpackVec (logq c) m.k skpke 0
  msgEnc c (canon c.q (polySub v (exactIntt c (exactDot c shat (u.map (exactNtt c))))))

/-! ## Commands -/

/-- The key pair of the seeds `d` and `z` (45_kem.md R269, R270). -/
def kemKeyPair (c : Cfg) (m : KemCfg) (d z : Bytes) : Option (Bytes × Bytes) :=
  match pkeKeygen c m d with
  | none => none
  | some (pk, skpke) => some (pk, pk ++ skpke ++ hashH c.hash pk ++ z)

/-- `KEM_KEYGEN` (45_kem.md R270). With `MODE = 0` two draws, first `d`, then `z`. -/
def execKemKeygen (mode : Nat) (s : State) : Outcome :=
  match s.cfg.kem with
  | none => raised .illegalCmd s
  | some m =>
    let pkb := kemPkBytes m
    let skb := kemSkBytes s.cfg m
    if !twoModes mode then raised .illegalCmd s else
    if !(inBuffer s (operand s 0) pkb && inBuffer s (operand s 1) skb
        && (decide (mode = 0) || inBuffer s (operand s 2) 64)
        && disjoint (operand s 0) pkb (operand s 1) skb) then raised .addr s else
    seedInput mode (operand s 2) 32 s fun d s =>
      seedInput mode (operand s 2 + 32) 32 s fun z s =>
        match kemKeyPair s.cfg m d z with
        | none => .next (raiseFatal s)
        | some (pk, sk) => finishProtocol (memWrite (memWrite s (operand s 0) pkb pk) (operand s 1) skb sk)

/-- The ciphertext and the shared secret for the randomness `e` (45_kem.md R272). -/
def kemEncapsulate (c : Cfg) (m : KemCfg) (pk e : Bytes) : Option (Bytes × Bytes) :=
  let msg := hashH c.hash e
  let coins := hashH c.hash (msg ++ hashH c.hash pk)
  match pkeEnc c m pk msg coins with
  | none => none
  | some ct => some (ct, xofbBytes c.hash (msg ++ hashH c.hash ct) 32)

/-- `KEM_ENCAP` (45_kem.md R272). -/
def execKemEncap (mode : Nat) (s : State) : Outcome :=
  match s.cfg.kem with
  | none => raised .illegalCmd s
  | some m =>
    let pkb := kemPkBytes m
    let ctb := ctBytes m
    if !twoModes mode then raised .illegalCmd s else
    if operand s 1 ≠ pkb then raised .invalidLen s else
    if !(inBuffer s (operand s 0) pkb && inBuffer s (operand s 2) ctb && inBuffer s (operand s 3) 32
        && (decide (mode = 0) || inBuffer s (operand s 4) 32)
        && disjoint (operand s 2) ctb (operand s 3) 32) then raised .addr s else
    reading s (operand s 0) pkb fun pk =>
      seedInput mode (operand s 4) 32 s fun e s =>
        match kemEncapsulate s.cfg m pk e with
        | none => .next (raiseFatal s)
        | some (ct, ss) => finishProtocol (memWrite (memWrite s (operand s 2) ctb ct) (operand s 3) 32 ss)

/-- The shared secret of a ciphertext under a secret key; on a mismatch the implicit-rejection value takes the
message's place (45_kem.md R273, R274). -/
def kemDecapsulate (c : Cfg) (m : KemCfg) (ct sk : Bytes) : Option Bytes :=
  let pkb := kemPkBytes m
  let skb := kemSkBytes c m
  let pk := slice sk 0 pkb
  let skpke := slice sk pkb (skb - 64)
  let h := slice sk (skb - 64) (skb - 32)
  let z := slice sk (skb - 32) skb
  let m2 := pkeDec c m skpke ct
  match pkeEnc c m pk m2 (hashH c.hash (m2 ++ h)) with
  | none => none
  | some ct2 => some (xofbBytes c.hash ((if ct2 = ct then m2 else z) ++ hashH c.hash ct) 32)

/-- `KEM_DECAP` (45_kem.md R273). -/
def execKemDecap (s : State) : Outcome :=
  match s.cfg.kem with
  | none => raised .illegalCmd s
  | some m =>
    let ctb := ctBytes m
    let skb := kemSkBytes s.cfg m
    if operand s 1 ≠ ctb ∨ operand s 3 ≠ skb then raised .invalidLen s else
    if !(inBuffer s (operand s 0) ctb && inBuffer s (operand s 2) skb && inBuffer s (operand s 4) 32) then
      raised .addr s else
    reading s (operand s 0) ctb fun ct =>
      reading s (operand s 2) skb fun sk =>
        match kemDecapsulate s.cfg m ct sk with
        | none => .next (raiseFatal s)
        | some ss => finishProtocol (memWrite s (operand s 4) 32 ss)

end Sys2Proof.Machine
end

