-- ==== Sys2Proof/Machine/Signature.lean ====
section
/-! DEFINITION. The signature protocol (44_signature.md): `SIG_KEYGEN`, `SIG_SIGN`, `SIG_VERIFY`. -/

namespace Sys2Proof.Machine

/-! ## Sub-functions -/

/-- `power2round(r) = (r1, r0)` (44_signature.md R224). -/
def power2round (d : Nat) (r : Int) : Int × Int :=
  let r0 := cmod r (2 ^ d)
  ((r - r0) / (2 ^ d : Nat), r0)

/-- `decompose(r) = (r1, r0)` (44_signature.md R225). -/
def decompose (c : Cfg) (g : SigCfg) (r : Int) : Int × Int :=
  let r0 := cmod r (2 * g.gamma2)
  if r - r0 = (c.q : Int) - 1 then (0, r0 - 1) else ((r - r0) / (2 * g.gamma2 : Nat), r0)

/-- `highbits(r)` (44_signature.md R225). -/
def highbits (c : Cfg) (g : SigCfg) (r : Int) : Int := (decompose c g r).1

/-- `lowbits(r)` (44_signature.md R225). -/
def lowbits (c : Cfg) (g : SigCfg) (r : Int) : Int := (decompose c g r).2

/-- `usehint(h, r)` (44_signature.md R226). -/
def usehint (c : Cfg) (g : SigCfg) (h r : Int) : Int :=
  let p := decompose c g r
  if h = 0 then p.1 else if 0 < p.2 then (p.1 + 1) % (highCount c g : Int) else (p.1 - 1) % (highCount c g : Int)

/-- `makehint(r, e)` (44_signature.md R226). -/
def makehint (c : Cfg) (g : SigCfg) (r e : Int) : Int :=
  if highbits c g r = highbits c g ((r + e) % (c.q : Int)) then 0 else 1

/-- The map between a small signed object and its stored codes, and its own inverse: `x` to `k - x`
(44_signature.md R227). -/
def offsetCodes (k : Nat) (v : List Poly) : List Poly := v.map (fun f => f.map (fun x => (k : Int) - x))

/-! ## Hints -/

/-- The positions `n` with `h[n] = 1`, ascending. -/
def onePositions (f : Poly) : List Nat := (List.range ringDegree).filter (fun n => f.getD n 0 = 1)

/-- The weight of a vector of bit polynomials. -/
def hintWeight (h : List Poly) : Nat := (h.map (fun f => (onePositions f).length)).sum

/-- The cumulative counts: element `i` is the number of ones in the first `i + 1` polynomials. -/
def runningCounts : Nat → List Poly → List Nat
  | _, [] => []
  | k, f :: h => (k + (onePositions f).length) :: runningCounts (k + (onePositions f).length) h

/-- The hint's encoding: positions, zero bytes up to `OMEGA`, then the counts (44_signature.md R228). -/
def encodeHint (g : SigCfg) (h : List Poly) : Bytes :=
  let pos := h.flatMap onePositions
  ((pos ++ List.replicate (g.omega - pos.length) 0) ++ runningCounts 0 h).map (BitVec.ofNat 8)

/-- Strictly ascending. -/
def ascending : List Nat → Bool
  | a :: b :: l => decide (a < b) && ascending (b :: l)
  | _ => true

/-- The loop of hint decoding over `n` polynomials from number `i`, with `k` positions used so far: the positions of
each polynomial and the final `k`; absent where malformed (44_signature.md R229). -/
def hintLoop (omega : Nat) (hb : List Nat) : Nat → Nat → Nat → Option (List (List Nat) × Nat)
  | 0, _, k => some ([], k)
  | n + 1, i, k =>
    let e := hb.getD (omega + i) 0
    let seg := (hb.drop k).take (e - k)
    if e < k ∨ omega < e then none
    else if !ascending seg then none
    else
      match hintLoop omega hb n (i + 1) e with
      | none => none
      | some (ps, k') => some (seg :: ps, k')

/-- The polynomial with ones at the given positions. -/
def polyOfPositions (ps : List Nat) : Poly := (List.range ringDegree).map (fun n => if n ∈ ps then 1 else 0)

/-- Hint decoding; absent is *malformed* (44_signature.md R229). -/
def decodeHint (g : SigCfg) (bs : Bytes) : Option (List Poly) :=
  let hb := bs.map BitVec.toNat
  match hintLoop g.omega hb g.sk 0 0 with
  | none => none
  | some (ps, k) =>
    if ((hb.take g.omega).drop k).all (fun b => b = 0) then some (ps.map polyOfPositions) else none

/-! ## Key generation -/

/-- `noise(seed, n)` of the signature protocol (44_signature.md R223). -/
def sigNoise (c : Cfg) (g : SigCfg) (seed : Bytes) (n : Nat) : Poly := noisePoly c.hash 2 seed n g.seta

/-- The key pair of the seed `xi`: public key (44_signature.md R233) and secret key (R234); absent where matrix
expansion is exhausted (R232). A `t1` coefficient that does not fit its code keeps its low bits (DEDUCED, log 23). -/
def sigKeyPair (c : Cfg) (g : SigCfg) (xi : Bytes) : Option (Bytes × Bytes) :=
  let st := xofbBytes c.hash xi 128
  let rho := slice st 0 32
  let rhop := slice st 32 96
  let key := slice st 96 128
  match expandMatrix c rho g.sk g.sl with
  | none => none
  | some ahat =>
    let s1 := (List.range g.sl).map (fun j => sigNoise c g rhop j)
    let s2 := (List.range g.sk).map (fun i => sigNoise c g rhop (g.sl + i))
    let t := List.zipWith (addMod c) (matTimes c ahat s1) s2
    let t1 := t.map (fun f => f.map (fun r => (power2round g.drop r).1))
    let t0 := t.map (fun f => f.map (fun r => (power2round g.drop r).2))
    let pk := rho ++ packVec (t1Bits c g) t1
    let tr := xofbBytes c.hash pk 32
    let sk := rho ++ key ++ packVec (secretBits g) (offsetCodes g.seta s1) ++ packVec (secretBits g) (offsetCodes g.seta s2)
      ++ packVec g.drop (offsetCodes (2 ^ (g.drop - 1)) t0) ++ tr
    some (pk, sk)

/-- `SIG_KEYGEN` (44_signature.md R232). -/
def execSigKeygen (mode : Nat) (s : State) : Outcome :=
  match s.cfg.sig with
  | none => raised .illegalCmd s
  | some g =>
    let pkb := sigPkBytes s.cfg g
    let skb := sigSkBytes g
    if !twoModes mode then raised .illegalCmd s else
    if !(inBuffer s (operand s 0) pkb && inBuffer s (operand s 1) skb
        && (decide (mode = 0) || inBuffer s (operand s 2) 32)
        && disjoint (operand s 0) pkb (operand s 1) skb) then raised .addr s else
    seedInput mode (operand s 2) 32 s fun xi s =>
      match sigKeyPair s.cfg g xi with
      | none => .next (raiseFatal s)
      | some (pk, sk) => finishProtocol (memWrite (memWrite s (operand s 0) pkb pk) (operand s 1) skb sk)

/-! ## Signing -/

/-- The fields of a secret key (44_signature.md R234, decoded by R227). -/
structure SigSecret where
  rho : Bytes
  key : Bytes
  s1 : List Poly
  s2 : List Poly
  t0 : List Poly
  tr : Bytes
  deriving DecidableEq, Repr

/-- The fields of the secret key's bytes (44_signature.md R234). -/
def decodeSecret (g : SigCfg) (sk : Bytes) : SigSecret :=
  let eb := secretBits g
  { rho := slice sk 0 32
    key := slice sk 32 64
    s1 := offsetCodes g.seta (unpackVec eb g.sl sk 64)
    s2 := offsetCodes g.seta (unpackVec eb g.sk sk (64 + 32 * eb * g.sl))
    t0 := offsetCodes (2 ^ (g.drop - 1)) (unpackVec g.drop g.sk sk (64 + 32 * eb * (g.sl + g.sk)))
    tr := slice sk (sigSkBytes g - 32) (sigSkBytes g) }

/-- The bound tests of a policy whose thresholds are `GAMMA1 - b` and `GAMMA2 - b` (44_signature.md R237). -/
def boundTest (c : Cfg) (g : SigCfg) (b : Nat) (z r : List Poly) : Bool :=
  decide (vecNorm z + b < g.gamma1)
    && decide (vecNorm (r.map (fun f => f.map (lowbits c g))) + b < g.gamma2)

/-- `policy_accepts(MODE, z, r)`, with the draw that mode 2 makes (44_signature.md R237). -/
def policyAccepts (c : Cfg) (g : SigCfg) (mode : Nat) (z r : List Poly) (d : Draws) : Bool × Draws :=
  match mode with
  | 0 => (boundTest c g (beta g) z r, d)
  | 1 => (boundTest c g (2 * beta g) z r, d)
  | _ =>
    let (coin, d') := drawCoin d
    (coin || boundTest c g (beta g) z r, d')

/-- How one attempt of the signing loop ends. -/
inductive Attempt where
  /-- accepted: the signature -/
  | signed (sig : Bytes)
  /-- rejected: the loop goes on -/
  | retry
  /-- the stream of `sample_in_ball` is used up -/
  | exhausted
  deriving DecidableEq, Repr

/-- The masking vector `y` of an attempt (44_signature.md R236). -/
def maskVector (c : Cfg) (g : SigCfg) (rpp : Bytes) (kappa : Nat) : List Poly :=
  offsetCodes g.gamma1 ((List.range g.sl).map fun j =>
    unpackBytes (zBits g) (xofbBytes c.hash (rpp ++ leBytes 2 (kappa + j)) (32 * zBits g)))

/-- One attempt of the signing loop (44_signature.md R236), with the draws left. -/
def signAttempt (c : Cfg) (g : SigCfg) (k : SigSecret) (ahat : List (List Poly)) (mu rpp : Bytes) (mode kappa : Nat)
    (d : Draws) : Attempt × Draws :=
  let y := maskVector c g rpp kappa
  let w := matTimes c ahat y
  let w1 := w.map (fun f => f.map (highbits c g))
  let ctilde := xofbBytes c.hash (mu ++ packVec (w1Bits c g) w1) 32
  match sampleInBall c g.tau ctilde with
  | none => (.exhausted, d)
  | some (ch, _) =>
    let z := List.zipWith (fun yj sj => polyAdd yj (cent c.q (ringMul c ch sj))) y k.s1
    let r := List.zipWith (fun wi si => canon c.q (polySub wi (ringMul c ch si))) w k.s2
    let (accepted, d') := policyAccepts c g mode z r d
    if !accepted then (.retry, d') else
    let ct0 := k.t0.map (fun t => cent c.q (ringMul c ch t))
    if g.gamma2 ≤ vecNorm ct0 then (.retry, d') else
    let h := List.zipWith (List.zipWith (makehint c g)) r ct0
    if g.omega < hintWeight h then (.retry, d') else
    (.signed (ctilde ++ packVec (zBits g) (offsetCodes g.gamma1 z) ++ encodeHint g h), d')

/-- How the signing loop ends. -/
inductive SignEnd where
  /-- the signature and the attempts made, the accepted one counted -/
  | signed (sig : Bytes) (attempts : Nat)
  /-- `MAX_SIGN_RETRIES` attempts were rejected -/
  | attemptsExhausted
  /-- a stream's cap is used up -/
  | streamExhausted
  deriving DecidableEq, Repr

/-- The signing loop: `fuel` attempts are left, `attempt` were made, `kappa` is the evolving nonce (44_signature.md
R236, R239, R240). -/
def signLoop (c : Cfg) (g : SigCfg) (k : SigSecret) (ahat : List (List Poly)) (mu rpp : Bytes) (mode : Nat) :
    Nat → Nat → Nat → Draws → SignEnd × Draws
  | 0, _, _, d => (.attemptsExhausted, d)
  | fuel + 1, attempt, kappa, d =>
    match signAttempt c g k ahat mu rpp mode kappa d with
    | (.signed sig, d') => (.signed sig (attempt + 1), d')
    | (.retry, d') => signLoop c g k ahat mu rpp mode fuel (attempt + 1) (kappa + g.sl) d'
    | (.exhausted, d') => (.streamExhausted, d')

/-- Signing a message with the bytes of a secret key (44_signature.md R236). -/
def signMessage (c : Cfg) (g : SigCfg) (mode : Nat) (sk msg : Bytes) (d : Draws) : SignEnd × Draws :=
  let k := decodeSecret g sk
  match expandMatrix c k.rho g.sk g.sl with
  | none => (.streamExhausted, d)
  | some ahat =>
    let mu := xofbBytes c.hash (k.tr ++ msg) 64
    let rpp := xofbBytes c.hash (k.key ++ mu) 64
    signLoop c g k ahat mu rpp mode c.maxSignRetries 0 0 d

/-- `SIG_SIGN` (44_signature.md R236). `RETRY` holds `MAX_SIGN_RETRIES` after `ERR_REJ_EXHAUSTED`, whichever loop was
exhausted (60_exceptions.md R320; DEDUCED for a stream's exhaustion, log 12). -/
def execSigSign (mode : Nat) (s : State) : Outcome :=
  match s.cfg.sig with
  | none => raised .illegalCmd s
  | some g =>
    let skb := sigSkBytes g
    let sigb := sigBytes g
    if !threeModes mode then raised .illegalCmd s else
    if operand s 3 ≠ skb then raised .invalidLen s else
    if !(inBuffer s (operand s 0) (operand s 1) && inBuffer s (operand s 2) skb && inBuffer s (operand s 4) sigb) then
      raised .addr s else
    reading s (operand s 0) (operand s 1) fun msg =>
      reading s (operand s 2) skb fun sk =>
        match signMessage s.cfg g mode sk msg s.draws with
        | (.attemptsExhausted, d) => .next (raiseFatal (setRetry { s with draws := d } s.cfg.maxSignRetries))
        | (.streamExhausted, d) => .next (raiseFatal (setRetry { s with draws := d } s.cfg.maxSignRetries))
        | (.signed sig n, d) =>
          finishProtocol (setRetry (memWrite { s with draws := d } (operand s 4) sigb sig) n)

/-! ## Verification -/

/-- `verify_core(sig, Msg, pk)`; absent where a stream's cap is used up (44_signature.md R242). -/
def verifyCore (c : Cfg) (g : SigCfg) (sig msg pk : Bytes) : Option Bool :=
  let zb := zBits g
  let rho := slice pk 0 32
  let t1 := unpackVec (t1Bits c g) g.sk pk 32
  let ctilde := slice sig 0 32
  let z := offsetCodes g.gamma1 (unpackVec zb g.sl sig 32)
  match decodeHint g (slice sig (32 + 32 * zb * g.sl) (sigBytes g)) with
  | none => some false
  | some h =>
    if g.gamma1 ≤ vecNorm z + beta g then some false else
    match expandMatrix c rho g.sk g.sl with
    | none => none
    | some ahat =>
      let tr := xofbBytes c.hash pk 32
      let mu := xofbBytes c.hash (tr ++ msg) 64
      match sampleInBall c g.tau ctilde with
      | none => none
      | some (ch, _) =>
        let wp := List.zipWith
          (fun wi ti => canon c.q (polySub wi (ringMul c ch (ti.map (fun x => x * (2 ^ g.drop : Nat))))))
          (matTimes c ahat z) t1
        let w1p := List.zipWith (List.zipWith (usehint c g)) h wp
        some (decide (ctilde = xofbBytes c.hash (mu ++ packVec (w1Bits c g) w1p) 32))

/-- `SIG_VERIFY` (44_signature.md R243). -/
def execSigVerify (s : State) : Outcome :=
  match s.cfg.sig with
  | none => raised .illegalCmd s
  | some g =>
    let sigb := sigBytes g
    let pkb := sigPkBytes s.cfg g
    if operand s 1 ≠ sigb ∨ operand s 5 ≠ pkb then raised .invalidLen s else
    if !(inBuffer s (operand s 0) sigb && inBuffer s (operand s 2) (operand s 3) && inBuffer s (operand s 4) pkb) then
      raised .addr s else
    reading s (operand s 0) sigb fun sig =>
      reading s (operand s 2) (operand s 3) fun msg =>
        reading s (operand s 4) pkb fun pk =>
          match verifyCore s.cfg g sig msg pk with
          | none => .next (raiseFatal s)
          | some ok => finishProtocol (setResult s (if ok then 1 else 0))

end Sys2Proof.Machine
end

