-- ==== Sys2Proof/Machine/System.lean ====
section
/-! DEFINITION. The system commands (46_system.md): `NOP`, `ZEROIZE`. -/

namespace Sys2Proof.Machine

/-- `NOP` (46_system.md R290). -/
def execNop (s : State) : Outcome := finish s

/-- Every byte of buffer memory set to 0 (46_system.md R291). -/
def zeroBuffer (s : State) : State :=
  { s with mem := cellsAt 0 (List.replicate s.cfg.bmemSize 0) }

/-- `ZEROIZE` (46_system.md R291): mode 0 clears slots, scalars and `xof`, mode 1 buffer memory as well. -/
def execZeroize (mode : Nat) (s : State) : Outcome :=
  if !twoModes mode then raised .illegalCmd s else
  finish (if mode = 1 then zeroBuffer (zeroWorking s) else zeroWorking s)

end Sys2Proof.Machine
end

