-- ==== Sys2Proof/Machine/Dispatch.lean ====
section
/-! DEFINITION. The meaning of each command: steps 2 to 5 of 30_encoding.md R96, one arm per row of R97. -/

namespace Sys2Proof.Machine

def exec (i : Instr) (s : State) : Host.Outcome State Fault Refusal :=
  match i with
  | .nop => Sys2Proof.Machine.execNop s
  | .zeroize mode => Sys2Proof.Machine.execZeroize mode s
  | .mred sd sa => Sys2Proof.Machine.execMred sd sa s
  | .bred sd sa => Sys2Proof.Machine.execBred sd sa s
  | .fqmul sd sa sb => Sys2Proof.Machine.execFqmul sd sa sb s
  | .padd pd pa pb => Sys2Proof.Machine.execPadd pd pa pb s
  | .psub pd pa pb => Sys2Proof.Machine.execPsub pd pa pb s
  | .pred pd pa => Sys2Proof.Machine.execPred pd pa s
  | .ptomont pd pa => Sys2Proof.Machine.execPtomont pd pa s
  | .ntt pd pa => Sys2Proof.Machine.execNtt pd pa s
  | .intt pd pa => Sys2Proof.Machine.execIntt pd pa s
  | .basemul pd pa pb => Sys2Proof.Machine.execBasemul pd pa pb s
  | .xinit v => Sys2Proof.Machine.execXinit v s
  | .xabsorb => Sys2Proof.Machine.execXabsorb s
  | .xsqueeze => Sys2Proof.Machine.execXsqueeze s
  | .cbd pd eta => Sys2Proof.Machine.execCbd pd eta s
  | .getnoise pd eta => Sys2Proof.Machine.execGetnoise pd eta s
  | .rejparse pd => Sys2Proof.Machine.execRejparse pd s
  | .genuni pd => Sys2Proof.Machine.execGenuni pd s
  | .challenge pd => Sys2Proof.Machine.execChallenge pd s
  | .pack pa d => Sys2Proof.Machine.execPack pa d s
  | .unpack pd d => Sys2Proof.Machine.execUnpack pd d s
  | .compress pd pa d => Sys2Proof.Machine.execCompress pd pa d s
  | .decompress pd pa d => Sys2Proof.Machine.execDecompress pd pa d s
  | .sigKeygen mode => Sys2Proof.Machine.execSigKeygen mode s
  | .sigSign mode => Sys2Proof.Machine.execSigSign mode s
  | .sigVerify => Sys2Proof.Machine.execSigVerify s
  | .kemKeygen mode => Sys2Proof.Machine.execKemKeygen mode s
  | .kemEncap mode => Sys2Proof.Machine.execKemEncap mode s
  | .kemDecap => Sys2Proof.Machine.execKemDecap s

end Sys2Proof.Machine
end

