-- ==== Sys2Proof/Machine/Flags.lean ====
section
/-! DEFINITION. `STATUS` and `CTRL` as words, write-1-to-clear, and the interrupt line (10_state.md R27, R30, R45). No
arithmetic command sets a flag (R27). -/

namespace Sys2Proof.Machine

/-- A Boolean as a number. -/
def bitVal (b : Bool) : Nat := if b then 1 else 0

/-- `STATUS` as read by the host (10_state.md R27). -/
def statusWord (st : Status) : Word :=
  BitVec.ofNat 32 (bitVal st.busy + 2 * bitVal st.done + 4 * bitVal st.err + 8 * bitVal st.halt + 16 * bitVal st.cmdovr
    + 256 * st.errcode.toNat)

/-- A write to `STATUS`: bits 1, 2 and 4 are write-1-to-clear; every other bit ignores the write (10_state.md R27).
Clearing `ERR` is the return from an error. -/
def writeStatus (st : Status) (v : Word) : Status :=
  let st := if v.getLsbD 1 then { st with done := false } else st
  let st := if v.getLsbD 2 then acknowledgeError st else st
  if v.getLsbD 4 then { st with cmdovr := false } else st

/-- `CTRL` as read by the host: bit 0 `IE`, the rest 0 (10_state.md R30). -/
def ctrlWord (s : State) : Word := BitVec.ofNat 32 (bitVal s.ie)

/-- The interrupt request line (10_state.md R45, 60_exceptions.md R330). -/
def irq (s : State) : Bool := s.ie && (s.status.done || s.status.cmdovr)

/-- A `CMD` write is accepted exactly when `BUSY = 0 and ERR = 0 and HALT = 0` (10_state.md R31). -/
def canAccept (st : Status) : Bool := !st.busy && !st.err && !st.halt

end Sys2Proof.Machine
end

