-- ==== Sys2Proof/Machine/HostBus.lean ====
section
/-! DEFINITION. The host's side: the offset map, the registers, the windows, and what a host access does
(10_state.md R25 to R42, 20_memory.md R61 to R72). -/

namespace Sys2Proof.Machine

/-! ## Identification and configuration registers (10_state.md R33 to R39) -/

/-- `CFG_RING` (10_state.md R35); `CS` in its 5-bit field (DEDUCED where `CS = 32`, log 14). -/
def cfgRingWord (c : Cfg) : Word :=
  BitVec.ofNat 32 (c.w + 2 ^ 8 * logq c + 2 ^ 16 * (c.np - 1) + 2 ^ 20 * c.cw + 2 ^ 25 * (c.cs % 32))

/-- `CFG_XOF` (10_state.md R37). -/
def cfgXofWord (c : Cfg) : Word := BitVec.ofNat 32 (c.blkA + 2 ^ 8 * c.blkB + 2 ^ 16 * c.nonceBytes)

/-- `CFG_LIM` (10_state.md R37). -/
def cfgLimWord (c : Cfg) : Word := BitVec.ofNat 32 (c.maxSignRetries + 2 ^ 16 * c.maxXofBlocks)

/-- `CFG_KEM`, 0 where the KEM is absent (10_state.md R38). -/
def cfgKemWord (c : Cfg) : Word :=
  match c.kem with
  | none => 0
  | some m => BitVec.ofNat 32 (1 + 2 * m.k + 2 ^ 4 * m.eta + 2 ^ 7 * m.dt + 2 ^ 12 * m.du + 2 ^ 17 * m.dv)

/-- `CFG_SIG0`, 0 where the signature is absent (10_state.md R39). -/
def cfgSig0Word (c : Cfg) : Word :=
  match c.sig with
  | none => 0
  | some g =>
    BitVec.ofNat 32
      (1 + 2 * g.sk + 2 ^ 4 * g.sl + 2 ^ 7 * g.seta + 2 ^ 10 * g.tau + 2 ^ 16 * g.omega + 2 ^ 24 * g.drop)

/-- `CFG_SIG1` (10_state.md R39). -/
def cfgSig1Word (c : Cfg) : Word :=
  match c.sig with
  | none => 0
  | some g => BitVec.ofNat 32 g.gamma1

/-- `CFG_SIG2` (10_state.md R39). -/
def cfgSig2Word (c : Cfg) : Word :=
  match c.sig with
  | none => 0
  | some g => BitVec.ofNat 32 g.gamma2

/-! ## The register block, offsets 0x000 to 0x0FF -/

/-- The low (`hi = false`) or high word of scalar register `n` (10_state.md R25). -/
def scalarWord (s : State) (n : Nat) (hi : Bool) : Word :=
  (s.sreg.getD n 0).extractLsb' (if hi then 32 else 0) 32

/-- A write to one half of scalar register `n`; the other half is kept (10_state.md R25). -/
def writeScalarWord (s : State) (n : Nat) (hi : Bool) (v : Word) : State :=
  let w : Word64 := if hi then v ++ scalarWord s n false else scalarWord s n true ++ v
  { s with sreg := s.sreg.setIfInBounds n w }

/-- A read of the register block; reserved and write-only offsets read 0 (10_state.md R25, R27 to R39). -/
def regRead (s : State) (off : Nat) : Word :=
  match off with
  | 0x000 => 0x4D425201
  | 0x004 => BitVec.ofNat 32 s.cfg.q
  | 0x008 => cfgRingWord s.cfg
  | 0x00C => BitVec.ofNat 32 s.cfg.zeta
  | 0x010 => cfgXofWord s.cfg
  | 0x014 => cfgLimWord s.cfg
  | 0x018 => BitVec.ofNat 32 s.cfg.bmemSize
  | 0x01C => cfgKemWord s.cfg
  | 0x020 => cfgSig0Word s.cfg
  | 0x024 => cfgSig1Word s.cfg
  | 0x028 => cfgSig2Word s.cfg
  | 0x040 => ctrlWord s
  | 0x048 => s.arg.getD 0 0
  | 0x04C => s.arg.getD 1 0
  | 0x050 => s.arg.getD 2 0
  | 0x054 => s.arg.getD 3 0
  | 0x058 => s.arg.getD 4 0
  | 0x05C => s.arg.getD 5 0
  | 0x060 => statusWord s.status
  | 0x064 => s.result
  | 0x068 => s.retry
  | 0x080 => scalarWord s 0 false
  | 0x084 => scalarWord s 0 true
  | 0x088 => scalarWord s 1 false
  | 0x08C => scalarWord s 1 true
  | 0x090 => scalarWord s 2 false
  | 0x094 => scalarWord s 2 true
  | 0x098 => scalarWord s 3 false
  | 0x09C => scalarWord s 3 true
  | _ => 0

/-- A write to `CTRL`: bit 1 is the soft reset, which leaves `CTRL = 0`; else bit 0 is `IE` (10_state.md R30,
70_reset_and_hazards.md R361). -/
def writeCtrl (s : State) (v : Word) : State :=
  if v.getLsbD 1 then resetCore s else { s with ie := v.getLsbD 0 }

/-- A write to `CMD`: accepted, or dropped with `CMDOVR <- 1` (10_state.md R31). -/
def writeCmd (s : State) (v : Word) : State :=
  if canAccept s.status then accept v s else { s with status := { s.status with cmdovr := true } }

/-- A write to `ARG<k>` (10_state.md R32). -/
def writeArg (s : State) (k : Nat) (v : Word) : State := { s with arg := s.arg.setIfInBounds k v }

/-- A write to the register block; read-only and reserved offsets ignore it (93_implementation_defined.md U7). -/
def regWrite (s : State) (off : Nat) (v : Word) : State :=
  match off with
  | 0x040 => writeCtrl s v
  | 0x044 => writeCmd s v
  | 0x048 => writeArg s 0 v
  | 0x04C => writeArg s 1 v
  | 0x050 => writeArg s 2 v
  | 0x054 => writeArg s 3 v
  | 0x058 => writeArg s 4 v
  | 0x05C => writeArg s 5 v
  | 0x060 => { s with status := writeStatus s.status v }
  | 0x080 => writeScalarWord s 0 false v
  | 0x084 => writeScalarWord s 0 true v
  | 0x088 => writeScalarWord s 1 false v
  | 0x08C => writeScalarWord s 1 true v
  | 0x090 => writeScalarWord s 2 false v
  | 0x094 => writeScalarWord s 2 true v
  | 0x098 => writeScalarWord s 3 false v
  | 0x09C => writeScalarWord s 3 true v
  | _ => s

/-! ## The offset map (20_memory.md R61) -/

/-- The regions of the host's offset space. -/
inductive Region where
  | registers
  /-- the byte address of `B` the offset stands for -/
  | bmem (addr : Nat)
  /-- slot and coefficient index (10_state.md R41) -/
  | pmem (slot index : Nat)
  /-- twiddle ROM entry (10_state.md R42) -/
  | zromEntry (index : Nat)
  | reserved
  deriving DecidableEq, Repr

/-- The region of a byte offset that is a multiple of 4 (20_memory.md R61). -/
def regionOf (c : Cfg) (off : Nat) : Region :=
  if off < 0x100 then .registers
  else if 0x10000 ≤ off ∧ off < 0x10000 + c.bmemSize then .bmem (off - 0x10000)
  else if 0x20000 ≤ off ∧ off < 0x24000 then .pmem ((off - 0x20000) / 4 / 256) ((off - 0x20000) / 4 % 256)
  else if 0x30000 ≤ off ∧ off < 0x30200 then .zromEntry ((off - 0x30000) / 4)
  else .reserved

/-- The word at an offset, or the address of a buffer byte without a value (20_memory.md R64; 10_state.md R41, R42). A
slot `NP` or above reads 0. -/
def hostReadWord (s : State) (off : Nat) : Except Nat Word :=
  match regionOf s.cfg off with
  | .registers => .ok (regRead s off)
  | .bmem a =>
    match s.mem.readBytes a 4 with
    | .ok bs => .ok (BitVec.ofNat 32 (intLe bs))
    | .error e => .error e
  | .pmem sl i => .ok (BitVec.ofInt 32 ((getSlot s sl).getD i 0))
  | .zromEntry i => .ok (BitVec.ofInt 32 ((zrom s.cfg).getD i 0))
  | .reserved => .ok 0

/-- One coefficient written: `wrap_W` of the word; a slot `NP` or above ignores it (10_state.md R41). -/
def writeCoeff (s : State) (sl i : Nat) (v : Word) : State :=
  { s with p := s.p.modify sl (fun f => f.set i (wrap s.cfg.w v.toInt)) }

/-- A word written at an offset (20_memory.md R64, R69; 10_state.md R41, R42). -/
def hostWriteWord (s : State) (off : Nat) (v : Word) : State :=
  match regionOf s.cfg off with
  | .registers => regWrite s off v
  | .bmem a => memWrite s a 4 (leBytes 4 v.toNat)
  | .pmem sl i => writeCoeff s sl i v
  | .zromEntry _ => s
  | .reserved => s

/-! ## Host accesses -/

/-- A naturally aligned 32-bit access (20_memory.md R63). -/
def aligned (size : AccessSize) (off : Nat) : Bool := decide (size = .word) && decide (off % 4 = 0)

/-- What the host may read while `BUSY = 1`: `STATUS`, `ID`, `CFG_*` (20_memory.md R72; log 13). -/
def busyReadOk (off : Nat) : Bool := decide (off = 0x060) || decide (off ≤ 0x028)

/-- What the host may write while `BUSY = 1`: `CTRL`, and `CMD`, where the write is dropped (20_memory.md R72; log 13). -/
def busyWriteOk (off : Nat) : Bool := decide (off = 0x040) || decide (off = 0x044)

/-- A host read: the word goes to `busData`; the core's state is unchanged (20_memory.md R69). -/
def hostRead (s : State) (size : AccessSize) (off : Nat) : Outcome :=
  if !aligned size off then .refused (.unalignedAccess off)
  else if s.status.busy && !busyReadOk off then .refused (.busyAccess off)
  else
    match hostReadWord s off with
    | .ok v => .next { s with busData := v }
    | .error a => .fault (.noValue a)

/-- A host write (20_memory.md R69). -/
def hostWrite (s : State) (size : AccessSize) (off : Nat) (v : Word) : Outcome :=
  if !aligned size off then .refused (.unalignedAccess off)
  else if s.status.busy && !busyWriteOk off then .refused (.busyAccess off)
  else .next (hostWriteWord s off v)

end Sys2Proof.Machine
end

