-- ==== Sys2Proof/Machine/Turn.lean ====
section
/-! DEFINITION. One bus event: the engine's turn, a host access, the reset input (20_memory.md R60, R70). -/

namespace Sys2Proof.Machine

/-- Steps 1 to 5 of 30_encoding.md R96 for the captured command word, as one atomic step (20_memory.md R70). A word
that matches no row ends with `ERR_ILLEGAL_CMD`. -/
def runCommand (s : State) : Outcome :=
  match decode s.latch.word with
  | .ok i => exec i s
  | .error _ => raised .illegalCmd s

/-- The engine's turn: it completes the command in flight; an idle core waits (60_exceptions.md R345). -/
def coreTurn (s : State) : Outcome := if s.status.busy then runCommand s else .next s

/-- What one bus event does. -/
def busEvent (e : BusEvent) (s : State) : Outcome :=
  match e with
  | .core => coreTurn s
  | .read size off => hostRead s size off
  | .write size off v => hostWrite s size off v
  | .resetPin => .next (resetCore s)

/-- The next thing that happens: the oldest bus event, or, when none is listed, the engine's turn (log 6). -/
def nextEvent (s : State) : Outcome :=
  match s.bus with
  | [] => coreTurn s
  | e :: es => busEvent e { s with bus := es }

end Sys2Proof.Machine
end

