-- ==== Sys2Proof/Machine/Step.lean ====
section
/-! DEFINITION. One step of the machine: next, fault or refusal. -/

namespace Sys2Proof.Machine

/-- One step. A state whose configuration breaks a constraint of 00_scope.md R8 is refused (log 15). -/
def step (s : State) : Host.Outcome State Fault Refusal :=
  if cfgValid s.cfg then nextEvent s else .refused .badConfiguration

/-- `s` with the command of the given word accepted (30_encoding.md R96 step 0) and the engine's turn next, so that the
very next step runs it. It stands for the host's `CMD` write (log 6). -/
def State.withFetchWord (s : State) (nbits w : Nat) : State :=
  let s' := accept (BitVec.ofNat 32 (w % 2 ^ nbits)) s
  { s' with bus := .core :: s'.bus }

end Sys2Proof.Machine
end

