-- ==== Sys2Proof/Safety.lean ====
section
/-! DEFINITION. The terms claims use: the machine's invariant, the checks before a command as tables, bits and bytes,
and the domain tags of 70_reset_and_hazards.md R367 as ghost data. -/

namespace Sys2Proof.Machine

/-! ## Reading a slot -/

/-- Coefficient `i` of slot `k` (00_scope.md R13). -/
def coeff (s : State) (k i : Nat) : Int := (getSlot s k).getD i 0

/-! ## The invariant -/

/-- `x` is a `w`-bit two's complement value (10_state.md R21). -/
abbrev CoeffFits (w : Nat) (x : Int) : Prop := -(2 ^ (w - 1) : Int) ≤ x ∧ x < (2 ^ (w - 1) : Int)

/-- A slot's polynomial: 256 coefficients of `w` bits (10_state.md R21). -/
abbrev PolyFits (w : Nat) (f : Poly) : Prop := f.length = ringDegree ∧ ∀ x ∈ f, CoeffFits w x

/-- There are `NP` slots and each holds 256 coefficients of `W` bits (10_state.md R21). -/
abbrev SlotsFit (s : State) : Prop := s.p.length = s.cfg.np ∧ ∀ f ∈ s.p, PolyFits s.cfg.w f

/-- Buffer memory is in canonical form and lists only addresses below `BMEM_SIZE` (10_state.md R40). -/
abbrev BufferFits (s : State) : Prop := Memory.wf s.mem ∧ ∀ x ∈ s.mem, x.1 < s.cfg.bmemSize

/-- `STATUS`: `ERRCODE` is 0 exactly when `ERR` is 0 and at most 5; `HALT` goes with code 5; while `BUSY` neither `DONE` nor
`ERR` is set (10_state.md R27, R31; 60_exceptions.md R320, R326). -/
abbrev StatusFits (st : Status) : Prop :=
  (st.err = false ↔ st.errcode = 0) ∧ st.errcode ≤ 5 ∧ (st.halt = true ↔ st.errcode = 5)
    ∧ (st.busy = true → st.done = false ∧ st.err = false)

/-- The XOF unit: bytes are squeezed only after squeezing began, and never past a variant's limit (42_sampler.md R172,
R175). -/
abbrev XofFits (x : Xof) : Prop :=
  (x.pos ≠ 0 → x.squeezing = true) ∧ (x.variant = .h → x.pos ≤ 32) ∧ (x.variant = .g → x.pos ≤ 64)

/-- What every reachable state satisfies. -/
abbrev Inv (s : State) : Prop :=
  cfgValid s.cfg = true ∧ SlotsFit s ∧ BufferFits s ∧ StatusFits s.status
    ∧ (s.status.busy = true → s.result = 0 ∧ s.retry = 0)
    ∧ (∀ x ∈ s.xof, XofFits x)

/-! ## Endings of a command -/

/-- `STATUS` after completion without an error (30_encoding.md R96 step 5). -/
def completed (st : Status) : Status := { st with busy := false, done := true }

/-- `STATUS` after a recoverable error (60_exceptions.md R322). -/
def erred (e : ErrorCode) (st : Status) : Status := { completed st with err := true, errcode := e.code }

/-- `STATUS` after the fatal error (60_exceptions.md R326). -/
def halted (st : Status) : Status := { erred .rejExhausted st with halt := true }

/-! ## Bytes -/

/-- Buffer memory holds the byte string `bs` from address `a` on. -/
abbrev HoldsBytes (s : State) (a : Nat) (bs : Bytes) : Prop := ∀ k, k < bs.length → s.mem.read (a + k) = bs[k]?

/-- `new` holds the byte string `bs` from address `a` on, and every other byte reads as in `old`. -/
abbrev Stored (old new : Memory) (a : Nat) (bs : Bytes) : Prop :=
  (∀ k, k < bs.length → new.read (a + k) = bs[k]?) ∧ ∀ x, x < a ∨ a + bs.length ≤ x → new.read x = old.read x

/-- The same for two byte strings. -/
abbrev StoredTwo (old new : Memory) (a : Nat) (bs : Bytes) (a' : Nat) (bs' : Bytes) : Prop :=
  (∀ k, k < bs.length → new.read (a + k) = bs[k]?) ∧ (∀ k, k < bs'.length → new.read (a' + k) = bs'[k]?)
    ∧ ∀ x, (x < a ∨ a + bs.length ≤ x) → (x < a' ∨ a' + bs'.length ≤ x) → new.read x = old.read x

/-- The buffer operand `(a, n)` lies in `B` (20_memory.md R67). -/
abbrev InBounds (s : State) (a n : Nat) : Prop := n = 0 ∨ a + n ≤ s.cfg.bmemSize

/-- Bit `n` of `bits_le(S)`: bit `n mod 8` of byte `n / 8` (00_scope.md R15). -/
def bitAt (bs : Bytes) (n : Nat) : Nat := if (bs.getD (n / 8) 0).getLsbD (n % 8) then 1 else 0

/-- The unsigned number whose bits are the `n` bits of `bits_le(S)` from bit `lo` on, the first the least significant. -/
def bitsAt (bs : Bytes) (lo n : Nat) : Nat := ((List.range n).map (fun t => bitAt bs (lo + t) * 2 ^ t)).sum

/-! ## Rejection sampling as a filter (42_sampler.md R180) -/

/-- The values among the first `n` chunks of a byte string that are below `Q`, in order. -/
def accepted (c : Cfg) (bs : Bytes) (n : Nat) : List Nat :=
  ((List.range n).map (fun k => bitsAt bs (c.cs * k) c.cw)).filter (fun v => decide (v < c.q))

/-! ## Reduction and transform by the pseudocode (40_reducer.md R121, 41_transform.md R154, R155) -/

/-- `r` is what `montgomery_reduce(a)` returns: `t = wrap_W(a * QINV)`, `u * 2^W = a - t*Q`, `r = wrap_W(u)`. -/
def IsMontgomery (c : Cfg) (a r : Int) : Prop :=
  ∃ qi u : Int, qi * c.q % (2 ^ c.w : Nat) = 1 ∧ u * (2 ^ c.w : Nat) = a - wrap c.w (a * qi) * c.q ∧ r = wrap c.w u

/-- The body of `NTT`'s inner loop for one `j`, with the twiddle `ZROM[k]`. -/
def nttButterfly (c : Cfg) (len k : Nat) (r : Poly) (j : Nat) : Poly :=
  let t := fqmul c ((zrom c).getD k 0) (r.getD (j + len) 0)
  (r.set (j + len) (wrap c.w (r.getD j 0 - t))).set j (wrap c.w (r.getD j 0 + t))

/-- `NTT`'s loops over `len`, `start` and `j`; the second component is `k`. -/
def nttLoops (c : Cfg) (r : Poly) : Poly × Nat :=
  [128, 64, 32, 16, 8, 4, 2].foldl (fun rk len =>
    (List.range (128 / len)).foldl (fun rk b =>
      ((List.range len).foldl (fun r o => nttButterfly c len rk.2 r (2 * len * b + o)) rk.1, rk.2 + 1)) rk) (r, 1)

/-- The body of `INTT`'s inner loop for one `j`, with the twiddle `ZROM[k]`. -/
def inttButterfly (c : Cfg) (len k : Nat) (r : Poly) (j : Nat) : Poly :=
  let t := r.getD j 0
  (r.set j (wrap c.w (t + r.getD (j + len) 0) % (c.q : Int))).set (j + len)
    (fqmul c ((zrom c).getD k 0) (wrap c.w (r.getD (j + len) 0 - t)))

/-- `INTT`'s loops over `len`, `start` and `j`; the second component is `k`. -/
def inttLoops (c : Cfg) (r : Poly) : Poly × Nat :=
  [2, 4, 8, 16, 32, 64, 128].foldl (fun rk len =>
    (List.range (128 / len)).foldl (fun rk b =>
      ((List.range len).foldl (fun r o => inttButterfly c len rk.2 r (2 * len * b + o)) rk.1, rk.2 - 1)) rk) (r, 127)

/-! ## Transform order as sums (41_transform.md R152) -/

/-- `sum over j of f[2j + b] * g_i^j`, unreduced. -/
def residueSum (c : Cfg) (f : Nat → Int) (b i : Nat) : Int :=
  ((List.range 128).map (fun j => f (2 * j + b) * rootG c i ^ j)).sum

/-- Coefficient `n` of the product modulo `X^256 + 1` of two integer polynomials, unreduced (00_scope.md R16). -/
def negacyclic (f g : Poly) (n : Nat) : Int :=
  ((List.range ringDegree).map (fun i =>
    f.getD i 0 * (if i ≤ n then g.getD (n - i) 0 else -g.getD (ringDegree + n - i) 0))).sum

/-- Coefficient `b` of the product of two degree-1 residues modulo `X^2 - root`, unreduced (41_transform.md R156): `f` and `g`
hold the residues of pair `i`. -/
def pairProduct (root : Int) (f g : Poly) (i b : Nat) : Int :=
  if b = 0 then f.getD (2 * i) 0 * g.getD (2 * i) 0 + f.getD (2 * i + 1) 0 * g.getD (2 * i + 1) 0 * root
  else f.getD (2 * i) 0 * g.getD (2 * i + 1) 0 + f.getD (2 * i + 1) 0 * g.getD (2 * i) 0

/-! ## The checks of 30_encoding.md R96 steps 2 and 3, as tables -/

/-- Legal field and `ARG` values (30_encoding.md R95). -/
def legalFields (s : State) : Instr → Bool
  | .nop | .xabsorb | .xsqueeze => true
  | .zeroize mode => decide (mode ≤ 1)
  | .mred sd sa | .bred sd sa => decide (sd < 4 ∧ sa < 4)
  | .fqmul sd sa sb => decide (sd < 4 ∧ sa < 4 ∧ sb < 4)
  | .padd pd pa pb | .psub pd pa pb | .basemul pd pa pb => decide (pd < s.cfg.np ∧ pa < s.cfg.np ∧ pb < s.cfg.np)
  | .pred pd pa | .ptomont pd pa | .ntt pd pa | .intt pd pa => decide (pd < s.cfg.np ∧ pa < s.cfg.np)
  | .xinit v => decide (v ≤ 3)
  | .cbd pd eta => decide (pd < s.cfg.np ∧ 2 ≤ eta ∧ eta ≤ 5)
  | .getnoise pd eta =>
    decide (pd < s.cfg.np ∧ 2 ≤ eta ∧ eta ≤ 5 ∧ operand s 1 < 2 ^ (8 * s.cfg.nonceBytes) ∧ 1 ≤ operand s 2 ∧ operand s 2 ≤ 255)
  | .rejparse pd => decide (pd < s.cfg.np ∧ operand s 2 ≤ 256)
  | .genuni pd => decide (pd < s.cfg.np ∧ operand s 1 < 2 ^ 16 ∧ 1 ≤ operand s 2 ∧ operand s 2 ≤ 255)
  | .challenge pd => s.cfg.sig.isSome && decide (pd < s.cfg.np ∧ 1 ≤ operand s 1 ∧ operand s 1 ≤ 255)
  | .pack k d | .unpack k d => decide (k < s.cfg.np ∧ 1 ≤ d ∧ d ≤ s.cfg.w ∧ d ≤ 31)
  | .compress pd pa d | .decompress pd pa d => decide (pd < s.cfg.np ∧ pa < s.cfg.np ∧ 1 ≤ d ∧ d + 1 ≤ logq s.cfg)
  | .sigKeygen mode => s.cfg.sig.isSome && decide (mode ≤ 1)
  | .sigSign mode => s.cfg.sig.isSome && decide (mode ≤ 2)
  | .sigVerify => s.cfg.sig.isSome
  | .kemKeygen mode | .kemEncap mode => s.cfg.kem.isSome && decide (mode ≤ 1)
  | .kemDecap => s.cfg.kem.isSome

/-- The XOF unit is in a state the command may use (42_sampler.md R174, R175). -/
def xofInSequence (s : State) : Instr → Bool
  | .xabsorb => s.xof.any (fun x => !x.squeezing)
  | .xsqueeze =>
    s.xof.any (fun x =>
      match x.variant with
      | .xofa | .xofb => true
      | .h => decide (x.pos + operand s 1 ≤ 32)
      | .g => decide (x.pos + operand s 1 ≤ 64))
  | _ => true

/-- Every length operand is the fixed size of its object (60_exceptions.md R320, code 2). -/
def lengthsMatch (s : State) : Instr → Bool
  | .sigSign _ => s.cfg.sig.all (fun g => decide (operand s 3 = sigSkBytes g))
  | .sigVerify => s.cfg.sig.all (fun g => decide (operand s 1 = sigBytes g ∧ operand s 5 = sigPkBytes s.cfg g))
  | .kemEncap _ => s.cfg.kem.all (fun m => decide (operand s 1 = kemPkBytes m))
  | .kemDecap => s.cfg.kem.all (fun m => decide (operand s 1 = ctBytes m ∧ operand s 3 = kemSkBytes s.cfg m))
  | _ => true

/-- The buffers a command reads, as (address, length) (30_encoding.md R94). -/
def inputBuffers (s : State) : Instr → List (Nat × Nat)
  | .xabsorb | .rejparse _ => [(operand s 0, operand s 1)]
  | .cbd _ eta => [(operand s 0, 64 * eta)]
  | .getnoise _ _ | .genuni _ => [(operand s 0, operand s 2)]
  | .challenge _ => [(operand s 0, operand s 1)]
  | .unpack _ d => [(operand s 0, 32 * d)]
  | .sigKeygen mode => if mode = 1 then [(operand s 2, 32)] else []
  | .sigSign _ =>
    (operand s 0, operand s 1) :: s.cfg.sig.toList.map (fun g => (operand s 2, sigSkBytes g))
  | .sigVerify =>
    (operand s 2, operand s 3)
      :: s.cfg.sig.toList.flatMap (fun g => [(operand s 0, sigBytes g), (operand s 4, sigPkBytes s.cfg g)])
  | .kemKeygen mode => if mode = 1 then [(operand s 2, 64)] else []
  | .kemEncap mode =>
    s.cfg.kem.toList.map (fun m => (operand s 0, kemPkBytes m)) ++ if mode = 1 then [(operand s 4, 32)] else []
  | .kemDecap =>
    s.cfg.kem.toList.flatMap (fun m => [(operand s 0, ctBytes m), (operand s 2, kemSkBytes s.cfg m)])
  | _ => []

/-- The buffers a command writes, as (address, length) (30_encoding.md R94). -/
def outputBuffers (s : State) : Instr → List (Nat × Nat)
  | .xsqueeze => [(operand s 0, operand s 1)]
  | .pack _ d => [(operand s 0, 32 * d)]
  | .sigKeygen _ =>
    s.cfg.sig.toList.flatMap (fun g => [(operand s 0, sigPkBytes s.cfg g), (operand s 1, sigSkBytes g)])
  | .sigSign _ => s.cfg.sig.toList.map (fun g => (operand s 4, sigBytes g))
  | .kemKeygen _ =>
    s.cfg.kem.toList.flatMap (fun m => [(operand s 0, kemPkBytes m), (operand s 1, kemSkBytes s.cfg m)])
  | .kemEncap _ => s.cfg.kem.toList.flatMap (fun m => [(operand s 2, ctBytes m), (operand s 3, 32)])
  | .kemDecap => [(operand s 4, 32)]
  | _ => []

/-- Every buffer lies in `B` and no two output buffers have a byte in common (20_memory.md R67, R68). -/
def addressesOk (s : State) (i : Instr) : Bool :=
  (inputBuffers s i ++ outputBuffers s i).all (fun x => decide (InBounds s x.1 x.2))
    && decide ((outputBuffers s i).Pairwise (fun x y => x.1 + x.2 ≤ y.1 ∨ y.1 + y.2 ≤ x.1))

/-- The error that the checks before execution report: the first that applies (60_exceptions.md R325). -/
def checkError (s : State) (i : Instr) : Option ErrorCode :=
  if !legalFields s i then some .illegalCmd
  else if !xofInSequence s i then some .xofSeq
  else if !lengthsMatch s i then some .invalidLen
  else if !addressesOk s i then some .addr
  else none

/-- The commands that can end with the fatal error (60_exceptions.md R324). -/
def canExhaust : Instr → Bool
  | .genuni _ | .challenge _ | .sigKeygen _ | .sigSign _ | .sigVerify | .kemKeygen _ | .kemEncap _ | .kemDecap => true
  | _ => false

/-- The protocol commands (46_system.md R293). -/
def isProtocol : Instr → Bool
  | .sigKeygen _ | .sigSign _ | .sigVerify | .kemKeygen _ | .kemEncap _ | .kemDecap => true
  | _ => false

/-- The commands that use the XOF internally (42_sampler.md R176). -/
def usesXofInside (i : Instr) : Bool :=
  isProtocol i || match i with
    | .getnoise _ _ | .genuni _ | .challenge _ => true
    | _ => false

/-- The rows of the opcode table as (mask, match) (30_encoding.md R92, R97). -/
def opcodeRows : List (Word × Word) :=
  [(0xFFFFFFFF, 0x00), (0xF9FFFFFF, 0x01), (0xFFFF00FF, 0x10), (0xFFFF00FF, 0x11), (0xFFF000FF, 0x12),
   (0xFFF000FF, 0x20), (0xFFF000FF, 0x21), (0xFFFF00FF, 0x22), (0xFFFF00FF, 0x23), (0xFFFF00FF, 0x30),
   (0xFFFF00FF, 0x31), (0xFFF000FF, 0x32)]
  ++
  [(0xFE0FFFFF, 0x40), (0xFFFFFFFF, 0x41), (0xFFFFFFFF, 0x42), (0xFE0FF0FF, 0x43), (0xFE0FF0FF, 0x44),
   (0xFFFFF0FF, 0x45), (0xFFFFF0FF, 0x46), (0xFFFFF0FF, 0x47), (0xFE0F0FFF, 0x50), (0xFE0FF0FF, 0x51),
   (0xFE0F00FF, 0x52), (0xFE0F00FF, 0x53)]
  ++
  [(0xF9FFFFFF, 0x60), (0xF9FFFFFF, 0x61), (0xFFFFFFFF, 0x62), (0xF9FFFFFF, 0x70), (0xF9FFFFFF, 0x71),
   (0xFFFFFFFF, 0x72)]

/-- The row of the opcode table a command belongs to, as (mask, match), by its mnemonic (30_encoding.md R97). -/
def rowOf : Instr → Word × Word
  | .nop => (0xFFFFFFFF, 0x00)
  | .zeroize _ => (0xF9FFFFFF, 0x01)
  | .mred _ _ => (0xFFFF00FF, 0x10)
  | .bred _ _ => (0xFFFF00FF, 0x11)
  | .fqmul _ _ _ => (0xFFF000FF, 0x12)
  | .padd _ _ _ => (0xFFF000FF, 0x20)
  | .psub _ _ _ => (0xFFF000FF, 0x21)
  | .pred _ _ => (0xFFFF00FF, 0x22)
  | .ptomont _ _ => (0xFFFF00FF, 0x23)
  | .ntt _ _ => (0xFFFF00FF, 0x30)
  | .intt _ _ => (0xFFFF00FF, 0x31)
  | .basemul _ _ _ => (0xFFF000FF, 0x32)
  | .xinit _ => (0xFE0FFFFF, 0x40)
  | .xabsorb => (0xFFFFFFFF, 0x41)
  | .xsqueeze => (0xFFFFFFFF, 0x42)
  | .cbd _ _ => (0xFE0FF0FF, 0x43)
  | .getnoise _ _ => (0xFE0FF0FF, 0x44)
  | .rejparse _ => (0xFFFFF0FF, 0x45)
  | .genuni _ => (0xFFFFF0FF, 0x46)
  | .challenge _ => (0xFFFFF0FF, 0x47)
  | .pack _ _ => (0xFE0F0FFF, 0x50)
  | .unpack _ _ => (0xFE0FF0FF, 0x51)
  | .compress _ _ _ => (0xFE0F00FF, 0x52)
  | .decompress _ _ _ => (0xFE0F00FF, 0x53)
  | .sigKeygen _ => (0xF9FFFFFF, 0x60)
  | .sigSign _ => (0xF9FFFFFF, 0x61)
  | .sigVerify => (0xFFFFFFFF, 0x62)
  | .kemKeygen _ => (0xF9FFFFFF, 0x70)
  | .kemEncap _ => (0xF9FFFFFF, 0x71)
  | .kemDecap => (0xFFFFFFFF, 0x72)

/-! ## The read-only registers and the reserved offsets (10_state.md R33 to R39, 20_memory.md R61) -/

/-- The fields of `ID` and of the `CFG_*` register at an offset, as (lowest bit, width, value); together they are its 32
bits. `CFG_RING` has the low 5 bits of `CS` (log 14). -/
def identityFields (c : Cfg) : Nat → List (Nat × Nat × Nat)
  | 0x000 => [(0, 32, 0x4D425201)]
  | 0x004 => [(0, 32, c.q)]
  | 0x008 => [(0, 8, c.w), (8, 8, logq c), (16, 4, c.np - 1), (20, 5, c.cw), (25, 5, c.cs % 32), (30, 2, 0)]
  | 0x00C => [(0, 32, c.zeta)]
  | 0x010 => [(0, 8, c.blkA), (8, 8, c.blkB), (16, 2, c.nonceBytes), (18, 14, 0)]
  | 0x014 => [(0, 16, c.maxSignRetries), (16, 16, c.maxXofBlocks)]
  | 0x018 => [(0, 32, c.bmemSize)]
  | 0x01C =>
    c.kem.elim [(0, 32, 0)] (fun m => [(0, 1, 1), (1, 3, m.k), (4, 3, m.eta), (7, 5, m.dt), (12, 5, m.du), (17, 5, m.dv), (22, 10, 0)])
  | 0x020 =>
    c.sig.elim [(0, 32, 0)] (fun g =>
      [(0, 1, 1), (1, 3, g.sk), (4, 3, g.sl), (7, 3, g.seta), (10, 6, g.tau), (16, 8, g.omega), (24, 5, g.drop), (29, 3, 0)])
  | 0x024 => [(0, 32, c.sig.elim 0 SigCfg.gamma1)]
  | 0x028 => [(0, 32, c.sig.elim 0 SigCfg.gamma2)]
  | _ => []

/-- The word has these fields. -/
abbrev HasFields (x : Word) (fields : List (Nat × Nat × Nat)) : Prop := ∀ f ∈ fields, x.toNat / 2 ^ f.1 % 2 ^ f.2.1 = f.2.2

/-- The offset is reserved: it maps to no register and lies in no window (10_state.md R39, 20_memory.md R61). -/
abbrev ReservedOffset (c : Cfg) (off : Nat) : Prop :=
  (0x02C ≤ off ∧ off ≤ 0x03F) ∨ (0x06C ≤ off ∧ off ≤ 0x07F) ∨ (0x0A0 ≤ off ∧ off ≤ 0x0FFFF)
    ∨ (0x10000 + c.bmemSize ≤ off ∧ off ≤ 0x1FFFF) ∨ (0x24000 ≤ off ∧ off ≤ 0x2FFFF) ∨ 0x30200 ≤ off

/-! ## What the samplers answer, said of the stream's bits and bytes (42_sampler.md R177, R180, R183) -/

/-- The centered binomial polynomial of a buffer: for each coefficient the ones among the first `eta` of its `2*eta` bits less
those among the last `eta` (42_sampler.md R177). -/
def cbdOf (buf : Bytes) (eta : Nat) : Poly :=
  (List.range ringDegree).map fun i =>
    (((List.range eta).map (fun t => bitAt buf (2 * eta * i + t))).sum : Int)
      - ((List.range eta).map (fun t => bitAt buf (2 * eta * i + eta + t))).sum

/-- `f` holds the first 256 values below `Q` of the capped stream `XOFA(seed)` (42_sampler.md R180, R182). -/
def IsUniform (c : Cfg) (seed : Bytes) (f : Poly) : Prop :=
  let stream := xofaBytes c.hash seed (c.maxXofBlocks * c.blkA)
  f.length = ringDegree ∧ ∃ n, n ≤ 8 * stream.length / c.cs ∧ f = (accepted c stream n).map (fun v => (v : Int))

/-- `ahat[i][j]` is `uni(rho, x = j, y = i)` (44_signature.md R230, 45_kem.md R263). -/
def IsMatrix (c : Cfg) (rho : Bytes) (rows cols : Nat) (ahat : List (List Poly)) : Prop :=
  ahat.length = rows ∧ ∀ i, i < rows →
    (ahat.getD i []).length = cols ∧ ∀ j, j < cols →
      IsUniform c (rho ++ [BitVec.ofNat 8 j, BitVec.ofNat 8 i]) ((ahat.getD i []).getD j zeroPoly)

/-- `sample_in_ball` takes for the index `256 - tau + k` the stream byte at `picks[k]`: the first one after the bytes already
used (the first 8 hold the signs) that is at most the index (42_sampler.md R183). -/
def PicksFirst (stream : Bytes) (tau : Nat) (picks : List Nat) : Prop :=
  picks.length = tau ∧ ∀ k, k < tau →
    let lo := if k = 0 then 8 else picks.getD (k - 1) 0 + 1
    lo ≤ picks.getD k 0 ∧ picks.getD k 0 < stream.length
      ∧ (stream.getD (picks.getD k 0) 0).toNat ≤ 256 - tau + k
      ∧ ∀ p, lo ≤ p → p < picks.getD k 0 → 256 - tau + k < (stream.getD p 0).toNat

/-- `f` is the polynomial of `sample_in_ball(seed)` and `pos` the stream bytes consumed: from zero, the coefficient at each picked
byte's value moves to the index and is replaced by the sign that bit `k` of the stream gives (42_sampler.md R183). -/
def IsChallenge (c : Cfg) (tau : Nat) (seed : Bytes) (f : Poly) (pos : Nat) : Prop :=
  let stream := xofbBytes c.hash seed (c.maxXofBlocks * c.blkB)
  ∃ picks, PicksFirst stream tau picks ∧ pos = picks.getD (tau - 1) 0 + 1
    ∧ f = (List.range tau).foldl (fun (acc : Poly) k =>
        let b := (stream.getD (picks.getD k 0) 0).toNat
        (acc.set (256 - tau + k) (acc.getD b 0)).set b (1 - 2 * (bitAt stream k : Int))) zeroPoly

/-- The draws after `n` coins: the listed ones first, then the counter (log 8). -/
abbrev coinsDrawn (d : Draws) (n : Nat) : Draws :=
  { d with coins := d.coins.drop n, taken := d.taken + (n - d.coins.length) }

/-- Every coefficient of `z` is below `GAMMA1 - b` and every low part of one of `r` below `GAMMA2 - b`, in absolute value
(44_signature.md R237). -/
abbrev WithinBounds (c : Cfg) (g : SigCfg) (b : Nat) (z r : List Poly) : Prop :=
  (∀ f ∈ z, ∀ x ∈ f, x.natAbs + b < g.gamma1) ∧ ∀ f ∈ r, ∀ x ∈ f, (lowbits c g x).natAbs + b < g.gamma2

/-! ## The signature protocol's objects, read bit by bit (44_signature.md R233 to R236, R242) -/

/-- `n` polynomials packed at `d` bits one after another from byte `off` on: coefficient `k` of polynomial `i` is the unsigned
number in bits `d*k .. d*k + d - 1` of the `i`-th `32*d` bytes (43_codec.md R200, R209). -/
def codesAt (bs : Bytes) (off d n : Nat) : List Poly :=
  (List.range n).map fun i => (List.range ringDegree).map fun k => (bitsAt bs (8 * (off + 32 * d * i) + d * k) d : Int)

/-- A function of every coefficient of a vector. -/
abbrev mapCoeffs (f : Int → Int) (v : List Poly) : List Poly := v.map (fun p => p.map f)

/-- `pk` and `sk` are the keys of the seed `xi`, laid out by 44_signature.md R233 and R234: `rho`, then `t1`; `rho`, `key`, then
`s1`, `s2`, `t0` as offset codes, and last the digest `tr` of `pk`. Codes of `t1` are kept to `T1B` bits (log 23). -/
def SigKeysOf (c : Cfg) (g : SigCfg) (xi pk sk : Bytes) : Prop :=
  let st := xofbBytes c.hash xi 128
  let eb := secretBits g
  let s1 := (List.range g.sl).map (fun j => cbdOf (xofbBytes c.hash (slice st 32 96 ++ leBytes 2 j) (64 * g.seta)) g.seta)
  let s2 := (List.range g.sk).map (fun i => cbdOf (xofbBytes c.hash (slice st 32 96 ++ leBytes 2 (g.sl + i)) (64 * g.seta)) g.seta)
  ∃ ahat, IsMatrix c (slice st 0 32) g.sk g.sl ahat ∧
    let t := List.zipWith (addMod c) (matTimes c ahat s1) s2
    slice pk 0 32 = slice st 0 32
      ∧ codesAt pk 32 (t1Bits c g) g.sk = mapCoeffs (fun r => (power2round g.drop r).1 % 2 ^ t1Bits c g) t
      ∧ slice sk 0 32 = slice st 0 32 ∧ slice sk 32 64 = slice st 96 128
      ∧ codesAt sk 64 eb g.sl = mapCoeffs (fun x => g.seta - x) s1
      ∧ codesAt sk (64 + 32 * eb * g.sl) eb g.sk = mapCoeffs (fun x => g.seta - x) s2
      ∧ codesAt sk (64 + 32 * eb * (g.sl + g.sk)) g.drop g.sk
          = mapCoeffs (fun r => 2 ^ (g.drop - 1) - (power2round g.drop r).2) t
      ∧ slice sk (sigSkBytes g - 32) (sigSkBytes g) = xofbBytes c.hash pk 32

/-- `mu`, with the digest `tr` that the secret key holds (44_signature.md R236). -/
def messageRepOf (c : Cfg) (g : SigCfg) (sk msg : Bytes) : Bytes :=
  xofbBytes c.hash (slice sk (sigSkBytes g - 32) (sigSkBytes g) ++ msg) 64

/-- The mask `y` of attempt `n`, whose nonces are `SL*(n-1) .. SL*n - 1` (44_signature.md R236, R240). -/
def maskOf (c : Cfg) (g : SigCfg) (sk msg : Bytes) (n : Nat) : List Poly :=
  let rpp := xofbBytes c.hash (slice sk 32 64 ++ messageRepOf c g sk msg) 64
  (List.range g.sl).map fun j =>
    (List.range ringDegree).map fun k =>
      (g.gamma1 : Int) - bitsAt (xofbBytes c.hash (rpp ++ leBytes 2 ((n - 1) * g.sl + j)) (32 * zBits g)) (zBits g * k) (zBits g)

/-- `ctilde` of attempt `n`, from the high parts of its commitment (44_signature.md R236). -/
def challengeSeedOf (c : Cfg) (g : SigCfg) (sk msg : Bytes) (ahat : List (List Poly)) (n : Nat) : Bytes :=
  xofbBytes c.hash
    (messageRepOf c g sk msg
      ++ packVec (w1Bits c g) (mapCoeffs (highbits c g) (matTimes c ahat (maskOf c g sk msg n)))) 32

/-- `sig` is the signature of the message that attempt `n` of signing with `sk` makes, laid out by 44_signature.md R235: the
challenge seed, the response at `ZB` bits (a code outside that range truncated, R241), the encoded hint; and the candidate
passes the test of its policy (R237; with `mode = 2` the coin is the `n`-th after `d`, log 8) and those of R238. No `sig` meets
this where attempt `n` is not acceptable. -/
def SignatureOf (c : Cfg) (g : SigCfg) (mode : Nat) (sk msg : Bytes) (d : Draws) (sig : Bytes) (n : Nat) : Prop :=
  let eb := secretBits g
  let zb := zBits g
  let s1 := mapCoeffs (fun x => g.seta - x) (codesAt sk 64 eb g.sl)
  let s2 := mapCoeffs (fun x => g.seta - x) (codesAt sk (64 + 32 * eb * g.sl) eb g.sk)
  let t0 := mapCoeffs (fun x => 2 ^ (g.drop - 1) - x) (codesAt sk (64 + 32 * eb * (g.sl + g.sk)) g.drop g.sk)
  let y := maskOf c g sk msg n
  ∃ ahat ch pos, IsMatrix c (slice sk 0 32) g.sk g.sl ahat ∧ IsChallenge c g.tau (slice sig 0 32) ch pos ∧
    let z := List.zipWith (List.zipWith (fun a b => a + cmod b c.q)) y (s1.map (ringMul c ch))
    let r := List.zipWith (List.zipWith (fun a b => (a - b) % (c.q : Int))) (matTimes c ahat y) (s2.map (ringMul c ch))
    let ct0 := mapCoeffs (fun x => cmod x c.q) (t0.map (ringMul c ch))
    let h := List.zipWith (List.zipWith (makehint c g)) r ct0
    slice sig 0 32 = challengeSeedOf c g sk msg ahat n
      ∧ codesAt sig 32 zb g.sl = mapCoeffs (fun x => (g.gamma1 - x) % 2 ^ zb) z
      ∧ slice sig (32 + 32 * zb * g.sl) (sigBytes g) = encodeHint g h
      ∧ (mode = 0 → WithinBounds c g (beta g) z r) ∧ (mode = 1 → WithinBounds c g (2 * beta g) z r)
      ∧ (mode = 2 → (drawCoin (coinsDrawn d (n - 1))).1 = true ∨ WithinBounds c g (beta g) z r)
      ∧ (∀ f ∈ ct0, ∀ x ∈ f, x.natAbs < g.gamma2) ∧ hintWeight h ≤ g.omega

/-- The ones in a vector of bit polynomials. -/
def onesIn (h : List Poly) : Nat := (h.flatten.filter (fun x => x = 1)).length

/-- What `verify_core` requires to answer true (44_signature.md R242). -/
def SignatureAccepted (c : Cfg) (g : SigCfg) (sig msg pk : Bytes) : Prop :=
  let zb := zBits g
  let t1 := codesAt pk 32 (t1Bits c g) g.sk
  let z := mapCoeffs (fun x => g.gamma1 - x) (codesAt sig 32 zb g.sl)
  let mu := xofbBytes c.hash (xofbBytes c.hash pk 32 ++ msg) 64
  ∃ h ahat ch pos, decodeHint g (slice sig (32 + 32 * zb * g.sl) (sigBytes g)) = some h
    ∧ (∀ f ∈ z, ∀ x ∈ f, x.natAbs + beta g < g.gamma1)
    ∧ IsMatrix c (slice pk 0 32) g.sk g.sl ahat ∧ IsChallenge c g.tau (slice sig 0 32) ch pos ∧
    let wp := List.zipWith (List.zipWith (fun a b => (a - b) % (c.q : Int))) (matTimes c ahat z)
      ((mapCoeffs (fun x => x * 2 ^ g.drop) t1).map (ringMul c ch))
    slice sig 0 32
      = xofbBytes c.hash (mu ++ packVec (w1Bits c g) (List.zipWith (List.zipWith (usehint c g)) h wp)) 32

/-! ## The KEM's objects, read bit by bit (45_kem.md R266 to R268) -/

/-- `round(x * 2^d / Q) mod 2^d` of the residue of `x`, ties rounded up (43_codec.md R203). -/
def roundedCode (c : Cfg) (d : Nat) (x : Int) : Int := (2 * (x % (c.q : Int)) * 2 ^ d + c.q) / (2 * c.q) % 2 ^ d

/-- `round(x * Q / 2^d)`, ties rounded up, of a code `x` (43_codec.md R203). -/
def roundedBack (c : Cfg) (d : Nat) (x : Int) : Int := (2 * x * c.q + 2 ^ d) / (2 * 2 ^ d)

/-- `noise(seed, n)` of the KEM (45_kem.md R262). -/
def kemNoiseOf (c : Cfg) (m : KemCfg) (seed : Bytes) (n : Nat) : Poly :=
  cbdOf (xofbBytes c.hash (seed ++ leBytes c.nonceBytes n) (64 * m.eta)) m.eta

/-- `pk` and `skpke` are `pke_keygen(d)` (45_kem.md R266): `rho` and the codes of `t` at `DT` bits; the transforms of the secret
vector at `LOGQ` bits. -/
def KemKeysOf (c : Cfg) (m : KemCfg) (d pk skpke : Bytes) : Prop :=
  let rho := slice (hashG c.hash d) 0 32
  let sigma := slice (hashG c.hash d) 32 64
  let sv := (List.range m.k).map (kemNoiseOf c m sigma)
  let ev := (List.range m.k).map (fun i => kemNoiseOf c m sigma (m.k + i))
  ∃ ahat, IsMatrix c rho m.k m.k ahat
    ∧ slice pk 0 32 = rho
    ∧ codesAt pk 32 m.dt m.k = mapCoeffs (roundedCode c m.dt) (List.zipWith (addMod c) (matTimes c ahat sv) ev)
    ∧ codesAt skpke 0 (logq c) m.k = sv.map (exactNtt c)

/-- `ct` is `pke_enc(pk, msg, coins)` (45_kem.md R267; the matrix transposed, R263): the codes of `u` at `DU` bits, then those of `v`
at `DV` bits. -/
def KemCiphertextOf (c : Cfg) (m : KemCfg) (pk msg coins ct : Bytes) : Prop :=
  let t := mapCoeffs (roundedBack c m.dt) (codesAt pk 32 m.dt m.k)
  let rv := (List.range m.k).map (kemNoiseOf c m coins)
  let e1 := (List.range m.k).map (fun i => kemNoiseOf c m coins (m.k + i))
  let e2 := kemNoiseOf c m coins (2 * m.k)
  ∃ ahat, IsMatrix c (slice pk 0 32) m.k m.k ahat ∧
    let ahatT := (List.range m.k).map fun i => (List.range m.k).map fun j => (ahat.getD j []).getD i zeroPoly
    let tr := exactIntt c (exactDot c (t.map (exactNtt c)) (rv.map (exactNtt c)))
    codesAt ct 0 m.du m.k = mapCoeffs (roundedCode c m.du) (List.zipWith (addMod c) (matTimes c ahatT rv) e1)
      ∧ codesAt ct (32 * m.du * m.k) m.dv 1
          = [(List.range ringDegree).map fun n =>
              roundedCode c m.dv (tr.getD n 0 + e2.getD n 0 + roundedBack c 1 (bitAt msg n))]

/-- `msg` is `pke_dec(skpke, ct)` (45_kem.md R268): bit `n` is the 1-bit code of coefficient `n` of `v - itr(<shat, tr(u)>)`. -/
def KemMessageOf (c : Cfg) (m : KemCfg) (skpke ct msg : Bytes) : Prop :=
  let u := mapCoeffs (roundedBack c m.du) (codesAt ct 0 m.du m.k)
  let v := mapCoeffs (roundedBack c m.dv) (codesAt ct (32 * m.du * m.k) m.dv 1)
  let su := exactIntt c (exactDot c (codesAt skpke 0 (logq c) m.k) (u.map (exactNtt c)))
  msg.length = 32
    ∧ ∀ n, n < ringDegree → (bitAt msg n : Int) = roundedCode c 1 ((v.getD 0 []).getD n 0 - su.getD n 0)

/-! ## Domain tags (10_state.md R24, 70_reset_and_hazards.md R367): ghost data, no part of State (log 19) -/

/-- D0's order tag. -/
inductive Order where
  | normal | transform
  deriving DecidableEq, Repr

/-- The domain of a ring element: its order, and the power of `R` by which the stored value differs from the mathematical
one. -/
structure Tag where
  order : Order
  scale : Int
  deriving DecidableEq, Repr

/-- What a slot holds: a ring element of a domain, or the codes that `COMPRESS` writes and `DECOMPRESS` reads. -/
inductive Content where
  | element (tag : Tag)
  | codes
  deriving DecidableEq, Repr

/-- An element in normal order at scale 1. -/
def Content.plain : Content := .element { order := .normal, scale := 0 }

/-- The tags of the slots, and the scales of the scalar registers as powers of `R`. Absent where nothing is declared: what the
host or a zeroing command wrote, which mixes with nothing (log 19). -/
structure Tags where
  slots : List (Option Content)
  scalars : List (Option Int)
  deriving DecidableEq, Repr

/-- The tag of a sum: the common domain of its operands. Here and below the outer `none` is a mixture. -/
def sumTag (a b : Option Content) : Option (Option Content) :=
  match a, b with
  | some .codes, _ => none
  | _, some .codes => none
  | some (.element x), some (.element y) => if x = y then some (some (.element x)) else none
  | _, _ => some none

/-- The tag after changing the order from `src` to `dst`. -/
def turnTag (src dst : Order) (a : Option Content) : Option (Option Content) :=
  match a with
  | some .codes => none
  | some (.element x) => if x.order = src then some (some (.element { x with order := dst })) else none
  | none => some none

/-- The tag of a base product. -/
def productTag (a b : Option Content) : Option (Option Content) :=
  match a, b with
  | some .codes, _ => none
  | _, some .codes => none
  | some (.element x), some (.element y) =>
    if x.order = .transform ∧ y.order = .transform then
      some (some (.element { order := .transform, scale := x.scale + y.scale - 1 }))
    else none
  | some (.element x), none => if x.order = .transform then some none else none
  | none, some (.element y) => if y.order = .transform then some none else none
  | none, none => some none

/-- The tag after a multiplication by `R`. Codes have no scale. -/
def montgomeryTag (a : Option Content) : Option Content :=
  match a with
  | some (.element x) => some (.element { x with scale := x.scale + 1 })
  | _ => none

/-- The tags after a command that completes without error, or `none` where an input is not of the domain that the table of
70_reset_and_hazards.md R367 expects (R368). `order` is the one declared for what `REJPARSE` and `GENUNI` write, `layout` what the
layout rule of the object says of what `UNPACK` writes. The ranges of the table are not part of a tag. -/
def tagsAfter (order : Order) (layout : Option Content) (t : Tags) (i : Instr) : Option Tags :=
  let tag := fun k => t.slots.getD k none
  let scale := fun n => t.scalars.getD n none
  let put := fun (pd : Nat) (r : Option (Option Content)) => r.map (fun x => { t with slots := t.slots.set pd x })
  let putScale := fun (sd : Nat) (x : Option Int) => some { t with scalars := t.scalars.set sd x }
  match i with
  | .nop | .xinit _ | .xabsorb | .xsqueeze | .pack _ _ => some t
  | .mred sd sa => putScale sd ((scale sa).map (· - 1))
  | .bred sd sa => putScale sd (scale sa)
  | .fqmul sd sa sb =>
    putScale sd (match scale sa, scale sb with
      | some x, some y => some (x + y - 1)
      | _, _ => none)
  | .padd pd pa pb | .psub pd pa pb => put pd (sumTag (tag pa) (tag pb))
  | .pred pd pa => put pd (some (tag pa))
  | .ptomont pd pa => put pd (some (montgomeryTag (tag pa)))
  | .ntt pd pa => put pd (turnTag .normal .transform (tag pa))
  | .intt pd pa => put pd (turnTag .transform .normal (tag pa))
  | .basemul pd pa pb => put pd (productTag (tag pa) (tag pb))
  | .cbd pd _ | .getnoise pd _ | .challenge pd => put pd (some (some .plain))
  | .rejparse pd | .genuni pd => put pd (some (some (.element { order := order, scale := 0 })))
  | .unpack pd _ => put pd (some layout)
  | .compress pd pa _ => put pd (if tag pa = none ∨ tag pa = some .plain then some (some .codes) else none)
  | .decompress pd pa _ => put pd (if tag pa = none ∨ tag pa = some .codes then some (some .plain) else none)
  | .zeroize _ | .sigKeygen _ | .sigSign _ | .sigVerify | .kemKeygen _ | .kemEncap _ | .kemDecap =>
    some { slots := t.slots.map fun _ => none, scalars := t.scalars.map fun _ => none }

end Sys2Proof.Machine
end

