-- ==== Sys2Proof/Certificates/Slice0/Obligations.lean ====
section
/-! DEFINITION. The statements for the provers. A premise `Inv s` is the machine's invariant (Safety.lean), stated of the
reset state and of every step in `Obligations.ResetMeetsInvariant` and `Obligations.StepKeepsInvariant`. The equation
`exec i s = .next { s with ... }` says at once that the command completes, what it writes, and that everything it does not
write is unchanged. -/

open Sys2Proof Sys2Proof.Machine

/-! ## Encoding -/

/-- Nine command words written out from the fields of 30_encoding.md R91 and the opcodes of R97, each with the command it
stands for. -/
def Obligations.DecodeSampleWords : Prop :=
  decode 0x00000000#32 = .ok .nop
    ∧ decode 0x02000001#32 = .ok (.zeroize 1)
    ∧ decode 0x00031212#32 = .ok (.fqmul 2 1 3)
    ∧ decode 0x00006521#32 = .ok (.psub 5 6 0)
    ∧ decode 0x00009830#32 = .ok (.ntt 8 9)
    ∧ decode 0x00100040#32 = .ok (.xinit 1)
    ∧ decode 0x00C03050#32 = .ok (.pack 3 12)
    ∧ decode 0x04000061#32 = .ok (.sigSign 2)
    ∧ decode 0x00000072#32 = .ok .kemDecap

/-- Decoding what the encoder writes gives the command back, for every command whose operands fit their fields
(30_encoding.md R91, R92, R97). -/
def Obligations.DecodeEncode : Prop :=
  ∀ i : Instr, i.wellFormed = true → decode (encode i) = .ok i

/-- A word that decodes is the one word of a command whose operands fit their fields, and it matches the row of the opcode
table that bears the command's mnemonic, and so has every bit its format fixes as the format fixes it (30_encoding.md R92,
R97). -/
def Obligations.EncodeDecode : Prop :=
  ∀ (w : Word) (i : Instr), decode w = .ok i →
    i.wellFormed = true ∧ encode i = w ∧ w &&& i.format.mask = BitVec.ofNat 32 i.opcode
      ∧ (i.format.mask, BitVec.ofNat 32 i.opcode) = rowOf i ∧ rowOf i ∈ opcodeRows

/-- 30_encoding.md R98: a word that matches no row of the table ends with `ERR_ILLEGAL_CMD` and changes no state other
than `STATUS` (beside what acceptance does); a word that matches a row decodes. -/
def Obligations.IllegalWordsEndWithError : Prop :=
  ∀ (w : Word) (s : State), cfgValid s.cfg = true →
    ((∃ row ∈ opcodeRows, w &&& row.1 = row.2) ↔ ∃ i, decode w = .ok i)
      ∧ ((¬ ∃ row ∈ opcodeRows, w &&& row.1 = row.2) →
          step (s.withFetchWord 32 w.toNat)
            = .next { accept w s with status := erred .illegalCmd (accept w s).status })

/-! ## The step -/

/-- The engine's turn runs the command that the captured word decodes to (30_encoding.md R96 steps 1 to 5, 20_memory.md
R70): when the turn is listed on the bus, and when nothing is listed; and the step after `withFetchWord` runs that word's
command on the state its acceptance leaves. With no command in flight the turn does nothing (log 6). -/
def Obligations.StepRunsCommand : Prop :=
  ∀ (s : State) (i : Instr) (rest : List BusEvent), cfgValid s.cfg = true →
    (s.status.busy = true → decode s.latch.word = .ok i →
        step { s with bus := .core :: rest } = exec i { s with bus := rest } ∧ step { s with bus := [] } = exec i { s with bus := [] })
      ∧ (∀ w : Word, decode w = .ok i → step (s.withFetchWord 32 w.toNat) = exec i (accept w s))
      ∧ (s.status.busy = false → step { s with bus := .core :: rest } = .next { s with bus := rest })

/-! ## Reset -/

/-- The reset state of every configuration meets the invariant, and so does `State.reset` (10_state.md R49). -/
def Obligations.ResetMeetsInvariant : Prop :=
  (∀ c : Cfg, cfgValid c = true → Inv (State.resetOf c)) ∧ Inv State.reset

/-- Every step keeps the invariant: the configuration stays legal, there are `NP` slots of 256 coefficients of `W` bits,
buffer memory stays in canonical form and inside `BMEM_SIZE`, `STATUS` stays consistent (`ERRCODE` is 0 exactly without
`ERR`, `HALT` goes with code 5, a busy core has neither `DONE` nor `ERR`), and the XOF unit never passes a limit. -/
def Obligations.StepKeepsInvariant : Prop :=
  ∀ s t : State, Inv s → step s = .next t → Inv t

/-- What reset leaves (10_state.md R49): `STATUS`, `RESULT`, `RETRY`, `CTRL`, `ARG` zero, no XOF, the interrupt line low, no
byte of `B` with a value. That slots and scalar registers read 0 is the model's choice (log 3, log 4). -/
def Obligations.ResetValues : Prop :=
  ∀ c : Cfg,
    statusWord (State.resetOf c).status = 0 ∧ (State.resetOf c).result = 0 ∧ (State.resetOf c).retry = 0
      ∧ ctrlWord (State.resetOf c) = 0 ∧ (∀ k, k < 6 → (State.resetOf c).arg.getD k 1 = 0) ∧ (State.resetOf c).xof = none
      ∧ irq (State.resetOf c) = false ∧ (∀ a, (State.resetOf c).mem.read a = none) ∧ (State.resetOf c).cfg = c
      ∧ (∀ k i, coeff (State.resetOf c) k i = 0) ∧ ∀ n, getScalar (State.resetOf c) n = 0

/-- A write of 1 to `CTRL.SRST` is accepted in every state and does what the reset input does (70_reset_and_hazards.md
R361): the reset state of the same configuration. The draws, the bus and the word last read lie outside the core and go on
(log 20). -/
def Obligations.SoftResetIsHardwareReset : Prop :=
  ∀ (s : State) (v : Word) (rest : List BusEvent), cfgValid s.cfg = true → v.getLsbD 1 = true →
    step { s with bus := .write .word 0x040 v :: rest } = step { s with bus := .resetPin :: rest }
      ∧ step { s with bus := .resetPin :: rest }
          = .next { State.resetOf s.cfg with draws := s.draws, bus := rest, busData := s.busData }

/-! ## The register block -/

/-- 10_state.md R31: a `CMD` write is accepted exactly when `BUSY = 0 and ERR = 0 and HALT = 0`, and then the word is the
command that the engine's next turn runs; at any other time it is dropped and only `CMDOVR` changes; a read of `CMD`
returns 0. The interrupt line is `CTRL.IE` with `DONE` or `CMDOVR` (R45, 60_exceptions.md R330), so a dropped write raises it
where enabled and an accepted one takes `DONE`'s part away. -/
def Obligations.CmdWriteAcceptedOrDropped : Prop :=
  ∀ (s : State) (w : Word) (rest : List BusEvent), cfgValid s.cfg = true →
    (s.status.busy = false ∧ s.status.err = false ∧ s.status.halt = false →
        step { s with bus := .write .word 0x044 w :: rest }
          = .next { s with
              bus := rest
              latch := { word := w, args := s.arg }
              status := { s.status with busy := true, done := false }
              result := 0
              retry := 0 }
        ∧ ∀ i, decode w = .ok i →
            step { s with
                bus := []
                latch := { word := w, args := s.arg }
                status := { s.status with busy := true, done := false }
                result := 0
                retry := 0 }
              = exec i { s with
                  bus := []
                  latch := { word := w, args := s.arg }
                  status := { s.status with busy := true, done := false }
                  result := 0
                  retry := 0 })
      ∧ (¬ (s.status.busy = false ∧ s.status.err = false ∧ s.status.halt = false) →
          step { s with bus := .write .word 0x044 w :: rest }
            = .next { s with bus := rest, status := { s.status with cmdovr := true } })
      ∧ (∀ t : State, irq t = (t.ie && (t.status.done || t.status.cmdovr)))
      ∧ irq { s with bus := rest, status := { s.status with cmdovr := true } } = s.ie
      ∧ irq { s with bus := rest, status := { s.status with busy := true, done := false } } = (s.ie && s.status.cmdovr)
      ∧ (s.status.busy = false →
          step { s with bus := .read .word 0x044 :: rest } = .next { s with bus := rest, busData := 0 })

/-- 60_exceptions.md R327, with the write-1-to-clear bits of 10_state.md R27: a write of 1 to `STATUS.ERR` clears `ERR` and
`ERRCODE` unless `HALT` is 1, and then `CMD` writes are accepted again; while `ERR = 1` a `CMD` write is dropped and leaves
`ERR` and `ERRCODE` as they are. Clearing `DONE` and `CMDOVR` makes the interrupt line low (60_exceptions.md R330). -/
def Obligations.ReturnFromError : Prop :=
  ∀ (s : State) (v w : Word) (rest : List BusEvent), cfgValid s.cfg = true → s.status.busy = false →
    (∃ t, step { s with bus := .write .word 0x060 v :: rest } = .next t
        ∧ t = { s with bus := rest, status := t.status }
        ∧ t.status.busy = false ∧ t.status.halt = s.status.halt
        ∧ t.status.done = (s.status.done && !v.getLsbD 1)
        ∧ t.status.cmdovr = (s.status.cmdovr && !v.getLsbD 4)
        ∧ t.status.err = (s.status.err && (s.status.halt || !v.getLsbD 2))
        ∧ t.status.errcode = (if v.getLsbD 2 && !s.status.halt then 0 else s.status.errcode)
        ∧ (v.getLsbD 2 = true → s.status.halt = false → canAccept t.status = true)
        ∧ (v.getLsbD 1 = true → v.getLsbD 4 = true → irq t = false))
      ∧ (s.status.err = true →
          step { s with bus := .write .word 0x044 w :: rest }
            = .next { s with bus := rest, status := { s.status with cmdovr := true } })

/-- The registers of an idle core over the bus: `ID` and every field of every `CFG_*` register (10_state.md R33 to R39; the `CS`
field by log 14); `ARG<k>` written whole and read back (R32); the two words of a scalar register read as its halves, and
a write to one keeps the other (R25); `STATUS` as read has each flag at its bit, the code in bits 15:8 and 0 elsewhere
(R27); `RESULT` and `RETRY` read whole (R28, R29); `CTRL` reads `IE` in bit 0 and 0 elsewhere, and keeps only `IE` (R30);
`ID`, `CFG_*`, `RESULT`, `RETRY` and reserved offsets ignore writes, and reserved offsets read 0 (R39, 20_memory.md R61,
93_implementation_defined.md U7). -/
def Obligations.RegisterBlock : Prop :=
  ∀ (s : State) (v : Word) (k n : Nat) (rest : List BusEvent), cfgValid s.cfg = true → s.status.busy = false → k < 6 → n < 4 →
    step { s with bus := .read .word 0x000 :: rest } = .next { s with bus := rest, busData := 0x4D425201 }
      ∧ (∀ off, off % 4 = 0 → off ≤ 0x028 →
          ∃ x : Word, step { s with bus := .read .word off :: rest } = .next { s with bus := rest, busData := x }
            ∧ HasFields x (identityFields s.cfg off))
      ∧ (∀ off, off % 4 = 0 → off ≤ 0x028 ∨ off = 0x064 ∨ off = 0x068 ∨ ReservedOffset s.cfg off →
          step { s with bus := .write .word off v :: rest } = .next { s with bus := rest })
      ∧ (∀ off, off % 4 = 0 → ReservedOffset s.cfg off →
          step { s with bus := .read .word off :: rest } = .next { s with bus := rest, busData := 0 })
      ∧ step { s with bus := .read .word 0x040 :: rest } = .next { s with bus := rest, busData := if s.ie then 1 else 0 }
      ∧ step { s with bus := .read .word 0x064 :: rest } = .next { s with bus := rest, busData := s.result }
      ∧ step { s with bus := .read .word 0x068 :: rest } = .next { s with bus := rest, busData := s.retry }
      ∧ step { s with bus := .read .word (0x080 + 8 * n) :: rest }
          = .next { s with bus := rest, busData := (s.sreg.getD n 0).extractLsb' 0 32 }
      ∧ step { s with bus := .read .word (0x084 + 8 * n) :: rest }
          = .next { s with bus := rest, busData := (s.sreg.getD n 0).extractLsb' 32 32 }
      ∧ step { s with bus := .write .word (0x048 + 4 * k) v :: rest } = .next { s with bus := rest, arg := s.arg.setIfInBounds k v }
      ∧ step { s with bus := .read .word (0x048 + 4 * k) :: rest } = .next { s with bus := rest, busData := s.arg.getD k 0 }
      ∧ (∃ t, step { s with bus := .write .word (0x080 + 8 * n) v :: rest } = .next t ∧ t = { s with bus := rest, sreg := t.sreg }
          ∧ (∀ m, m ≠ n → t.sreg.getD m 0 = s.sreg.getD m 0)
          ∧ (t.sreg.getD n 0).extractLsb' 0 32 = v ∧ (t.sreg.getD n 0).extractLsb' 32 32 = (s.sreg.getD n 0).extractLsb' 32 32)
      ∧ (∃ t, step { s with bus := .write .word (0x084 + 8 * n) v :: rest } = .next t ∧ t = { s with bus := rest, sreg := t.sreg }
          ∧ (∀ m, m ≠ n → t.sreg.getD m 0 = s.sreg.getD m 0)
          ∧ (t.sreg.getD n 0).extractLsb' 32 32 = v ∧ (t.sreg.getD n 0).extractLsb' 0 32 = (s.sreg.getD n 0).extractLsb' 0 32)
      ∧ (∃ x : Word, step { s with bus := .read .word 0x060 :: rest } = .next { s with bus := rest, busData := x }
          ∧ x.getLsbD 0 = s.status.busy ∧ x.getLsbD 1 = s.status.done ∧ x.getLsbD 2 = s.status.err
          ∧ x.getLsbD 3 = s.status.halt ∧ x.getLsbD 4 = s.status.cmdovr ∧ x.extractLsb' 5 3 = 0
          ∧ x.extractLsb' 8 8 = s.status.errcode ∧ x.extractLsb' 16 16 = 0)
      ∧ (v.getLsbD 1 = false →
          step { s with bus := .write .word 0x040 v :: rest } = .next { s with bus := rest, ie := v.getLsbD 0 })

/-! ## The windows -/

/-- 20_memory.md R64: the word at offset `0x10000 + a` of the BMEM window is `B[a]` and the three bytes after it, little
endian, a write replaces all four bytes and no other; a read of a byte without a value is a fault (10_state.md R50). -/
def Obligations.BufferWindowLittleEndian : Prop :=
  ∀ (s : State) (a : Nat) (v : Word) (rest : List BusEvent), Inv s → s.status.busy = false → a % 4 = 0 → a < s.cfg.bmemSize →
    (∃ m : Memory, step { s with bus := .write .word (0x10000 + a) v :: rest } = .next { s with bus := rest, mem := m }
        ∧ Stored s.mem m a [v.extractLsb' 0 8, v.extractLsb' 8 8, v.extractLsb' 16 8, v.extractLsb' 24 8])
      ∧ (∀ b0 b1 b2 b3 : Byte, s.mem.read a = some b0 → s.mem.read (a + 1) = some b1 → s.mem.read (a + 2) = some b2 →
          s.mem.read (a + 3) = some b3 →
          ∃ x : Word, step { s with bus := .read .word (0x10000 + a) :: rest } = .next { s with bus := rest, busData := x }
            ∧ x.toNat = b0.toNat + 2 ^ 8 * b1.toNat + 2 ^ 16 * b2.toNat + 2 ^ 24 * b3.toNat)
      ∧ (∀ k, k < 4 → s.mem.read (a + k) = none →
          ∃ e, step { s with bus := .read .word (0x10000 + a) :: rest } = .fault (.noValue e) ∧ a ≤ e ∧ e < a + 4
            ∧ s.mem.read e = none)

/-- 10_state.md R41 and R42: offset `0x20000 + 4*(256*sl + i)` of the PMEM window is coefficient `i` of slot `sl`; a read
returns it sign-extended, a write stores `wrap_W` of the word there and nowhere else; a slot `NP` or above reads 0 and
ignores writes; the ZROM window reads the twiddle `(ZETA^brv7(i) * R) mod± Q` sign-extended and ignores writes. -/
def Obligations.PolynomialAndTwiddleWindows : Prop :=
  ∀ (s : State) (sl i z : Nat) (v : Word) (rest : List BusEvent), Inv s → s.status.busy = false → sl < 16 → i < 256 → z < 128 →
    (∃ x : Word, step { s with bus := .read .word (0x20000 + 4 * (256 * sl + i)) :: rest } = .next { s with bus := rest, busData := x }
        ∧ x.toInt = if sl < s.cfg.np then coeff s sl i else 0)
      ∧ (∃ t, step { s with bus := .write .word (0x20000 + 4 * (256 * sl + i)) v :: rest } = .next t
          ∧ t = { s with bus := rest, p := t.p } ∧ t.p.length = s.p.length
          ∧ ∀ sl' i', coeff t sl' i' = if sl' = sl ∧ i' = i ∧ sl < s.cfg.np then wrap s.cfg.w v.toInt else coeff s sl' i')
      ∧ (∃ x : Word, step { s with bus := .read .word (0x30000 + 4 * z) :: rest } = .next { s with bus := rest, busData := x }
          ∧ (x.toInt - s.cfg.zeta ^ brv7 z * 2 ^ s.cfg.w) % (s.cfg.q : Int) = 0
          ∧ -(s.cfg.q : Int) < 2 * x.toInt ∧ 2 * x.toInt < s.cfg.q)
      ∧ step { s with bus := .write .word (0x30000 + 4 * z) v :: rest } = .next { s with bus := rest }

/-- 20_memory.md R63 and R72: an access that is not an aligned word is refused; while `BUSY = 1` the host reads `STATUS`, `ID` and
every `CFG_*` register as on an idle core (the `CS` field by log 14) and writes `CTRL.IE`, a `CMD` write is dropped with
`CMDOVR <- 1`, and every other access is refused (log 13). A write of `CTRL.SRST` is `Obligations.SoftResetIsHardwareReset`'s. -/
def Obligations.HostAccessesRefused : Prop :=
  ∀ (s : State) (off : Nat) (v : Word) (size : AccessSize) (rest : List BusEvent), cfgValid s.cfg = true →
    (size ≠ .word ∨ off % 4 ≠ 0 →
        step { s with bus := .read size off :: rest } = .refused (.unalignedAccess off)
        ∧ step { s with bus := .write size off v :: rest } = .refused (.unalignedAccess off))
      ∧ (off % 4 = 0 → s.status.busy = true → off ≠ 0x060 → 0x028 < off →
          step { s with bus := .read .word off :: rest } = .refused (.busyAccess off))
      ∧ (off % 4 = 0 → s.status.busy = true → off ≠ 0x040 → off ≠ 0x044 →
          step { s with bus := .write .word off v :: rest } = .refused (.busyAccess off))
      ∧ (s.status.busy = true →
          step { s with bus := .read .word 0x060 :: rest } = .next { s with bus := rest, busData := statusWord s.status }
          ∧ (∀ o, o % 4 = 0 → o ≤ 0x028 →
              ∃ x : Word, step { s with bus := .read .word o :: rest } = .next { s with bus := rest, busData := x }
                ∧ HasFields x (identityFields s.cfg o))
          ∧ (v.getLsbD 1 = false →
              step { s with bus := .write .word 0x040 v :: rest } = .next { s with bus := rest, ie := v.getLsbD 0 })
          ∧ step { s with bus := .write .word 0x044 v :: rest }
              = .next { s with bus := rest, status := { s.status with cmdovr := true } })

/-! ## Whole-machine rules -/

/-- `HALT` is left only by the reset input or `CTRL.SRST` (60_exceptions.md R326). -/
def Obligations.HaltLeftOnlyByReset : Prop :=
  ∀ s t : State, s.status.halt = true → step s = .next t →
    t.status.halt = true ∨ (∃ rest, s.bus = .resetPin :: rest) ∨ ∃ v rest, s.bus = .write .word 0x040 v :: rest ∧ v.getLsbD 1 = true

/-- Every command either completes (`BUSY = 0`, `DONE = 1`, and so the interrupt line is `CTRL.IE`, 30_encoding.md R96 step 5,
60_exceptions.md R330), leaving `ARG`, `CTRL`, `CMDOVR`, the configuration, the captured command and the bus as they were,
or faults on a byte of one of its input buffers that has no value (10_state.md R50). No command is refused. -/
def Obligations.CommandsComplete : Prop :=
  ∀ (i : Instr) (s : State), Memory.wf s.mem →
    (∃ t, exec i s = .next t
        ∧ t = { s with p := t.p, sreg := t.sreg, mem := t.mem, xof := t.xof, status := t.status, result := t.result,
                       retry := t.retry, draws := t.draws }
        ∧ t.status.busy = false ∧ t.status.done = true ∧ t.status.cmdovr = s.status.cmdovr ∧ irq t = s.ie)
      ∨ ∃ a, exec i s = .fault (.noValue a) ∧ s.mem.read a = none ∧ a < s.cfg.bmemSize
          ∧ ∃ b ∈ inputBuffers s i, b.1 ≤ a ∧ a < b.1 + b.2

/-- The checks before execution (30_encoding.md R95, R96; 20_memory.md R67, R68; 60_exceptions.md R320, R324, R325): where one
fails, the command ends with the first failing one's code and nothing but `STATUS` changes; where none fails, it completes
without an error or, for the commands R324 lists, with the fatal one. A zero-length operand is in bounds (log 21). -/
def Obligations.ErrorsExactlyAsListed : Prop :=
  ∀ (i : Instr) (s : State),
    (∀ e, checkError s i = some e → exec i s = .next { s with status := erred e s.status })
      ∧ (checkError s i = none → ∀ t, exec i s = .next t →
          t.status = completed s.status ∨ (canExhaust i = true ∧ t.status = halted s.status))

/-- 60_exceptions.md R323: after a recoverable error `P`, `s`, `B`, `xof` and `ARG` hold exactly what they held when the
command was accepted; `RESULT` and `RETRY` stay as acceptance left them (R322). -/
def Obligations.RecoverableErrorsPrecise : Prop :=
  ∀ (i : Instr) (s t : State), s.status.err = false → exec i s = .next t → t.status.err = true → t.status.errcode ≠ 5 →
    1 ≤ t.status.errcode ∧ t.status.errcode ≤ 4
      ∧ t = { s with status := { s.status with busy := false, done := true, err := true, errcode := t.status.errcode } }

/-- The fatal error (60_exceptions.md R326): working state zeroed, the error recorded, `HALT = 1`, `B`, `ARG` and everything else
unchanged; only the commands R324 lists end so; `RETRY` is `MAX_SIGN_RETRIES` after `SIG_SIGN` (R320; log 12). -/
def Obligations.FatalErrorEffect : Prop :=
  ∀ (i : Instr) (s t : State), s.status.halt = false → exec i s = .next t → t.status.halt = true →
    canExhaust i = true
      ∧ t = { s with
          p := List.replicate s.cfg.np zeroPoly
          sreg := Vector.replicate 4 0
          xof := none
          retry := t.retry
          draws := t.draws
          status := { s.status with busy := false, done := true, err := true, errcode := 5, halt := true } }
      ∧ ((∃ mode, i = .sigSign mode) → t.retry = BitVec.ofNat 32 s.cfg.maxSignRetries)
      ∧ ((¬ ∃ mode, i = .sigSign mode) → t.retry = s.retry)

/-- Entropy enters at `SIG_KEYGEN`, `KEM_KEYGEN` and `KEM_ENCAP` with `MODE = 0` and the coin at `SIG_SIGN` with `MODE = 2`; no other
command makes a draw (70_reset_and_hazards.md R371, 10_state.md R47, R48, 42_sampler.md R187). -/
def Obligations.OnlyFourFormsDraw : Prop :=
  ∀ (i : Instr) (s t : State), exec i s = .next t →
    (t.draws.entropy ≠ s.draws.entropy → i = .sigKeygen 0 ∨ i = .kemKeygen 0 ∨ i = .kemEncap 0)
      ∧ (t.draws.coins ≠ s.draws.coins → i = .sigSign 2)
      ∧ (t.draws ≠ s.draws → i = .sigKeygen 0 ∨ i = .kemKeygen 0 ∨ i = .kemEncap 0 ∨ i = .sigSign 2)

/-- A protocol command that reaches execution leaves every slot and scalar register 0 and no XOF, on success and on the fatal
error alike; one that ends in a check changes none of this (46_system.md R293). -/
def Obligations.ProtocolCommandsZeroWorkingState : Prop :=
  ∀ (i : Instr) (s t : State), isProtocol i = true → exec i s = .next t →
    (checkError s i = none →
        t.p = List.replicate s.cfg.np zeroPoly ∧ t.sreg = Vector.replicate 4 0 ∧ t.xof = none)
      ∧ (checkError s i ≠ none → t.p = s.p ∧ t.sreg = s.sreg ∧ t.xof = s.xof ∧ t.mem = s.mem)

/-- 42_sampler.md R176: the nine commands that use the XOF internally end with `xof <- none` when they reach execution, and
leave `xof` unchanged when they end in a check; every other command but `ZEROIZE` and the three `X*` commands leaves it
unchanged. -/
def Obligations.XofAfterCommand : Prop :=
  ∀ (i : Instr) (s t : State), exec i s = .next t →
    (usesXofInside i = true → checkError s i = none → t.xof = none)
      ∧ (checkError s i ≠ none → t.xof = s.xof)
      ∧ (usesXofInside i = false → (∀ mode, i ≠ .zeroize mode) → (∀ v, i ≠ .xinit v) → i ≠ .xabsorb → i ≠ .xsqueeze → t.xof = s.xof)

/-! ## System commands -/

/-- 46_system.md R290: `NOP` runs steps 0 and 5 like every command and changes nothing else; after reset it leaves
`STATUS = 0x0000_0002`. -/
def Obligations.NopResult : Prop :=
  (∀ s : State, exec .nop s = .next { s with status := { s.status with busy := false, done := true } })
    ∧ (∀ s : State, exec .nop (accept 0 s)
        = .next { s with
            latch := { word := 0, args := s.arg }
            result := 0
            retry := 0
            status := { s.status with busy := false, done := true } })
    ∧ ∀ c : Cfg, ∃ t, exec .nop (accept 0 (State.resetOf c)) = .next t ∧ statusWord t.status = 0x00000002

/-- 46_system.md R291: `ZEROIZE` writes 0 to every coefficient and scalar register and sets `xof <- none`; with `MODE = 1` every byte
of `B` is 0 as well; a `MODE` above 1 is illegal. -/
def Obligations.ZeroizeResult : Prop :=
  ∀ (s : State) (mode : Nat),
    exec (.zeroize 0) s
        = .next { s with
            p := List.replicate s.cfg.np zeroPoly
            sreg := Vector.replicate 4 0
            xof := none
            status := completed s.status }
      ∧ (∃ m : Memory, exec (.zeroize 1) s
          = .next { s with
              p := List.replicate s.cfg.np zeroPoly
              sreg := Vector.replicate 4 0
              xof := none
              mem := m
              status := completed s.status }
          ∧ (∀ a, a < s.cfg.bmemSize → m.read a = some 0) ∧ ∀ a, s.cfg.bmemSize ≤ a → m.read a = none)
      ∧ (1 < mode → exec (.zeroize mode) s = .next { s with status := erred .illegalCmd s.status })

/-! ## Scalar reducers -/

/-- 40_reducer.md R124 and R121: `MRED` writes `montgomery_reduce` of the low `2W` bits of the source, sign-extended; it is
congruent to `a * R^(-1)` while no wrap occurs (R133) and lies in `(-Q, Q)` for `|a| < Q * 2^(W-1)`
(bounds the spec marks as derived); a field above 3 is illegal. -/
def Obligations.MredResult : Prop :=
  ∀ (s : State) (sd sa : Nat), cfgValid s.cfg = true →
    (sd < 4 → sa < 4 →
        ∃ r : Int, exec (.mred sd sa) s
            = .next { s with sreg := s.sreg.setIfInBounds sd (BitVec.ofInt 64 r), status := completed s.status }
          ∧ IsMontgomery s.cfg (wrap (2 * s.cfg.w) (getScalar s sa)) r
          ∧ ((wrap (2 * s.cfg.w) (getScalar s sa)).natAbs < 2 ^ (2 * s.cfg.w - 1) - s.cfg.q * 2 ^ (s.cfg.w - 1) →
              (r * 2 ^ s.cfg.w - wrap (2 * s.cfg.w) (getScalar s sa)) % (s.cfg.q : Int) = 0)
          ∧ ((wrap (2 * s.cfg.w) (getScalar s sa)).natAbs < s.cfg.q * 2 ^ (s.cfg.w - 1) → r.natAbs < s.cfg.q))
      ∧ (¬ (sd < 4 ∧ sa < 4) → exec (.mred sd sa) s = .next { s with status := erred .illegalCmd s.status })

/-- 40_reducer.md R125: `BRED` writes the low `W` bits of the source, read as signed, modulo `Q`; a field above 3 is illegal. -/
def Obligations.BredResult : Prop :=
  ∀ (s : State) (sd sa : Nat), cfgValid s.cfg = true →
    (sd < 4 → sa < 4 →
        exec (.bred sd sa) s
          = .next { s with
              sreg := s.sreg.setIfInBounds sd (BitVec.ofInt 64 (wrap s.cfg.w (getScalar s sa) % (s.cfg.q : Int)))
              status := completed s.status }
        ∧ 0 ≤ wrap s.cfg.w (getScalar s sa) % (s.cfg.q : Int) ∧ wrap s.cfg.w (getScalar s sa) % (s.cfg.q : Int) < s.cfg.q)
      ∧ (¬ (sd < 4 ∧ sa < 4) → exec (.bred sd sa) s = .next { s with status := erred .illegalCmd s.status })

/-- 40_reducer.md R126 and R123: `FQMUL` writes `montgomery_reduce` of the exact product of the two sources' low `W` bits; it never
wraps, so the result is congruent to `a * b * R^(-1)`; a field above 3 is illegal. -/
def Obligations.FqmulResult : Prop :=
  ∀ (s : State) (sd sa sb : Nat), cfgValid s.cfg = true →
    (sd < 4 → sa < 4 → sb < 4 →
        ∃ r : Int, exec (.fqmul sd sa sb) s
            = .next { s with sreg := s.sreg.setIfInBounds sd (BitVec.ofInt 64 r), status := completed s.status }
          ∧ IsMontgomery s.cfg (wrap s.cfg.w (getScalar s sa) * wrap s.cfg.w (getScalar s sb)) r
          ∧ (r * 2 ^ s.cfg.w - wrap s.cfg.w (getScalar s sa) * wrap s.cfg.w (getScalar s sb)) % (s.cfg.q : Int) = 0)
      ∧ (¬ (sd < 4 ∧ sa < 4 ∧ sb < 4) →
          exec (.fqmul sd sa sb) s = .next { s with status := erred .illegalCmd s.status })

/-! ## Slot arithmetic -/

/-- 40_reducer.md R127 and R128: `PADD` and `PSUB` write `wrap_W` of the sum and of the difference of each pair of coefficients,
whichever slots coincide; a slot field `NP` or above is illegal. -/
def Obligations.AddSubResult : Prop :=
  ∀ (s : State) (pd pa pb : Nat), SlotsFit s →
    (pd < s.cfg.np → pa < s.cfg.np → pb < s.cfg.np →
        (∃ f : Poly, exec (.padd pd pa pb) s = .next { s with p := s.p.set pd f, status := completed s.status }
          ∧ f.length = 256 ∧ ∀ i, i < 256 → f.getD i 0 = wrap s.cfg.w (coeff s pa i + coeff s pb i))
        ∧ ∃ f : Poly, exec (.psub pd pa pb) s = .next { s with p := s.p.set pd f, status := completed s.status }
          ∧ f.length = 256 ∧ ∀ i, i < 256 → f.getD i 0 = wrap s.cfg.w (coeff s pa i - coeff s pb i))
      ∧ (¬ (pd < s.cfg.np ∧ pa < s.cfg.np ∧ pb < s.cfg.np) →
          exec (.padd pd pa pb) s = .next { s with status := erred .illegalCmd s.status }
          ∧ exec (.psub pd pa pb) s = .next { s with status := erred .illegalCmd s.status })

/-- 40_reducer.md R129: `PRED` writes the canonical residue of each coefficient; a slot field `NP` or above is illegal. -/
def Obligations.PredResult : Prop :=
  ∀ (s : State) (pd pa : Nat), Inv s →
    (pd < s.cfg.np → pa < s.cfg.np →
        ∃ f : Poly, exec (.pred pd pa) s = .next { s with p := s.p.set pd f, status := completed s.status }
          ∧ f.length = 256 ∧ ∀ i, i < 256 → f.getD i 0 = coeff s pa i % (s.cfg.q : Int))
      ∧ (¬ (pd < s.cfg.np ∧ pa < s.cfg.np) → exec (.pred pd pa) s = .next { s with status := erred .illegalCmd s.status })

/-- 40_reducer.md R130: `PTOMONT` writes `fqmul` of each coefficient with `R^2 mod Q`: congruent to the coefficient times `R`, in
`(-Q, Q)`; a slot field `NP` or above is illegal. -/
def Obligations.PtomontResult : Prop :=
  ∀ (s : State) (pd pa : Nat), Inv s →
    (pd < s.cfg.np → pa < s.cfg.np →
        ∃ f : Poly, exec (.ptomont pd pa) s = .next { s with p := s.p.set pd f, status := completed s.status }
          ∧ f.length = 256
          ∧ ∀ i, i < 256 →
              IsMontgomery s.cfg (coeff s pa i * (2 ^ (2 * s.cfg.w) % s.cfg.q : Nat)) (f.getD i 0)
              ∧ (f.getD i 0 - coeff s pa i * 2 ^ s.cfg.w) % (s.cfg.q : Int) = 0 ∧ (f.getD i 0).natAbs < s.cfg.q)
      ∧ (¬ (pd < s.cfg.np ∧ pa < s.cfg.np) → exec (.ptomont pd pa) s = .next { s with status := erred .illegalCmd s.status })

/-! ## Transform engine -/

/-- 41_transform.md R154: `NTT` writes what the loops of its pseudocode leave, bit for bit, wrapping included, and `k` runs
from 1 to 127; a slot field `NP` or above is illegal. -/
def Obligations.NttFollowsPseudocode : Prop :=
  ∀ (s : State) (pd pa : Nat), Inv s →
    (pd < s.cfg.np → pa < s.cfg.np →
        exec (.ntt pd pa) s
            = .next { s with p := s.p.set pd (nttLoops s.cfg (getSlot s pa)).1, status := completed s.status }
          ∧ (nttLoops s.cfg (getSlot s pa)).2 = 128)
      ∧ (¬ (pd < s.cfg.np ∧ pa < s.cfg.np) → exec (.ntt pd pa) s = .next { s with status := erred .illegalCmd s.status })

/-- 41_transform.md R155: `INTT` writes what the loops of its pseudocode leave, each coefficient then multiplied by the factor
`F = R / 128 mod Q` with `fqmul`; `k` runs from 127 down to 1; outputs lie in `(-Q, Q)`; a slot field `NP` or above is illegal. -/
def Obligations.InttFollowsPseudocode : Prop :=
  ∀ (s : State) (pd pa F : Nat), Inv s → F < s.cfg.q → F * 128 % s.cfg.q = 2 ^ s.cfg.w % s.cfg.q →
    (pd < s.cfg.np → pa < s.cfg.np →
        exec (.intt pd pa) s
            = .next { s with
                p := s.p.set pd ((inttLoops s.cfg (getSlot s pa)).1.map (fun x => fqmul s.cfg x F))
                status := completed s.status }
          ∧ (inttLoops s.cfg (getSlot s pa)).2 = 0
          ∧ ∀ x ∈ (inttLoops s.cfg (getSlot s pa)).1, (fqmul s.cfg x F).natAbs < s.cfg.q)
      ∧ (¬ (pd < s.cfg.np ∧ pa < s.cfg.np) → exec (.intt pd pa) s = .next { s with status := erred .illegalCmd s.status })

/-- 41_transform.md R152, R154, R158: with every input coefficient at most `B` in absolute value and
`B <= 2^(W-1) - 1 - 7*(Q-1)`, `NTT` writes the residues modulo the 128 factors `X^2 - g_i`, and every output is at most
`B + 7*(Q-1)`. -/
def Obligations.NttIsTheTransform : Prop :=
  ∀ (s : State) (pd pa B : Nat), Inv s → pd < s.cfg.np → pa < s.cfg.np →
    B + 7 * (s.cfg.q - 1) + 1 ≤ 2 ^ (s.cfg.w - 1) → (∀ i, (coeff s pa i).natAbs ≤ B) →
    ∃ f : Poly, exec (.ntt pd pa) s = .next { s with p := s.p.set pd f, status := completed s.status }
      ∧ f.length = 256
      ∧ (∀ i b, i < 128 → b < 2 → (f.getD (2 * i + b) 0 - residueSum s.cfg (coeff s pa) b i) % (s.cfg.q : Int) = 0)
      ∧ ∀ i, (f.getD i 0).natAbs ≤ B + 7 * (s.cfg.q - 1)

/-- 41_transform.md R157 (a): inside the bounds of R158 (the second of them on what the first command left), `INTT` after
`NTT` recovers the element modulo `Q`, and `NTT` after `INTT` does. -/
def Obligations.TransformRoundTrip : Prop :=
  ∀ (s : State) (pd pa : Nat), Inv s → pd < s.cfg.np → pa < s.cfg.np →
    (∀ B : Nat, (∀ i, (coeff s pa i).natAbs ≤ B) → B + 7 * (s.cfg.q - 1) + 1 ≤ 2 ^ (s.cfg.w - 1) →
        ∃ t, exec (.ntt pd pa) s = .next t
          ∧ ((∀ i, (coeff t pd i).natAbs + 1 ≤ 2 ^ (s.cfg.w - 2)) →
              ∃ u, exec (.intt pd pd) t = .next u
                ∧ ∀ i, i < 256 → (coeff u pd i - coeff s pa i) % (s.cfg.q : Int) = 0))
      ∧ ((∀ i, (coeff s pa i).natAbs + 1 ≤ 2 ^ (s.cfg.w - 2)) → 8 * s.cfg.q ≤ 2 ^ (s.cfg.w - 1) →
        ∃ t u, exec (.intt pd pa) s = .next t ∧ exec (.ntt pd pd) t = .next u
          ∧ ∀ i, i < 256 → (coeff u pd i - coeff s pa i) % (s.cfg.q : Int) = 0)

/-- 41_transform.md R156: `BASEMUL` multiplies pair `m` by the four `fqmul`s of its pseudocode with `ZROM[64 + m/2]`, negated for odd
`m`; inside the bound that R156 marks as derived the result is congruent to `R^(-1)` times the product modulo `X^2 - g_m`; a slot field `NP` or
above is illegal. R158's output bound, which the pseudocode can exceed, is not stated (log 24). -/
def Obligations.BasemulResult : Prop :=
  ∀ (s : State) (pd pa pb : Nat), Inv s →
    (pd < s.cfg.np → pa < s.cfg.np → pb < s.cfg.np →
        ∃ f : Poly, exec (.basemul pd pa pb) s = .next { s with p := s.p.set pd f, status := completed s.status }
          ∧ f.length = 256
          ∧ ∀ m, m < 128 →
              f.getD (2 * m) 0
                  = wrap s.cfg.w
                      (fqmul s.cfg (fqmul s.cfg (coeff s pa (2 * m + 1)) (coeff s pb (2 * m + 1)))
                          ((zrom s.cfg).getD (64 + m / 2) 0 * (if m % 2 = 0 then 1 else -1))
                        + fqmul s.cfg (coeff s pa (2 * m)) (coeff s pb (2 * m)))
              ∧ f.getD (2 * m + 1) 0
                  = wrap s.cfg.w
                      (fqmul s.cfg (coeff s pa (2 * m)) (coeff s pb (2 * m + 1))
                        + fqmul s.cfg (coeff s pa (2 * m + 1)) (coeff s pb (2 * m)))
              ∧ ((∀ i, (coeff s pa i).natAbs + s.cfg.q ≤ 2 ^ (s.cfg.w - 1)) → (∀ i, (coeff s pb i).natAbs + s.cfg.q ≤ 2 ^ (s.cfg.w - 1)) →
                  (f.getD (2 * m) 0 * 2 ^ s.cfg.w
                      - (coeff s pa (2 * m) * coeff s pb (2 * m)
                          + coeff s pa (2 * m + 1) * coeff s pb (2 * m + 1) * rootG s.cfg m)) % (s.cfg.q : Int) = 0
                  ∧ (f.getD (2 * m + 1) 0 * 2 ^ s.cfg.w
                      - (coeff s pa (2 * m) * coeff s pb (2 * m + 1)
                          + coeff s pa (2 * m + 1) * coeff s pb (2 * m))) % (s.cfg.q : Int) = 0))
      ∧ (¬ (pd < s.cfg.np ∧ pa < s.cfg.np ∧ pb < s.cfg.np) →
          exec (.basemul pd pa pb) s = .next { s with status := erred .illegalCmd s.status })

/-- The protocols' transform `tr` gives the residues modulo the 128 factors, canonical; it and its inverse `itr` undo each other up
to the canonical representative; the product of two polynomials through them is the product modulo `X^256 + 1` and `Q`; the inner
product `sum_j a[j] o v[j]` of two vectors of transform-order elements is the sum of the pair products modulo `X^2 - g_i`; and
`A*v`, for `Ahat[i][j]` the transform of `a_ij`, is the vector of the `sum_j a_ij * v[j]` in the ring; every result canonical
(44_signature.md R223, 45_kem.md R262, 41_transform.md R152, R157, 00_scope.md R16; log 17). -/
def Obligations.RingProductIsExact : Prop :=
  ∀ (c : Cfg) (f g : Poly) (a v : List Poly) (m : List (List Poly)), cfgValid c = true → f.length = 256 → g.length = 256 →
    (∀ x ∈ a, x.length = 256) → (∀ x ∈ v, x.length = 256) → a.length = v.length →
    (∀ row ∈ m, row.length = v.length ∧ ∀ x ∈ row, x.length = 256) →
    (ringMul c f g).length = 256 ∧ (∀ n, n < 256 → (ringMul c f g).getD n 0 = negacyclic f g n % (c.q : Int))
      ∧ (exactNtt c f).length = 256
      ∧ (∀ i b, i < 128 → b < 2 →
          (exactNtt c f).getD (2 * i + b) 0 = residueSum c (fun j => f.getD j 0) b i % (c.q : Int))
      ∧ exactIntt c (exactNtt c f) = f.map (fun x => x % (c.q : Int))
      ∧ exactNtt c (exactIntt c f) = f.map (fun x => x % (c.q : Int))
      ∧ addMod c f g = List.zipWith (fun x y => (x + y) % (c.q : Int)) f g
      ∧ (exactDot c a v).length = 256
      ∧ (∀ i b, i < 128 → b < 2 →
          (exactDot c a v).getD (2 * i + b) 0
            = ((List.range v.length).map (fun j => pairProduct (rootG c i) (a.getD j []) (v.getD j []) i b)).sum % (c.q : Int))
      ∧ matTimes c (m.map (fun row => row.map (exactNtt c))) v
          = m.map (fun row => (List.range 256).map fun n =>
              ((List.range v.length).map (fun j => negacyclic (row.getD j []) (v.getD j []) n)).sum % (c.q : Int))

/-! ## Sampler -/

/-- 42_sampler.md R173: `XINIT v` starts an empty stream of variant `v`, whatever `xof` was; `v > 3` is illegal. -/
def Obligations.XinitResult : Prop :=
  ∀ (s : State) (v : Nat),
    (∀ x, [XofVariant.xofa, XofVariant.xofb, XofVariant.h, XofVariant.g][v]? = some x →
        exec (.xinit v) s
          = .next { s with
              xof := some { variant := x, absorbed := [], pos := 0, squeezing := false }
              status := completed s.status })
      ∧ (3 < v → exec (.xinit v) s = .next { s with status := erred .illegalCmd s.status })

/-- 42_sampler.md R174: `XABSORB` appends the bytes of its buffer to what was absorbed; without a stream or after the first squeeze
it ends with `ERR_XOF_SEQ`, then out of bounds with `ERR_ADDR`. A zero-length operand is in bounds (20_memory.md R67; log 21). -/
def Obligations.XabsorbResult : Prop :=
  ∀ (s : State) (bs : Bytes), Memory.wf s.mem →
    (∀ x, s.xof = some x → x.squeezing = false → InBounds s (operand s 0) (operand s 1) → bs.length = operand s 1 →
        HoldsBytes s (operand s 0) bs →
        exec .xabsorb s
          = .next { s with xof := some { x with absorbed := x.absorbed ++ bs }, status := completed s.status })
      ∧ ((s.xof = none ∨ ∃ x, s.xof = some x ∧ x.squeezing = true) →
          exec .xabsorb s = .next { s with status := erred .xofSeq s.status })
      ∧ (∀ x, s.xof = some x → x.squeezing = false → ¬ InBounds s (operand s 0) (operand s 1) →
          exec .xabsorb s = .next { s with status := erred .addr s.status })

/-- 42_sampler.md R175 and R172: `XSQUEEZE` stores bytes `pos .. pos + n - 1` of the unit's stream at its buffer and moves on: the
stream is `XOFA`, `XOFB`, `H` or `G` of the absorbed bytes by the variant; without a stream or past the variant's limit (32 for 2, 64 for 3) it ends with `ERR_XOF_SEQ`, then out of bounds with `ERR_ADDR` (log 21). -/
def Obligations.XsqueezeResult : Prop :=
  ∀ (s : State),
    (∀ x, s.xof = some x → (x.variant = .h → x.pos + operand s 1 ≤ 32) → (x.variant = .g → x.pos + operand s 1 ≤ 64) →
        InBounds s (operand s 0) (operand s 1) →
        ∃ (m : Memory) (out : Bytes),
          exec .xsqueeze s
              = .next { s with
                  mem := m
                  xof := some { x with pos := x.pos + operand s 1, squeezing := true }
                  status := completed s.status }
            ∧ Stored s.mem m (operand s 0) out ∧ out.length = operand s 1
            ∧ ∀ k, k < operand s 1 →
                (x.variant = .xofa → out[k]? = (xofaBytes s.cfg.hash x.absorbed (x.pos + operand s 1))[x.pos + k]?)
                ∧ (x.variant = .xofb → out[k]? = (xofbBytes s.cfg.hash x.absorbed (x.pos + operand s 1))[x.pos + k]?)
                ∧ (x.variant = .h → out[k]? = (hashH s.cfg.hash x.absorbed)[x.pos + k]?)
                ∧ (x.variant = .g → out[k]? = (hashG s.cfg.hash x.absorbed)[x.pos + k]?))
      ∧ (s.xof = none → exec .xsqueeze s = .next { s with status := erred .xofSeq s.status })
      ∧ (∀ x, s.xof = some x → (x.variant = .h ∧ 32 < x.pos + operand s 1) ∨ (x.variant = .g ∧ 64 < x.pos + operand s 1) →
          exec .xsqueeze s = .next { s with status := erred .xofSeq s.status })
      ∧ (∀ x, s.xof = some x → (x.variant = .h → x.pos + operand s 1 ≤ 32) → (x.variant = .g → x.pos + operand s 1 ≤ 64) →
          ¬ InBounds s (operand s 0) (operand s 1) → exec .xsqueeze s = .next { s with status := erred .addr s.status })

/-- 42_sampler.md R170: a stream's beginning does not depend on how many bytes are asked for, and `H` and `G` answer 32 and 64
bytes, in every hash suite. -/
def Obligations.StreamBeginningsAgree : Prop :=
  ∀ (suite : HashSuite) (m : Bytes) (n n' : Nat), n ≤ n' →
    (xofaBytes suite m n).length = n ∧ xofaBytes suite m n = (xofaBytes suite m n').take n
      ∧ (xofbBytes suite m n).length = n ∧ xofbBytes suite m n = (xofbBytes suite m n').take n
      ∧ (hashH suite m).length = 32 ∧ (hashG suite m).length = 64

/-- 42_sampler.md R178 and R177: `CBD` writes for each coefficient the number of ones among the first `eta` of its `2*eta` bits less
that among the last `eta`. -/
def Obligations.CbdResult : Prop :=
  ∀ (s : State) (pd eta : Nat) (bs : Bytes), Inv s →
    pd < s.cfg.np → 2 ≤ eta → eta ≤ 5 → operand s 0 + 64 * eta ≤ s.cfg.bmemSize → bs.length = 64 * eta →
    HoldsBytes s (operand s 0) bs →
    ∃ f : Poly, exec (.cbd pd eta) s = .next { s with p := s.p.set pd f, status := completed s.status }
      ∧ f.length = 256
      ∧ ∀ i, i < 256 →
          f.getD i 0
            = (((List.range eta).map (fun t => bitAt bs (2 * eta * i + t))).sum : Int)
              - ((List.range eta).map (fun t => bitAt bs (2 * eta * i + eta + t))).sum

/-- 42_sampler.md R179: `GETNOISE` writes the same sums over the first `64*eta` bytes of `XOFB(seed ‖ le(nonce))` and ends with
`xof <- none`. -/
def Obligations.GetnoiseResult : Prop :=
  ∀ (s : State) (pd eta : Nat) (seed buf : Bytes), Inv s →
    pd < s.cfg.np → 2 ≤ eta → eta ≤ 5 → operand s 1 < 2 ^ (8 * s.cfg.nonceBytes) → 1 ≤ operand s 2 → operand s 2 ≤ 255 →
    operand s 0 + operand s 2 ≤ s.cfg.bmemSize → seed.length = operand s 2 → HoldsBytes s (operand s 0) seed →
    buf = xofbBytes s.cfg.hash (seed ++ leBytes s.cfg.nonceBytes (operand s 1)) (64 * eta) →
    ∃ f : Poly, exec (.getnoise pd eta) s = .next { s with p := s.p.set pd f, xof := none, status := completed s.status }
      ∧ f.length = 256
      ∧ ∀ i, i < 256 →
          f.getD i 0
            = (((List.range eta).map (fun t => bitAt buf (2 * eta * i + t))).sum : Int)
              - ((List.range eta).map (fun t => bitAt buf (2 * eta * i + eta + t))).sum

/-- 42_sampler.md R181 and R180: `REJPARSE` writes from index `ctr0` on the chunks below `Q`, in order, as many as fit; other
coefficients are unchanged and `RESULT` is the new count. A zero-length operand is in bounds (log 21). -/
def Obligations.RejparseResult : Prop :=
  ∀ (s : State) (pd n : Nat) (bs : Bytes), Inv s →
    pd < s.cfg.np → operand s 2 ≤ 256 → InBounds s (operand s 0) (operand s 1) → bs.length = operand s 1 →
    HoldsBytes s (operand s 0) bs →
    n = min (accepted s.cfg bs (8 * bs.length / s.cfg.cs)).length (256 - operand s 2) →
    ∃ f : Poly,
      exec (.rejparse pd) s
          = .next { s with p := s.p.set pd f, result := BitVec.ofNat 32 (operand s 2 + n), status := completed s.status }
        ∧ f.length = 256
        ∧ ∀ i, i < 256 →
            f.getD i 0
              = if operand s 2 ≤ i ∧ i < operand s 2 + n then
                  ((accepted s.cfg bs (8 * bs.length / s.cfg.cs)).getD (i - operand s 2) 0 : Int)
                else coeff s pd i

/-- 42_sampler.md R182: with `x` and `y` the two bytes of the nonce, `GENUNI` writes the first 256 values below `Q` of the capped stream
`XOFA(seed ‖ x ‖ y)`, in order, puts into `RESULT` the stream bytes of the `n` chunks it scanned and ends with `xof <- none`;
with fewer than 256 such values it raises the fatal error. -/
def Obligations.GenuniResult : Prop :=
  ∀ (s : State) (pd : Nat) (seed stream : Bytes), Inv s →
    pd < s.cfg.np → operand s 1 < 2 ^ 16 → 1 ≤ operand s 2 → operand s 2 ≤ 255 → operand s 0 + operand s 2 ≤ s.cfg.bmemSize →
    seed.length = operand s 2 → HoldsBytes s (operand s 0) seed →
    stream = xofaBytes s.cfg.hash (seed ++ [BitVec.ofNat 8 (operand s 1), BitVec.ofNat 8 (operand s 1 / 256)])
      (s.cfg.maxXofBlocks * s.cfg.blkA) →
    (256 ≤ (accepted s.cfg stream (8 * stream.length / s.cfg.cs)).length →
        ∃ (f : Poly) (n : Nat),
          exec (.genuni pd) s
              = .next { s with
                  p := s.p.set pd f
                  xof := none
                  result := BitVec.ofNat 32 ((s.cfg.cs * n + 7) / 8)
                  status := completed s.status }
            ∧ f.length = 256 ∧ n ≤ 8 * stream.length / s.cfg.cs
            ∧ (accepted s.cfg stream n).length = 256 ∧ (∀ k, k < n → (accepted s.cfg stream k).length < 256)
            ∧ ∀ i, i < 256 → f.getD i 0 = ((accepted s.cfg stream n).getD i 0 : Int))
      ∧ ((accepted s.cfg stream (8 * stream.length / s.cfg.cs)).length < 256 →
          exec (.genuni pd) s
            = .next { s with
                p := List.replicate s.cfg.np zeroPoly
                sreg := Vector.replicate 4 0
                xof := none
                status := halted s.status })

/-- 42_sampler.md R184 and R183: `CHALLENGE` writes the polynomial that the picked bytes and the sign bits of the stream determine
(`IsChallenge`), which has exactly `TAU` coefficients in `{-1, 1}` and the rest 0, puts the bytes consumed into `RESULT` and
ends with `xof <- none`; where the capped stream determines none, the fatal error (a cap below 8 among them, log 22). -/
def Obligations.ChallengeResult : Prop :=
  ∀ (s : State) (g : SigCfg) (pd : Nat) (seed : Bytes), Inv s → s.cfg.sig = some g →
    pd < s.cfg.np → 1 ≤ operand s 1 → operand s 1 ≤ 255 → operand s 0 + operand s 1 ≤ s.cfg.bmemSize →
    seed.length = operand s 1 → HoldsBytes s (operand s 0) seed →
    (∀ f pos, IsChallenge s.cfg g.tau seed f pos →
        exec (.challenge pd) s
            = .next { s with
                p := s.p.set pd f
                xof := none
                result := BitVec.ofNat 32 pos
                status := completed s.status }
          ∧ f.length = 256 ∧ (∀ x ∈ f, x = -1 ∨ x = 0 ∨ x = 1) ∧ (f.filter (fun x => x ≠ 0)).length = g.tau
          ∧ 8 < pos ∧ pos ≤ s.cfg.maxXofBlocks * s.cfg.blkB)
      ∧ ((¬ ∃ f pos, IsChallenge s.cfg g.tau seed f pos) →
          exec (.challenge pd) s
            = .next { s with
                p := List.replicate s.cfg.np zeroPoly
                sreg := Vector.replicate 4 0
                xof := none
                status := halted s.status })

/-! ## Codec -/

/-- 43_codec.md R201 and R200: `PACK` stores `32*d` bytes whose bit `d*i + t` is bit `t` of the two's complement coefficient `i`; the
slot and every other byte are unchanged. The polynomials of a vector are packed so one after another, element 0 first (R209). -/
def Obligations.PackResult : Prop :=
  ∀ (s : State) (pa d : Nat), Inv s → pa < s.cfg.np → 1 ≤ d → d ≤ s.cfg.w → d ≤ 31 → operand s 0 + 32 * d ≤ s.cfg.bmemSize →
    ∃ (m : Memory) (out : Bytes), exec (.pack pa d) s = .next { s with mem := m, status := completed s.status }
      ∧ Stored s.mem m (operand s 0) out ∧ out.length = 32 * d
      ∧ (∀ i t, i < 256 → t < d → (bitAt out (d * i + t) : Int) = coeff s pa i / 2 ^ t % 2)
      ∧ ∀ v : List Poly, (∀ f ∈ v, f.length = 256) →
          (packVec d v).length = 32 * d * v.length ∧ codesAt (packVec d v) 0 d v.length = mapCoeffs (fun x => x % 2 ^ d) v

/-- 43_codec.md R202 and R200: `UNPACK` writes for each `i` the unsigned number of bits `d*i .. d*i + d - 1` of the buffer, wrapped to
`W` bits, which changes it only where `d = W`. -/
def Obligations.UnpackResult : Prop :=
  ∀ (s : State) (pd d : Nat) (bs : Bytes), Inv s → pd < s.cfg.np → 1 ≤ d → d ≤ s.cfg.w → d ≤ 31 →
    operand s 0 + 32 * d ≤ s.cfg.bmemSize → bs.length = 32 * d → HoldsBytes s (operand s 0) bs →
    ∃ f : Poly, exec (.unpack pd d) s = .next { s with p := s.p.set pd f, status := completed s.status }
      ∧ f.length = 256
      ∧ ∀ i, i < 256 → f.getD i 0 = wrap s.cfg.w (bitsAt bs (d * i) d) ∧ (d < s.cfg.w → f.getD i 0 = bitsAt bs (d * i) d)

/-- 43_codec.md R208: for every `d` and every slot whose coefficients are in `[0, 2^d)`, `UNPACK` after `PACK` at one address
gives the coefficients back; for every `32*d`-byte string, `PACK` after `UNPACK` writes the same bytes back. The codes a slot
holds are below `2^(W-1)`, so at `d = W` the first part's premise is that bound. The spec marks the rule as its own
derivation from R200. -/
def Obligations.PackUnpackRoundTrip : Prop :=
  ∀ (s : State) (pa pd d : Nat) (bs : Bytes), Inv s → pa < s.cfg.np → pd < s.cfg.np → 1 ≤ d → d ≤ s.cfg.w → d ≤ 31 →
    operand s 0 + 32 * d ≤ s.cfg.bmemSize →
    ((∀ i, 0 ≤ coeff s pa i ∧ coeff s pa i < 2 ^ d) →
        ∃ t u, exec (.pack pa d) s = .next t ∧ exec (.unpack pd d) t = .next u ∧ getSlot u pd = getSlot s pa)
      ∧ (bs.length = 32 * d → HoldsBytes s (operand s 0) bs →
        ∃ t u, exec (.unpack pd d) s = .next t ∧ exec (.pack pd d) t = .next u
          ∧ ∀ x, u.mem.read x = s.mem.read x)

/-- 43_codec.md R204, R205, R203: `COMPRESS` writes `round(x * 2^d / Q) mod 2^d` of each coefficient's residue `x`, `DECOMPRESS` writes
`round(code * Q / 2^d)` of each coefficient's low `d` bits, ties rounded up; a slot field `NP` or above, `d = 0` and
`d >= LOGQ` are illegal. -/
def Obligations.CompressDecompressResult : Prop :=
  ∀ (s : State) (pd pa d : Nat), Inv s →
    (pd < s.cfg.np → pa < s.cfg.np → 1 ≤ d → d < logq s.cfg →
        (∃ f : Poly, exec (.compress pd pa d) s = .next { s with p := s.p.set pd f, status := completed s.status }
          ∧ f.length = 256
          ∧ ∀ i, i < 256 →
              f.getD i 0 = (2 * (coeff s pa i % (s.cfg.q : Int)) * 2 ^ d + s.cfg.q) / (2 * s.cfg.q) % 2 ^ d)
        ∧ ∃ f : Poly, exec (.decompress pd pa d) s = .next { s with p := s.p.set pd f, status := completed s.status }
          ∧ f.length = 256
          ∧ ∀ i, i < 256 → f.getD i 0 = (2 * (coeff s pa i % 2 ^ d) * s.cfg.q + 2 ^ d) / (2 * 2 ^ d))
      ∧ (¬ (pd < s.cfg.np ∧ pa < s.cfg.np ∧ 1 ≤ d ∧ d < logq s.cfg) →
          exec (.compress pd pa d) s = .next { s with status := erred .illegalCmd s.status }
          ∧ exec (.decompress pd pa d) s = .next { s with status := erred .illegalCmd s.status })

/-- 43_codec.md R207: decompression after compression is within `B_d = floor((Q + 2^d) / 2^(d+1))` around the ring, for every residue
and width; in the other direction the pair is exact. The spec marks both as its own derivation. The two functions are R203's
roundings. -/
def Obligations.CompressionRoundingBound : Prop :=
  ∀ (c : Cfg) (d : Nat) (x : Int), cfgValid c = true → 1 ≤ d → d < logq c →
    (cmod (decompressCoeff c d (compressCoeff c d x) - x) c.q).natAbs ≤ (c.q + 2 ^ d) / 2 ^ (d + 1)
      ∧ compressCoeff c d x = roundedCode c d x
      ∧ (0 ≤ x → x < 2 ^ d →
          decompressCoeff c d x = roundedBack c d x ∧ compressCoeff c d (decompressCoeff c d x) = x)

/-! ## Signature -/

/-- 44_signature.md R232 to R234: `SIG_KEYGEN` takes 32 bytes from the entropy source or from `B`, stores the two keys they determine,
each of its fixed size and laid out as R233 and R234 say (`SigKeysOf`; a `t1` code that does not fit by log 23), zeroes the
working state and changes nothing else; where the capped streams hold no matrix, the fatal error, with nothing written to
`B`. -/
def Obligations.SigKeygenResult : Prop :=
  ∀ (s : State) (g : SigCfg) (mode : Nat) (xi : Bytes) (d : Draws), Inv s → s.cfg.sig = some g →
    operand s 0 + sigPkBytes s.cfg g ≤ s.cfg.bmemSize → operand s 1 + sigSkBytes g ≤ s.cfg.bmemSize →
    (operand s 0 + sigPkBytes s.cfg g ≤ operand s 1 ∨ operand s 1 + sigSkBytes g ≤ operand s 0) →
    ((mode = 0 ∧ (xi, d) = drawEntropy 32 s.draws)
      ∨ (mode = 1 ∧ operand s 2 + 32 ≤ s.cfg.bmemSize ∧ xi.length = 32 ∧ HoldsBytes s (operand s 2) xi ∧ d = s.draws)) →
    (∀ pk sk, sigKeyPair s.cfg g xi = some (pk, sk) →
        ∃ m : Memory, exec (.sigKeygen mode) s
            = .next { s with
                p := List.replicate s.cfg.np zeroPoly
                sreg := Vector.replicate 4 0
                xof := none
                mem := m
                draws := d
                status := completed s.status }
          ∧ pk.length = sigPkBytes s.cfg g ∧ sk.length = sigSkBytes g ∧ SigKeysOf s.cfg g xi pk sk
          ∧ StoredTwo s.mem m (operand s 0) pk (operand s 1) sk)
      ∧ (sigKeyPair s.cfg g xi = none ↔ ¬ ∃ ahat, IsMatrix s.cfg (slice (xofbBytes s.cfg.hash xi 128) 0 32) g.sk g.sl ahat)
      ∧ (sigKeyPair s.cfg g xi = none →
          exec (.sigKeygen mode) s
            = .next { s with
                p := List.replicate s.cfg.np zeroPoly
                sreg := Vector.replicate 4 0
                xof := none
                draws := d
                status := halted s.status })

/-- 44_signature.md R235 to R240: where the signing loop accepts at attempt `n`, that is the first acceptable attempt, and `SIG_SIGN`
stores the signature it makes, of its fixed size and laid out as R235 says (`SignatureOf`; with `MODE = 2` the attempt's coin is
the `n`-th after `s.draws`, the order of log 8), puts `n` (between 1 and `MAX_SIGN_RETRIES`) into `RETRY`, zeroes the working state
and changes nothing else but the coins drawn. It ends with its attempts exhausted exactly where none of the `MAX_SIGN_RETRIES` is
acceptable and each finds its challenge, and with a stream exhausted exactly where the capped streams hold no matrix, or none of
the attempts before one that finds no challenge is acceptable; then the fatal error with `RETRY = MAX_SIGN_RETRIES` (log 12 for a
stream's exhaustion) and nothing written to `B`. -/
def Obligations.SigSignResult : Prop :=
  ∀ (s : State) (g : SigCfg) (mode : Nat) (msg sk : Bytes) (d : Draws), Inv s → s.cfg.sig = some g → mode ≤ 2 →
    operand s 3 = sigSkBytes g → InBounds s (operand s 0) (operand s 1) →
    operand s 2 + sigSkBytes g ≤ s.cfg.bmemSize → operand s 4 + sigBytes g ≤ s.cfg.bmemSize →
    msg.length = operand s 1 → HoldsBytes s (operand s 0) msg → sk.length = sigSkBytes g → HoldsBytes s (operand s 2) sk →
    (∀ sig n, signMessage s.cfg g mode sk msg s.draws = (.signed sig n, d) →
        ∃ m : Memory, exec (.sigSign mode) s
            = .next { s with
                p := List.replicate s.cfg.np zeroPoly
                sreg := Vector.replicate 4 0
                xof := none
                mem := m
                draws := d
                retry := BitVec.ofNat 32 n
                status := completed s.status }
          ∧ 1 ≤ n ∧ n ≤ s.cfg.maxSignRetries ∧ sig.length = sigBytes g ∧ Stored s.mem m (operand s 4) sig
          ∧ SignatureOf s.cfg g mode sk msg s.draws sig n
          ∧ ∀ k, 1 ≤ k → k < n → ¬ ∃ sig', SignatureOf s.cfg g mode sk msg s.draws sig' k)
      ∧ ((signMessage s.cfg g mode sk msg s.draws).1 = .attemptsExhausted ↔
          ∃ ahat, IsMatrix s.cfg (slice sk 0 32) g.sk g.sl ahat ∧ ∀ k, 1 ≤ k → k ≤ s.cfg.maxSignRetries →
            (∃ ch pos, IsChallenge s.cfg g.tau (challengeSeedOf s.cfg g sk msg ahat k) ch pos)
              ∧ ¬ ∃ sig, SignatureOf s.cfg g mode sk msg s.draws sig k)
      ∧ ((signMessage s.cfg g mode sk msg s.draws).1 = .streamExhausted ↔
          ∀ ahat, IsMatrix s.cfg (slice sk 0 32) g.sk g.sl ahat → ∃ k, 1 ≤ k ∧ k ≤ s.cfg.maxSignRetries
            ∧ (¬ ∃ ch pos, IsChallenge s.cfg g.tau (challengeSeedOf s.cfg g sk msg ahat k) ch pos)
            ∧ ∀ j, 1 ≤ j → j < k → ¬ ∃ sig, SignatureOf s.cfg g mode sk msg s.draws sig j)
      ∧ ((signMessage s.cfg g mode sk msg s.draws = (.attemptsExhausted, d)
            ∨ signMessage s.cfg g mode sk msg s.draws = (.streamExhausted, d)) →
          exec (.sigSign mode) s
            = .next { s with
                p := List.replicate s.cfg.np zeroPoly
                sreg := Vector.replicate 4 0
                xof := none
                draws := d
                retry := BitVec.ofNat 32 s.cfg.maxSignRetries
                status := halted s.status })

/-- 44_signature.md R243 and R242: `SIG_VERIFY` puts 1 or 0 into `RESULT`, zeroes the working state and changes nothing else; a
rejection is no error; the answer is 1 exactly where the hint is well formed, the response within the bound and the
recomputed challenge the signature's (`SignatureAccepted`), so that a malformed hint or a response at or above the bound
`GAMMA1 - BETA` is rejected; the fatal error comes exactly where the hint is well formed, the response within the bound and the
capped streams hold no matrix or no challenge, so that a challenge that differs is a rejection. -/
def Obligations.SigVerifyResult : Prop :=
  ∀ (s : State) (g : SigCfg) (sig msg pk : Bytes), Inv s → s.cfg.sig = some g →
    operand s 1 = sigBytes g → operand s 5 = sigPkBytes s.cfg g → operand s 0 + sigBytes g ≤ s.cfg.bmemSize →
    InBounds s (operand s 2) (operand s 3) → operand s 4 + sigPkBytes s.cfg g ≤ s.cfg.bmemSize →
    sig.length = sigBytes g → HoldsBytes s (operand s 0) sig → msg.length = operand s 3 → HoldsBytes s (operand s 2) msg →
    pk.length = sigPkBytes s.cfg g → HoldsBytes s (operand s 4) pk →
    (∀ ok, verifyCore s.cfg g sig msg pk = some ok →
        exec .sigVerify s
          = .next { s with
              p := List.replicate s.cfg.np zeroPoly
              sreg := Vector.replicate 4 0
              xof := none
              result := if ok then 1 else 0
              status := completed s.status })
      ∧ (verifyCore s.cfg g sig msg pk = none →
          exec .sigVerify s
            = .next { s with
                p := List.replicate s.cfg.np zeroPoly
                sreg := Vector.replicate 4 0
                xof := none
                status := halted s.status })
      ∧ (verifyCore s.cfg g sig msg pk = some true ↔ SignatureAccepted s.cfg g sig msg pk)
      ∧ (verifyCore s.cfg g sig msg pk = none ↔
          (∃ h, decodeHint g (slice sig (32 + 32 * zBits g * g.sl) (sigBytes g)) = some h)
            ∧ (∀ f ∈ mapCoeffs (fun x => g.gamma1 - x) (codesAt sig 32 (zBits g) g.sl), ∀ x ∈ f, x.natAbs + beta g < g.gamma1)
            ∧ ¬ ∃ ahat ch pos, IsMatrix s.cfg (slice pk 0 32) g.sk g.sl ahat ∧ IsChallenge s.cfg g.tau (slice sig 0 32) ch pos)
      ∧ (decodeHint g (slice sig (32 + 32 * zBits g * g.sl) (sigBytes g)) = none → verifyCore s.cfg g sig msg pk = some false)
      ∧ ((∃ j n, j < g.sl ∧ n < 256
            ∧ g.gamma1 ≤ ((g.gamma1 : Int) - bitsAt sig (8 * (32 + 32 * zBits g * j) + zBits g * n) (zBits g)).natAbs + beta g) →
          verifyCore s.cfg g sig msg pk = some false)

/-- 44_signature.md R237, R238, R244: the policies: `MODE` 0 and 1 accept exactly within the bounds at `BETA` and `2*BETA` and make
no draw; `MODE = 2` draws one coin and accepts where it is true or the baseline test holds; a candidate the relaxed test
accepts the baseline test accepts. Signing with `MODE` 0 and 1 makes no draw; with `MODE = 2` it drew exactly one coin per
attempt, whether the last one was accepted or all `MAX_SIGN_RETRIES` were rejected (a stream exhausted in an attempt ends it
before its coin). That coins come first from the listed answers and after them by the counter `taken` is the model's choice
(log 8). -/
def Obligations.SigningDrawsAndPolicies : Prop :=
  ∀ (c : Cfg) (g : SigCfg) (sk msg : Bytes) (d d' : Draws) (sig : Bytes) (n : Nat) (z r : List Poly),
    (∀ mode, mode ≤ 1 → (mode + 1) * beta g < g.gamma1 → (mode + 1) * beta g < g.gamma2 →
        ((policyAccepts c g mode z r d).1 = true ↔ WithinBounds c g ((mode + 1) * beta g) z r))
      ∧ (∀ mode, mode ≤ 1 → (policyAccepts c g mode z r d).2 = d)
      ∧ policyAccepts c g 2 z r d = ((drawCoin d).1 || (policyAccepts c g 0 z r d).1, coinsDrawn d 1)
      ∧ ((policyAccepts c g 1 z r d).1 = true → (policyAccepts c g 0 z r d).1 = true)
      ∧ (∀ mode, mode ≤ 1 → (signMessage c g mode sk msg d).2 = d)
      ∧ (signMessage c g 2 sk msg d = (.signed sig n, d') → d' = coinsDrawn d n)
      ∧ (signMessage c g 2 sk msg d = (.attemptsExhausted, d') → d' = coinsDrawn d c.maxSignRetries)
      ∧ (signMessage c g 2 sk msg d = (.streamExhausted, d') → ∃ k, k ≤ c.maxSignRetries ∧ d' = coinsDrawn d k)

/-- 44_signature.md R228 and R229: the encoding of a hint of weight at most `OMEGA` is `OMEGA + SK` bytes: its positions, polynomial
by polynomial and ascending in each, zero bytes up to `OMEGA`, then for each polynomial the cumulative count through it; hint
decoding recovers the hint, and a byte string that decodes is the encoding of what it decodes to, so that the encoding of each
hint is unique and every other string is malformed. -/
def Obligations.HintRoundTrip : Prop :=
  ∀ (g : SigCfg) (h : List Poly) (hb : Bytes), g.omega ≤ 255 →
    (h.length = g.sk → (∀ f ∈ h, f.length = 256 ∧ ∀ x ∈ f, x = 0 ∨ x = 1) →
        hintWeight h = onesIn h
        ∧ (onesIn h ≤ g.omega →
            (encodeHint g h).length = g.omega + g.sk
            ∧ (∀ i n, i < g.sk → n < 256 → (h.getD i []).getD n 0 = 1 →
                (encodeHint g h)[onesIn (h.take i) + onesIn [(h.getD i []).take n]]? = some (BitVec.ofNat 8 n))
            ∧ (∀ k, onesIn h ≤ k → k < g.omega → (encodeHint g h)[k]? = some 0)
            ∧ (∀ i, i < g.sk → (encodeHint g h)[g.omega + i]? = some (BitVec.ofNat 8 (onesIn (h.take (i + 1)))))
            ∧ decodeHint g (encodeHint g h) = some h))
      ∧ (hb.length = g.omega + g.sk → decodeHint g hb = some h →
          encodeHint g h = hb ∧ hintWeight h ≤ g.omega ∧ h.length = g.sk ∧ ∀ f ∈ h, f.length = 256 ∧ ∀ x ∈ f, x = 0 ∨ x = 1)

/-- 44_signature.md R224, R225, R226: the parts of `power2round` and `decompose` recompose and lie in their ranges; `decompose` has
R225's cases, `usehint` and `makehint` are R226's; and `usehint` of a hint made for a change `e` of at most `GAMMA2` recovers the
high part from the changed value. Of `power2round`'s high part, R224's bound `r1 < 2^T1B` (which the spec marks as derived) is
stated where `Q - 2 + 2^(D-1) < 2^LOGQ`; some configurations of R8 break that, there `r1 = 2^T1B` occurs (`Q = 3329`, `D = 11`,
`r = 3328`; log 23), and the bound stated for all is `r1 <= 2^T1B`. -/
def Obligations.RoundingAndHints : Prop :=
  ∀ (c : Cfg) (g : SigCfg) (r e : Int), cfgValid c = true → c.sig = some g → 0 ≤ r → r < c.q →
    (r = (power2round g.drop r).1 * 2 ^ g.drop + (power2round g.drop r).2
        ∧ -(2 ^ g.drop : Int) < 2 * (power2round g.drop r).2 ∧ 2 * (power2round g.drop r).2 ≤ 2 ^ g.drop
        ∧ 0 ≤ (power2round g.drop r).1 ∧ (power2round g.drop r).1 ≤ 2 ^ t1Bits c g
        ∧ (c.q - 2 + 2 ^ (g.drop - 1) < 2 ^ logq c → (power2round g.drop r).1 < 2 ^ t1Bits c g))
      ∧ ((decompose c g r).1 * (2 * g.gamma2) + (decompose c g r).2 - r) % (c.q : Int) = 0
      ∧ (∀ r1 r0 : Int, r = r1 * (2 * g.gamma2) + r0 → -(g.gamma2 : Int) < r0 → r0 ≤ g.gamma2 →
          decompose c g r = if r - r0 = (c.q : Int) - 1 then (0, r0 - 1) else (r1, r0))
      ∧ usehint c g 0 r = highbits c g r
      ∧ usehint c g 1 r
          = (if 0 < lowbits c g r then highbits c g r + 1 else highbits c g r - 1) % (((c.q - 1) / (2 * g.gamma2) : Nat) : Int)
      ∧ makehint c g r e = (if highbits c g r = highbits c g ((r + e) % (c.q : Int)) then 0 else 1)
      ∧ 0 ≤ highbits c g r ∧ highbits c g r < highCount c g
      ∧ (lowbits c g r).natAbs ≤ g.gamma2
      ∧ (e.natAbs ≤ g.gamma2 → usehint c g (makehint c g r e) ((r + e) % (c.q : Int)) = highbits c g r)

/-! ## KEM -/

/-- 45_kem.md R270 and R269: `KEM_KEYGEN` takes the seeds `d` and `z`, in that order, from the entropy source or from `B`, stores the
public key and the secret key `pk ‖ skpke ‖ H(pk) ‖ z`, each of its fixed size, with `pk` and `skpke` as R266 computes them
from `d` (`KemKeysOf`), zeroes the working state and changes nothing else; where the capped streams hold no matrix, the
fatal error, with nothing written to `B`. -/
def Obligations.KemKeygenResult : Prop :=
  ∀ (s : State) (m : KemCfg) (mode : Nat) (d z : Bytes) (dr1 dr2 : Draws), Inv s → s.cfg.kem = some m →
    operand s 0 + kemPkBytes m ≤ s.cfg.bmemSize → operand s 1 + kemSkBytes s.cfg m ≤ s.cfg.bmemSize →
    (operand s 0 + kemPkBytes m ≤ operand s 1 ∨ operand s 1 + kemSkBytes s.cfg m ≤ operand s 0) →
    ((mode = 0 ∧ (d, dr1) = drawEntropy 32 s.draws ∧ (z, dr2) = drawEntropy 32 dr1)
      ∨ (mode = 1 ∧ operand s 2 + 64 ≤ s.cfg.bmemSize ∧ d.length = 32 ∧ z.length = 32 ∧ HoldsBytes s (operand s 2) (d ++ z)
          ∧ dr2 = s.draws)) →
    (∀ pk skpke, pkeKeygen s.cfg m d = some (pk, skpke) →
        ∃ mm : Memory, exec (.kemKeygen mode) s
            = .next { s with
                p := List.replicate s.cfg.np zeroPoly
                sreg := Vector.replicate 4 0
                xof := none
                mem := mm
                draws := dr2
                status := completed s.status }
          ∧ pk.length = kemPkBytes m ∧ pk.length + skpke.length + 64 = kemSkBytes s.cfg m ∧ KemKeysOf s.cfg m d pk skpke
          ∧ StoredTwo s.mem mm (operand s 0) pk (operand s 1) (pk ++ skpke ++ hashH s.cfg.hash pk ++ z))
      ∧ (pkeKeygen s.cfg m d = none ↔ ¬ ∃ ahat, IsMatrix s.cfg (slice (hashG s.cfg.hash d) 0 32) m.k m.k ahat)
      ∧ (pkeKeygen s.cfg m d = none →
          exec (.kemKeygen mode) s
            = .next { s with
                p := List.replicate s.cfg.np zeroPoly
                sreg := Vector.replicate 4 0
                xof := none
                draws := dr2
                status := halted s.status })

/-- 45_kem.md R272: `KEM_ENCAP` derives `m = H(e)` and `coins = H(m ‖ H(pk))` from 32 bytes `e` of entropy or of `B`, stores the
ciphertext `pke_enc(pk, m, coins)` of R267 (`KemCiphertextOf`) and the shared secret, the first 32 bytes of `XOFB(m ‖ H(ct))`,
zeroes the working state and changes nothing else; where the capped streams hold no matrix, the fatal error, with nothing
written to `B`. -/
def Obligations.KemEncapResult : Prop :=
  ∀ (s : State) (m : KemCfg) (mode : Nat) (pk e msg : Bytes) (dr : Draws), Inv s → s.cfg.kem = some m →
    operand s 1 = kemPkBytes m → operand s 0 + kemPkBytes m ≤ s.cfg.bmemSize → operand s 2 + ctBytes m ≤ s.cfg.bmemSize →
    operand s 3 + 32 ≤ s.cfg.bmemSize → (operand s 2 + ctBytes m ≤ operand s 3 ∨ operand s 3 + 32 ≤ operand s 2) →
    pk.length = kemPkBytes m → HoldsBytes s (operand s 0) pk →
    ((mode = 0 ∧ (e, dr) = drawEntropy 32 s.draws)
      ∨ (mode = 1 ∧ operand s 4 + 32 ≤ s.cfg.bmemSize ∧ e.length = 32 ∧ HoldsBytes s (operand s 4) e ∧ dr = s.draws)) →
    msg = hashH s.cfg.hash e →
    (∀ ct, pkeEnc s.cfg m pk msg (hashH s.cfg.hash (msg ++ hashH s.cfg.hash pk)) = some ct →
        ∃ mm : Memory, exec (.kemEncap mode) s
            = .next { s with
                p := List.replicate s.cfg.np zeroPoly
                sreg := Vector.replicate 4 0
                xof := none
                mem := mm
                draws := dr
                status := completed s.status }
          ∧ ct.length = ctBytes m ∧ KemCiphertextOf s.cfg m pk msg (hashH s.cfg.hash (msg ++ hashH s.cfg.hash pk)) ct
          ∧ StoredTwo s.mem mm (operand s 2) ct (operand s 3) (xofbBytes s.cfg.hash (msg ++ hashH s.cfg.hash ct) 32))
      ∧ (pkeEnc s.cfg m pk msg (hashH s.cfg.hash (msg ++ hashH s.cfg.hash pk)) = none ↔
          ¬ ∃ ahat, IsMatrix s.cfg (slice pk 0 32) m.k m.k ahat)
      ∧ (pkeEnc s.cfg m pk msg (hashH s.cfg.hash (msg ++ hashH s.cfg.hash pk)) = none →
          exec (.kemEncap mode) s
            = .next { s with
                p := List.replicate s.cfg.np zeroPoly
                sreg := Vector.replicate 4 0
                xof := none
                draws := dr
                status := halted s.status })

/-- 45_kem.md R273 and R274: with `m2` what the secret key decrypts the ciphertext to by R268 (`KemMessageOf`) and `ct2` its
re-encryption by R267 (`KemCiphertextOf`), `KEM_DECAP` stores
the first 32 bytes of `XOFB(pre ‖ H(ct))` with `pre = m2` where `ct2 = ct` and the implicit-rejection value `z` otherwise,
zeroes the working state and changes nothing else; the two cases differ in those 32 bytes alone; the fatal error comes exactly
where the capped streams hold no matrix, so that every other ciphertext is decapsulated without an error. -/
def Obligations.KemDecapResult : Prop :=
  ∀ (s : State) (m : KemCfg) (ct pk skpke h z m2 : Bytes), Inv s → s.cfg.kem = some m →
    operand s 1 = ctBytes m → operand s 3 = kemSkBytes s.cfg m → operand s 0 + ctBytes m ≤ s.cfg.bmemSize →
    operand s 2 + kemSkBytes s.cfg m ≤ s.cfg.bmemSize → operand s 4 + 32 ≤ s.cfg.bmemSize →
    ct.length = ctBytes m → HoldsBytes s (operand s 0) ct →
    pk.length = kemPkBytes m → skpke.length = 32 * logq s.cfg * m.k → h.length = 32 → z.length = 32 →
    HoldsBytes s (operand s 2) (pk ++ skpke ++ h ++ z) → m2 = pkeDec s.cfg m skpke ct →
    KemMessageOf s.cfg m skpke ct m2
      ∧ (∀ ct2, pkeEnc s.cfg m pk m2 (hashH s.cfg.hash (m2 ++ h)) = some ct2 →
        ∃ mm : Memory, exec .kemDecap s
            = .next { s with
                p := List.replicate s.cfg.np zeroPoly
                sreg := Vector.replicate 4 0
                xof := none
                mem := mm
                status := completed s.status }
          ∧ ct2.length = ctBytes m ∧ KemCiphertextOf s.cfg m pk m2 (hashH s.cfg.hash (m2 ++ h)) ct2
          ∧ Stored s.mem mm (operand s 4)
              (xofbBytes s.cfg.hash ((if ct2 = ct then m2 else z) ++ hashH s.cfg.hash ct) 32))
      ∧ (pkeEnc s.cfg m pk m2 (hashH s.cfg.hash (m2 ++ h)) = none ↔ ¬ ∃ ahat, IsMatrix s.cfg (slice pk 0 32) m.k m.k ahat)
      ∧ (pkeEnc s.cfg m pk m2 (hashH s.cfg.hash (m2 ++ h)) = none →
          exec .kemDecap s
            = .next { s with
                p := List.replicate s.cfg.np zeroPoly
                sreg := Vector.replicate 4 0
                xof := none
                status := halted s.status })
end

