-- ==== Sys2Proof/Laws/Hash.lean ====
section
/-! SUPPORT. How long the byte strings of the hash suites are (42_sampler.md R170). -/

namespace Sys2Proof.Machine

/-- Five rows of five lanes. -/
def LanesShape (a : Lanes) : Prop := a.length = 5 ∧ ∀ r ∈ a, r.length = 5

theorem chiRow_length {r : List Word64} (h : r.length = 5) : (chiRow r).length = 5 := by
  simp [chiRow, xorRow, turnRow, h]

theorem iota_shape (rc : Word64) {a : Lanes} (h : LanesShape a) : LanesShape (iota rc a) := by
  unfold iota
  split
  · obtain ⟨h1, h2⟩ := h
    refine ⟨by simpa using h1, fun r hr => ?_⟩
    rcases List.mem_cons.1 hr with rfl | hr
    · simpa using h2 _ (List.mem_cons_self ..)
    · exact h2 r (List.mem_cons_of_mem _ hr)
  · exact h

theorem keccakRound_shape (a : Lanes) (rc : Word64) : LanesShape (keccakRound a rc) := by
  refine iota_shape rc ⟨by simp [lanePi], fun r hr => ?_⟩
  simp only [List.mem_map, lanePi, List.mem_range] at hr
  obtain ⟨_, ⟨y, _, rfl⟩, rfl⟩ := hr
  exact chiRow_length (by simp)

theorem foldl_shape (f : Lanes → β → Lanes) (hf : ∀ a x, LanesShape (f a x)) :
    ∀ (xs : List β) (a : Lanes), LanesShape a → LanesShape (xs.foldl f a)
  | [], _, h => h
  | x :: xs, a, _ => foldl_shape f hf xs (f a x) (hf a x)

theorem keccakF_shape (a : Lanes) : LanesShape (keccakF a) := by
  unfold keccakF roundConstants
  rw [List.foldl_append]
  refine foldl_shape _ keccakRound_shape _ _ ?_
  rw [List.foldl_cons]
  exact foldl_shape _ keccakRound_shape _ _ (keccakRound_shape _ _)

theorem zeroLanes_shape : LanesShape zeroLanes := by
  refine ⟨by simp [zeroLanes], fun r hr => ?_⟩
  rw [(List.mem_replicate.1 hr).2]
  simp

theorem absorbAll_shape (r : Nat) (sfx : Byte) (m : Bytes) : LanesShape (absorbAll r sfx m) :=
  foldl_shape _ (fun _ _ => keccakF_shape _) _ _ zeroLanes_shape

theorem leBytes_length : ∀ n v, (leBytes n v).length = n
  | 0, _ => rfl
  | n + 1, v => by simp [leBytes, leBytes_length n]

theorem laneBytes_length {a : Lanes} (h : LanesShape a) : (laneBytes a).length = 200 := by
  obtain ⟨h1, h2⟩ := h
  match a, h1 with
  | [r0, r1, r2, r3, r4], _ =>
    simp only [List.mem_cons, List.not_mem_nil, or_false, forall_eq_or_imp, forall_eq] at h2
    obtain ⟨e0, e1, e2, e3, e4⟩ := h2
    simp [laneBytes, List.length_flatMap, leBytes_length, e0, e1, e2, e3, e4]

theorem squeezeBlocks_length {r : Nat} (hr : r ≤ 200) : ∀ (k : Nat) (a : Lanes), LanesShape a →
    (squeezeBlocks r k a).length = r * k
  | 0, _, _ => rfl
  | 1, a, h => by simp [squeezeBlocks, laneBytes_length h, hr]
  | k + 2, a, h => by
    simp [squeezeBlocks, laneBytes_length h, hr, squeezeBlocks_length hr (k + 1) _ (keccakF_shape a)]
    ring

theorem spongeBytes_length {r : Nat} (h0 : 0 < r) (hr : r ≤ 200) (sfx : Byte) (m : Bytes) (n : Nat) :
    (spongeBytes r sfx m n).length = n := by
  rw [spongeBytes, List.length_take, squeezeBlocks_length hr _ _ (absorbAll_shape r sfx m)]
  have h1 := Nat.div_add_mod (n + r - 1) r
  have h2 := Nat.mod_lt (n + r - 1) h0
  omega

theorem xofaBytes_length (suite : HashSuite) (m : Bytes) (n : Nat) : (xofaBytes suite m n).length = n := by
  cases suite <;> simp [xofaBytes, streamOf, spongeBytes_length]

theorem xofbBytes_length (suite : HashSuite) (m : Bytes) (n : Nat) : (xofbBytes suite m n).length = n := by
  cases suite <;> simp [xofbBytes, streamOf, spongeBytes_length]

theorem hashH_length (suite : HashSuite) (m : Bytes) : (hashH suite m).length = 32 := by
  cases suite <;> simp [hashH, streamOf, spongeBytes_length]

theorem hashG_length (suite : HashSuite) (m : Bytes) : (hashG suite m).length = 64 := by
  cases suite <;> simp [hashG, streamOf, spongeBytes_length]

/-- `S[a:b]` has `b - a` bytes where `S` is long enough. -/
theorem slice_length {bs : Bytes} {a b : Nat} (h : b ≤ bs.length) : (slice bs a b).length = b - a := by
  simp [slice]
  omega

end Sys2Proof.Machine
end

