-- ==== Sys2Proof/Laws/Bits.lean ====
section
/-! SUPPORT. Byte strings as numbers and as bits (00_scope.md R15), and the packed layout (43_codec.md R200). -/

namespace Sys2Proof.Machine

theorem intLe_cons (b : Byte) (bs : Bytes) : intLe (b :: bs) = b.toNat + 256 * intLe bs := rfl

theorem intLe_lt : ∀ bs : Bytes, intLe bs < 256 ^ bs.length
  | [] => by simp [intLe]
  | b :: bs => by
    have h1 := intLe_lt bs
    have h2 := b.isLt
    rw [intLe_cons, List.length_cons, Nat.pow_succ]
    omega

/-- `int_le(le_n(v)) = v` for a number of `n` bytes. -/
theorem intLe_leBytes : ∀ n v, intLe (leBytes n v) = v % 256 ^ n
  | 0, v => by simp [leBytes, intLe, Nat.mod_one]
  | n + 1, v => by
    have e : 256 ^ (n + 1) = 2 ^ 8 * 256 ^ n := by ring
    rw [leBytes, intLe_cons, intLe_leBytes n, BitVec.toNat_ofNat, e, Nat.mod_mul]
    rfl

/-- `le_n(int_le(S)) = S` for a string of `n` bytes. -/
theorem leBytes_intLe : ∀ bs : Bytes, leBytes bs.length (intLe bs) = bs
  | [] => rfl
  | b :: bs => by
    have h2 := b.isLt
    have h3 : (b.toNat + 256 * intLe bs) / 256 = intLe bs := by omega
    rw [List.length_cons, leBytes, intLe_cons, h3, leBytes_intLe bs]
    congr 1
    apply BitVec.eq_of_toNat_eq
    rw [BitVec.toNat_ofNat]
    omega

/-- Bit `n` of a byte string is bit `n` of its number. -/
theorem bitAt_eq : ∀ (bs : Bytes) (n : Nat), bitAt bs n = if (intLe bs).testBit n then 1 else 0
  | [], n => by simp [bitAt, intLe]
  | b :: bs, n => by
    have h2 := b.isLt
    have e : intLe (b :: bs) = 2 ^ 8 * intLe bs + b.toNat := by rw [intLe_cons]; omega
    rw [e, Nat.testBit_two_pow_mul_add _ h2]
    by_cases hn : n < 8
    · have h0 : n / 8 = 0 := by omega
      have h1 : n % 8 = n := by omega
      simp [bitAt, h0, h1, hn, BitVec.getLsbD]
    · have ih := bitAt_eq bs (n - 8)
      have h0 : n / 8 = (n - 8) / 8 + 1 := by omega
      have h1 : n % 8 = (n - 8) % 8 := by omega
      simp only [hn, if_false, ← ih]
      simp [bitAt, h0, h1]

theorem packNat_cons (d : Nat) (x : Int) (f : Poly) :
    packNat d (x :: f) = (x % ((2 ^ d : Nat) : Int)).toNat + 2 ^ d * packNat d f := rfl

theorem code_lt (d : Nat) (x : Int) : (x % ((2 ^ d : Nat) : Int)).toNat < 2 ^ d := by
  have h : (0 : Int) < ((2 ^ d : Nat) : Int) := by positivity
  have h1 := Int.emod_lt_of_pos x h
  have h2 := Int.emod_nonneg x (ne_of_gt h)
  omega

theorem packNat_lt (d : Nat) : ∀ f : Poly, packNat d f < 2 ^ (d * f.length)
  | [] => by simp [packNat]
  | x :: f => by
    have h1 := packNat_lt d f
    have h2 := code_lt d x
    rw [packNat_cons, List.length_cons, Nat.mul_succ, Nat.pow_add]
    calc _ < 2 ^ d + 2 ^ d * packNat d f := by omega
      _ = 2 ^ d * (packNat d f + 1) := by ring
      _ ≤ 2 ^ d * 2 ^ (d * f.length) := Nat.mul_le_mul_left _ h1
      _ = _ := Nat.mul_comm _ _

/-- Code `i` of the packed number is the low `d` bits of coefficient `i`. -/
theorem codeAt_packNat (d : Nat) : ∀ (f : Poly) (i : Nat), i < f.length →
    codeAt d (packNat d f) i = (f.getD i 0 % ((2 ^ d : Nat) : Int)).toNat
  | [], i, h => absurd h (by simp)
  | x :: f, 0, _ => by
    have h := Nat.mod_eq_of_lt (code_lt d x)
    rw [codeAt, packNat_cons, Nat.mul_zero, Nat.shiftRight_zero, Nat.add_mul_mod_self_left, h]
    rfl
  | x :: f, i + 1, h => by
    have ih := codeAt_packNat d f i (by simpa using h)
    have hd : (packNat d (x :: f)) >>> (d * (i + 1)) = packNat d f >>> (d * i) := by
      rw [Nat.mul_succ, Nat.add_comm (d * i) d, Nat.shiftRight_add, packNat_cons]
      congr 1
      rw [Nat.shiftRight_eq_div_pow, Nat.add_mul_div_left _ _ (by positivity), Nat.div_eq_of_lt (code_lt d x), Nat.zero_add]
    rw [codeAt, hd, ← codeAt, ih]
    simp

theorem packBytes_length (d : Nat) (f : Poly) : (packBytes d f).length = 32 * d := leBytes_length _ _

theorem packVec_length (d : Nat) (v : List Poly) : (packVec d v).length = 32 * d * v.length := by
  simp [packVec, List.length_flatMap, packBytes_length, Nat.mul_comm]

theorem unpackBytes_length (d : Nat) (bs : Bytes) : (unpackBytes d bs).length = ringDegree := by
  simp [unpackBytes]

theorem cbdPoly_length (buf : Bytes) (eta : Nat) : (cbdPoly buf eta).length = ringDegree := by
  simp [cbdPoly]

/-- The number of a bit range is that range of the string's number. -/
theorem bitsAt_eq (bs : Bytes) (lo : Nat) : ∀ n, bitsAt bs lo n = (intLe bs >>> lo) % 2 ^ n
  | 0 => by simp [bitsAt, Nat.mod_one]
  | n + 1 => by
    have ih := bitsAt_eq bs lo n
    rw [bitsAt] at ih
    have hb : bitAt bs (lo + n) = intLe bs >>> lo / 2 ^ n % 2 := by
      rw [bitAt_eq, Nat.testBit_eq_decide_div_mod_eq, Nat.shiftRight_eq_div_pow, Nat.div_div_eq_div_mul, ← Nat.pow_add]
      rcases Nat.mod_two_eq_zero_or_one (intLe bs / 2 ^ (lo + n)) with h | h <;> simp [h]
    rw [bitsAt, List.range_succ, List.map_append, List.sum_append, ih, Nat.mod_pow_succ, ← hb]
    simp [Nat.mul_comm]

theorem intLe_append : ∀ xs ys : Bytes, intLe (xs ++ ys) = intLe xs + 256 ^ xs.length * intLe ys
  | [], ys => by simp [intLe]
  | b :: xs, ys => by
    rw [List.cons_append, intLe_cons, intLe_append xs ys, intLe_cons, List.length_cons]
    ring

/-- The number of a substring. -/
theorem intLe_slice (bs : Bytes) {a b : Nat} (hb : b ≤ bs.length) (hab : a ≤ b) :
    intLe (slice bs a b) = (intLe bs >>> (8 * a)) % 2 ^ (8 * (b - a)) := by
  have hp : ∀ n, 2 ^ (8 * n) = 256 ^ n := fun n => by rw [Nat.pow_mul]
  have h1 : intLe bs = intLe (bs.take a) + 256 ^ a * intLe (bs.drop a) := by
    have := intLe_append (bs.take a) (bs.drop a)
    rwa [List.take_append_drop, List.length_take, Nat.min_eq_left (by omega)] at this
  have l1 : intLe (bs.take a) < 256 ^ a := by
    have := intLe_lt (bs.take a)
    rwa [List.length_take, Nat.min_eq_left (by omega)] at this
  have hl : ((bs.drop a).take (b - a)).length = b - a := by simp; omega
  have h2 : intLe (bs.drop a) = intLe (slice bs a b) + 256 ^ (b - a) * intLe ((bs.drop a).drop (b - a)) := by
    have := intLe_append ((bs.drop a).take (b - a)) ((bs.drop a).drop (b - a))
    rwa [List.take_append_drop, hl] at this
  have l2 : intLe (slice bs a b) < 256 ^ (b - a) := by
    have := intLe_lt ((bs.drop a).take (b - a))
    rwa [hl] at this
  rw [Nat.shiftRight_eq_div_pow, hp, hp, h1, Nat.add_mul_div_left _ _ (by positivity), Nat.div_eq_of_lt l1, Nat.zero_add, h2,
    Nat.add_mul_mod_self_left, Nat.mod_eq_of_lt l2]

/-- Unpacking a vector reads the codes that `codesAt` names bit by bit. -/
theorem unpackVec_eq_codesAt (d n : Nat) (bs : Bytes) (off : Nat) (h : off + 32 * d * n ≤ bs.length) :
    unpackVec d n bs off = codesAt bs off d n := by
  apply List.map_congr_left
  intro i hi
  apply List.map_congr_left
  intro k hk
  have hi : i + 1 ≤ n := List.mem_range.1 hi
  have hk : k < 256 := List.mem_range.1 hk
  have h1 : 32 * d * (i + 1) ≤ 32 * d * n := Nat.mul_le_mul_left _ hi
  have h2 : 32 * d * (i + 1) = 32 * d * i + 32 * d := by ring
  have h3 : d * (k + 1) ≤ d * 256 := Nat.mul_le_mul_left _ hk
  have h4 : d * (k + 1) = d * k + d := by ring
  rw [bitsAt_eq, codeAt, intLe_slice bs (by omega) (by omega)]
  congr 1
  apply Nat.eq_of_testBit_eq
  intro j
  simp only [Nat.testBit_mod_two_pow, Nat.testBit_shiftRight]
  by_cases hj : j < d
  · have h5 : d * k + j < 8 * (off + 32 * d * (i + 1) - (off + 32 * d * i)) := by omega
    simp [hj, h5, Nat.add_assoc]
  · simp [hj]

/-- The codes of compression, ties rounded up. -/
theorem compressCoeff_eq_roundedCode (c : Cfg) (d : Nat) (x : Int) (hq : c.q % 2 = 1) : compressCoeff c d x = roundedCode c d x := by
  have e : ∀ N : Int, (2 * N + c.q) / (2 * c.q) = (N + ((c.q : Int) - 1) / 2) / c.q := fun N => by
    rw [← Int.ediv_ediv_of_nonneg (by omega)]
    congr 1
    omega
  rw [compressCoeff, roundedCode, mul_assoc, e]
  push_cast
  rfl

end Sys2Proof.Machine
end

