-- ==== Sys2Proof/Laws/Encoding.lean ====
section
/-! SUPPORT. The fields of a command word: what the encoder's word holds in each field, and its fixed bits. -/

namespace Sys2Proof

theorem ofNat_add_eq_or (n a b : Nat) (h : a < 2 ^ n) :
    BitVec.ofNat 32 (a + 2 ^ n * b) = BitVec.ofNat 32 a ||| BitVec.ofNat 32 (2 ^ n * b) := by
  rw [Nat.add_comm, Nat.two_pow_add_eq_or_of_lt h, Nat.or_comm]
  apply BitVec.eq_of_getLsbD_eq
  intro i _
  simp [BitVec.getLsbD_ofNat]

/-- A command word is the bitwise or of its fields, each at its place (30_encoding.md R91). -/
theorem packFields_eq_or {opc rd ra rb wd mode : Nat} (ho : opc < 256) (hd : rd < 16) (ha : ra < 16) (hb : rb < 16)
    (hw : wd < 32) :
    packFields opc rd ra rb wd mode
      = BitVec.ofNat 32 opc ||| BitVec.ofNat 32 (2 ^ 8 * rd) ||| BitVec.ofNat 32 (2 ^ 12 * ra)
        ||| BitVec.ofNat 32 (2 ^ 16 * rb) ||| BitVec.ofNat 32 (2 ^ 20 * wd) ||| BitVec.ofNat 32 (2 ^ 25 * mode) := by
  unfold packFields
  rw [ofNat_add_eq_or 25 _ mode (by omega), ofNat_add_eq_or 20 _ wd (by omega), ofNat_add_eq_or 16 _ rb (by omega),
    ofNat_add_eq_or 12 _ ra (by omega), ofNat_add_eq_or 8 _ rd (by omega)]

section fields
variable {opc rd ra rb wd mode : Nat} (ho : opc < 256) (hd : rd < 16) (ha : ra < 16) (hb : rb < 16) (hw : wd < 32)
  (hm : mode < 4)
include ho hd ha hb hw hm

theorem packFields_toNat :
    (packFields opc rd ra rb wd mode).toNat
      = opc + 2 ^ 8 * rd + 2 ^ 12 * ra + 2 ^ 16 * rb + 2 ^ 20 * wd + 2 ^ 25 * mode := by
  unfold packFields
  rw [BitVec.toNat_ofNat, Nat.mod_eq_of_lt]
  omega

theorem fieldOpc_packFields : fieldOpc (packFields opc rd ra rb wd mode) = opc := by
  rw [fieldOpc, packFields_toNat ho hd ha hb hw hm]; omega

theorem fieldRd_packFields : fieldRd (packFields opc rd ra rb wd mode) = rd := by
  rw [fieldRd, packFields_toNat ho hd ha hb hw hm]; omega

theorem fieldRa_packFields : fieldRa (packFields opc rd ra rb wd mode) = ra := by
  rw [fieldRa, packFields_toNat ho hd ha hb hw hm]; omega

theorem fieldRb_packFields : fieldRb (packFields opc rd ra rb wd mode) = rb := by
  rw [fieldRb, packFields_toNat ho hd ha hb hw hm]; omega

theorem fieldWd_packFields : fieldWd (packFields opc rd ra rb wd mode) = wd := by
  rw [fieldWd, packFields_toNat ho hd ha hb hw hm]; omega

theorem fieldMode_packFields : fieldMode (packFields opc rd ra rb wd mode) = mode := by
  rw [fieldMode, packFields_toNat ho hd ha hb hw hm]; omega

end fields

/-- The fixed bits of a command word under a mask: the fields the mask covers must be 0. -/
theorem packFields_and_mask {opc rd ra rb wd mode : Nat} (m : Word) (ho : opc < 256) (hd : rd < 16) (ha : ra < 16)
    (hb : rb < 16) (hw : wd < 32)
    (h1 : BitVec.ofNat 32 opc &&& m = BitVec.ofNat 32 opc) (h2 : BitVec.ofNat 32 (2 ^ 8 * rd) &&& m = 0)
    (h3 : BitVec.ofNat 32 (2 ^ 12 * ra) &&& m = 0) (h4 : BitVec.ofNat 32 (2 ^ 16 * rb) &&& m = 0)
    (h5 : BitVec.ofNat 32 (2 ^ 20 * wd) &&& m = 0) (h6 : BitVec.ofNat 32 (2 ^ 25 * mode) &&& m = 0) :
    packFields opc rd ra rb wd mode &&& m = BitVec.ofNat 32 opc := by
  rw [packFields_eq_or ho hd ha hb hw]
  have e : ∀ x y : Word, (x ||| y) &&& m = (x &&& m) ||| (y &&& m) := by
    intro x y
    apply BitVec.eq_of_getLsbD_eq
    intro i _
    simp only [BitVec.getLsbD_and, BitVec.getLsbD_or, Bool.and_or_distrib_right]
  rw [e, e, e, e, e, h1, h2, h3, h4, h5, h6]
  simp

end Sys2Proof
end

