-- ==== Sys2Proof/Laws/State.lean ====
section
/-! SUPPORT. One lemma per field per update of State. -/

namespace Sys2Proof.Machine

variable (s : State)

@[simp] theorem setSlot_cfg (k : Nat) (f : Poly) : (setSlot s k f).cfg = s.cfg := rfl
@[simp] theorem setSlot_p (k : Nat) (f : Poly) : (setSlot s k f).p = s.p.set k (fitPoly s.cfg.w f) := rfl
@[simp] theorem setSlot_sreg (k : Nat) (f : Poly) : (setSlot s k f).sreg = s.sreg := rfl
@[simp] theorem setSlot_mem (k : Nat) (f : Poly) : (setSlot s k f).mem = s.mem := rfl
@[simp] theorem setSlot_xof (k : Nat) (f : Poly) : (setSlot s k f).xof = s.xof := rfl
@[simp] theorem setSlot_arg (k : Nat) (f : Poly) : (setSlot s k f).arg = s.arg := rfl
@[simp] theorem setSlot_ie (k : Nat) (f : Poly) : (setSlot s k f).ie = s.ie := rfl
@[simp] theorem setSlot_status (k : Nat) (f : Poly) : (setSlot s k f).status = s.status := rfl
@[simp] theorem setSlot_result (k : Nat) (f : Poly) : (setSlot s k f).result = s.result := rfl
@[simp] theorem setSlot_retry (k : Nat) (f : Poly) : (setSlot s k f).retry = s.retry := rfl
@[simp] theorem setSlot_latch (k : Nat) (f : Poly) : (setSlot s k f).latch = s.latch := rfl
@[simp] theorem setSlot_draws (k : Nat) (f : Poly) : (setSlot s k f).draws = s.draws := rfl
@[simp] theorem setSlot_bus (k : Nat) (f : Poly) : (setSlot s k f).bus = s.bus := rfl
@[simp] theorem setSlot_busData (k : Nat) (f : Poly) : (setSlot s k f).busData = s.busData := rfl

@[simp] theorem setScalar_cfg (n : Nat) (v : Int) : (setScalar s n v).cfg = s.cfg := rfl
@[simp] theorem setScalar_p (n : Nat) (v : Int) : (setScalar s n v).p = s.p := rfl
@[simp] theorem setScalar_sreg (n : Nat) (v : Int) : (setScalar s n v).sreg = s.sreg.setIfInBounds n (BitVec.ofInt 64 v) := rfl
@[simp] theorem setScalar_mem (n : Nat) (v : Int) : (setScalar s n v).mem = s.mem := rfl
@[simp] theorem setScalar_xof (n : Nat) (v : Int) : (setScalar s n v).xof = s.xof := rfl
@[simp] theorem setScalar_arg (n : Nat) (v : Int) : (setScalar s n v).arg = s.arg := rfl
@[simp] theorem setScalar_ie (n : Nat) (v : Int) : (setScalar s n v).ie = s.ie := rfl
@[simp] theorem setScalar_status (n : Nat) (v : Int) : (setScalar s n v).status = s.status := rfl
@[simp] theorem setScalar_result (n : Nat) (v : Int) : (setScalar s n v).result = s.result := rfl
@[simp] theorem setScalar_retry (n : Nat) (v : Int) : (setScalar s n v).retry = s.retry := rfl
@[simp] theorem setScalar_latch (n : Nat) (v : Int) : (setScalar s n v).latch = s.latch := rfl
@[simp] theorem setScalar_draws (n : Nat) (v : Int) : (setScalar s n v).draws = s.draws := rfl
@[simp] theorem setScalar_bus (n : Nat) (v : Int) : (setScalar s n v).bus = s.bus := rfl
@[simp] theorem setScalar_busData (n : Nat) (v : Int) : (setScalar s n v).busData = s.busData := rfl

@[simp] theorem memWrite_cfg (a n : Nat) (v : Bytes) : (memWrite s a n v).cfg = s.cfg := rfl
@[simp] theorem memWrite_p (a n : Nat) (v : Bytes) : (memWrite s a n v).p = s.p := rfl
@[simp] theorem memWrite_sreg (a n : Nat) (v : Bytes) : (memWrite s a n v).sreg = s.sreg := rfl
@[simp] theorem memWrite_mem (a n : Nat) (v : Bytes) : (memWrite s a n v).mem = s.mem.writeBytes a (v.take n) := rfl
@[simp] theorem memWrite_xof (a n : Nat) (v : Bytes) : (memWrite s a n v).xof = s.xof := rfl
@[simp] theorem memWrite_arg (a n : Nat) (v : Bytes) : (memWrite s a n v).arg = s.arg := rfl
@[simp] theorem memWrite_ie (a n : Nat) (v : Bytes) : (memWrite s a n v).ie = s.ie := rfl
@[simp] theorem memWrite_status (a n : Nat) (v : Bytes) : (memWrite s a n v).status = s.status := rfl
@[simp] theorem memWrite_result (a n : Nat) (v : Bytes) : (memWrite s a n v).result = s.result := rfl
@[simp] theorem memWrite_retry (a n : Nat) (v : Bytes) : (memWrite s a n v).retry = s.retry := rfl
@[simp] theorem memWrite_latch (a n : Nat) (v : Bytes) : (memWrite s a n v).latch = s.latch := rfl
@[simp] theorem memWrite_draws (a n : Nat) (v : Bytes) : (memWrite s a n v).draws = s.draws := rfl
@[simp] theorem memWrite_bus (a n : Nat) (v : Bytes) : (memWrite s a n v).bus = s.bus := rfl
@[simp] theorem memWrite_busData (a n : Nat) (v : Bytes) : (memWrite s a n v).busData = s.busData := rfl

@[simp] theorem dropXof_cfg : (dropXof s).cfg = s.cfg := rfl
@[simp] theorem dropXof_p : (dropXof s).p = s.p := rfl
@[simp] theorem dropXof_sreg : (dropXof s).sreg = s.sreg := rfl
@[simp] theorem dropXof_mem : (dropXof s).mem = s.mem := rfl
@[simp] theorem dropXof_xof : (dropXof s).xof = none := rfl
@[simp] theorem dropXof_arg : (dropXof s).arg = s.arg := rfl
@[simp] theorem dropXof_ie : (dropXof s).ie = s.ie := rfl
@[simp] theorem dropXof_status : (dropXof s).status = s.status := rfl
@[simp] theorem dropXof_result : (dropXof s).result = s.result := rfl
@[simp] theorem dropXof_retry : (dropXof s).retry = s.retry := rfl
@[simp] theorem dropXof_latch : (dropXof s).latch = s.latch := rfl
@[simp] theorem dropXof_draws : (dropXof s).draws = s.draws := rfl
@[simp] theorem dropXof_bus : (dropXof s).bus = s.bus := rfl
@[simp] theorem dropXof_busData : (dropXof s).busData = s.busData := rfl

@[simp] theorem zeroWorking_cfg : (zeroWorking s).cfg = s.cfg := rfl
@[simp] theorem zeroWorking_p : (zeroWorking s).p = List.replicate s.cfg.np zeroPoly := rfl
@[simp] theorem zeroWorking_sreg : (zeroWorking s).sreg = Vector.replicate 4 0 := rfl
@[simp] theorem zeroWorking_mem : (zeroWorking s).mem = s.mem := rfl
@[simp] theorem zeroWorking_xof : (zeroWorking s).xof = none := rfl
@[simp] theorem zeroWorking_arg : (zeroWorking s).arg = s.arg := rfl
@[simp] theorem zeroWorking_ie : (zeroWorking s).ie = s.ie := rfl
@[simp] theorem zeroWorking_status : (zeroWorking s).status = s.status := rfl
@[simp] theorem zeroWorking_result : (zeroWorking s).result = s.result := rfl
@[simp] theorem zeroWorking_retry : (zeroWorking s).retry = s.retry := rfl
@[simp] theorem zeroWorking_latch : (zeroWorking s).latch = s.latch := rfl
@[simp] theorem zeroWorking_draws : (zeroWorking s).draws = s.draws := rfl
@[simp] theorem zeroWorking_bus : (zeroWorking s).bus = s.bus := rfl
@[simp] theorem zeroWorking_busData : (zeroWorking s).busData = s.busData := rfl

@[simp] theorem zeroBuffer_cfg : (zeroBuffer s).cfg = s.cfg := rfl
@[simp] theorem zeroBuffer_p : (zeroBuffer s).p = s.p := rfl
@[simp] theorem zeroBuffer_sreg : (zeroBuffer s).sreg = s.sreg := rfl
@[simp] theorem zeroBuffer_mem : (zeroBuffer s).mem = cellsAt 0 (List.replicate s.cfg.bmemSize 0) := rfl
@[simp] theorem zeroBuffer_xof : (zeroBuffer s).xof = s.xof := rfl
@[simp] theorem zeroBuffer_arg : (zeroBuffer s).arg = s.arg := rfl
@[simp] theorem zeroBuffer_ie : (zeroBuffer s).ie = s.ie := rfl
@[simp] theorem zeroBuffer_status : (zeroBuffer s).status = s.status := rfl
@[simp] theorem zeroBuffer_result : (zeroBuffer s).result = s.result := rfl
@[simp] theorem zeroBuffer_retry : (zeroBuffer s).retry = s.retry := rfl
@[simp] theorem zeroBuffer_latch : (zeroBuffer s).latch = s.latch := rfl
@[simp] theorem zeroBuffer_draws : (zeroBuffer s).draws = s.draws := rfl
@[simp] theorem zeroBuffer_bus : (zeroBuffer s).bus = s.bus := rfl
@[simp] theorem zeroBuffer_busData : (zeroBuffer s).busData = s.busData := rfl

@[simp] theorem setResult_cfg (n : Nat) : (setResult s n).cfg = s.cfg := rfl
@[simp] theorem setResult_p (n : Nat) : (setResult s n).p = s.p := rfl
@[simp] theorem setResult_sreg (n : Nat) : (setResult s n).sreg = s.sreg := rfl
@[simp] theorem setResult_mem (n : Nat) : (setResult s n).mem = s.mem := rfl
@[simp] theorem setResult_xof (n : Nat) : (setResult s n).xof = s.xof := rfl
@[simp] theorem setResult_arg (n : Nat) : (setResult s n).arg = s.arg := rfl
@[simp] theorem setResult_ie (n : Nat) : (setResult s n).ie = s.ie := rfl
@[simp] theorem setResult_status (n : Nat) : (setResult s n).status = s.status := rfl
@[simp] theorem setResult_result (n : Nat) : (setResult s n).result = BitVec.ofNat 32 n := rfl
@[simp] theorem setResult_retry (n : Nat) : (setResult s n).retry = s.retry := rfl
@[simp] theorem setResult_latch (n : Nat) : (setResult s n).latch = s.latch := rfl
@[simp] theorem setResult_draws (n : Nat) : (setResult s n).draws = s.draws := rfl
@[simp] theorem setResult_bus (n : Nat) : (setResult s n).bus = s.bus := rfl
@[simp] theorem setResult_busData (n : Nat) : (setResult s n).busData = s.busData := rfl

@[simp] theorem setRetry_cfg (n : Nat) : (setRetry s n).cfg = s.cfg := rfl
@[simp] theorem setRetry_p (n : Nat) : (setRetry s n).p = s.p := rfl
@[simp] theorem setRetry_sreg (n : Nat) : (setRetry s n).sreg = s.sreg := rfl
@[simp] theorem setRetry_mem (n : Nat) : (setRetry s n).mem = s.mem := rfl
@[simp] theorem setRetry_xof (n : Nat) : (setRetry s n).xof = s.xof := rfl
@[simp] theorem setRetry_arg (n : Nat) : (setRetry s n).arg = s.arg := rfl
@[simp] theorem setRetry_ie (n : Nat) : (setRetry s n).ie = s.ie := rfl
@[simp] theorem setRetry_status (n : Nat) : (setRetry s n).status = s.status := rfl
@[simp] theorem setRetry_result (n : Nat) : (setRetry s n).result = s.result := rfl
@[simp] theorem setRetry_retry (n : Nat) : (setRetry s n).retry = BitVec.ofNat 32 n := rfl
@[simp] theorem setRetry_latch (n : Nat) : (setRetry s n).latch = s.latch := rfl
@[simp] theorem setRetry_draws (n : Nat) : (setRetry s n).draws = s.draws := rfl
@[simp] theorem setRetry_bus (n : Nat) : (setRetry s n).bus = s.bus := rfl
@[simp] theorem setRetry_busData (n : Nat) : (setRetry s n).busData = s.busData := rfl

@[simp] theorem complete_cfg : (complete s).cfg = s.cfg := rfl
@[simp] theorem complete_p : (complete s).p = s.p := rfl
@[simp] theorem complete_sreg : (complete s).sreg = s.sreg := rfl
@[simp] theorem complete_mem : (complete s).mem = s.mem := rfl
@[simp] theorem complete_xof : (complete s).xof = s.xof := rfl
@[simp] theorem complete_arg : (complete s).arg = s.arg := rfl
@[simp] theorem complete_ie : (complete s).ie = s.ie := rfl
@[simp] theorem complete_status : (complete s).status = { s.status with busy := false, done := true } := rfl
@[simp] theorem complete_result : (complete s).result = s.result := rfl
@[simp] theorem complete_retry : (complete s).retry = s.retry := rfl
@[simp] theorem complete_latch : (complete s).latch = s.latch := rfl
@[simp] theorem complete_draws : (complete s).draws = s.draws := rfl
@[simp] theorem complete_bus : (complete s).bus = s.bus := rfl
@[simp] theorem complete_busData : (complete s).busData = s.busData := rfl

@[simp] theorem writeArg_cfg (k : Nat) (v : Word) : (writeArg s k v).cfg = s.cfg := rfl
@[simp] theorem writeArg_p (k : Nat) (v : Word) : (writeArg s k v).p = s.p := rfl
@[simp] theorem writeArg_sreg (k : Nat) (v : Word) : (writeArg s k v).sreg = s.sreg := rfl
@[simp] theorem writeArg_mem (k : Nat) (v : Word) : (writeArg s k v).mem = s.mem := rfl
@[simp] theorem writeArg_xof (k : Nat) (v : Word) : (writeArg s k v).xof = s.xof := rfl
@[simp] theorem writeArg_arg (k : Nat) (v : Word) : (writeArg s k v).arg = s.arg.setIfInBounds k v := rfl
@[simp] theorem writeArg_ie (k : Nat) (v : Word) : (writeArg s k v).ie = s.ie := rfl
@[simp] theorem writeArg_status (k : Nat) (v : Word) : (writeArg s k v).status = s.status := rfl
@[simp] theorem writeArg_result (k : Nat) (v : Word) : (writeArg s k v).result = s.result := rfl
@[simp] theorem writeArg_retry (k : Nat) (v : Word) : (writeArg s k v).retry = s.retry := rfl
@[simp] theorem writeArg_latch (k : Nat) (v : Word) : (writeArg s k v).latch = s.latch := rfl
@[simp] theorem writeArg_draws (k : Nat) (v : Word) : (writeArg s k v).draws = s.draws := rfl
@[simp] theorem writeArg_bus (k : Nat) (v : Word) : (writeArg s k v).bus = s.bus := rfl
@[simp] theorem writeArg_busData (k : Nat) (v : Word) : (writeArg s k v).busData = s.busData := rfl

@[simp] theorem writeCoeff_cfg (sl i : Nat) (v : Word) : (writeCoeff s sl i v).cfg = s.cfg := rfl
@[simp] theorem writeCoeff_p (sl i : Nat) (v : Word) : (writeCoeff s sl i v).p = s.p.modify sl (fun f => f.set i (wrap s.cfg.w v.toInt)) := rfl
@[simp] theorem writeCoeff_sreg (sl i : Nat) (v : Word) : (writeCoeff s sl i v).sreg = s.sreg := rfl
@[simp] theorem writeCoeff_mem (sl i : Nat) (v : Word) : (writeCoeff s sl i v).mem = s.mem := rfl
@[simp] theorem writeCoeff_xof (sl i : Nat) (v : Word) : (writeCoeff s sl i v).xof = s.xof := rfl
@[simp] theorem writeCoeff_arg (sl i : Nat) (v : Word) : (writeCoeff s sl i v).arg = s.arg := rfl
@[simp] theorem writeCoeff_ie (sl i : Nat) (v : Word) : (writeCoeff s sl i v).ie = s.ie := rfl
@[simp] theorem writeCoeff_status (sl i : Nat) (v : Word) : (writeCoeff s sl i v).status = s.status := rfl
@[simp] theorem writeCoeff_result (sl i : Nat) (v : Word) : (writeCoeff s sl i v).result = s.result := rfl
@[simp] theorem writeCoeff_retry (sl i : Nat) (v : Word) : (writeCoeff s sl i v).retry = s.retry := rfl
@[simp] theorem writeCoeff_latch (sl i : Nat) (v : Word) : (writeCoeff s sl i v).latch = s.latch := rfl
@[simp] theorem writeCoeff_draws (sl i : Nat) (v : Word) : (writeCoeff s sl i v).draws = s.draws := rfl
@[simp] theorem writeCoeff_bus (sl i : Nat) (v : Word) : (writeCoeff s sl i v).bus = s.bus := rfl
@[simp] theorem writeCoeff_busData (sl i : Nat) (v : Word) : (writeCoeff s sl i v).busData = s.busData := rfl

@[simp] theorem accept_cfg (w : Word) : (accept w s).cfg = s.cfg := rfl
@[simp] theorem accept_p (w : Word) : (accept w s).p = s.p := rfl
@[simp] theorem accept_sreg (w : Word) : (accept w s).sreg = s.sreg := rfl
@[simp] theorem accept_mem (w : Word) : (accept w s).mem = s.mem := rfl
@[simp] theorem accept_xof (w : Word) : (accept w s).xof = s.xof := rfl
@[simp] theorem accept_arg (w : Word) : (accept w s).arg = s.arg := rfl
@[simp] theorem accept_ie (w : Word) : (accept w s).ie = s.ie := rfl
@[simp] theorem accept_status (w : Word) : (accept w s).status = { s.status with busy := true, done := false } := rfl
@[simp] theorem accept_result (w : Word) : (accept w s).result = 0 := rfl
@[simp] theorem accept_retry (w : Word) : (accept w s).retry = 0 := rfl
@[simp] theorem accept_latch (w : Word) : (accept w s).latch = { word := w, args := s.arg } := rfl
@[simp] theorem accept_draws (w : Word) : (accept w s).draws = s.draws := rfl
@[simp] theorem accept_bus (w : Word) : (accept w s).bus = s.bus := rfl
@[simp] theorem accept_busData (w : Word) : (accept w s).busData = s.busData := rfl

@[simp] theorem raise_cfg (e : ErrorCode) : (raise e s).cfg = s.cfg := rfl
@[simp] theorem raise_p (e : ErrorCode) : (raise e s).p = s.p := rfl
@[simp] theorem raise_sreg (e : ErrorCode) : (raise e s).sreg = s.sreg := rfl
@[simp] theorem raise_mem (e : ErrorCode) : (raise e s).mem = s.mem := rfl
@[simp] theorem raise_xof (e : ErrorCode) : (raise e s).xof = s.xof := rfl
@[simp] theorem raise_arg (e : ErrorCode) : (raise e s).arg = s.arg := rfl
@[simp] theorem raise_ie (e : ErrorCode) : (raise e s).ie = s.ie := rfl
@[simp] theorem raise_status (e : ErrorCode) : (raise e s).status = { s.status with busy := false, done := true, err := true, errcode := e.code } := rfl
@[simp] theorem raise_result (e : ErrorCode) : (raise e s).result = s.result := rfl
@[simp] theorem raise_retry (e : ErrorCode) : (raise e s).retry = s.retry := rfl
@[simp] theorem raise_latch (e : ErrorCode) : (raise e s).latch = s.latch := rfl
@[simp] theorem raise_draws (e : ErrorCode) : (raise e s).draws = s.draws := rfl
@[simp] theorem raise_bus (e : ErrorCode) : (raise e s).bus = s.bus := rfl
@[simp] theorem raise_busData (e : ErrorCode) : (raise e s).busData = s.busData := rfl

@[simp] theorem raiseFatal_cfg : (raiseFatal s).cfg = s.cfg := rfl
@[simp] theorem raiseFatal_p : (raiseFatal s).p = List.replicate s.cfg.np zeroPoly := rfl
@[simp] theorem raiseFatal_sreg : (raiseFatal s).sreg = Vector.replicate 4 0 := rfl
@[simp] theorem raiseFatal_mem : (raiseFatal s).mem = s.mem := rfl
@[simp] theorem raiseFatal_xof : (raiseFatal s).xof = none := rfl
@[simp] theorem raiseFatal_arg : (raiseFatal s).arg = s.arg := rfl
@[simp] theorem raiseFatal_ie : (raiseFatal s).ie = s.ie := rfl
@[simp] theorem raiseFatal_status : (raiseFatal s).status = { busy := false, done := true, err := true, halt := true, cmdovr := s.status.cmdovr, errcode := 5 } := rfl
@[simp] theorem raiseFatal_result : (raiseFatal s).result = s.result := rfl
@[simp] theorem raiseFatal_retry : (raiseFatal s).retry = s.retry := rfl
@[simp] theorem raiseFatal_latch : (raiseFatal s).latch = s.latch := rfl
@[simp] theorem raiseFatal_draws : (raiseFatal s).draws = s.draws := rfl
@[simp] theorem raiseFatal_bus : (raiseFatal s).bus = s.bus := rfl
@[simp] theorem raiseFatal_busData : (raiseFatal s).busData = s.busData := rfl

@[simp] theorem resetCore_cfg : (resetCore s).cfg = s.cfg := rfl
@[simp] theorem resetCore_p : (resetCore s).p = List.replicate s.cfg.np zeroPoly := rfl
@[simp] theorem resetCore_sreg : (resetCore s).sreg = Vector.replicate 4 0 := rfl
@[simp] theorem resetCore_mem : (resetCore s).mem = [] := rfl
@[simp] theorem resetCore_xof : (resetCore s).xof = none := rfl
@[simp] theorem resetCore_arg : (resetCore s).arg = Vector.replicate 6 0 := rfl
@[simp] theorem resetCore_ie : (resetCore s).ie = false := rfl
@[simp] theorem resetCore_status : (resetCore s).status = Status.idle := rfl
@[simp] theorem resetCore_result : (resetCore s).result = 0 := rfl
@[simp] theorem resetCore_retry : (resetCore s).retry = 0 := rfl
@[simp] theorem resetCore_latch : (resetCore s).latch = { word := 0, args := Vector.replicate 6 0 } := rfl
@[simp] theorem resetCore_draws : (resetCore s).draws = s.draws := rfl
@[simp] theorem resetCore_bus : (resetCore s).bus = s.bus := rfl
@[simp] theorem resetCore_busData : (resetCore s).busData = s.busData := rfl

end Sys2Proof.Machine
end

