-- ==== Sys2Proof/Laws/Memory.lean ====
section
/-! SUPPORT. Buffer memory: a read after a write, the canonical form, and what `readBytes` answers. -/

namespace Sys2Proof.Machine

/-! ## One byte after a write -/

theorem lookup_filter_of_pos (q : Nat → Bool) (x : Nat) (hx : q x = true) :
    ∀ m : Memory, List.lookup x (m.filter (fun y => q y.1)) = List.lookup x m
  | [] => rfl
  | (k, b) :: m => by
    have ih := lookup_filter_of_pos q x hx m
    by_cases hk : x = k
    · subst hk
      simp [hx]
    · have hb : (x == k) = false := by simpa using hk
      by_cases hq : q k = true <;> simp [hq, List.lookup_cons, hb, ih]

theorem lookup_filter_of_neg (q : Nat → Bool) (x : Nat) (hx : q x = false) :
    ∀ m : Memory, List.lookup x (m.filter (fun y => q y.1)) = none
  | [] => rfl
  | (k, b) :: m => by
    have ih := lookup_filter_of_neg q x hx m
    by_cases hq : q k = true
    · have hb : (x == k) = false := by
        simp only [beq_eq_false_iff_ne, ne_eq]
        rintro rfl
        simp [hx] at hq
      simp [hq, List.lookup_cons, hb, ih]
    · simp [hq, ih]

theorem lookup_cellsAt (x : Nat) : ∀ (bs : Bytes) (a : Nat),
    List.lookup x (cellsAt a bs) = if a ≤ x then bs[x - a]? else none
  | [], a => by simp [cellsAt]
  | b :: bs, a => by
    have ih := lookup_cellsAt x bs (a + 1)
    have hc : cellsAt a (b :: bs) = (a, b) :: cellsAt (a + 1) bs := by
      simp [cellsAt, List.zipIdx_cons]
    rw [hc, List.lookup_cons, ih]
    by_cases hx : x = a
    · subst hx; simp
    · have hb : (x == a) = false := by simpa using hx
      rw [hb]
      by_cases hle : a ≤ x
      · have h1 : a + 1 ≤ x := by omega
        obtain ⟨k, rfl⟩ := Nat.exists_eq_add_of_le h1
        have e1 : a + 1 + k - (a + 1) = k := by omega
        have e2 : a + 1 + k - a = k + 1 := by omega
        simp [hle, e1, e2]
      · have h1 : ¬ a + 1 ≤ x := by omega
        simp [hle, h1]

/-- A read after a store: the stored byte inside, the old one outside. -/
theorem read_writeBytes (m : Memory) (a : Nat) (bs : Bytes) (x : Nat) :
    (m.writeBytes a bs).read x = if a ≤ x ∧ x < a + bs.length then bs[x - a]? else m.read x := by
  unfold Memory.read Memory.writeBytes
  rw [List.lookup_append, List.lookup_append, lookup_cellsAt]
  by_cases h1 : x < a
  · have f1 := lookup_filter_of_pos (fun y => decide (y < a)) x (by simpa using h1) m
    have f2 := lookup_filter_of_neg (fun y => decide (a + bs.length ≤ y)) x (by simp; omega) m
    have n1 : ¬ a ≤ x := by omega
    rw [f1, f2]
    simp [n1]
  · have f1 := lookup_filter_of_neg (fun y => decide (y < a)) x (by simpa using h1) m
    have p1 : a ≤ x := by omega
    rw [f1]
    by_cases h2 : x < a + bs.length
    · have hlt : x - a < bs.length := by omega
      simp [p1, h2, List.getElem?_eq_getElem hlt]
    · have f2 := lookup_filter_of_pos (fun y => decide (a + bs.length ≤ y)) x (by simp; omega) m
      have hn : bs[x - a]? = none := by simp; omega
      rw [f2]
      simp [p1, h2, hn]

theorem read_writeBytes_inside (m : Memory) (a : Nat) (bs : Bytes) (k : Nat) (h : k < bs.length) :
    (m.writeBytes a bs).read (a + k) = bs[k]? := by
  rw [read_writeBytes, if_pos ⟨by omega, by omega⟩, Nat.add_sub_cancel_left]

theorem read_writeBytes_outside (m : Memory) (a : Nat) (bs : Bytes) (x : Nat) (h : x < a ∨ a + bs.length ≤ x) :
    (m.writeBytes a bs).read x = m.read x := by
  rw [read_writeBytes, if_neg (by omega)]

theorem read_cellsAt (a : Nat) (bs : Bytes) (k : Nat) :
    Memory.read (cellsAt a bs) (a + k) = bs[k]? := by
  simp [Memory.read, lookup_cellsAt]

/-! ## The canonical form -/

theorem mem_cellsAt {a : Nat} {bs : Bytes} {x : Host.Cell} (h : x ∈ cellsAt a bs) :
    a ≤ x.1 ∧ x.1 < a + bs.length := by
  simp only [cellsAt, List.mem_map] at h
  obtain ⟨y, hy, rfl⟩ := h
  have := List.mem_zipIdx hy
  simp only
  omega

theorem wf_cellsAt : ∀ (bs : Bytes) (a : Nat), Memory.wf (cellsAt a bs)
  | [], a => by simp [cellsAt]
  | b :: bs, a => by
    have hc : cellsAt a (b :: bs) = (a, b) :: cellsAt (a + 1) bs := by simp [cellsAt, List.zipIdx_cons]
    rw [hc]
    refine List.pairwise_cons.2 ⟨fun y hy => ?_, wf_cellsAt bs (a + 1)⟩
    have := (mem_cellsAt hy).1
    simp only
    omega

/-- Storing bytes keeps the canonical form. -/
theorem wf_writeBytes (m : Memory) (a : Nat) (bs : Bytes) (h : Memory.wf m) : Memory.wf (m.writeBytes a bs) := by
  unfold Memory.writeBytes
  refine List.pairwise_append.2 ⟨List.pairwise_append.2 ⟨h.filter _, wf_cellsAt bs a, ?_⟩, h.filter _, ?_⟩
  · intro x hx y hy
    have h1 : x.1 < a := by simpa using (List.mem_filter.1 hx).2
    have := (mem_cellsAt hy).1
    omega
  · intro x hx y hy
    have h2 : a + bs.length ≤ y.1 := by simpa using (List.mem_filter.1 hy).2
    rcases List.mem_append.1 hx with hx | hx
    · have h1 : x.1 < a := by simpa using (List.mem_filter.1 hx).2
      omega
    · have := (mem_cellsAt hx).2
      omega

/-- A store lists no address at or above `n` that was not listed before, if it stays below `n`. -/
theorem below_writeBytes (m : Memory) (a n : Nat) (bs : Bytes) (h : ∀ x ∈ m, x.1 < n) (hb : bs.length = 0 ∨ a + bs.length ≤ n) :
    ∀ x ∈ m.writeBytes a bs, x.1 < n := by
  intro x hx
  unfold Memory.writeBytes at hx
  rcases List.mem_append.1 hx with hx | hx
  · rcases List.mem_append.1 hx with hx | hx
    · exact h x (List.mem_filter.1 hx).1
    · have := mem_cellsAt hx
      omega
  · exact h x (List.mem_filter.1 hx).1

theorem wf_memWrite (s : State) (a n : Nat) (v : Bytes) (h : Memory.wf s.mem) : Memory.wf (memWrite s a n v).mem :=
  wf_writeBytes _ _ _ h

theorem wf_zeroBuffer (s : State) : Memory.wf (zeroBuffer s).mem := wf_cellsAt _ _

theorem wf_reset (c : Cfg) : Memory.wf (State.resetOf c).mem := List.Pairwise.nil

theorem wf_state_reset : Memory.wf State.reset.mem := List.Pairwise.nil

/-! ## What `MemRead` answers -/

theorem read_none_of_below {m : Memory} {a : Nat} (h : ∀ x ∈ m, a < x.1) : m.read a = none := by
  unfold Memory.read
  induction m with
  | nil => rfl
  | cons x m ih =>
    have hx := h x (by simp)
    have hb : (a == x.1) = false := by simp; omega
    obtain ⟨k, b⟩ := x
    rw [List.lookup_cons, hb]
    exact ih (fun y hy => h y (by simp [hy]))

theorem readRun_spec : ∀ (n : Nat) (m : Memory) (a : Nat), Memory.wf m → (∀ x ∈ m, a ≤ x.1) →
    (∃ bs : Bytes, Memory.readRun m a n = .ok bs ∧ bs.length = n ∧ ∀ k, k < n → m.read (a + k) = bs[k]?)
      ∨ (∃ e, Memory.readRun m a n = .error e ∧ a ≤ e ∧ e < a + n ∧ m.read e = none)
  | 0, m, a, _, _ => Or.inl ⟨[], by cases m <;> rfl, rfl, fun k hk => absurd hk (by omega)⟩
  | n + 1, [], a, _, _ => Or.inr ⟨a, rfl, Nat.le_refl _, by omega, rfl⟩
  | n + 1, (k, b) :: m, a, hw, ha => by
    have hw' := List.pairwise_cons.1 hw
    by_cases hk : k = a
    · subst hk
      have hrest : ∀ x ∈ m, k + 1 ≤ x.1 := fun x hx => hw'.1 x hx
      have hread : ∀ x, x ≠ k → Memory.read ((k, b) :: m) x = Memory.read m x := by
        intro x hx
        have hb : (x == k) = false := by simpa using hx
        simp [Memory.read, List.lookup_cons, hb]
      rcases readRun_spec n m (k + 1) hw'.2 hrest with ⟨bs, h1, h2, h3⟩ | ⟨e, h1, h2, h3, h4⟩
      · refine Or.inl ⟨b :: bs, by simp [Memory.readRun, h1], by simp [h2], fun j hj => ?_⟩
        cases j with
        | zero => simp [Memory.read]
        | succ j =>
          rw [hread _ (by omega), show k + (j + 1) = k + 1 + j by omega, h3 j (by omega)]
          simp
      · exact Or.inr ⟨e, by simp [Memory.readRun, h1], by omega, by omega, by rw [hread _ (by omega)]; exact h4⟩
    · refine Or.inr ⟨a, by simp [Memory.readRun, hk], Nat.le_refl _, by omega, read_none_of_below (fun x hx => ?_)⟩
      rcases List.mem_cons.1 hx with rfl | hx
      · have := ha _ (List.mem_cons_self ..)
        simp only at this ⊢
        omega
      · have h1 := hw'.1 x hx
        have h2 := ha _ (List.mem_cons_self ..)
        simp only at h1 h2
        omega

theorem wf_dropWhile (m : Memory) (a : Nat) (h : Memory.wf m) :
    Memory.wf (m.dropWhile (fun x => decide (x.1 < a))) ∧ ∀ x ∈ m.dropWhile (fun x => decide (x.1 < a)), a ≤ x.1 := by
  induction m with
  | nil => exact ⟨List.Pairwise.nil, fun x hx => absurd hx (by simp)⟩
  | cons y m ih =>
    have hw := List.pairwise_cons.1 h
    by_cases hy : y.1 < a
    · simpa [List.dropWhile_cons, hy] using ih hw.2
    · simp only [List.dropWhile_cons, hy, decide_false, Bool.false_eq_true, if_false]
      refine ⟨h, fun x hx => ?_⟩
      rcases List.mem_cons.1 hx with rfl | hx
      · omega
      · have := hw.1 x hx
        omega

theorem read_dropWhile (m : Memory) (a x : Nat) (hx : a ≤ x) :
    Memory.read (m.dropWhile (fun y => decide (y.1 < a))) x = m.read x := by
  induction m with
  | nil => rfl
  | cons y m ih =>
    obtain ⟨k, b⟩ := y
    by_cases hk : k < a
    · have hb : (x == k) = false := by simp; omega
      simpa [List.dropWhile_cons, hk, Memory.read, List.lookup_cons, hb] using ih
    · simp [hk]

/-- What `MemRead` answers on a memory in canonical form: the bytes, or an address without a value. -/
theorem readBytes_spec (m : Memory) (a n : Nat) (h : Memory.wf m) :
    (∃ bs : Bytes, m.readBytes a n = .ok bs ∧ bs.length = n ∧ ∀ k, k < n → m.read (a + k) = bs[k]?)
      ∨ (∃ e, m.readBytes a n = .error e ∧ a ≤ e ∧ e < a + n ∧ m.read e = none) := by
  obtain ⟨h1, h2⟩ := wf_dropWhile m a h
  rcases readRun_spec n _ a h1 h2 with ⟨bs, e1, e2, e3⟩ | ⟨e, e1, e2, e3, e4⟩
  · refine Or.inl ⟨bs, e1, e2, fun k hk => ?_⟩
    rw [← e3 k hk, read_dropWhile _ _ _ (by omega)]
  · exact Or.inr ⟨e, e1, e2, e3, by rw [← e4, read_dropWhile _ _ _ e2]⟩

/-- `MemRead` answers the bytes that memory holds. -/
theorem readBytes_of_holds (m : Memory) (a n : Nat) (bs : Bytes) (h : Memory.wf m) (hl : bs.length = n)
    (hb : ∀ k, k < bs.length → m.read (a + k) = bs[k]?) : m.readBytes a n = .ok bs := by
  rcases readBytes_spec m a n h with ⟨cs, h1, h2, h3⟩ | ⟨e, h1, h2, h3, h4⟩
  · rw [h1]
    congr 1
    apply List.ext_getElem?
    intro k
    by_cases hk : k < n
    · rw [← h3 k hk, hb k (by omega)]
    · rw [List.getElem?_eq_none (by omega), List.getElem?_eq_none (by omega)]
  · obtain ⟨k, rfl⟩ := Nat.exists_eq_add_of_le h2
    have := hb k (by omega)
    rw [h4, List.getElem?_eq_getElem (by omega)] at this
    simp at this

theorem readBytes_length {m : Memory} {a n : Nat} {bs : Bytes} (h : Memory.wf m) (hr : m.readBytes a n = .ok bs) :
    bs.length = n := by
  rcases readBytes_spec m a n h with ⟨cs, h1, h2, _⟩ | ⟨e, h1, _⟩
  · rw [hr] at h1
    cases h1
    exact h2
  · rw [hr] at h1
    cases h1

/-- How `reading` can end in a next state. -/
theorem reading_next {s t : State} {a n : Nat} {k : Bytes → Outcome} (h : reading s a n k = .next t) :
    ∃ bs, s.mem.readBytes a n = .ok bs ∧ k bs = .next t := by
  unfold reading at h
  split at h
  · exact ⟨_, ‹_›, h⟩
  · cases h

/-- `reading` goes on with the bytes that memory holds. -/
theorem reading_of_holds {s : State} {a n : Nat} {bs : Bytes} (k : Bytes → Outcome) (h : Memory.wf s.mem)
    (hl : bs.length = n) (hb : ∀ j, j < bs.length → s.mem.read (a + j) = bs[j]?) : reading s a n k = k bs := by
  unfold reading
  rw [readBytes_of_holds _ _ _ _ h hl hb]

/-- `reading` never refuses by itself, and faults only at an address without a value. -/
theorem reading_fault {s : State} {a n : Nat} {k : Bytes → Outcome} {r : Fault} (hw : Memory.wf s.mem)
    (h : reading s a n k = .fault r) :
    (∃ e, r = .noValue e ∧ a ≤ e ∧ e < a + n ∧ s.mem.read e = none) ∨ ∃ bs, k bs = .fault r := by
  rcases readBytes_spec s.mem a n hw with ⟨bs, h1, _⟩ | ⟨e, h1, h2, h3, h4⟩
  · refine Or.inr ⟨bs, ?_⟩
    simpa [reading, h1] using h
  · refine Or.inl ⟨e, ?_, h2, h3, h4⟩
    simp only [reading, h1, Host.Outcome.fault.injEq] at h
    exact h.symm

end Sys2Proof.Machine
end

