-- ==== Sys2Proof/Laws/Ops.lean ====
section
/-! SUPPORT. What each shared operation does: wrapping, slots, scalar registers, draws, the endings of a command. -/

namespace Sys2Proof.Machine

/-! ## Wrapping (00_scope.md R12) -/

/-- `wrap` answers a `w`-bit two's complement value. -/
theorem wrap_fits {w : Nat} (hw : 0 < w) (v : Int) : CoeffFits w (wrap w v) := by
  obtain ⟨n, rfl⟩ : ∃ n, w = n + 1 := ⟨w - 1, by omega⟩
  have hpos : 0 < (2 : Nat) ^ (n + 1) := by positivity
  have h1 := Int.le_bmod (x := v) hpos
  have h2 := Int.bmod_lt (x := v) hpos
  have e : ((2 ^ (n + 1) : Nat) : Int) = 2 * 2 ^ n := by push_cast; ring
  rw [e] at h1 h2
  simp only [wrap, CoeffFits, Nat.add_sub_cancel]
  constructor <;> omega

/-- `wrap` changes nothing that fits. -/
theorem wrap_of_fits {w : Nat} (hw : 0 < w) {v : Int} (h : CoeffFits w v) : wrap w v = v := by
  obtain ⟨n, rfl⟩ : ∃ n, w = n + 1 := ⟨w - 1, by omega⟩
  simp only [CoeffFits, Nat.add_sub_cancel] at h
  have e : ((2 ^ (n + 1) : Nat) : Int) = 2 * 2 ^ n := by push_cast; ring
  apply Int.bmod_eq_of_le
  · rw [e]; omega
  · rw [e]; omega

/-- `wrap` keeps the value modulo `2^w`. -/
theorem wrap_emod (w : Nat) (v : Int) : wrap w v % (2 ^ w : Nat) = v % (2 ^ w : Nat) := Int.bmod_emod

/-! ## Slots (10_state.md R21, 00_scope.md R13) -/

theorem zeroPoly_length : zeroPoly.length = ringDegree := List.length_replicate

theorem zeroPoly_fits {w : Nat} : PolyFits w zeroPoly := by
  refine ⟨zeroPoly_length, fun x hx => ?_⟩
  have : x = 0 := (List.mem_replicate.1 hx).2
  subst this
  have : (0 : Int) < 2 ^ (w - 1) := by positivity
  constructor <;> omega

theorem fitPoly_length (w : Nat) (f : Poly) : (fitPoly w f).length = ringDegree := by
  simp [fitPoly, zeroPoly_length]

/-- What a slot write stores is a slot's polynomial. -/
theorem fitPoly_fits {w : Nat} (hw : 0 < w) (f : Poly) : PolyFits w (fitPoly w f) := by
  refine ⟨fitPoly_length w f, fun x hx => ?_⟩
  simp only [fitPoly, List.mem_map] at hx
  obtain ⟨y, _, rfl⟩ := hx
  exact wrap_fits hw y

/-- A polynomial of 256 coefficients is stored coefficient by coefficient, each wrapped. -/
theorem fitPoly_of_length (w : Nat) {f : Poly} (hf : f.length = ringDegree) : fitPoly w f = f.map (wrap w) := by
  rw [fitPoly, List.take_append_of_le_length (by omega), List.take_of_length_le (by omega)]

/-- A slot's polynomial is stored as it is. -/
theorem fitPoly_of_fits {w : Nat} (hw : 0 < w) {f : Poly} (hf : PolyFits w f) : fitPoly w f = f := by
  rw [fitPoly_of_length w hf.1]
  calc f.map (wrap w) = f.map id := List.map_congr_left fun x hx => wrap_of_fits hw (hf.2 x hx)
    _ = f := by simp

theorem getSlot_fits {s : State} (h : SlotsFit s) (k : Nat) : PolyFits s.cfg.w (getSlot s k) := by
  unfold getSlot
  by_cases hk : k < s.p.length
  · rw [List.getD_eq_getElem _ _ hk]
    exact h.2 _ (List.getElem_mem hk)
  · rw [List.getD_eq_default _ _ (by omega)]
    exact zeroPoly_fits

theorem getSlot_length {s : State} (h : SlotsFit s) (k : Nat) : (getSlot s k).length = ringDegree :=
  (getSlot_fits h k).1

@[simp] theorem getSlot_setSlot_same (s : State) (k : Nat) (f : Poly) (hk : k < s.p.length) :
    getSlot (setSlot s k f) k = fitPoly s.cfg.w f := by
  simp [getSlot, hk]

@[simp] theorem getSlot_setSlot_other (s : State) (k j : Nat) (f : Poly) (hj : j ≠ k) :
    getSlot (setSlot s k f) j = getSlot s j := by
  simp only [getSlot, setSlot_p, List.getD_eq_getElem?_getD]
  rw [List.getElem?_set_ne (Ne.symm hj)]

/-- A slot write keeps the shape of the slots. -/
theorem slotsFit_setSlot {s : State} (hw : 0 < s.cfg.w) (h : SlotsFit s) (k : Nat) (f : Poly) : SlotsFit (setSlot s k f) := by
  refine ⟨by simpa using h.1, fun g hg => ?_⟩
  rcases List.mem_or_eq_of_mem_set hg with hg | rfl
  · exact h.2 g hg
  · exact fitPoly_fits hw f

theorem slotsFit_zeroWorking (s : State) : SlotsFit (zeroWorking s) := by
  refine ⟨by simp, fun g hg => ?_⟩
  have : g = zeroPoly := (List.mem_replicate.1 hg).2
  exact this ▸ zeroPoly_fits

/-! ## Scalar registers (10_state.md R25) -/

@[simp] theorem getScalar_setScalar_same (s : State) (n : Nat) (v : Int) (hn : n < 4) :
    getScalar (setScalar s n v) n = wrap 64 v := by
  simp [getScalar, Vector.getD, hn, wrap]

@[simp] theorem getScalar_setScalar_other (s : State) (n m : Nat) (v : Int) (hm : m ≠ n) :
    getScalar (setScalar s n v) m = getScalar s m := by
  by_cases h : m < 4 <;> simp [getScalar, Vector.getD, h, Ne.symm hm]

/-! ## Draws (00_scope.md R14) -/

theorem drawEntropy_length : ∀ (n : Nat) (d : Draws), (drawEntropy n d).1.length = n
  | 0, _ => rfl
  | n + 1, d => by
    unfold drawEntropy
    split <;> simp [drawEntropy_length n]

/-- The entropy source's answers do not touch the coins. -/
theorem drawEntropy_coins : ∀ (n : Nat) (d : Draws), (drawEntropy n d).2.coins = d.coins
  | 0, _ => rfl
  | n + 1, d => by
    unfold drawEntropy
    split <;> simp [drawEntropy_coins n]

/-! ## The endings of a command -/

theorem finish_eq (s : State) : finish s = .next (complete s) := rfl

theorem raised_eq (e : ErrorCode) (s : State) : raised e s = .next { s with status := erred e s.status } := rfl

theorem complete_eq (s : State) : complete s = { s with status := completed s.status } := rfl

theorem raiseFatal_eq (s : State) : raiseFatal s = { zeroWorking s with status := halted s.status } := rfl

/-- The two ends of a slot-to-slot command of one source. -/
theorem slotUnary_cases (f : Poly → Poly) (pd pa : Nat) (s : State) :
    (pd < s.cfg.np ∧ pa < s.cfg.np ∧ slotUnary f pd pa s = finish (setSlot s pd (f (getSlot s pa))))
      ∨ (¬ (pd < s.cfg.np ∧ pa < s.cfg.np) ∧ slotUnary f pd pa s = raised .illegalCmd s) := by
  by_cases h1 : pd < s.cfg.np <;> by_cases h2 : pa < s.cfg.np <;> simp [slotUnary, slotOk, h1, h2]

/-- The two ends of a slot-to-slot command of two sources. -/
theorem slotBinary_cases (f : Poly → Poly → Poly) (pd pa pb : Nat) (s : State) :
    (pd < s.cfg.np ∧ pa < s.cfg.np ∧ pb < s.cfg.np
        ∧ slotBinary f pd pa pb s = finish (setSlot s pd (f (getSlot s pa) (getSlot s pb))))
      ∨ (¬ (pd < s.cfg.np ∧ pa < s.cfg.np ∧ pb < s.cfg.np) ∧ slotBinary f pd pa pb s = raised .illegalCmd s) := by
  by_cases h1 : pd < s.cfg.np <;> by_cases h2 : pa < s.cfg.np <;> by_cases h3 : pb < s.cfg.np <;>
    simp [slotBinary, slotOk, h1, h2, h3]

/-- The two ends of a command's randomness: drawn, or read from `B`. -/
theorem seedInput_next {mode a n : Nat} {s t : State} {k : Bytes → State → Outcome} (h : seedInput mode a n s k = .next t) :
    (mode = 0 ∧ k (drawEntropy n s.draws).1 { s with draws := (drawEntropy n s.draws).2 } = .next t)
      ∨ (mode ≠ 0 ∧ ∃ e, s.mem.readBytes a n = .ok e ∧ k e s = .next t) := by
  unfold seedInput at h
  split at h
  · exact Or.inl ⟨‹_›, h⟩
  · exact Or.inr ⟨‹_›, reading_next h⟩

/-- One coin is drawn. -/
theorem drawCoin_snd (d : Draws) : (drawCoin d).2 = coinsDrawn d 1 := by
  rcases d with ⟨e, _ | ⟨b, l⟩, t⟩ <;> simp [drawCoin, coinsDrawn]

/-- Coins after coins. -/
theorem coinsDrawn_add (d : Draws) (m n : Nat) : coinsDrawn (coinsDrawn d m) n = coinsDrawn d (m + n) := by
  simp only [coinsDrawn, List.drop_drop, List.length_drop, Draws.mk.injEq, true_and]
  omega

end Sys2Proof.Machine
end

