-- ==== Sys2Proof/Laws/PerInstr.lean ====
section
/-! SUPPORT. One law per command: the word the encoder writes has the opcode and the fixed bits of the command's row
(30_encoding.md R92, R97). -/

namespace Sys2Proof.Laws.EncodingMatchesRow

/-- The word of a well-formed command carries its opcode in bits 7:0 and matches its row. -/
def Statement (i : Instr) : Prop :=
  i.wellFormed = true → fieldOpc (encode i) = i.opcode ∧ encode i &&& i.format.mask = BitVec.ofNat 32 i.opcode

theorem rd_mask (m : Word) (hm : m &&& 0xF00#32 = 0) : ∀ k, k < 16 → BitVec.ofNat 32 (2 ^ 8 * k) &&& m = 0 := by
  intro k hk
  have e : BitVec.ofNat 32 (2 ^ 8 * k) = BitVec.ofNat 32 (2 ^ 8 * k) &&& 0xF00#32 := by
    interval_cases k <;> decide
  rw [e, BitVec.and_assoc, BitVec.and_comm _ m, hm]
  simp

theorem ra_mask (m : Word) (hm : m &&& 0xF000#32 = 0) : ∀ k, k < 16 → BitVec.ofNat 32 (2 ^ 12 * k) &&& m = 0 := by
  intro k hk
  have e : BitVec.ofNat 32 (2 ^ 12 * k) = BitVec.ofNat 32 (2 ^ 12 * k) &&& 0xF000#32 := by
    interval_cases k <;> decide
  rw [e, BitVec.and_assoc, BitVec.and_comm _ m, hm]
  simp

theorem rb_mask (m : Word) (hm : m &&& 0xF0000#32 = 0) : ∀ k, k < 16 → BitVec.ofNat 32 (2 ^ 16 * k) &&& m = 0 := by
  intro k hk
  have e : BitVec.ofNat 32 (2 ^ 16 * k) = BitVec.ofNat 32 (2 ^ 16 * k) &&& 0xF0000#32 := by
    interval_cases k <;> decide
  rw [e, BitVec.and_assoc, BitVec.and_comm _ m, hm]
  simp

theorem wd_mask (m : Word) (hm : m &&& 0x1F00000#32 = 0) : ∀ k, k < 32 → BitVec.ofNat 32 (2 ^ 20 * k) &&& m = 0 := by
  intro k hk
  have e : BitVec.ofNat 32 (2 ^ 20 * k) = BitVec.ofNat 32 (2 ^ 20 * k) &&& 0x1F00000#32 := by
    interval_cases k <;> decide
  rw [e, BitVec.and_assoc, BitVec.and_comm _ m, hm]
  simp

theorem mode_mask (m : Word) (hm : m &&& 0x6000000#32 = 0) : ∀ k, k < 4 → BitVec.ofNat 32 (2 ^ 25 * k) &&& m = 0 := by
  intro k hk
  have e : BitVec.ofNat 32 (2 ^ 25 * k) = BitVec.ofNat 32 (2 ^ 25 * k) &&& 0x6000000#32 := by
    interval_cases k <;> decide
  rw [e, BitVec.and_assoc, BitVec.and_comm _ m, hm]
  simp

theorem nop : Statement .nop := by
  intro _
  decide

theorem zeroize (mode : Nat) : Statement (.zeroize mode) := by
  intro h
  simp only [Instr.wellFormed, fitsMode, decide_eq_true_eq] at h
  exact ⟨fieldOpc_packFields (by decide) (by decide) (by decide) (by decide) (by decide) h,
    packFields_and_mask Format.fm.mask (by decide) (by decide) (by decide) (by decide) (by decide) (by decide) (by decide) (by decide) (by decide) (by decide) (mode_mask _ (by decide) _ h)⟩

theorem mred (sd sa : Nat) : Statement (.mred sd sa) := by
  intro h
  simp only [Instr.wellFormed, fitsReg, Bool.and_eq_true, decide_eq_true_eq] at h
  obtain ⟨h1, h2⟩ := h
  exact ⟨fieldOpc_packFields (by decide) h1 h2 (by decide) (by decide) (by decide),
    packFields_and_mask Format.fs2.mask (by decide) h1 h2 (by decide) (by decide) (by decide) (rd_mask _ (by decide) _ h1) (ra_mask _ (by decide) _ h2) (by decide) (by decide) (by decide)⟩

theorem bred (sd sa : Nat) : Statement (.bred sd sa) := by
  intro h
  simp only [Instr.wellFormed, fitsReg, Bool.and_eq_true, decide_eq_true_eq] at h
  obtain ⟨h1, h2⟩ := h
  exact ⟨fieldOpc_packFields (by decide) h1 h2 (by decide) (by decide) (by decide),
    packFields_and_mask Format.fs2.mask (by decide) h1 h2 (by decide) (by decide) (by decide) (rd_mask _ (by decide) _ h1) (ra_mask _ (by decide) _ h2) (by decide) (by decide) (by decide)⟩

theorem fqmul (sd sa sb : Nat) : Statement (.fqmul sd sa sb) := by
  intro h
  simp only [Instr.wellFormed, fitsReg, Bool.and_eq_true, decide_eq_true_eq] at h
  obtain ⟨⟨h1, h2⟩, h3⟩ := h
  exact ⟨fieldOpc_packFields (by decide) h1 h2 h3 (by decide) (by decide),
    packFields_and_mask Format.fs3.mask (by decide) h1 h2 h3 (by decide) (by decide) (rd_mask _ (by decide) _ h1) (ra_mask _ (by decide) _ h2) (rb_mask _ (by decide) _ h3) (by decide) (by decide)⟩

theorem padd (pd pa pb : Nat) : Statement (.padd pd pa pb) := by
  intro h
  simp only [Instr.wellFormed, fitsReg, Bool.and_eq_true, decide_eq_true_eq] at h
  obtain ⟨⟨h1, h2⟩, h3⟩ := h
  exact ⟨fieldOpc_packFields (by decide) h1 h2 h3 (by decide) (by decide),
    packFields_and_mask Format.fp3.mask (by decide) h1 h2 h3 (by decide) (by decide) (rd_mask _ (by decide) _ h1) (ra_mask _ (by decide) _ h2) (rb_mask _ (by decide) _ h3) (by decide) (by decide)⟩

theorem psub (pd pa pb : Nat) : Statement (.psub pd pa pb) := by
  intro h
  simp only [Instr.wellFormed, fitsReg, Bool.and_eq_true, decide_eq_true_eq] at h
  obtain ⟨⟨h1, h2⟩, h3⟩ := h
  exact ⟨fieldOpc_packFields (by decide) h1 h2 h3 (by decide) (by decide),
    packFields_and_mask Format.fp3.mask (by decide) h1 h2 h3 (by decide) (by decide) (rd_mask _ (by decide) _ h1) (ra_mask _ (by decide) _ h2) (rb_mask _ (by decide) _ h3) (by decide) (by decide)⟩

theorem pred (pd pa : Nat) : Statement (.pred pd pa) := by
  intro h
  simp only [Instr.wellFormed, fitsReg, Bool.and_eq_true, decide_eq_true_eq] at h
  obtain ⟨h1, h2⟩ := h
  exact ⟨fieldOpc_packFields (by decide) h1 h2 (by decide) (by decide) (by decide),
    packFields_and_mask Format.fp2.mask (by decide) h1 h2 (by decide) (by decide) (by decide) (rd_mask _ (by decide) _ h1) (ra_mask _ (by decide) _ h2) (by decide) (by decide) (by decide)⟩

theorem ptomont (pd pa : Nat) : Statement (.ptomont pd pa) := by
  intro h
  simp only [Instr.wellFormed, fitsReg, Bool.and_eq_true, decide_eq_true_eq] at h
  obtain ⟨h1, h2⟩ := h
  exact ⟨fieldOpc_packFields (by decide) h1 h2 (by decide) (by decide) (by decide),
    packFields_and_mask Format.fp2.mask (by decide) h1 h2 (by decide) (by decide) (by decide) (rd_mask _ (by decide) _ h1) (ra_mask _ (by decide) _ h2) (by decide) (by decide) (by decide)⟩

theorem ntt (pd pa : Nat) : Statement (.ntt pd pa) := by
  intro h
  simp only [Instr.wellFormed, fitsReg, Bool.and_eq_true, decide_eq_true_eq] at h
  obtain ⟨h1, h2⟩ := h
  exact ⟨fieldOpc_packFields (by decide) h1 h2 (by decide) (by decide) (by decide),
    packFields_and_mask Format.fp2.mask (by decide) h1 h2 (by decide) (by decide) (by decide) (rd_mask _ (by decide) _ h1) (ra_mask _ (by decide) _ h2) (by decide) (by decide) (by decide)⟩

theorem intt (pd pa : Nat) : Statement (.intt pd pa) := by
  intro h
  simp only [Instr.wellFormed, fitsReg, Bool.and_eq_true, decide_eq_true_eq] at h
  obtain ⟨h1, h2⟩ := h
  exact ⟨fieldOpc_packFields (by decide) h1 h2 (by decide) (by decide) (by decide),
    packFields_and_mask Format.fp2.mask (by decide) h1 h2 (by decide) (by decide) (by decide) (rd_mask _ (by decide) _ h1) (ra_mask _ (by decide) _ h2) (by decide) (by decide) (by decide)⟩

theorem basemul (pd pa pb : Nat) : Statement (.basemul pd pa pb) := by
  intro h
  simp only [Instr.wellFormed, fitsReg, Bool.and_eq_true, decide_eq_true_eq] at h
  obtain ⟨⟨h1, h2⟩, h3⟩ := h
  exact ⟨fieldOpc_packFields (by decide) h1 h2 h3 (by decide) (by decide),
    packFields_and_mask Format.fp3.mask (by decide) h1 h2 h3 (by decide) (by decide) (rd_mask _ (by decide) _ h1) (ra_mask _ (by decide) _ h2) (rb_mask _ (by decide) _ h3) (by decide) (by decide)⟩

theorem xinit (v : Nat) : Statement (.xinit v) := by
  intro h
  simp only [Instr.wellFormed, fitsWd, decide_eq_true_eq] at h
  exact ⟨fieldOpc_packFields (by decide) (by decide) (by decide) (by decide) h (by decide),
    packFields_and_mask Format.fw.mask (by decide) (by decide) (by decide) (by decide) h (by decide) (by decide) (by decide) (by decide) (wd_mask _ (by decide) _ h) (by decide)⟩

theorem xabsorb : Statement .xabsorb := by
  intro _
  decide

theorem xsqueeze : Statement .xsqueeze := by
  intro _
  decide

theorem cbd (pd eta : Nat) : Statement (.cbd pd eta) := by
  intro h
  simp only [Instr.wellFormed, fitsReg, fitsWd, Bool.and_eq_true, decide_eq_true_eq] at h
  obtain ⟨h1, h2⟩ := h
  exact ⟨fieldOpc_packFields (by decide) h1 (by decide) (by decide) h2 (by decide),
    packFields_and_mask Format.fdw.mask (by decide) h1 (by decide) (by decide) h2 (by decide) (rd_mask _ (by decide) _ h1) (by decide) (by decide) (wd_mask _ (by decide) _ h2) (by decide)⟩

theorem getnoise (pd eta : Nat) : Statement (.getnoise pd eta) := by
  intro h
  simp only [Instr.wellFormed, fitsReg, fitsWd, Bool.and_eq_true, decide_eq_true_eq] at h
  obtain ⟨h1, h2⟩ := h
  exact ⟨fieldOpc_packFields (by decide) h1 (by decide) (by decide) h2 (by decide),
    packFields_and_mask Format.fdw.mask (by decide) h1 (by decide) (by decide) h2 (by decide) (rd_mask _ (by decide) _ h1) (by decide) (by decide) (wd_mask _ (by decide) _ h2) (by decide)⟩

theorem rejparse (pd : Nat) : Statement (.rejparse pd) := by
  intro h
  simp only [Instr.wellFormed, fitsReg, decide_eq_true_eq] at h
  exact ⟨fieldOpc_packFields (by decide) h (by decide) (by decide) (by decide) (by decide),
    packFields_and_mask Format.fd.mask (by decide) h (by decide) (by decide) (by decide) (by decide) (rd_mask _ (by decide) _ h) (by decide) (by decide) (by decide) (by decide)⟩

theorem genuni (pd : Nat) : Statement (.genuni pd) := by
  intro h
  simp only [Instr.wellFormed, fitsReg, decide_eq_true_eq] at h
  exact ⟨fieldOpc_packFields (by decide) h (by decide) (by decide) (by decide) (by decide),
    packFields_and_mask Format.fd.mask (by decide) h (by decide) (by decide) (by decide) (by decide) (rd_mask _ (by decide) _ h) (by decide) (by decide) (by decide) (by decide)⟩

theorem challenge (pd : Nat) : Statement (.challenge pd) := by
  intro h
  simp only [Instr.wellFormed, fitsReg, decide_eq_true_eq] at h
  exact ⟨fieldOpc_packFields (by decide) h (by decide) (by decide) (by decide) (by decide),
    packFields_and_mask Format.fd.mask (by decide) h (by decide) (by decide) (by decide) (by decide) (rd_mask _ (by decide) _ h) (by decide) (by decide) (by decide) (by decide)⟩

theorem pack (pa d : Nat) : Statement (.pack pa d) := by
  intro h
  simp only [Instr.wellFormed, fitsReg, fitsWd, Bool.and_eq_true, decide_eq_true_eq] at h
  obtain ⟨h1, h2⟩ := h
  exact ⟨fieldOpc_packFields (by decide) (by decide) h1 (by decide) h2 (by decide),
    packFields_and_mask Format.faw.mask (by decide) (by decide) h1 (by decide) h2 (by decide) (by decide) (ra_mask _ (by decide) _ h1) (by decide) (wd_mask _ (by decide) _ h2) (by decide)⟩

theorem unpack (pd d : Nat) : Statement (.unpack pd d) := by
  intro h
  simp only [Instr.wellFormed, fitsReg, fitsWd, Bool.and_eq_true, decide_eq_true_eq] at h
  obtain ⟨h1, h2⟩ := h
  exact ⟨fieldOpc_packFields (by decide) h1 (by decide) (by decide) h2 (by decide),
    packFields_and_mask Format.fdw.mask (by decide) h1 (by decide) (by decide) h2 (by decide) (rd_mask _ (by decide) _ h1) (by decide) (by decide) (wd_mask _ (by decide) _ h2) (by decide)⟩

theorem compress (pd pa d : Nat) : Statement (.compress pd pa d) := by
  intro h
  simp only [Instr.wellFormed, fitsReg, fitsWd, Bool.and_eq_true, decide_eq_true_eq] at h
  obtain ⟨⟨h1, h2⟩, h3⟩ := h
  exact ⟨fieldOpc_packFields (by decide) h1 h2 (by decide) h3 (by decide),
    packFields_and_mask Format.fp2w.mask (by decide) h1 h2 (by decide) h3 (by decide) (rd_mask _ (by decide) _ h1) (ra_mask _ (by decide) _ h2) (by decide) (wd_mask _ (by decide) _ h3) (by decide)⟩

theorem decompress (pd pa d : Nat) : Statement (.decompress pd pa d) := by
  intro h
  simp only [Instr.wellFormed, fitsReg, fitsWd, Bool.and_eq_true, decide_eq_true_eq] at h
  obtain ⟨⟨h1, h2⟩, h3⟩ := h
  exact ⟨fieldOpc_packFields (by decide) h1 h2 (by decide) h3 (by decide),
    packFields_and_mask Format.fp2w.mask (by decide) h1 h2 (by decide) h3 (by decide) (rd_mask _ (by decide) _ h1) (ra_mask _ (by decide) _ h2) (by decide) (wd_mask _ (by decide) _ h3) (by decide)⟩

theorem sigKeygen (mode : Nat) : Statement (.sigKeygen mode) := by
  intro h
  simp only [Instr.wellFormed, fitsMode, decide_eq_true_eq] at h
  exact ⟨fieldOpc_packFields (by decide) (by decide) (by decide) (by decide) (by decide) h,
    packFields_and_mask Format.fm.mask (by decide) (by decide) (by decide) (by decide) (by decide) (by decide) (by decide) (by decide) (by decide) (by decide) (mode_mask _ (by decide) _ h)⟩

theorem sigSign (mode : Nat) : Statement (.sigSign mode) := by
  intro h
  simp only [Instr.wellFormed, fitsMode, decide_eq_true_eq] at h
  exact ⟨fieldOpc_packFields (by decide) (by decide) (by decide) (by decide) (by decide) h,
    packFields_and_mask Format.fm.mask (by decide) (by decide) (by decide) (by decide) (by decide) (by decide) (by decide) (by decide) (by decide) (by decide) (mode_mask _ (by decide) _ h)⟩

theorem sigVerify : Statement .sigVerify := by
  intro _
  decide

theorem kemKeygen (mode : Nat) : Statement (.kemKeygen mode) := by
  intro h
  simp only [Instr.wellFormed, fitsMode, decide_eq_true_eq] at h
  exact ⟨fieldOpc_packFields (by decide) (by decide) (by decide) (by decide) (by decide) h,
    packFields_and_mask Format.fm.mask (by decide) (by decide) (by decide) (by decide) (by decide) (by decide) (by decide) (by decide) (by decide) (by decide) (mode_mask _ (by decide) _ h)⟩

theorem kemEncap (mode : Nat) : Statement (.kemEncap mode) := by
  intro h
  simp only [Instr.wellFormed, fitsMode, decide_eq_true_eq] at h
  exact ⟨fieldOpc_packFields (by decide) (by decide) (by decide) (by decide) (by decide) h,
    packFields_and_mask Format.fm.mask (by decide) (by decide) (by decide) (by decide) (by decide) (by decide) (by decide) (by decide) (by decide) (by decide) (mode_mask _ (by decide) _ h)⟩

theorem kemDecap : Statement .kemDecap := by
  intro _
  decide

end Sys2Proof.Laws.EncodingMatchesRow
end

