-- ==== Sys2Proof/Laws/Sampler.lean ====
section
/-! SUPPORT. The samplers beside what Safety.lean says of the stream's bits and bytes (42_sampler.md R177, R183). -/

namespace Sys2Proof.Machine

/-- Bit `k` of a byte string's number is its bit `k`. -/
theorem bitOf_intLe (bs : Bytes) (k : Nat) : bitOf (intLe bs) k = bitAt bs k := by
  rw [bitAt_eq, bitOf, Nat.shiftRight_eq_div_pow, Nat.testBit_eq_decide_div_mod_eq]
  rcases Nat.mod_two_eq_zero_or_one (intLe bs / 2 ^ k) with h | h <;> simp [h]

/-- The sampler's polynomial is the difference of bit counts. -/
theorem cbdPoly_eq_cbdOf (buf : Bytes) (eta : Nat) : cbdPoly buf eta = cbdOf buf eta := by
  refine List.map_congr_left fun i _ => ?_
  simp only [cbdCoeff, bitWeight, bitOf_intLe]

/-- `drawIndex` finds the first byte that is at most `i`. -/
theorem drawIndex_eq_some (i : Nat) : ∀ (bs : Bytes) (v : Nat) (r : Bytes) (n : Nat),
    drawIndex i bs = some (v, r, n) ↔
      1 ≤ n ∧ n ≤ bs.length ∧ v = (bs.getD (n - 1) 0).toNat ∧ v ≤ i ∧ r = bs.drop n
        ∧ ∀ p, p + 1 < n → i < (bs.getD p 0).toNat
  | [], v, r, n => by
    simp only [drawIndex, List.length_nil]
    constructor
    · intro h; cases h
    · rintro ⟨h1, h2, _⟩; omega
  | b :: bs, v, r, n => by
    rw [drawIndex]
    split
    · rename_i hb
      simp only [Option.some.injEq, Prod.mk.injEq]
      constructor
      · rintro ⟨rfl, rfl, rfl⟩
        exact ⟨le_rfl, by simp, by simp, hb, by simp, fun p hp => absurd hp (by omega)⟩
      · rintro ⟨h1, h2, h3, h4, h5, h6⟩
        obtain rfl : n = 1 := by
          by_contra hn
          have := h6 0 (by omega)
          simp at this
          omega
        exact ⟨by simpa using h3.symm, by simpa using h5.symm, rfl⟩
    · rename_i hb
      have ih := drawIndex_eq_some i bs
      constructor
      · intro h
        split at h
        · cases h
        · rename_i v' r' n' e
          simp only [Option.some.injEq, Prod.mk.injEq] at h
          obtain ⟨rfl, rfl, rfl⟩ := h
          obtain ⟨h1, h2, h3, h4, h5, h6⟩ := (ih _ _ _).1 e
          obtain ⟨k, rfl⟩ : ∃ k, n' = k + 1 := ⟨n' - 1, by omega⟩
          refine ⟨by omega, by simpa using h2, by simpa using h3, h4, by simpa using h5, fun p hp => ?_⟩
          rcases p with _ | p
          · simpa using hb
          · simpa using h6 p (by omega)
      · rintro ⟨h1, h2, h3, h4, h5, h6⟩
        obtain ⟨k, rfl⟩ : ∃ k, n = k + 2 := by
          refine ⟨n - 2, ?_⟩
          by_contra hn
          obtain rfl : n = 1 := by omega
          simp at h3
          omega
        have := (ih v r (k + 1)).2 ⟨by omega, by simpa using h2, by simpa using h3, h4, by simpa using h5,
          fun p hp => by simpa using h6 (p + 1) (by omega)⟩
        simp [this]

end Sys2Proof.Machine
end

