-- ==== Sys2Proof/Machine/Script.lean ====
section
/-! DEFINITION. Command scripts (30_encoding.md R100 to R102): each statement as the bus events it stands for. -/

namespace Sys2Proof.Machine

/-- One statement of a command script. -/
inductive Stmt where
  /-- a command statement: the command and its `ARG` operands, `ARG0` first (R100) -/
  | cmd (i : Instr) (args : List Nat)
  /-- `WRB @a, bytes` (R101) -/
  | wrb (a : Nat) (bytes : Bytes)
  /-- `WRP p<n>, [c0, c1, ...]` (R101) -/
  | wrp (n : Nat) (coeffs : Poly)
  /-- `WRS s<n>, v` (R101) -/
  | wrs (n : Nat) (v : Int)
  /-- `RDB @a, n` (R101) -/
  | rdb (a n : Nat)
  /-- `RDP p<n>` (R101) -/
  | rdp (n : Nat)
  /-- `RDS s<n>` (R101) -/
  | rds (n : Nat)
  /-- `ACK`: `0x16` to `STATUS` (R101) -/
  | ack
  /-- `RESET`: `CTRL.SRST` (R101) -/
  | reset
  deriving DecidableEq, Repr

/-- A word write at an offset. -/
def wordWrite (off : Nat) (v : Word) : BusEvent := .write .word off v

/-- A word read at an offset. -/
def wordRead (off : Nat) : BusEvent := .read .word off

/-- The offset of the buffer word that holds byte `a` (20_memory.md R64). -/
def bmemOffset (a : Nat) : Nat := 0x10000 + a / 4 * 4

/-- The offset of coefficient `i` of slot `sl` (10_state.md R41). -/
def pmemOffset (sl i : Nat) : Nat := 0x20000 + 4 * (256 * sl + i)

/-- The byte of `WRB` that falls on address `x`, if one does. -/
def wrbByte (a : Nat) (bytes : Bytes) (x : Nat) : Option Byte := if a ≤ x then bytes[x - a]? else none

/-- The events of `WRB` on the buffer word at address `x` (a multiple of 4): a word only partly covered is read first and
its other bytes are kept (20_memory.md R64). -/
def wrbWord (s : State) (a : Nat) (bytes : Bytes) (x : Nat) : List BusEvent :=
  let new := (List.range 4).map (fun k => wrbByte a bytes (x + k))
  let merged := (List.range 4).map (fun k =>
    match wrbByte a bytes (x + k) with
    | some b => b
    | none => ((s.mem.read (x + k)).getD 0))
  (if new.all Option.isSome then [] else [wordRead (bmemOffset x)])
    ++ [wordWrite (bmemOffset x) (BitVec.ofNat 32 (intLe merged))]

/-- The addresses of the buffer words that `n` bytes from address `a` touch. -/
def touchedWords (a n : Nat) : List Nat :=
  if n = 0 then [] else (List.range ((a + n + 3) / 4 - a / 4)).map (fun k => 4 * (a / 4 + k))

/-- The events a statement stands for, in the state it starts from. A command statement writes its `ARG` registers and
`CMD`, lets the engine complete, and reads `STATUS` (R100). -/
def Stmt.events (s : State) : Stmt → List BusEvent
  | .cmd i args =>
    args.zipIdx.map (fun x => wordWrite (0x048 + 4 * x.2) (BitVec.ofNat 32 x.1))
      ++ [wordWrite 0x044 (encode i), .core, wordRead 0x060]
  | .wrb a bytes => (touchedWords a bytes.length).flatMap (wrbWord s a bytes)
  | .wrp n coeffs =>
    (List.range ringDegree).map (fun i => wordWrite (pmemOffset n i) (BitVec.ofInt 32 (coeffs.getD i 0)))
  | .wrs n v =>
    [wordWrite (0x080 + 8 * n) ((BitVec.ofInt 64 v).extractLsb' 0 32),
     wordWrite (0x084 + 8 * n) ((BitVec.ofInt 64 v).extractLsb' 32 32)]
  | .rdb a n => (touchedWords a n).map (fun x => wordRead (bmemOffset x))
  | .rdp n => (List.range ringDegree).map (fun i => wordRead (pmemOffset n i))
  | .rds n => [wordRead (0x080 + 8 * n), wordRead (0x084 + 8 * n)]
  | .ack => [wordWrite 0x060 0x16]
  | .reset => [wordWrite 0x040 2]

/-- `k` steps, stopping at the first fault or refusal. -/
def runSteps : Nat → State → Outcome
  | 0, s => .next s
  | k + 1, s =>
    match step s with
    | .next s' => runSteps k s'
    | .fault r => .fault r
    | .refused r => .refused r

/-- A script, statement by statement: each one's events are put on the bus and all of them happen. -/
def runScript : List Stmt → State → Outcome
  | [], s => .next s
  | st :: rest, s =>
    match runSteps (st.events s).length { s with bus := st.events s } with
    | .next s' => runScript rest s'
    | .fault r => .fault r
    | .refused r => .refused r

/-! ## Pseudo-commands (R102) -/

/-- `ENCODE pa, @dst`. -/
def pseudoEncode (c : Cfg) (pa dst : Nat) : List Stmt := [.cmd (.pack pa (logq c)) [dst]]

/-- `DECODE pd, @src`. -/
def pseudoDecode (c : Cfg) (pd src : Nat) : List Stmt := [.cmd (.unpack pd (logq c)) [src]]

/-- `CENC pt, pa, d, @dst`. -/
def pseudoCenc (pt pa d dst : Nat) : List Stmt := [.cmd (.compress pt pa d) [], .cmd (.pack pt d) [dst]]

/-- `CDEC pd, d, @src`. -/
def pseudoCdec (pd d src : Nat) : List Stmt := [.cmd (.unpack pd d) [src], .cmd (.decompress pd pd d) []]

/-- `MSGDEC pd, @src`. -/
def pseudoMsgdec (pd src : Nat) : List Stmt := pseudoCdec pd 1 src

/-- `MSGENC pt, pa, @dst`. -/
def pseudoMsgenc (pt pa dst : Nat) : List Stmt := pseudoCenc pt pa 1 dst

/-- `RINGMUL pd, pa, pb, pt`. -/
def pseudoRingmul (pd pa pb pt : Nat) : List Stmt :=
  [.cmd (.ntt pt pa) [], .cmd (.ntt pd pb) [], .cmd (.basemul pd pt pd) [], .cmd (.pred pd pd) [],
   .cmd (.intt pd pd) [], .cmd (.ptomont pd pd) []]

/-- `PRF @dst, n, v, @src, m`. -/
def pseudoPrf (dst n v src m : Nat) : List Stmt :=
  [.cmd (.xinit v) [], .cmd .xabsorb [src, m], .cmd .xsqueeze [dst, n]]

end Sys2Proof.Machine
end

