-- ==== Sys2Proof/Tests/Slice0.lean ====
section
/-! SUPPORT. The model's own tests: ill-formed commands, every row's word, the worked values of the spec's rules, and a
witness for the premises of each statement of Certificates/Slice0/Obligations.lean. -/

namespace Sys2Proof.Tests

-- One theorem after another: each waiting theorem would hold a thread's whole stack against the memory limit.
set_option Elab.async false

open Sys2Proof Sys2Proof.Machine

/-! ## WellFormed refuses -/

theorem test_illFormed_register : [Instr.mred 16 0, .mred 0 16, .bred 16 0, .bred 0 16, .fqmul 16 0 0, .fqmul 0 16 0,
    .fqmul 0 0 16, .padd 16 0 0, .padd 0 16 0, .padd 0 0 16, .psub 16 0 0, .psub 0 16 0, .psub 0 0 16, .pred 16 0, .pred 0 16,
    .ptomont 16 0, .ptomont 0 16, .ntt 16 0, .ntt 0 16, .intt 16 0, .intt 0 16, .basemul 16 0 0, .basemul 0 16 0,
    .basemul 0 0 16].all (fun i => !i.wellFormed) = true := by decide

theorem test_illFormed_slot : [Instr.cbd 16 2, .getnoise 16 2, .rejparse 16, .genuni 16, .challenge 16, .pack 16 1, .unpack 16 1,
    .compress 16 0 1, .compress 0 16 1, .decompress 16 0 1, .decompress 0 16 1].all (fun i => !i.wellFormed) = true := by decide

theorem test_illFormed_width : [Instr.xinit 32, .cbd 0 32, .getnoise 0 32, .pack 0 32, .unpack 0 32, .compress 0 0 32,
    .decompress 0 0 32].all (fun i => !i.wellFormed) = true := by decide

theorem test_illFormed_mode : [Instr.zeroize 4, .sigKeygen 4, .sigSign 4, .kemKeygen 4, .kemEncap 4].all
    (fun i => !i.wellFormed) = true := by decide

/-! ## Every row's word, from the bit patterns of opcode_table.json -/

/-- The word decodes to the command and is the command's word. -/
def wordOf (w : Word) (i : Instr) : Bool :=
  (match decode w with
    | .ok j => decide (j = i)
    | .error _ => false) && decide (encode i = w) && decide (decodeTableWord 32 w.toNat = some i)

theorem test_decode_system :
    wordOf 0b00000_00_00000_0000_0000_0000_00000000#32 .nop = true
      ∧ wordOf 0b00000_01_00000_0000_0000_0000_00000001#32 (.zeroize 1) = true := by decide

theorem test_decode_scalar :
    wordOf 0b00000_00_00000_0000_0011_0010_00010000#32 (.mred 2 3) = true
      ∧ wordOf 0b00000_00_00000_0000_0001_0011_00010001#32 (.bred 3 1) = true
      ∧ wordOf 0b00000_00_00000_0011_0001_0010_00010010#32 (.fqmul 2 1 3) = true := by decide

theorem test_decode_slot :
    wordOf 0b00000_00_00000_0011_0010_0001_00100000#32 (.padd 1 2 3) = true
      ∧ wordOf 0b00000_00_00000_1101_1110_1111_00100001#32 (.psub 15 14 13) = true
      ∧ wordOf 0b00000_00_00000_0000_1001_0100_00100010#32 (.pred 4 9) = true
      ∧ wordOf 0b00000_00_00000_0000_1011_0110_00100011#32 (.ptomont 6 11) = true := by decide

theorem test_decode_transform :
    wordOf 0b00000_00_00000_0000_1001_1000_00110000#32 (.ntt 8 9) = true
      ∧ wordOf 0b00000_00_00000_0000_1100_0111_00110001#32 (.intt 7 12) = true
      ∧ wordOf 0b00000_00_00000_0110_1010_0101_00110010#32 (.basemul 5 10 6) = true := by decide

theorem test_decode_sampler :
    wordOf 0b00000_00_00001_0000_0000_0000_01000000#32 (.xinit 1) = true
      ∧ wordOf 0b00000_00_00000_0000_0000_0000_01000001#32 .xabsorb = true
      ∧ wordOf 0b00000_00_00000_0000_0000_0000_01000010#32 .xsqueeze = true
      ∧ wordOf 0b00000_00_00100_0000_0000_0011_01000011#32 (.cbd 3 4) = true
      ∧ wordOf 0b00000_00_00101_0000_0000_1100_01000100#32 (.getnoise 12 5) = true
      ∧ wordOf 0b00000_00_00000_0000_0000_1010_01000101#32 (.rejparse 10) = true
      ∧ wordOf 0b00000_00_00000_0000_0000_1101_01000110#32 (.genuni 13) = true
      ∧ wordOf 0b00000_00_00000_0000_0000_0010_01000111#32 (.challenge 2) = true := by decide

theorem test_decode_codec :
    wordOf 0b00000_00_01100_0000_0011_0000_01010000#32 (.pack 3 12) = true
      ∧ wordOf 0b00000_00_10111_0000_0000_1001_01010001#32 (.unpack 9 23) = true
      ∧ wordOf 0b00000_00_01010_0000_1110_0001_01010010#32 (.compress 1 14 10) = true
      ∧ wordOf 0b00000_00_00011_0000_0100_1011_01010011#32 (.decompress 11 4 3) = true := by decide

theorem test_decode_signature :
    wordOf 0b00000_01_00000_0000_0000_0000_01100000#32 (.sigKeygen 1) = true
      ∧ wordOf 0b00000_10_00000_0000_0000_0000_01100001#32 (.sigSign 2) = true
      ∧ wordOf 0b00000_00_00000_0000_0000_0000_01100010#32 .sigVerify = true := by decide

theorem test_decode_kem :
    wordOf 0b00000_01_00000_0000_0000_0000_01110000#32 (.kemKeygen 1) = true
      ∧ wordOf 0b00000_01_00000_0000_0000_0000_01110001#32 (.kemEncap 1) = true
      ∧ wordOf 0b00000_00_00000_0000_0000_0000_01110010#32 .kemDecap = true := by decide

theorem test_decode_rejects :
    decode 0x00000003#32 = .error .unknownOpcode ∧ decode 0x08000000#32 = .error .nonzeroUnusedField
      ∧ decode 0x00000141#32 = .error .nonzeroUnusedField ∧ decode 0x00100030#32 = .error .nonzeroUnusedField := by decide

/-! ## Small states -/

/-- Argument registers, unlisted ones 0. -/
def argsOf (l : List Nat) : Vector Word 6 := Vector.ofFn (fun k => BitVec.ofNat 32 (l.getD k.val 0))

/-- The reset state of `c` with a command in flight, its `ARG` values, and the given bytes in `B` from address 0. -/
def start (c : Cfg) (bs : Bytes) (args : List Nat) : State :=
  { State.resetOf c with
    mem := cellsAt 0 bs
    latch := { word := 0, args := argsOf args }
    status := { Status.idle with busy := true } }

/-- A slot with the given first coefficients. -/
def slotOf (l : List Int) : Poly := (l ++ zeroPoly).take 256

/-- `start` with slots 0, 1, … as given. -/
def startSlots (c : Cfg) (ps : List (List Int)) (args : List Nat) : State :=
  { start c [] args with p := (ps.map slotOf ++ List.replicate c.np zeroPoly).take c.np }

/-- `start` with the scalar registers as given. -/
def startScalars (c : Cfg) (l : List Int) : State :=
  { start c [] [] with sreg := Vector.ofFn (fun k => BitVec.ofInt 64 (l.getD k.val 0)) }

/-- The outcome is a next state with the property. -/
def okNext (o : Outcome) (f : State → Bool) : Bool :=
  match o with
  | .next t => f t
  | _ => false

theorem exists_next {o : Outcome} {f : State → Bool} (h : okNext o f = true) : ∃ t, o = .next t ∧ f t = true := by
  unfold okNext at h
  split at h
  · exact ⟨_, rfl, h⟩
  · cases h

/-- The first coefficients of a slot. -/
def slotStarts (t : State) (k : Nat) (l : List Int) : Bool := decide ((getSlot t k).take l.length = l)

/-- Buffer memory reads as the bytes from an address on. -/
def memStarts (t : State) (a : Nat) (bs : Bytes) : Bool :=
  (List.range bs.length).all (fun k => decide (t.mem.read (a + k) = bs[k]?))

/-- The bytes `0, 1, …`, each through a function. -/
def bytesBy (n : Nat) (f : Nat → Nat) : Bytes := (List.range n).map (fun k => BitVec.ofNat 8 (f k))

/-- `I1` of 95_test_vectors.md with one slot. -/
def p1 : Cfg := { Cfg.referenceKem with np := 3 }

/-- `I2` of 95_test_vectors.md with one slot. -/
def p2 : Cfg := { Cfg.referenceSig with np := 3 }

/-! ## Worked values of the spec's rules -/

/-- 46_system.md R290. -/
theorem test_nop : okNext (step (State.reset.withFetchWord 32 0)) (fun t => statusWord t.status = 2) = true := by decide +kernel

/-- 46_system.md R291. -/
theorem test_zeroize : okNext (exec (.zeroize 1) (startSlots { p1 with bmemSize := 8 } [[5]] []))
    (fun t => slotStarts t 0 [0] && memStarts t 4 [0, 0, 0, 0] && decide (t.mem.read 8 = none)) = true := by decide +kernel

/-- 40_reducer.md R124. -/
theorem test_mred : okNext (exec (.mred 0 1) (startScalars p1 [0, 65536])) (fun t => getScalar t 0 = 1)
    && okNext (exec (.mred 0 1) (startScalars p1 [0, -2147483648])) (fun t => getScalar t 0 = -32768)
    && okNext (exec (.mred 0 1) (startScalars p2 [0, 1])) (fun t => getScalar t 0 = -114592) = true := by decide +kernel

/-- 40_reducer.md R125. -/
theorem test_bred : okNext (exec (.bred 1 1) (startScalars p1 [0, -32768])) (fun t => getScalar t 1 = 522)
    && okNext (exec (.bred 0 1) (startScalars p1 [0, 65537])) (fun t => getScalar t 0 = 1) = true := by decide +kernel

/-- 40_reducer.md R126. -/
theorem test_fqmul : okNext (exec (.fqmul 2 0 1) (startScalars p1 [2285, 2285])) (fun t => getScalar t 2 = -1044)
    && okNext (exec (.fqmul 2 0 1) (startScalars p2 [1, 2365951])) (fun t => getScalar t 2 = -4186625) = true := by
  decide +kernel

/-- 40_reducer.md R127. -/
theorem test_padd : okNext (exec (.padd 2 0 1) (startSlots p1 [[3000, 32767], [3000, 1]] []))
    (fun t => slotStarts t 2 [6000, -32768] && slotStarts t 0 [3000, 32767]) = true := by decide +kernel

/-- 40_reducer.md R128. -/
theorem test_psub : okNext (exec (.psub 0 0 1) (startSlots p1 [[5, -32768], [7, 1]] []))
    (fun t => slotStarts t 0 [-2, 32767]) = true := by decide +kernel

/-- 40_reducer.md R129. -/
theorem test_pred : okNext (exec (.pred 1 0) (startSlots p1 [[-2, 6000, 3329, -3329]] []))
    (fun t => slotStarts t 1 [3327, 2671, 0, 0]) = true := by decide +kernel

/-- 40_reducer.md R130. -/
theorem test_ptomont : okNext (exec (.ptomont 1 0) (startSlots p1 [[1, -1, 3328, 1664]] []))
    (fun t => slotStarts t 1 [-1044, 1044, 1044, 522]) = true := by decide +kernel

/-- 41_transform.md R154. -/
theorem test_ntt : okNext (exec (.ntt 1 0) (startSlots p1 [[0, 0, 1]] []))
    (fun t => slotStarts t 1 [17, 0, -17, 0, -568, 0, 568, 0]) = true := by decide +kernel

/-- 41_transform.md R155. -/
theorem test_intt : okNext (exec (.intt 0 0) (startSlots p1 [[1]] []))
    (fun t => slotStarts t 0 [-26, 0, -589, 0] && decide (((getSlot t 0).drop 126).take 4 = [-1452, 0, 1677, 0])) = true := by
  decide +kernel

/-- 41_transform.md R156. -/
theorem test_basemul : okNext (exec (.basemul 2 0 1) (startSlots p1 [[1, 2, 1, 2], [3, 4, 3, 4]] []))
    (fun t => slotStarts t 2 [188, 1690, 826, 1690]) = true := by decide +kernel

/-- 41_transform.md R156's pseudocode at pair 127, where the sum passes R158's output bound of 3331 (log 24); worked by hand. -/
theorem test_basemul_beyond_bound :
    basemulPair p1 (-(zrom p1).getD 127 0) 128 (-29) 256 37 = (3335, (basemulPair p1 0 128 (-29) 256 37).2) := by decide +kernel

/-- 42_sampler.md R173: variant 3 is `G`. -/
theorem test_xinit : okNext (exec (.xinit 3) (start p1 [] []))
    (fun t => t.xof = some { variant := .g, absorbed := [], pos := 0, squeezing := false }) = true := by decide +kernel

/-- 42_sampler.md R174. -/
theorem test_xabsorb :
    okNext (exec .xabsorb { start p1 [7, 8, 9] [1, 2] with xof := some { variant := .xofb, absorbed := [5], pos := 0, squeezing := false } })
      (fun t => t.xof = some { variant := .xofb, absorbed := [5, 8, 9], pos := 0, squeezing := false })
    && okNext (exec .xabsorb { start p1 [7] [0, 1] with xof := some { variant := .h, absorbed := [], pos := 0, squeezing := true } })
      (fun t => t.status.errcode = 4) = true := by decide +kernel

/-- 42_sampler.md R175: bytes 30 and 31 of the empty `XOFA` stream, then nothing more of `H`. -/
theorem test_xsqueeze :
    okNext (exec .xsqueeze { start p1 [] [6, 2] with xof := some { variant := .xofa, absorbed := [], pos := 30, squeezing := true } })
      (fun t => memStarts t 6 [0xef, 0x26] && decide (t.mem.read 8 = none))
    && okNext (exec .xsqueeze { start p1 [] [0, 2] with xof := some { variant := .h, absorbed := [], pos := 31, squeezing := true } })
      (fun t => t.status.errcode = 4) = true := by decide +kernel

/-- 42_sampler.md R178. -/
theorem test_cbd : okNext (exec (.cbd 0 3) (start p1 (bytesBy 192 (fun j => 7 * j + 3)) [0]))
      (fun t => slotStarts t 0 [2, -2, -1, 1, -2, -2, 0, 0, 0, -1, 0, 1])
    && okNext (exec (.cbd 0 5) (start p1 (bytesBy 320 (fun j => 29 * j + 5)) [0]))
      (fun t => slotStarts t 0 [1, -3, -1, -2, 0, 1, 1, 2]) = true := by decide +kernel

/-- 42_sampler.md R179. -/
theorem test_getnoise : okNext (exec (.getnoise 0 2) (start p1 (List.replicate 32 0) [0, 0, 32]))
    (fun t => slotStarts t 0 [0, -2, 0, 2, -2, -2, 1, -1, 1, -1, 0, 2, 0, 0, 1, -1]) = true := by decide +kernel

/-- 42_sampler.md R181. -/
theorem test_rejparse :
    okNext (exec (.rejparse 0) (start p1 [0x01, 0x00, 0x00, 0xFF, 0xFF, 0xFF, 0x00, 0x0D, 0xD0, 0x01, 0xFD, 0x0C] [0, 12, 0]))
      (fun t => slotStarts t 0 [1, 0, 3328, 3328, 207] && decide (t.result = 5))
    && okNext (exec (.rejparse 0) (start p2 [0x00, 0xE0, 0x7F, 0x01, 0xE0, 0x7F, 0x00, 0xE0, 0xFF, 0xFF, 0xFF, 0xFF, 0x05, 0x00, 0x80]
        [0, 15, 254]))
      (fun t => decide ((getSlot t 0).drop 253 = [0, 8380416, 8380416]) && decide (t.result = 256)) = true := by decide +kernel

/-- 42_sampler.md R182 (three blocks hold the 476 bytes consumed). -/
theorem test_genuni : okNext (exec (.genuni 0) (start { p1 with maxXofBlocks := 3 } (List.replicate 32 0) [0, 0, 32]))
    (fun t => slotStarts t 0 [2944, 3017, 340, 1184, 3243, 1708, 2458, 2285] && decide (t.result = 476)
      && decide ((getSlot t 0).drop 252 = [3223, 2753, 355, 2067])) = true := by decide +kernel

/-- 42_sampler.md R184 (one block holds the 48 bytes consumed). -/
theorem test_challenge : okNext (exec (.challenge 0) (start { p2 with maxXofBlocks := 1 } (List.replicate 32 0) [0, 32]))
    (fun t => decide (t.result = 48) && decide ((getSlot t 0).take 26 =
      [0, 0, 0, 0, 0, 1, 0, 0, 0, 0, 0, 0, 0, 0, 0, 0, 0, 1, -1, 0, 0, 0, 0, 1, 0, -1])) = true := by decide +kernel

/-- 43_codec.md R201. -/
theorem test_pack : okNext (exec (.pack 0 3) (startSlots p1 [[1, 2, 3, 4, 5, 6, 7]] [5])) (fun t => memStarts t 5 [0xD1, 0x58, 0x1F])
    && okNext (exec (.pack 0 10) (startSlots p1 [[-1, 0, 1023, 512]] [0])) (fun t => memStarts t 0 [0xFF, 0x03, 0xF0, 0x3F, 0x80])
    = true := by decide +kernel

/-- 43_codec.md R202. -/
theorem test_unpack : okNext (exec (.unpack 0 3) (start p1 ([0xFF, 0x00, 0xAA] ++ List.replicate 93 0) [0]))
      (fun t => slotStarts t 0 [7, 7, 3, 0, 0, 4, 2, 5, 0])
    && okNext (exec (.unpack 0 16) (start p1 ([0xFF, 0xFF] ++ List.replicate 510 0) [0])) (fun t => slotStarts t 0 [-1, 0]) = true := by
  decide +kernel

/-- 43_codec.md R204. -/
theorem test_compress : okNext (exec (.compress 0 0 4) (startSlots p1 [[0, 104, 105, 1664, 1665, 3120, 3121, 3225, 3328, -1, 3334]] []))
    (fun t => slotStarts t 0 [0, 0, 1, 8, 8, 15, 15, 0, 0, 0, 0]) = true := by decide +kernel

/-- 43_codec.md R205. -/
theorem test_decompress : okNext (exec (.decompress 0 0 3) (startSlots p1 [[0, 1, 2, 3, 4, 5, 6, 7]] []))
    (fun t => slotStarts t 0 [0, 416, 832, 1248, 1665, 2081, 2497, 2913]) = true := by decide +kernel

/-- 44_signature.md R224, R225, R226. -/
theorem test_rounding :
    power2round 13 4097 = (1, -4095) ∧ power2round 13 12288 = (1, 4096) ∧ power2round 13 8380416 = (1023, 0)
      ∧ decompose p2 .reference 95233 = (1, -95231) ∧ decompose p2 .reference 8380416 = (0, -1)
      ∧ decompose p2 .reference 8285184 = (43, 95232) ∧ usehint p2 .reference 1 0 = 43
      ∧ usehint p2 .reference 1 8285184 = 0 := by decide +kernel

/-- 41_transform.md R151 and 00_scope.md R9: `ZROM[1]`, `ZROM[64]`, `ZROM[127]` of P1 and P2, and `QINV`. -/
theorem test_constants :
    ((zrom p1).getD 1 0, (zrom p1).getD 64 0, (zrom p1).getD 127 0) = (-758, -1103, 1628)
      ∧ ((zrom p2).getD 1 0, (zrom p2).getD 64 0, (zrom p2).getD 127 0) = (25847, -3930395, 3839961)
      ∧ qinv p1 = 62209 ∧ qinv p2 = 58728449 ∧ finalF p1 = 512 ∧ finalF p2 = 32764 := by decide +kernel

/-- 60_exceptions.md R325: a wrong signature length comes before an address out of range. -/
theorem test_verify_length : okNext (exec .sigVerify (start p2 [] [0, 2419, 99999, 1, 0, 1312])) (fun t => t.status.errcode = 2)
    = true := by decide +kernel

/-- 45_kem.md R273: the two lengths of `KEM_DECAP`; 30_encoding.md R99: no KEM on P2's reference instance. -/
theorem test_decap_checks : okNext (exec .kemDecap (start p1 [] [0, 768, 0, 1567, 0])) (fun t => t.status.errcode = 2)
    && okNext (exec .kemDecap (start p1 [] [16384, 768, 0, 1568, 0])) (fun t => t.status.errcode = 3)
    && okNext (exec .kemDecap (start p2 [] [])) (fun t => t.status.errcode = 1) = true := by decide +kernel

/-- 20_memory.md R68: the two outputs of `SIG_KEYGEN` and of `KEM_ENCAP` may not overlap. -/
theorem test_overlap : okNext (exec (.sigKeygen 0) (start p2 [] [0, 1311])) (fun t => t.status.errcode = 3)
    && okNext (exec (.kemEncap 0) (start p1 [] [0, 736, 0, 767])) (fun t => t.status.errcode = 3) = true := by decide +kernel

/-- 44_signature.md R228, by hand: positions of two polynomials, a zero byte up to `OMEGA = 4`, the counts 2 and 3. -/
theorem test_hint_layout : encodeHint { SigCfg.reference with sk := 2, omega := 4 } [slotOf [0, 1, 0, 1], slotOf [1]] = [1, 3, 0, 0, 2, 3] := by
  decide +kernel

/-! ### Domain tags (70_reset_and_hazards.md R367) -/

/-- The table's product pipeline, from `a` and `b` in normal order at scale 1. -/
theorem test_tags_product :
    let t : Tags := { slots := [some .plain, some .plain], scalars := [] }
    let after := fun (i : Instr) (t : Option Tags) => t.bind fun t => tagsAfter .normal none t i
    (after (.ptomont 0 0) (after (.intt 0 0) (after (.basemul 0 0 1) (after (.ntt 1 1) (after (.ntt 0 0) (some t)))))).map (·.slots)
      = some [some .plain, some (.element { order := .transform, scale := 0 })] := by decide

/-- The scales of `MRED`, `BRED` and `FQMUL`. -/
theorem test_tags_scalars :
    let t : Tags := { slots := [], scalars := [some 0, some 1, some 2, none] }
    let scales := fun (i : Instr) => (tagsAfter .normal none t i).map (·.scalars)
    scales (.mred 0 2) = some [some 1, some 1, some 2, none] ∧ scales (.bred 0 2) = some [some 2, some 1, some 2, none]
      ∧ scales (.fqmul 0 1 2) = some [some 2, some 1, some 2, none] ∧ scales (.fqmul 0 1 3) = some [none, some 1, some 2, none] := by
  decide

/-- Samplers write scale 1, in the declared order where the table leaves it open; `DECOMPRESS` takes codes, `COMPRESS` makes them;
mixtures are none. -/
theorem test_tags_codes :
    let hat : Content := .element { order := .transform, scale := 0 }
    let t : Tags := { slots := [some .plain, some hat, some .codes], scalars := [] }
    let first := fun (i : Instr) => (tagsAfter .transform none t i).map fun u => u.slots.getD 0 none
    first (.genuni 0) = some (some hat) ∧ first (.rejparse 0) = some (some hat) ∧ first (.cbd 0 2) = some (some .plain)
      ∧ first (.compress 0 0 1) = some (some .codes) ∧ first (.compress 0 1 1) = none
      ∧ first (.decompress 0 2 1) = some (some .plain) ∧ first (.decompress 0 0 1) = none ∧ first (.decompress 0 1 1) = none
      ∧ first (.padd 0 0 1) = none ∧ first (.psub 0 2 2) = none ∧ first (.ntt 0 1) = none ∧ first (.basemul 0 0 1) = none := by
  decide

/-! ## Witnesses: a state and operands that meet the premises of each statement -/

/-- The outcome is a fault at address 0. -/
def faults (o : Outcome) : Bool :=
  match o with
  | .fault r => decide (r = .noValue 0)
  | _ => false

/-- The smallest modulus with both protocols, and a hash suite of zero bytes. -/
def tinyKem : KemCfg := { k := 1, eta := 2, dt := 1, du := 1, dv := 1 }

/-- Its signature constants. -/
def tinySig : SigCfg := { sk := 1, sl := 1, seta := 2, tau := 1, gamma1 := 16, gamma2 := 8, omega := 4, drop := 1 }

/-- A configuration small enough to run whole protocol commands in the kernel. -/
def tiny : Cfg :=
  { q := 257, w := 16, zeta := 3, np := 3, bmemSize := 2048, cs := 16, cw := 9, nonceBytes := 2, blkA := 128, blkB := 136
    maxXofBlocks := 4, maxSignRetries := 1, kem := some tinyKem, sig := some tinySig, hash := .constant 0 }

/-- The same with a stream cap too small for one matrix element, and for one challenge. -/
def tinyShort : Cfg := { tiny with maxXofBlocks := 1, blkB := 8 }

theorem tiny_valid : cfgValid tiny = true := by decide +kernel

theorem tinyShort_valid : cfgValid tinyShort = true := by decide +kernel

theorem p1_valid : cfgValid p1 = true := by decide +kernel

theorem p2_valid : cfgValid p2 = true := by decide +kernel

/-- `start` meets the invariant. -/
theorem inv_start (c : Cfg) (bs : Bytes) (args : List Nat) (hc : cfgValid c = true) (hb : bs.length ≤ c.bmemSize) :
    Inv (start c bs args) := by
  refine ⟨hc, ⟨List.length_replicate, fun f hf => ?_⟩, ⟨wf_cellsAt _ _, fun x hx => ?_⟩, ?_, fun _ => ⟨rfl, rfl⟩, ?_⟩
  · have : f = zeroPoly := (List.mem_replicate.1 hf).2
    exact this ▸ zeroPoly_fits
  · have := (mem_cellsAt hx).2
    exact Nat.lt_of_lt_of_le (by simpa using this) hb
  · show StatusFits { Status.idle with busy := true }
    decide
  · intro x hx
    cases hx

/-- What `start` stores is what memory holds. -/
theorem holds_start (c : Cfg) (bs : Bytes) (args : List Nat) (a k : Nat) (h : a + k ≤ bs.length) :
    HoldsBytes (start c bs args) a (slice bs a (a + k)) := by
  intro j hj
  have hl : (slice bs a (a + k)).length = k := by rw [slice_length h]; omega
  have h1 : Memory.read (cellsAt 0 bs) (a + j) = bs[a + j]? := by simpa using read_cellsAt 0 bs (a + j)
  have h2 : (slice bs a (a + k))[j]? = bs[a + j]? := by
    rw [slice, List.getElem?_take, List.getElem?_drop, if_pos (by omega)]
  rw [h2]
  exact h1

/-- The zero bytes of a long enough memory of zero bytes. -/
theorem holds_zeros (c : Cfg) (n a k : Nat) (args : List Nat) (h : a + k ≤ n) :
    HoldsBytes (start c (List.replicate n 0) args) a (List.replicate k 0) := by
  have e : slice (List.replicate n (0 : Byte)) a (a + k) = List.replicate k 0 := by
    simp [slice]
    omega
  rw [← e]
  exact holds_start c _ args a k (by simpa using h)

/-- A part of what `start` stores. -/
theorem holds_append (c : Cfg) (pre bs post : Bytes) (args : List Nat) (a : Nat) (h : pre.length = a) :
    HoldsBytes (start c (pre ++ bs ++ post) args) a bs := by
  have e : slice (pre ++ bs ++ post) a (a + bs.length) = bs := by
    subst h
    simp [slice]
  have := holds_start c (pre ++ bs ++ post) args a bs.length (by simp; omega)
  rwa [e] at this

/-- A state that is idle. -/
def idle (c : Cfg) : State := State.resetOf c

theorem witness_DecodeEncode : (Instr.compress 15 14 31).wellFormed = true ∧ (Instr.fqmul 15 0 15).wellFormed = true
    ∧ (Instr.sigSign 3).wellFormed = true := by decide

theorem witness_EncodeDecode : decode 0x01FFFF52#32 = .error .nonzeroUnusedField ∧ decode 0x01F0FF52#32 = .ok (.compress 15 15 31) := by
  decide

theorem witness_IllegalWordsEndWithError : cfgValid (idle tiny).cfg = true ∧ (¬ ∃ row ∈ opcodeRows, (0x08000000#32 : Word) &&& row.1 = row.2)
    ∧ ∃ row ∈ opcodeRows, (0x00000031#32 : Word) &&& row.1 = row.2 := ⟨tiny_valid, by decide, by decide⟩

theorem witness_StepRunsCommand : cfgValid (start tiny [] []).cfg = true ∧ (start tiny [] []).status.busy = true
    ∧ decode (start tiny [] []).latch.word = .ok .nop ∧ (idle tiny).status.busy = false := ⟨tiny_valid, by decide, by decide, by decide⟩

theorem witness_StepKeepsInvariant : Inv (start tiny [] []) ∧ ∃ t, step (start tiny [] []) = .next t :=
  ⟨inv_start _ _ _ tiny_valid (by decide), by
    have h : okNext (step (start tiny [] [])) (fun _ => true) = true := by decide +kernel
    obtain ⟨t, h, _⟩ := exists_next h
    exact ⟨t, h⟩⟩

theorem witness_SoftResetIsHardwareReset : cfgValid (start tiny [] []).cfg = true ∧ (0x3#32 : Word).getLsbD 1 = true :=
  ⟨tiny_valid, by decide⟩

theorem witness_CmdWriteAcceptedOrDropped :
    ((idle tiny).status.busy = false ∧ (idle tiny).status.err = false ∧ (idle tiny).status.halt = false ∧ decode 0x00000000#32 = .ok .nop)
      ∧ ¬ ((start tiny [] []).status.busy = false ∧ (start tiny [] []).status.err = false ∧ (start tiny [] []).status.halt = false) := by
  decide

/-- 60_exceptions.md R330: a dropped `CMD` write raises the enabled line, and clearing `CMDOVR` and `DONE` lowers it. -/
theorem test_irq_overrun :
    okNext (step { idle tiny with ie := true, status := { Status.idle with done := true, cmdovr := true }, bus := [.write .word 0x060 0x12] })
      (fun t => !irq t)
    && okNext (step { raise .addr (idle tiny) with ie := true, bus := [.write .word 0x044 0] }) irq = true := by decide +kernel

theorem witness_ReturnFromError : cfgValid (raise .addr (idle tiny)).cfg = true ∧ (raise .addr (idle tiny)).status.busy = false
    ∧ (0x16#32 : Word).getLsbD 2 = true ∧ (0x16#32 : Word).getLsbD 1 = true ∧ (0x16#32 : Word).getLsbD 4 = true ∧ (raise .addr (idle tiny)).status.halt = false ∧ (raise .addr (idle tiny)).status.err = true :=
  ⟨tiny_valid, by decide, by decide, by decide, by decide, by decide, by decide⟩

theorem witness_RegisterBlock : cfgValid (idle tiny).cfg = true ∧ (idle tiny).status.busy = false ∧ 5 < 6 ∧ 3 < 4
    ∧ (0x1#32 : Word).getLsbD 1 = false ∧ (0x028 % 4 = 0 ∧ 0x028 ≤ 0x028)
    ∧ [0x02C, 0x03C, 0x06C, 0x07C, 0x0A0, 0xFFFC, 0x10800, 0x1FFFC, 0x24000, 0x2FFFC, 0x30200].all
        (fun off => decide (off % 4 = 0 ∧ ReservedOffset tiny off)) = true := ⟨tiny_valid, by decide +kernel⟩

/-- 10_state.md R34 to R39 and the reference configurations of 00_scope.md R9, packed by hand. -/
theorem test_cfg_registers :
    [0x004, 0x008, 0x00C, 0x010, 0x014, 0x018].map (regRead (idle p1))
        = [0x00000D01, 0x18C20C10, 0x00000011, 0x000188A8, 0x004003E8, 0x00004000]
      ∧ [0x01C, 0x020, 0x024, 0x028].map (regRead (idle p1)) = [0x0008A5A5, 0, 0, 0]
      ∧ [0x01C, 0x020, 0x024, 0x028].map (regRead (idle p2)) = [0, 0x0D509D49, 0x00020000, 0x00017400] := by decide +kernel

theorem inv_idle (c : Cfg) (bs : Bytes) (hc : cfgValid c = true) (hb : bs.length ≤ c.bmemSize) :
    Inv { idle c with mem := cellsAt 0 bs } := by
  obtain ⟨h1, h2, h3, _, _, _⟩ := inv_start c bs [] hc hb
  exact ⟨h1, h2, h3, show StatusFits Status.idle by decide, fun _ => ⟨rfl, rfl⟩, fun x hx => by cases hx⟩

theorem witness_BufferWindowLittleEndian :
    Inv { idle tiny with mem := cellsAt 0 [1, 2, 3, 4, 5] } ∧ ({ idle tiny with mem := cellsAt 0 [1, 2, 3, 4, 5] } : State).status.busy = false
      ∧ 2044 % 4 = 0 ∧ 2044 < tiny.bmemSize ∧ Memory.read (cellsAt 0 [1, 2, 3, 4, 5]) 3 = some 4
      ∧ Memory.read (cellsAt 0 [1, 2, 3, 4, 5]) (4 + 1) = none := ⟨inv_idle _ _ tiny_valid (by decide), by decide⟩

theorem witness_PolynomialAndTwiddleWindows : Inv { idle tiny with mem := cellsAt 0 [] } ∧ (idle tiny).status.busy = false
    ∧ 15 < 16 ∧ 255 < 256 ∧ 127 < 128 := ⟨inv_idle _ _ tiny_valid (by decide), by decide⟩

theorem witness_HostAccessesRefused : cfgValid (start tiny [] []).cfg = true ∧ (start tiny [] []).status.busy = true
    ∧ (0x028 % 4 = 0 ∧ 0x028 ≤ 0x028) ∧ (0x1#32 : Word).getLsbD 1 = false
    ∧ (AccessSize.half ≠ .word ∨ 0x064 % 4 ≠ 0) ∧ 0x064 % 4 = 0 ∧ 0x064 ≠ 0x060 ∧ 0x028 < 0x064 ∧ 0x064 ≠ 0x040 ∧ 0x064 ≠ 0x044 :=
  ⟨tiny_valid, by decide⟩

theorem witness_HaltLeftOnlyByReset : (raiseFatal (idle tiny)).status.halt = true
    ∧ ∃ t, step { raiseFatal (idle tiny) with bus := [.write .word 0x040 2] } = .next t ∧ decide (t.status.halt = false) = true :=
  ⟨by decide, exists_next (by decide +kernel)⟩

theorem witness_CommandsComplete : Memory.wf (start tiny [] [0]).mem
    ∧ (∃ t, exec .nop (start tiny [] []) = .next t) ∧ faults (exec (.unpack 0 1) (start tiny [] [0])) = true :=
  ⟨wf_cellsAt _ _, ⟨_, rfl⟩, by decide +kernel⟩

theorem witness_ErrorsExactlyAsListed :
    checkError (start tiny [] []) (.padd 3 0 0) = some .illegalCmd ∧ checkError (start tiny [] []) .xsqueeze = some .xofSeq
      ∧ checkError (start tiny [] []) .sigVerify = some .invalidLen ∧ checkError (start tiny [] [2017]) (.pack 0 1) = some .addr
      ∧ checkError (start tiny [] [2016]) (.pack 0 1) = none ∧ ∃ t, exec (.pack 0 1) (start tiny [] [2016]) = .next t :=
  ⟨by decide +kernel, by decide +kernel, by decide +kernel, by decide +kernel, by decide +kernel, by
    have h : okNext (exec (.pack 0 1) (start tiny [] [2016])) (fun _ => true) = true := by decide +kernel
    obtain ⟨t, h, _⟩ := exists_next h
    exact ⟨t, h⟩⟩

theorem witness_RecoverableErrorsPrecise : (start tiny [] []).status.err = false
    ∧ ∃ t, exec (.padd 3 0 0) (start tiny [] []) = .next t ∧ (t.status.err && decide (t.status.errcode ≠ 5)) = true :=
  ⟨by decide, exists_next (by decide +kernel)⟩

theorem witness_FatalErrorEffect : (start tinyShort (List.replicate 32 0) [0, 0, 32]).status.halt = false
    ∧ ∃ t, exec (.genuni 0) (start tinyShort (List.replicate 32 0) [0, 0, 32]) = .next t ∧ t.status.halt = true :=
  ⟨by decide, exists_next (by decide +kernel)⟩

/-- `start` with the coin's next answer true. -/
def startCoin (c : Cfg) (bs : Bytes) (args : List Nat) : State :=
  { start c bs args with draws := { entropy := [], coins := [true], taken := 0 } }

/-- Message of no bytes at 0, a secret key of zero bytes at 0, the signature at 512. -/
def signArgs : List Nat := [0, 0, 0, 320, 512]

/-- Signing with the coin true accepts at the first attempt and takes that coin. -/
theorem tiny_signs :
    (match signMessage tiny tinySig 2 (List.replicate 320 0) [] { entropy := [], coins := [true], taken := 0 } with
      | (.signed _ n, d) => decide (n = 1) && decide (d = { entropy := [], coins := [], taken := 0 })
      | _ => false) = true := by decide +kernel

theorem witness_OnlyFourFormsDraw :
    (∃ t, exec (.sigKeygen 0) (start tinyShort [] [0, 288, 0]) = .next t ∧ decide (t.draws.taken = 32) = true)
      ∧ ∃ sig n d, signMessage tiny tinySig 2 (List.replicate 320 0) [] { entropy := [], coins := [true], taken := 0 } = (.signed sig n, d)
          ∧ d.coins ≠ [true] := by
  refine ⟨exists_next (by decide +kernel), ?_⟩
  have h := tiny_signs
  split at h
  · rename_i sig n d e
    simp only [Bool.and_eq_true, decide_eq_true_eq] at h
    exact ⟨sig, n, d, e, by rw [h.2]; decide⟩
  · cases h

/-- Signature at 0, no message, public key at 256. -/
def verifyArgs : List Nat := [0, 197, 0, 0, 256, 288]

theorem witness_ProtocolCommandsZeroWorkingState : isProtocol .sigVerify = true
    ∧ checkError (start tiny (List.replicate 544 0) verifyArgs) .sigVerify = none
    ∧ checkError (start tiny [] []) .sigVerify ≠ none
    ∧ (∃ t, exec .sigVerify (start tiny (List.replicate 544 0) verifyArgs) = .next t ∧ true = true)
    ∧ ∃ t, exec .sigVerify (start tiny [] []) = .next t ∧ true = true :=
  ⟨by decide, by decide +kernel, by decide +kernel, exists_next (f := fun _ => true) (by decide +kernel),
    exists_next (f := fun _ => true) (by decide +kernel)⟩

theorem witness_XofAfterCommand : usesXofInside (.getnoise 0 2) = true ∧ usesXofInside (.pred 0 1) = false
    ∧ checkError (start tiny [0] [0, 0, 1]) (.getnoise 0 2) = none
    ∧ ∃ t, exec (.getnoise 0 2) (start tiny [0] [0, 0, 1]) = .next t ∧ decide (t.xof = none) = true :=
  ⟨by decide, by decide, by decide +kernel, exists_next (by decide +kernel)⟩

theorem witness_MredResult : cfgValid (startScalars p1 [0, 5]).cfg = true
    ∧ (wrap (2 * p1.w) (getScalar (startScalars p1 [0, 109084671]) 1)).natAbs < p1.q * 2 ^ (p1.w - 1)
    ∧ (wrap (2 * p1.w) (getScalar (startScalars p1 [0, 2038398975]) 1)).natAbs < 2 ^ (2 * p1.w - 1) - p1.q * 2 ^ (p1.w - 1)
    ∧ ¬ (3 < 4 ∧ 4 < 4) := ⟨p1_valid, by decide +kernel⟩

theorem witness_BredResult : cfgValid (startScalars p2 [0, -1]).cfg = true ∧ 3 < 4 ∧ ¬ (4 < 4 ∧ 0 < 4) := ⟨p2_valid, by decide⟩

theorem witness_FqmulResult : cfgValid (startScalars p2 [0, -1]).cfg = true ∧ 3 < 4 ∧ ¬ (0 < 4 ∧ 0 < 4 ∧ 15 < 4) :=
  ⟨p2_valid, by decide⟩

theorem witness_AddSubResult : SlotsFit (start tiny [] []) ∧ 2 < tiny.np ∧ ¬ (0 < tiny.np ∧ 3 < tiny.np ∧ 0 < tiny.np) :=
  ⟨(inv_start _ _ _ tiny_valid (by decide)).2.1, by decide⟩

theorem witness_slots : Inv (start p1 [] []) ∧ 2 < p1.np ∧ ¬ (3 < p1.np) := ⟨inv_start _ _ _ p1_valid (by decide), by decide⟩

theorem witness_PredResult : Inv (start p1 [] []) ∧ 2 < (start p1 [] []).cfg.np ∧ ¬ (3 < (start p1 [] []).cfg.np ∧ 0 < (start p1 [] []).cfg.np) :=
  ⟨witness_slots.1, by decide⟩

theorem witness_PtomontResult : Inv (start p2 [] []) ∧ 2 < (start p2 [] []).cfg.np ∧ ¬ (0 < (start p2 [] []).cfg.np ∧ 3 < (start p2 [] []).cfg.np) :=
  ⟨inv_start _ _ _ p2_valid (by decide), by decide⟩

theorem witness_NttFollowsPseudocode : Inv (start p1 [] []) ∧ 2 < (start p1 [] []).cfg.np ∧ ¬ (3 < (start p1 [] []).cfg.np) := witness_slots

theorem witness_InttFollowsPseudocode : Inv (start p1 [] []) ∧ 512 < p1.q ∧ 512 * 128 % p1.q = 2 ^ p1.w % p1.q ∧ 2 < p1.np :=
  ⟨witness_slots.1, by decide⟩

/-- Every coefficient of `start` is 0. -/
theorem coeff_start (c : Cfg) (bs : Bytes) (args : List Nat) (k i : Nat) : coeff (start c bs args) k i = 0 := by
  have h : getSlot (start c bs args) k = zeroPoly := by
    simp only [getSlot, start, State.resetOf, List.getD_eq_getElem?_getD, List.getElem?_replicate]
    split <;> rfl
  rw [coeff, h, zeroPoly]
  simp only [List.getD_eq_getElem?_getD, List.getElem?_replicate]
  split <;> rfl

theorem witness_NttIsTheTransform : Inv (start p1 [] []) ∧ 2 < p1.np ∧ 9471 + 7 * (p1.q - 1) + 1 ≤ 2 ^ (p1.w - 1)
    ∧ ∀ i, (coeff (start p1 [] []) 2 i).natAbs ≤ 9471 :=
  ⟨witness_slots.1, by decide, by decide, fun i => by rw [coeff_start]; decide⟩

theorem witness_TransformRoundTrip : Inv (start p1 [] []) ∧ 2 < p1.np ∧ 0 + 7 * (p1.q - 1) + 1 ≤ 2 ^ (p1.w - 1)
    ∧ (∀ i, (coeff (start p1 [] []) 2 i).natAbs ≤ 0) ∧ (∀ i, (coeff (start p1 [] []) 2 i).natAbs + 1 ≤ 2 ^ (p1.w - 2))
    ∧ 8 * p1.q ≤ 2 ^ (p1.w - 1)
    ∧ ∃ t, exec (.ntt 1 2) (start p1 [] []) = .next t
        ∧ (getSlot t 1).all (fun x => decide (x.natAbs + 1 ≤ 2 ^ (p1.w - 2))) = true :=
  ⟨witness_slots.1, by decide, by decide, fun i => by rw [coeff_start]; decide, fun i => by rw [coeff_start]; decide, by decide,
    exists_next (by decide +kernel)⟩

theorem witness_BasemulResult : Inv (start p1 [] []) ∧ 2 < p1.np ∧ ¬ (0 < p1.np ∧ 0 < p1.np ∧ 3 < p1.np) ∧ 127 < 128
    ∧ ∀ i, (coeff (start p1 [] []) 2 i).natAbs + p1.q ≤ 2 ^ (p1.w - 1) :=
  ⟨witness_slots.1, by decide, by decide, by decide, fun i => by rw [coeff_start]; decide⟩

theorem witness_RingProductIsExact : cfgValid tiny = true ∧ zeroPoly.length = 256 ∧ (∀ x ∈ [zeroPoly, zeroPoly], x.length = 256)
    ∧ ∀ row ∈ [[zeroPoly, zeroPoly], [zeroPoly, zeroPoly]], row.length = 2 ∧ ∀ x ∈ row, x.length = 256 :=
  ⟨tiny_valid, zeroPoly_length, by simp [zeroPoly_length], by simp [zeroPoly_length]⟩

theorem witness_XinitResult : [XofVariant.xofa, XofVariant.xofb, XofVariant.h, XofVariant.g][3]? = some .g ∧ 3 < 4 := by decide

/-- `start` with a stream. -/
def startXof (x : Xof) (bs : Bytes) (args : List Nat) : State := { start tiny bs args with xof := some x }

theorem witness_XabsorbResult : Memory.wf (startXof ⟨.xofb, [], 0, false⟩ [1, 2] [0, 2]).mem
    ∧ InBounds (startXof ⟨.xofb, [], 0, false⟩ [1, 2] [0, 2]) (operand (startXof ⟨.xofb, [], 0, false⟩ [1, 2] [0, 2]) 0) 2
    ∧ HoldsBytes (startXof ⟨.xofb, [], 0, false⟩ [1, 2] [0, 2]) 0 [1, 2]
    ∧ ¬ InBounds (startXof ⟨.xofb, [], 0, false⟩ [] [2047, 2]) (operand (startXof ⟨.xofb, [], 0, false⟩ [] [2047, 2]) 0) 2 :=
  ⟨wf_cellsAt _ _, by decide +kernel, by decide +kernel, by decide +kernel⟩

/-- 42_sampler.md R172: each variant's stream, on a suite whose four functions differ. -/
theorem test_xof_variants : (xofStream .keccak ⟨.xofa, [], 0, false⟩ 1, xofStream .keccak ⟨.xofb, [], 0, false⟩ 1) = ([0x7f], [0x46]) := by
  decide +kernel

theorem witness_XsqueezeResult :
    InBounds (startXof ⟨.g, [], 62, true⟩ [] [2046, 2]) (operand (startXof ⟨.g, [], 62, true⟩ [] [2046, 2]) 0) 2 ∧ 62 + 2 ≤ 64
      ∧ (XofVariant.g = .g ∧ 64 < 62 + 3)
      ∧ ¬ InBounds (startXof ⟨.g, [], 62, true⟩ [] [2047, 2]) (operand (startXof ⟨.g, [], 62, true⟩ [] [2047, 2]) 0) 2 := by decide +kernel

theorem witness_CbdResult : Inv (start tiny (List.replicate 2048 0) [1728]) ∧ 2 < tiny.np ∧ 2 ≤ 5 ∧ 5 ≤ 5
    ∧ operand (start tiny (List.replicate 2048 0) [1728]) 0 + 64 * 5 ≤ tiny.bmemSize
    ∧ HoldsBytes (start tiny (List.replicate 2048 0) [1728]) 1728 (List.replicate (64 * 5) 0) :=
  ⟨inv_start _ _ _ tiny_valid (by decide +kernel), by decide, by decide, by decide, by decide +kernel,
    holds_zeros _ _ _ _ _ (by decide)⟩

theorem witness_GetnoiseResult : Inv (start tiny (List.replicate 255 0) [0, 65535, 255]) ∧ 2 < tiny.np
    ∧ operand (start tiny (List.replicate 255 0) [0, 65535, 255]) 1 < 2 ^ (8 * tiny.nonceBytes)
    ∧ operand (start tiny (List.replicate 255 0) [0, 65535, 255]) 2 = 255
    ∧ HoldsBytes (start tiny (List.replicate 255 0) [0, 65535, 255]) 0 (List.replicate 255 0) :=
  ⟨inv_start _ _ _ tiny_valid (by decide +kernel), by decide, by decide +kernel, by decide +kernel, holds_zeros _ _ _ _ _ (by decide)⟩

theorem witness_RejparseResult : Inv (start tiny (List.replicate 4 0) [0, 4, 255]) ∧ 2 < tiny.np
    ∧ operand (start tiny (List.replicate 4 0) [0, 4, 255]) 2 ≤ 256
    ∧ InBounds (start tiny (List.replicate 4 0) [0, 4, 255]) 0 (operand (start tiny (List.replicate 4 0) [0, 4, 255]) 1)
    ∧ HoldsBytes (start tiny (List.replicate 4 0) [0, 4, 255]) 0 (List.replicate 4 0)
    ∧ min (accepted tiny (List.replicate 4 0) (8 * 4 / tiny.cs)).length (256 - 255) = 1 :=
  ⟨inv_start _ _ _ tiny_valid (by decide +kernel), by decide, by decide +kernel, by decide +kernel, holds_zeros _ _ _ _ _ (by decide),
    by decide +kernel⟩

theorem witness_GenuniResult : Inv (start tiny (List.replicate 255 0) [0, 65535, 255]) ∧ 2 < tiny.np
    ∧ operand (start tiny (List.replicate 255 0) [0, 65535, 255]) 1 < 2 ^ 16
    ∧ HoldsBytes (start tiny (List.replicate 255 0) [0, 65535, 255]) 0 (List.replicate 255 0)
    ∧ 256 ≤ (accepted tiny (List.replicate 512 0) (8 * 512 / tiny.cs)).length
    ∧ Inv (start tinyShort (List.replicate 255 0) [0, 65535, 255])
    ∧ (accepted tinyShort (List.replicate 128 0) (8 * 128 / tinyShort.cs)).length < 256 :=
  ⟨inv_start _ _ _ tiny_valid (by decide +kernel), by decide, by decide +kernel, holds_zeros _ _ _ _ _ (by decide), by decide +kernel,
    inv_start _ _ _ tinyShort_valid (by decide +kernel), by decide +kernel⟩

/-- The stream of zero bytes puts the one coefficient at 0, with the sign of bit 0. -/
theorem tiny_challenge : IsChallenge tiny tinySig.tau [0] (zeroPoly.set 0 1) 9 := by
  refine ⟨[8], ⟨rfl, fun k hk => ?_⟩, rfl, by decide +kernel⟩
  obtain rfl : k = 0 := by
    have : tinySig.tau = 1 := rfl
    omega
  exact ⟨le_rfl, by decide +kernel, by decide +kernel, fun p h1 h2 => absurd h1 (by simpa using h2)⟩

/-- A stream of 8 bytes holds the signs only. -/
theorem tinyShort_challenge : ¬ ∃ f pos, IsChallenge tinyShort tinySig.tau [0] f pos := by
  rintro ⟨f, pos, picks, ⟨_, h⟩, _⟩
  have hl : (xofbBytes tinyShort.hash [0] (tinyShort.maxXofBlocks * tinyShort.blkB)).length = 8 := by decide +kernel
  obtain ⟨h1, h2, _⟩ := h 0 (by decide)
  rw [hl] at h2
  simp only [if_pos] at h1
  omega

theorem witness_ChallengeResult : Inv (start tiny [0] [0, 1]) ∧ tiny.sig = some tinySig ∧ 2 < tiny.np
    ∧ operand (start tiny [0] [0, 1]) 1 = 1 ∧ HoldsBytes (start tiny [0] [0, 1]) 0 [0]
    ∧ IsChallenge tiny tinySig.tau [0] (zeroPoly.set 0 1) 9 ∧ Inv (start tinyShort [0] [0, 1])
    ∧ (¬ ∃ f pos, IsChallenge tinyShort tinySig.tau [0] f pos)
    ∧ sampleInBall tiny tinySig.tau [0] = some (zeroPoly.set 0 1, 9) ∧ sampleInBall tinyShort tinySig.tau [0] = none :=
  ⟨inv_start _ _ _ tiny_valid (by decide), rfl, by decide, by decide +kernel, by decide +kernel, tiny_challenge,
    inv_start _ _ _ tinyShort_valid (by decide), tinyShort_challenge, by decide +kernel, by decide +kernel⟩

theorem witness_PackResult : Inv (start tiny [] [1536]) ∧ 2 < tiny.np ∧ 16 ≤ tiny.w
    ∧ operand (start tiny [] [1536]) 0 + 32 * 16 ≤ tiny.bmemSize :=
  ⟨inv_start _ _ _ tiny_valid (by decide), by decide, by decide, by decide +kernel⟩

theorem witness_UnpackResult : Inv (start tiny (List.replicate 512 0) [0]) ∧ 2 < tiny.np ∧ 16 ≤ tiny.w
    ∧ operand (start tiny (List.replicate 512 0) [0]) 0 + 32 * 16 ≤ tiny.bmemSize
    ∧ HoldsBytes (start tiny (List.replicate 512 0) [0]) 0 (List.replicate (32 * 16) 0) :=
  ⟨inv_start _ _ _ tiny_valid (by decide +kernel), by decide, by decide, by decide +kernel, holds_zeros _ _ _ _ _ (by decide)⟩

theorem witness_PackUnpackRoundTrip : Inv (start tiny (List.replicate 512 0) [0]) ∧ 2 < tiny.np
    ∧ (∀ i, 0 ≤ coeff (start tiny (List.replicate 512 0) [0]) 2 i ∧ coeff (start tiny (List.replicate 512 0) [0]) 2 i < 2 ^ 16)
    ∧ HoldsBytes (start tiny (List.replicate 512 0) [0]) 0 (List.replicate (32 * 16) 0) :=
  ⟨witness_UnpackResult.1, by decide, fun i => by rw [coeff_start]; decide, holds_zeros _ _ _ _ _ (by decide)⟩

theorem witness_CompressDecompressResult : Inv (start p1 [] []) ∧ 2 < p1.np ∧ 11 < logq p1 ∧ ¬ (12 < logq p1) :=
  ⟨witness_slots.1, by decide, by decide +kernel⟩

theorem witness_CompressionRoundingBound : cfgValid p1 = true ∧ 1 ≤ 11 ∧ 11 < logq p1 ∧ (0 : Int) ≤ 2047 ∧ (2047 : Int) < 2 ^ 11 :=
  ⟨p1_valid, by decide +kernel⟩

/-- `keygen` and the other whole commands: the operands below are `ARG0` on. -/
def keyArgs : List Nat := [0, 512, 1024]

theorem witness_SigKeygenResult : Inv (start tiny (List.replicate 1056 0) keyArgs) ∧ tiny.sig = some tinySig
    ∧ sigPkBytes tiny tinySig = 288 ∧ sigSkBytes tinySig = 320
    ∧ HoldsBytes (start tiny (List.replicate 1056 0) keyArgs) 1024 (List.replicate 32 0)
    ∧ operand (start tiny (List.replicate 1056 0) keyArgs) 2 = 1024
    ∧ (sigKeyPair tiny tinySig (List.replicate 32 0)).isSome = true
    ∧ Inv (start tinyShort (List.replicate 1056 0) keyArgs) ∧ sigKeyPair tinyShort tinySig (List.replicate 32 0) = none :=
  ⟨inv_start _ _ _ tiny_valid (by decide +kernel), rfl, by decide +kernel, by decide +kernel, holds_zeros _ _ _ _ _ (by decide),
    by decide +kernel, by decide +kernel, inv_start _ _ _ tinyShort_valid (by decide +kernel), by decide +kernel⟩

theorem inv_startCoin (c : Cfg) (bs : Bytes) (args : List Nat) (hc : cfgValid c = true) (hb : bs.length ≤ c.bmemSize) :
    Inv (startCoin c bs args) := inv_start c bs args hc hb

/-- `tinySig` with a mask range at which a stream of bytes 128 gives the mask 0. -/
def tinySignSig : SigCfg := { tinySig with gamma1 := 128 }

/-- A configuration on which the baseline policy accepts a secret key of zero bytes at the first attempt. -/
def tinySign : Cfg := { tiny with sig := some tinySignSig, hash := .constant 128 }

/-- With the baseline policy, whose bounds `SignatureOf` states. -/
theorem witness_SigSignResult_baseline :
    (match signMessage tinySign tinySignSig 0 (List.replicate 320 0) [] { entropy := [], coins := [], taken := 0 } with
      | (.signed _ n, d) => decide (n = 1) && decide (d = { entropy := [], coins := [], taken := 0 })
      | _ => false) = true := by decide +kernel

theorem tinySign_valid : cfgValid tinySign = true := by decide +kernel

theorem witness_SigSignResult_inv : Inv (start tinySign (List.replicate 320 0) signArgs) :=
  inv_start _ _ _ tinySign_valid (by decide +kernel)

/-- Two attempts, the first with the coin false and out of bounds: the second is the first acceptable one. -/
theorem witness_SigSignResult_second : cfgValid { tiny with maxSignRetries := 2 } = true ∧
    (match signMessage { tiny with maxSignRetries := 2 } tinySig 2 (List.replicate 320 0) []
        { entropy := [], coins := [false, true], taken := 0 } with
      | (.signed _ n, d) => decide (n = 2) && decide (d = { entropy := [], coins := [], taken := 0 })
      | _ => false) = true := ⟨by decide +kernel, by decide +kernel⟩

theorem witness_SigSignResult : Inv (startCoin tiny (List.replicate 320 0) signArgs) ∧ tiny.sig = some tinySig
    ∧ operand (startCoin tiny (List.replicate 320 0) signArgs) 3 = sigSkBytes tinySig
    ∧ operand (startCoin tiny (List.replicate 320 0) signArgs) 4 + sigBytes tinySig ≤ tiny.bmemSize
    ∧ HoldsBytes (startCoin tiny (List.replicate 320 0) signArgs) 0 (List.replicate 320 0)
    ∧ (∃ sig n d, signMessage tiny tinySig 2 (List.replicate 320 0) [] (startCoin tiny [] []).draws = (.signed sig n, d))
    ∧ (signMessage tiny tinySig 0 (List.replicate 320 0) [] (startCoin tiny [] []).draws).1 = .attemptsExhausted
    ∧ (signMessage tinyShort tinySig 0 (List.replicate 320 0) [] (startCoin tiny [] []).draws).1 = .streamExhausted :=
  ⟨inv_startCoin _ _ _ tiny_valid (by decide +kernel), rfl, by decide +kernel, by decide +kernel,
    holds_zeros tiny 320 0 320 signArgs (by decide),
    by obtain ⟨sig, n, d, h, _⟩ := witness_OnlyFourFormsDraw.2
       exact ⟨sig, n, d, h⟩,
    by decide +kernel, by decide +kernel⟩

/-- A signature whose response is 0. -/
def zeroResponse : Bytes := List.replicate 32 0 ++ packBytes 5 (List.replicate 256 16) ++ List.replicate 5 0

/-- Buffer memory with that signature and a public key of zero bytes. -/
def verifyBytes : Bytes := zeroResponse ++ List.replicate 59 0 ++ List.replicate 288 0

theorem witness_SigVerifyResult : Inv (start tiny verifyBytes verifyArgs)
    ∧ operand (start tiny verifyBytes verifyArgs) 1 = sigBytes tinySig
    ∧ operand (start tiny verifyBytes verifyArgs) 5 = sigPkBytes tiny tinySig
    ∧ zeroResponse.length = sigBytes tinySig
    ∧ HoldsBytes (start tiny verifyBytes verifyArgs) 0 zeroResponse
    ∧ HoldsBytes (start tiny verifyBytes verifyArgs) 256 (List.replicate 288 0)
    ∧ verifyCore tiny tinySig zeroResponse [] (List.replicate 288 0) = some true
    ∧ verifyCore tiny tinySig (1 :: zeroResponse.drop 1) [] (List.replicate 288 0) = some false
    ∧ verifyCore tinyShort tinySig zeroResponse [] (List.replicate 288 0) = none
    ∧ decodeHint tinySig [0, 0, 0, 0, 5] = none
    ∧ tinySig.gamma1 ≤ ((tinySig.gamma1 : Int) - bitsAt (List.replicate 197 0) (8 * 32) (zBits tinySig)).natAbs + beta tinySig := by
  refine ⟨inv_start _ _ _ tiny_valid (by decide +kernel), by decide +kernel, by decide +kernel, by decide +kernel, ?_, ?_,
    by decide +kernel, by decide +kernel, by decide +kernel, by decide +kernel, by decide +kernel⟩
  · have := holds_append tiny [] zeroResponse (List.replicate 59 0 ++ List.replicate 288 0) verifyArgs 0 rfl
    simpa [verifyBytes] using this
  · have := holds_append tiny (zeroResponse ++ List.replicate 59 0) (List.replicate 288 0) [] verifyArgs 256 (by decide +kernel)
    simpa [verifyBytes] using this

theorem witness_SigningDrawsAndPolicies :
    (∃ sig n d, signMessage tiny tinySig 2 (List.replicate 320 0) [] { entropy := [], coins := [true], taken := 0 } = (.signed sig n, d))
      ∧ (policyAccepts tiny tinySig 1 [zeroPoly] [zeroPoly] { entropy := [], coins := [], taken := 0 }).1 = true
      ∧ (1 ≤ 1 ∧ (1 + 1) * beta tinySig < tinySig.gamma1 ∧ (1 + 1) * beta tinySig < tinySig.gamma2)
      ∧ (policyAccepts tiny tinySig 2 [slotOf [14]] [zeroPoly] { entropy := [], coins := [true], taken := 0 }).1 = true
      ∧ (policyAccepts tiny tinySig 2 [slotOf [14]] [zeroPoly] { entropy := [], coins := [false], taken := 0 }).1 = false :=
  ⟨by obtain ⟨sig, n, d, h, _⟩ := witness_OnlyFourFormsDraw.2
      exact ⟨sig, n, d, h⟩, by decide +kernel, by decide +kernel, by decide +kernel, by decide +kernel⟩

theorem witness_HintRoundTrip : tinySig.omega ≤ 255 ∧ onesIn [slotOf [1, 0, 1, 1, 0, 1]] ≤ tinySig.omega
    ∧ onesIn [slotOf [1, 0, 1]] = 2 ∧ 2 < tinySig.omega ∧ [slotOf [1, 0, 1, 1, 0, 1]].length = tinySig.sk
    ∧ ([slotOf [1, 0, 1, 1, 0, 1]].all (fun f => decide (f.length = 256) && f.all (fun x => decide (x = 0 ∨ x = 1)))) = true
    ∧ (decodeHint tinySig [0, 2, 255, 0, 3]).isSome = true := by decide +kernel

theorem witness_RoundingAndHints : cfgValid p2 = true ∧ p2.sig = some .reference ∧ (0 : Int) ≤ 8380416 ∧ (8380416 : Int) < p2.q
    ∧ (-95232 : Int).natAbs ≤ SigCfg.reference.gamma2
    ∧ (8380416 : Int) = 44 * (2 * SigCfg.reference.gamma2) + 0 ∧ (95232 : Int) = 0 * (2 * SigCfg.reference.gamma2) + 95232
    ∧ p2.q - 2 + 2 ^ (SigCfg.reference.drop - 1) < 2 ^ logq p2 := ⟨p2_valid, rfl, by decide +kernel⟩

/-- 44_signature.md R224's pseudocode where its derived bound `r1 < 2^T1B` fails: `3328 = 2 * 2^11 - 768` (log 23). -/
theorem test_power2round_top : power2round 11 3328 = (2, -768) ∧ logq p1 - 11 = 1 := by decide +kernel

/-- `holds_zeros` for zeros in two parts. -/
theorem holds_zeros_two (c : Cfg) (n a k l : Nat) (args : List Nat) (h : a + (k + l) ≤ n) :
    HoldsBytes (start c (List.replicate n 0) args) a (List.replicate k 0 ++ List.replicate l 0) := by
  rw [List.replicate_append_replicate]
  exact holds_zeros c n a (k + l) args h

/-- `holds_zeros` for zeros in four parts. -/
theorem holds_zeros_four (c : Cfg) (n a k l m o : Nat) (args : List Nat) (h : a + (k + l + m + o) ≤ n) :
    HoldsBytes (start c (List.replicate n 0) args) a
      (List.replicate k 0 ++ List.replicate l 0 ++ List.replicate m 0 ++ List.replicate o 0) := by
  rw [List.replicate_append_replicate, List.replicate_append_replicate, List.replicate_append_replicate]
  exact holds_zeros c n a (k + l + m + o) args h

theorem witness_KemKeygenResult : Inv (start tiny (List.replicate 1088 0) keyArgs) ∧ tiny.kem = some tinyKem
    ∧ kemPkBytes tinyKem = 64 ∧ kemSkBytes tiny tinyKem = 416
    ∧ HoldsBytes (start tiny (List.replicate 1088 0) keyArgs) 1024 (List.replicate 32 0 ++ List.replicate 32 0)
    ∧ (pkeKeygen tiny tinyKem (List.replicate 32 0)).isSome = true
    ∧ Inv (start tinyShort (List.replicate 1088 0) keyArgs) ∧ pkeKeygen tinyShort tinyKem (List.replicate 32 0) = none :=
  ⟨inv_start _ _ _ tiny_valid (by decide +kernel), rfl, by decide +kernel, by decide +kernel,
    holds_zeros_two tiny 1088 1024 32 32 keyArgs (by decide), by decide +kernel,
    inv_start _ _ _ tinyShort_valid (by decide +kernel), by decide +kernel⟩

/-- Public key at 0, ciphertext to 512, shared secret to 576, randomness at 32. -/
def encapArgs : List Nat := [0, 64, 512, 576, 32]

theorem witness_KemEncapResult : Inv (start tiny (List.replicate 64 0) encapArgs)
    ∧ operand (start tiny (List.replicate 64 0) encapArgs) 1 = kemPkBytes tinyKem ∧ ctBytes tinyKem = 64
    ∧ operand (start tiny (List.replicate 64 0) encapArgs) 2 + ctBytes tinyKem ≤ operand (start tiny (List.replicate 64 0) encapArgs) 3
    ∧ HoldsBytes (start tiny (List.replicate 64 0) encapArgs) 0 (List.replicate 64 0)
    ∧ HoldsBytes (start tiny (List.replicate 64 0) encapArgs) 32 (List.replicate 32 0)
    ∧ (pkeEnc tiny tinyKem (List.replicate 64 0) (List.replicate 32 0) (List.replicate 32 0)).isSome = true
    ∧ pkeEnc tinyShort tinyKem (List.replicate 64 0) (List.replicate 32 0) (List.replicate 32 0) = none :=
  ⟨inv_start _ _ _ tiny_valid (by decide +kernel), by decide +kernel, by decide +kernel, by decide +kernel,
    holds_zeros tiny 64 0 64 encapArgs (by decide), holds_zeros tiny 64 32 32 encapArgs (by decide), by decide +kernel, by decide +kernel⟩

/-- Ciphertext at 0, secret key at 64, shared secret to 0. -/
def decapArgs : List Nat := [0, 64, 64, 416, 0]

theorem witness_KemDecapResult : Inv (start tiny (List.replicate 480 0) decapArgs)
    ∧ operand (start tiny (List.replicate 480 0) decapArgs) 1 = ctBytes tinyKem
    ∧ operand (start tiny (List.replicate 480 0) decapArgs) 3 = kemSkBytes tiny tinyKem ∧ 32 * logq tiny * tinyKem.k = 288
    ∧ HoldsBytes (start tiny (List.replicate 480 0) decapArgs) 0 (List.replicate 64 0)
    ∧ HoldsBytes (start tiny (List.replicate 480 0) decapArgs) 64
        (List.replicate 64 0 ++ List.replicate 288 0 ++ List.replicate 32 0 ++ List.replicate 32 0)
    ∧ (pkeEnc tiny tinyKem (List.replicate 64 0) (pkeDec tiny tinyKem (List.replicate 288 0) (List.replicate 64 0))
        (hashH tiny.hash (pkeDec tiny tinyKem (List.replicate 288 0) (List.replicate 64 0) ++ List.replicate 32 0))).isSome = true
    ∧ pkeEnc tinyShort tinyKem (List.replicate 64 0) (pkeDec tinyShort tinyKem (List.replicate 288 0) (List.replicate 64 0))
        (hashH tinyShort.hash (pkeDec tinyShort tinyKem (List.replicate 288 0) (List.replicate 64 0) ++ List.replicate 32 0)) = none :=
  ⟨inv_start _ _ _ tiny_valid (by decide +kernel), by decide +kernel, by decide +kernel, by decide +kernel,
    holds_zeros tiny 480 0 64 decapArgs (by decide), holds_zeros_four tiny 480 64 64 288 32 32 decapArgs (by decide),
    by decide +kernel, by decide +kernel⟩

theorem witness_ResetMeetsInvariant : cfgValid tiny = true ∧ cfgValid p1 = true ∧ cfgValid p2 = true := ⟨tiny_valid, p1_valid, p2_valid⟩

/-- The smallest illegal mode, and the last byte of buffer memory. -/
theorem witness_ZeroizeResult : 1 < 2 ∧ 2047 < tiny.bmemSize ∧ tiny.bmemSize ≤ 2048 := by decide

theorem witness_StreamBeginningsAgree : 0 ≤ 0 ∧ 135 ≤ 137 := by decide

end Sys2Proof.Tests
end

section
/-! SUPPORT. The host's side of the bus: what `cfgValid` says by name, one host access on the bus, a `CMD` write. -/

namespace Sys2Proof.Machine

/-! ## A legal configuration -/

/-- The constraints of 00_scope.md R8 by name; `cfgValid_iff_legal` ties them to the check of `step`. -/
structure LegalCfg (c : Cfg) : Prop where
  width : c.w = 16 ∨ c.w = 32
  prime : oddPrime c.q = true
  q_mod : c.q % 256 = 1
  q_lt : c.q < 2 ^ (c.w - 2)
  zeta_lt : c.zeta < c.q
  zeta_order : zetaPow c 128 = c.q - 1
  slots : 1 ≤ c.np ∧ c.np ≤ 16
  bmem_aligned : c.bmemSize % 4 = 0
  bmem_le : c.bmemSize ≤ 65536
  chunkWidth : c.cw = logq c
  chunkStride : c.cs = c.cw ∨ c.cs = 8 * ((c.cw + 7) / 8)
  chunkAligned : 24 % c.cs = 0 ∨ c.cs % 8 = 0
  nonceBytes : 1 ≤ c.nonceBytes ∧ c.nonceBytes ≤ 2
  blkA : 1 ≤ c.blkA ∧ c.blkA ≤ 255
  blkB : 1 ≤ c.blkB ∧ c.blkB ≤ 255
  xofBlocks : 1 ≤ c.maxXofBlocks ∧ c.maxXofBlocks ≤ 65535
  signRetries : 1 ≤ c.maxSignRetries ∧ c.maxSignRetries ≤ 65535
  kem : c.kem.all (kemValid c) = true
  sig : c.sig.all (sigValid c) = true

theorem within_iff (lo v hi : Nat) : within lo v hi = true ↔ lo ≤ v ∧ v ≤ hi := by
  simp [within]

theorem cfgValid_iff_legal (c : Cfg) : cfgValid c = true ↔ LegalCfg c := by
  simp only [cfgValid, List.all_cons, List.all_nil, id_eq, Bool.and_eq_true, Bool.or_eq_true, decide_eq_true_eq, within_iff,
    and_true]
  constructor
  · rintro ⟨h1, h2, h3, h4, h5, h6, h7, h8, h9, h10, h11, h12, h13, h14, h15, h16, h17, h18, h19⟩
    exact ⟨h1, h2, h3, h4, h5, h6, h7, h8, h9, h10, h11, h12, h13, h14, h15, h16, h17, h18, h19⟩
  · intro h
    exact ⟨h.width, h.prime, h.q_mod, h.q_lt, h.zeta_lt, h.zeta_order, h.slots, h.bmem_aligned, h.bmem_le, h.chunkWidth,
      h.chunkStride, h.chunkAligned, h.nonceBytes, h.blkA, h.blkB, h.xofBlocks, h.signRetries, h.kem, h.sig⟩

/-- A modulus leaves a word of the bus two bits of headroom. -/
theorem LegalCfg.q_lt_two_pow_thirty {c : Cfg} (h : LegalCfg c) : c.q < 2 ^ 30 :=
  h.q_lt.trans_le (Nat.pow_le_pow_right (by omega) (by have := h.width; omega))

/-! ## One event on the bus -/

theorem step_event {s : State} (hc : cfgValid s.cfg = true) (e : BusEvent) (rest : List BusEvent) :
    step { s with bus := e :: rest } = busEvent e { s with bus := rest } :=
  if_pos hc

/-- The engine's turn that comes when nothing is on the bus runs the command in flight. -/
theorem step_runs_captured {s : State} {i : Instr} (hc : cfgValid s.cfg = true) (hbus : s.bus = [])
    (hbusy : s.status.busy = true) (hd : decode s.latch.word = .ok i) : step s = exec i s := by
  simp only [step, if_pos hc, nextEvent, hbus, coreTurn, if_pos hbusy, runCommand, hd]

/-- A host read of an idle core returns the word at the offset and changes nothing else (20_memory.md R69). -/
theorem step_read_idle {s : State} {off : Nat} {x : Word} {rest : List BusEvent} (hc : cfgValid s.cfg = true)
    (hb : s.status.busy = false) (ha : off % 4 = 0) (hx : hostReadWord { s with bus := rest } off = .ok x) :
    step { s with bus := .read .word off :: rest } = .next { s with bus := rest, busData := x } := by
  rw [step_event hc]
  simp [busEvent, hostRead, aligned, ha, hb, hx]

/-- A host write to an idle core does what the offset's region does with the word. -/
theorem step_write_idle {s t : State} {off : Nat} {v : Word} {rest : List BusEvent} (hc : cfgValid s.cfg = true)
    (hb : s.status.busy = false) (ha : off % 4 = 0) (ht : hostWriteWord { s with bus := rest } off v = t) :
    step { s with bus := .write .word off v :: rest } = .next t := by
  rw [step_event hc]
  simp [busEvent, hostWrite, aligned, ha, hb, ht]

/-! ## `CMD` -/

theorem hostWriteWord_cmd (s : State) (w : Word) : hostWriteWord s 0x044 w = writeCmd s w := rfl

/-- A `CMD` write reaches the register also while the core is busy (20_memory.md R72). -/
theorem step_write_cmd {s t : State} {w : Word} {rest : List BusEvent} (hc : cfgValid s.cfg = true)
    (ht : writeCmd { s with bus := rest } w = t) : step { s with bus := .write .word 0x044 w :: rest } = .next t := by
  rw [step_event hc]
  simp [busEvent, hostWrite, aligned, busyWriteOk, hostWriteWord_cmd, ht]

theorem canAccept_iff (st : Status) : canAccept st = true ↔ st.busy = false ∧ st.err = false ∧ st.halt = false := by
  simp [canAccept, and_assoc]

theorem writeCmd_accepted {s : State} (w : Word) (h : canAccept s.status = true) : writeCmd s w = accept w s := if_pos h

theorem writeCmd_dropped {s : State} (w : Word) (h : ¬ canAccept s.status = true) :
    writeCmd s w = { s with status := { s.status with cmdovr := true } } := if_neg h

/-- Settles O10: a `CMD` write is `writeCmd` in every state, and `canAccept` decides which of its two ends it has. -/
theorem cmdWriteAcceptedOrDropped : Obligations.CmdWriteAcceptedOrDropped := by
  intro s w rest hc
  rw [← canAccept_iff]
  refine ⟨fun h => ⟨?accepted, fun i hi => ?turn⟩, fun h => ?dropped, fun t => rfl, ?raised, ?lowered, fun hb => ?read⟩
  case accepted => exact step_write_cmd hc (writeCmd_accepted w h)
  case turn => exact step_runs_captured hc rfl rfl hi
  case dropped => exact step_write_cmd hc (writeCmd_dropped w h)
  case raised => simp [irq]
  case lowered => simp [irq]
  case read => exact step_read_idle hc hb (by decide) rfl

end Sys2Proof.Machine
end

section
/-! SUPPORT. The PMEM and ZROM windows of the host's offset space (10_state.md R41, R42; 20_memory.md R61). -/

namespace Sys2Proof.Machine

/-! ## The offsets of the windows -/

theorem regionOf_pmem {c : Cfg} (hb : c.bmemSize ≤ 65536) {sl i : Nat} (hsl : sl < 16) (hi : i < 256) :
    regionOf c (0x20000 + 4 * (256 * sl + i)) = .pmem sl i := by
  have h1 : (0x20000 + 4 * (256 * sl + i) - 0x20000) / 4 / 256 = sl := by omega
  have h2 : (0x20000 + 4 * (256 * sl + i) - 0x20000) / 4 % 256 = i := by omega
  rw [regionOf, if_neg (by omega), if_neg (by omega), if_pos (by omega), h1, h2]

theorem regionOf_zrom {c : Cfg} (hb : c.bmemSize ≤ 65536) {z : Nat} (hz : z < 128) :
    regionOf c (0x30000 + 4 * z) = .zromEntry z := by
  have h1 : (0x30000 + 4 * z - 0x30000) / 4 = z := by omega
  rw [regionOf, if_neg (by omega), if_neg (by omega), if_neg (by omega), if_pos (by omega), h1]

/-! ## Coefficients -/

/-- A value of at most 32 bits survives the trip over the bus. -/
theorem toInt_ofInt_of_fits {w : Nat} {x : Int} (hw : w ≤ 32) (hx : CoeffFits w x) : (BitVec.ofInt 32 x).toInt = x := by
  have h : (2 : Int) ^ (w - 1) ≤ 2 ^ 31 := pow_le_pow_right₀ (by omega) (by omega)
  obtain ⟨h1, h2⟩ := hx
  rw [BitVec.toInt_ofInt]
  exact Int.bmod_eq_of_le (by omega) (by omega)

theorem coeff_fits {s : State} (h : SlotsFit s) (k i : Nat) : CoeffFits s.cfg.w (coeff s k i) := by
  obtain ⟨_, hf⟩ := getSlot_fits h k
  unfold coeff
  by_cases hi : i < (getSlot s k).length
  · rw [List.getD_eq_getElem _ _ hi]
    exact hf _ (List.getElem_mem hi)
  · rw [List.getD_eq_default _ _ (by omega)]
    simp [CoeffFits]

theorem coeff_eq_zero_of_slot_le {s : State} {k : Nat} (hk : s.p.length ≤ k) (i : Nat) : coeff s k i = 0 := by
  rw [coeff, getSlot, List.getD_eq_default _ _ hk, zeroPoly, List.getD_eq_getElem?_getD,
    List.getElem?_getD_replicate_default_eq]

theorem getSlot_writeCoeff_same {s : State} {sl : Nat} (hsl : sl < s.p.length) (i : Nat) (v : Word) :
    getSlot (writeCoeff s sl i v) sl = (getSlot s sl).set i (wrap s.cfg.w v.toInt) := by
  simp [getSlot, hsl]

theorem getSlot_writeCoeff_other {s : State} {sl k : Nat} (h : k ≠ sl ∨ s.p.length ≤ sl) (i : Nat) (v : Word) :
    getSlot (writeCoeff s sl i v) k = getSlot s k := by
  simp only [getSlot, writeCoeff_p, List.getD_eq_getElem?_getD]
  rcases h with h | h
  · rw [List.getElem?_modify_ne _ _ (Ne.symm h)]
  · rw [List.modify_eq_self h]

/-- A write through the window changes the coefficient it names and no other; a slot that is not there ignores it. -/
theorem coeff_writeCoeff {s : State} (hs : SlotsFit s) {sl i : Nat} (hi : i < 256) (v : Word) (k j : Nat) :
    coeff (writeCoeff s sl i v) k j = if k = sl ∧ j = i ∧ sl < s.cfg.np then wrap s.cfg.w v.toInt else coeff s k j := by
  have hlen : s.p.length = s.cfg.np := hs.1
  by_cases h : k = sl ∧ sl < s.cfg.np
  · obtain ⟨rfl, hk⟩ := h
    have hi' : i < (getSlot s k).length := by rw [getSlot_length hs]; exact hi
    rw [coeff, getSlot_writeCoeff_same (by omega)]
    by_cases hj : j = i
    · subst hj
      simp [hk, hi']
    · simp [hj, coeff, List.getD_eq_getElem?_getD, List.getElem?_set_ne (Ne.symm hj)]
  · rw [coeff, getSlot_writeCoeff_other (by omega), if_neg (by tauto), coeff]

/-! ## Twiddles -/

theorem cmod_bounds {a : Int} {q : Nat} (hq : 0 < q) : -(q : Int) < 2 * cmod a q ∧ 2 * cmod a q ≤ q := by
  have h1 := Int.emod_nonneg a (b := q) (by omega)
  have h2 := Int.emod_lt_of_pos a (b := q) (by omega)
  unfold cmod
  split <;> omega

theorem cmod_emod (a : Int) (q : Nat) : cmod a q % q = a % q := by
  unfold cmod
  split <;> simp

/-- A twiddle is congruent to `ZETA^brv7(z) * R` (41_transform.md R151). -/
theorem zromEntry_modEq (c : Cfg) (z : Nat) : zromEntry c z ≡ c.zeta ^ brv7 z * 2 ^ c.w [ZMOD c.q] :=
  calc zromEntry c z ≡ zetaPow c (brv7 z) * radix c [ZMOD c.q] := cmod_emod _ _
    _ ≡ c.zeta ^ brv7 z * 2 ^ c.w [ZMOD c.q] := by
      rw [zetaPow, radix]
      push_cast
      exact Int.ModEq.mul_right _ (Int.mod_modEq _ _)

theorem zrom_getD {c : Cfg} {z : Nat} (hz : z < 128) : (zrom c).getD z 0 = zromEntry c z := by
  simp [zrom, hz]

/-! ## The windows over the bus -/

theorem hostReadWord_pmem {s : State} (hc : LegalCfg s.cfg) {sl i : Nat} (hsl : sl < 16) (hi : i < 256) :
    hostReadWord s (0x20000 + 4 * (256 * sl + i)) = .ok (BitVec.ofInt 32 (coeff s sl i)) := by
  rw [hostReadWord, regionOf_pmem hc.bmem_le hsl hi, coeff]

theorem hostWriteWord_pmem {s : State} (hc : LegalCfg s.cfg) {sl i : Nat} (hsl : sl < 16) (hi : i < 256) (v : Word) :
    hostWriteWord s (0x20000 + 4 * (256 * sl + i)) v = writeCoeff s sl i v := by
  rw [hostWriteWord, regionOf_pmem hc.bmem_le hsl hi]

theorem hostReadWord_zrom {s : State} (hc : LegalCfg s.cfg) {z : Nat} (hz : z < 128) :
    hostReadWord s (0x30000 + 4 * z) = .ok (BitVec.ofInt 32 (zromEntry s.cfg z)) := by
  rw [hostReadWord, regionOf_zrom hc.bmem_le hz]
  simp only [zrom_getD hz]

theorem hostWriteWord_zrom {s : State} (hc : LegalCfg s.cfg) {z : Nat} (hz : z < 128) (v : Word) :
    hostWriteWord s (0x30000 + 4 * z) v = s := by
  rw [hostWriteWord, regionOf_zrom hc.bmem_le hz]

/-- A twiddle read over the bus: the sign-extended centred residue, strictly inside `Q / 2` since `Q` is odd. -/
theorem toInt_zromEntry {c : Cfg} (hc : LegalCfg c) (z : Nat) :
    (BitVec.ofInt 32 (zromEntry c z)).toInt = zromEntry c z
      ∧ -(c.q : Int) < 2 * zromEntry c z ∧ 2 * zromEntry c z < c.q := by
  have hlt := hc.q_lt_two_pow_thirty
  have hmod := hc.q_mod
  obtain ⟨h1, h2⟩ := cmod_bounds (a := zetaPow c (brv7 z) * radix c) (q := c.q) (by omega)
  rw [← zromEntry] at h1 h2
  refine ⟨toInt_ofInt_of_fits le_rfl ⟨by omega, by omega⟩, h1, by omega⟩

/-- Settles O14: each offset names its window's entry, and the entry fits the 32-bit word that carries it. -/
theorem polynomialAndTwiddleWindows : Obligations.PolynomialAndTwiddleWindows := by
  intro s sl i z v rest ⟨hc, hs, _⟩ hb hsl hi hz
  have hl := (cfgValid_iff_legal s.cfg).1 hc
  obtain ⟨hz1, hz2, hz3⟩ := toInt_zromEntry hl z
  refine ⟨⟨_, step_read_idle hc hb (by omega) (hostReadWord_pmem (s := { s with bus := rest }) hl hsl hi), ?_⟩,
    ⟨_, step_write_idle hc hb (by omega) (hostWriteWord_pmem (s := { s with bus := rest }) hl hsl hi v), rfl, by simp,
      coeff_writeCoeff (s := { s with bus := rest }) hs hi v⟩,
    ⟨_, step_read_idle hc hb (by omega) (hostReadWord_zrom (s := { s with bus := rest }) hl hz), ?_⟩,
    step_write_idle hc hb (by omega) (hostWriteWord_zrom (s := { s with bus := rest }) hl hz v)⟩
  · have hw : s.cfg.w ≤ 32 := by have := hl.width; omega
    have hx : (BitVec.ofInt 32 (coeff s sl i)).toInt = coeff s sl i := toInt_ofInt_of_fits hw (coeff_fits hs sl i)
    split
    · exact hx
    · have hlen : s.p.length = s.cfg.np := hs.1
      exact hx.trans (coeff_eq_zero_of_slot_le (by omega) i)
  · rw [hz1]
    exact ⟨Int.emod_eq_emod_iff_emod_sub_eq_zero.1 (zromEntry_modEq s.cfg z), hz2, hz3⟩

end Sys2Proof.Machine
end

section
/-! SUPPORT. The decoder against the opcode table, and the turn that follows the capture of a command word (30_encoding.md
R92, R96 to R98). -/

namespace Sys2Proof.Machine

/-! ## The opcode table -/

/-- The opcode tells the row (30_encoding.md R97). -/
theorem opcodeRows_opcode_nodup : (opcodeRows.map fun row => row.2.toNat).Nodup := by decide

theorem row_eq_of_opcode_eq {row row' : Word × Word} (hr : row ∈ opcodeRows) (hr' : row' ∈ opcodeRows)
    (h : row.2.toNat = row'.2.toNat) : row = row' :=
  List.inj_on_of_nodup_map opcodeRows_opcode_nodup hr hr' h

theorem rowOf_mem_opcodeRows (i : Instr) : rowOf i ∈ opcodeRows := by
  cases i <;> simp [rowOf, opcodeRows]

/-- Every row fixes bits 7:0, and its match has nothing else set (30_encoding.md R92). -/
theorem opcodeRows_fix_opcode : ∀ row ∈ opcodeRows, row.1 &&& 0xFF#32 = 0xFF#32 ∧ row.2 &&& 0xFF#32 = row.2 := by
  simp [opcodeRows]

theorem toNat_and_opcode_mask (w : Word) : (w &&& 0xFF#32).toNat = fieldOpc w := by
  rw [BitVec.toNat_and, fieldOpc]
  exact Nat.and_two_pow_sub_one_eq_mod w.toNat 8

theorem fieldOpc_of_matches_row {w : Word} {row : Word × Word} (hr : row ∈ opcodeRows) (h : w &&& row.1 = row.2) :
    fieldOpc w = row.2.toNat := by
  obtain ⟨hmask, hmatch⟩ := opcodeRows_fix_opcode row hr
  rw [← toNat_and_opcode_mask, ← hmask, ← BitVec.and_assoc, h, hmatch]

/-! ## The decoder -/

theorem inFormat_eq_of_row {f : Format} {w : Word} {i : Instr} (ho : fieldOpc w = (rowOf i).2.toNat)
    (hf : f.mask = (rowOf i).1) :
    inFormat f w i = if w &&& (rowOf i).1 = (rowOf i).2 then .ok i else .error .nonzeroUnusedField := by
  rw [inFormat, hf, ho, BitVec.ofNat_toNat, BitVec.setWidth_eq]

/-- All the decoder can do: the opcode tells a command, which the word stands for when it matches the command's row; or no
row has the opcode. -/
theorem decode_cases (w : Word) :
    (∃ i, fieldOpc w = (rowOf i).2.toNat
        ∧ decode w = if w &&& (rowOf i).1 = (rowOf i).2 then .ok i else .error .nonzeroUnusedField)
      ∨ (∀ row ∈ opcodeRows, fieldOpc w ≠ row.2.toNat) ∧ decode w = .error .unknownOpcode := by
  unfold decode
  split
  case h_31 => exact .inr ⟨by simp_all [opcodeRows], rfl⟩
  all_goals exact .inl ⟨_, ‹fieldOpc w = _›, inFormat_eq_of_row ‹_› rfl⟩

theorem matches_row_of_decode_ok {w : Word} {i : Instr} (h : decode w = .ok i) : w &&& (rowOf i).1 = (rowOf i).2 := by
  obtain ⟨j, -, hd⟩ | ⟨-, hd⟩ := decode_cases w
  · rw [hd] at h
    split at h
    case isTrue hm =>
      cases h
      exact hm
    case isFalse => cases h
  · rw [hd] at h
    cases h

theorem decode_ok_of_matches_row {w : Word} {row : Word × Word} (hr : row ∈ opcodeRows) (h : w &&& row.1 = row.2) :
    ∃ i, decode w = .ok i := by
  have ho := fieldOpc_of_matches_row hr h
  obtain ⟨i, hi, hd⟩ | ⟨hno, -⟩ := decode_cases w
  · obtain rfl : row = rowOf i := row_eq_of_opcode_eq hr (rowOf_mem_opcodeRows i) (ho.symm.trans hi)
    exact ⟨i, hd.trans (if_pos h)⟩
  · exact absurd ho (hno row hr)

theorem matches_row_iff_decode_ok (w : Word) :
    (∃ row ∈ opcodeRows, w &&& row.1 = row.2) ↔ ∃ i, decode w = .ok i :=
  ⟨fun ⟨_, hr, h⟩ => decode_ok_of_matches_row hr h,
    fun ⟨i, h⟩ => ⟨rowOf i, rowOf_mem_opcodeRows i, matches_row_of_decode_ok h⟩⟩

/-! ## The turn after the capture -/

theorem withFetchWord_eq (s : State) (w : Word) :
    s.withFetchWord 32 w.toNat = { accept w s with bus := .core :: s.bus } := by
  have hw : BitVec.ofNat 32 (w.toNat % 2 ^ 32) = w := by
    rw [Nat.mod_eq_of_lt w.isLt, BitVec.ofNat_toNat, BitVec.setWidth_eq]
  rw [State.withFetchWord, hw]
  rfl

/-- The step after a word's capture is the engine's turn on the state its acceptance leaves (30_encoding.md R96). -/
theorem step_withFetchWord {s : State} (hc : cfgValid s.cfg = true) (w : Word) :
    step (s.withFetchWord 32 w.toNat) = runCommand (accept w s) := by
  rw [withFetchWord_eq]
  exact step_event (s := accept w s) hc .core s.bus

theorem runCommand_of_decode_error {s : State} {e : DecodeError} (h : decode s.latch.word = .error e) :
    runCommand s = .next { s with status := erred .illegalCmd s.status } := by
  rw [runCommand, h]
  exact raised_eq .illegalCmd s

/-- Settles O4: the decoder rejects just the words that match no row, and the turn of a rejected word raises the error. -/
theorem illegalWordsEndWithError : Obligations.IllegalWordsEndWithError := by
  intro w s hc
  refine ⟨matches_row_iff_decode_ok w, fun hno => ?_⟩
  rw [step_withFetchWord hc]
  rw [matches_row_iff_decode_ok] at hno
  cases hd : decode w with
  | ok i => exact absurd ⟨i, hd⟩ hno
  | error e => exact runCommand_of_decode_error (s := accept w s) hd

end Sys2Proof.Machine
end

section
/-! SUPPORT. The reduction functions: `QINV`, what `montgomery_reduce` answers and when it does not wrap (40_reducer.md R121
to R123, R133). -/

namespace Sys2Proof.Machine

/-! ## The modulus and `R` -/

theorem LegalCfg.w_pos {c : Cfg} (h : LegalCfg c) : 0 < c.w := by
  have := h.width
  omega

theorem LegalCfg.q_pos {c : Cfg} (h : LegalCfg c) : (0 : Int) < c.q := by
  have := h.q_mod
  omega

theorem two_pow_two_mul_sub_one {w : Nat} (hw : 0 < w) : (2 : Int) ^ (2 * w - 1) = 2 * 2 ^ (w - 1) * 2 ^ (w - 1) := by
  rw [mul_pow_sub_one (by omega), ← pow_add]
  congr 1
  omega

theorem two_pow_eq_two_mul {w : Nat} (hw : 0 < w) : (2 : Int) ^ w = 2 * 2 ^ (w - 1) :=
  (mul_pow_sub_one (by omega) 2).symm

/-- `Q` fits a coefficient, whose bound `2^(W-1)` is half of `R`. -/
theorem LegalCfg.q_lt_half {c : Cfg} (h : LegalCfg c) : (c.q : Int) < 2 ^ (c.w - 1) := by
  exact_mod_cast h.q_lt.trans_le (Nat.pow_le_pow_right (by omega) (by omega))

theorem LegalCfg.q_mul_half_lt {c : Cfg} (h : LegalCfg c) : (c.q : Int) * 2 ^ (c.w - 1) < 2 ^ (c.w - 1) * 2 ^ (c.w - 1) :=
  mul_lt_mul_of_pos_right h.q_lt_half (by positivity)

theorem abs_le_of_fits {w : Nat} {x : Int} (h : CoeffFits w x) : |x| ≤ 2 ^ (w - 1) := by
  obtain ⟨h1, h2⟩ := h
  exact abs_le.2 ⟨h1, h2.le⟩

theorem LegalCfg.abs_wrap_le {c : Cfg} (h : LegalCfg c) (v : Int) : |wrap c.w v| ≤ 2 ^ (c.w - 1) :=
  abs_le_of_fits (wrap_fits h.w_pos v)

theorem fits_of_abs_lt {w : Nat} {x : Int} (h : |x| < 2 ^ (w - 1)) : CoeffFits w x := by
  obtain ⟨h1, h2⟩ := abs_lt.1 h
  exact ⟨h1.le, h2⟩

/-- `Q` is odd, so a factor `R` cancels modulo `Q`. -/
theorem LegalCfg.modEq_of_mul_radix {c : Cfg} (h : LegalCfg c) {a b : Int} (hab : a * 2 ^ c.w ≡ b * 2 ^ c.w [ZMOD c.q]) :
    a ≡ b [ZMOD c.q] := by
  have hodd : Nat.Coprime c.q 2 := Nat.coprime_two_right.2 (Nat.odd_iff.2 (by have := h.q_mod; omega))
  have hco : IsCoprime (c.q : Int) (2 ^ c.w) := (Nat.isCoprime_iff_coprime.2 hodd).pow_right
  refine Int.modEq_iff_dvd.2 (hco.dvd_of_dvd_mul_right ?_)
  rw [sub_mul]
  exact hab.dvd

theorem montR2_eq (c : Cfg) : montR2 c = (2 ^ (2 * c.w) % c.q : Nat) := by
  rw [montR2, radix, ← Nat.pow_add, two_mul]

theorem montR2_modEq (c : Cfg) : montR2 c ≡ 2 ^ c.w * 2 ^ c.w [ZMOD c.q] := by
  rw [montR2, radix]
  push_cast
  exact Int.mod_modEq _ _

theorem LegalCfg.abs_montR2_lt {c : Cfg} (h : LegalCfg c) : |montR2 c| < c.q := by
  have hpos := h.q_pos
  rw [montR2, Nat.abs_cast]
  exact_mod_cast Nat.mod_lt _ (by omega)

/-! ## `QINV` -/

/-- A Newton step doubles the number of correct bits: with `q * x = 1 + e` the new product is `1 - e^2` (00_scope.md R8). -/
theorem inverseStep_modEq {q k j w : Nat} {x : Int} (h : q * x ≡ 1 [ZMOD 2 ^ k]) (hj : j ≤ 2 * k) (hw : j ≤ w) :
    q * inverseStep q w x ≡ 1 [ZMOD 2 ^ j] := by
  have herr : (2 : Int) ^ j ∣ (1 - q * x) ^ 2 := by
    refine (pow_dvd_pow 2 hj).trans ?_
    rw [mul_comm 2 k, pow_mul]
    exact pow_dvd_pow_of_dvd h.dvd 2
  have hstep : inverseStep q w x ≡ x * (2 - q * x) [ZMOD 2 ^ j] := by
    rw [inverseStep, Nat.cast_pow]
    exact (Int.mod_modEq _ _).of_dvd (pow_dvd_pow 2 hw)
  calc q * inverseStep q w x ≡ q * (x * (2 - q * x)) [ZMOD 2 ^ j] := hstep.mul_left _
    _ ≡ 1 [ZMOD 2 ^ j] := Int.modEq_iff_dvd.2 (by convert herr using 1; ring)

/-- `QINV * Q = 1 (mod R)`: `Q` is its own inverse modulo `2^8`, two Newton steps reach `2^W`, and the other two stay there. -/
theorem LegalCfg.qinv_mul_q {c : Cfg} (h : LegalCfg c) : qinv c * c.q ≡ 1 [ZMOD (2 ^ c.w : Nat)] := by
  have hw := h.width
  have h1 : (c.q : Int) ≡ 1 [ZMOD 2 ^ 8] := by exact_mod_cast (show c.q ≡ 1 [MOD 2 ^ 8] from h.q_mod)
  have h8 : (c.q : Int) * c.q ≡ 1 [ZMOD 2 ^ 8] := h1.mul h1
  have h16 := inverseStep_modEq (w := c.w) (j := min 16 c.w) h8 (by omega) (by omega)
  have h32 := inverseStep_modEq (w := c.w) (j := c.w) h16 (by omega) le_rfl
  have h64 := inverseStep_modEq (w := c.w) (j := c.w) h32 (by omega) le_rfl
  rw [mul_comm, Nat.cast_pow]
  exact inverseStep_modEq h64 (by omega) le_rfl

/-! ## `montgomery_reduce` -/

/-- `R` divides what `montgomery_reduce` divides by `R`. -/
theorem LegalCfg.radix_dvd_sub {c : Cfg} (h : LegalCfg c) (a : Int) :
    ((2 ^ c.w : Nat) : Int) ∣ a - wrap c.w (a * qinv c) * c.q := by
  refine Int.ModEq.dvd ?_
  calc wrap c.w (a * qinv c) * c.q ≡ a * qinv c * c.q [ZMOD (2 ^ c.w : Nat)] := Int.ModEq.mul_right _ (wrap_emod _ _)
    _ = a * (qinv c * c.q) := mul_assoc _ _ _
    _ ≡ a * 1 [ZMOD (2 ^ c.w : Nat)] := h.qinv_mul_q.mul_left a
    _ = a := mul_one a

/-- `montgomeryReduce` does what the pseudocode of 40_reducer.md R121 says. -/
theorem LegalCfg.isMontgomery_montgomeryReduce {c : Cfg} (h : LegalCfg c) (a : Int) :
    IsMontgomery c a (montgomeryReduce c a) := by
  refine ⟨qinv c, (a - wrap c.w (a * qinv c) * c.q) / (2 ^ c.w : Nat), ?inverse, Int.ediv_mul_cancel (h.radix_dvd_sub a), rfl⟩
  case inverse =>
    have hw : 1 < 2 ^ c.w := Nat.one_lt_two_pow h.w_pos.ne'
    rw [h.qinv_mul_q]
    exact Int.emod_eq_of_lt (by omega) (by omega)

/-- How far the quotient `u` of `montgomery_reduce` can be from 0, with `h` for `2^(W-1)` (40_reducer.md R121, R133). -/
theorem abs_lt_of_mul_eq_sub {a t u q h b : Int} (hu : u * (2 * h) = a - t * q) (hh : 0 < h) (hq : 0 < q) (ht : |t| ≤ h)
    (ha : |a| + q * h < 2 * b * h) : |u| < b := by
  have key : |u| * (2 * h) < b * (2 * h) :=
    calc |u| * (2 * h) = |u * (2 * h)| := by rw [abs_mul, abs_of_pos (by omega : 0 < 2 * h)]
      _ = |a - t * q| := by rw [hu]
      _ ≤ |a| + |t * q| := abs_sub _ _
      _ = |a| + |t| * q := by rw [abs_mul, abs_of_pos hq]
      _ ≤ |a| + h * q := by gcongr
      _ < b * (2 * h) := by linarith
  exact lt_of_mul_lt_mul_right key (by omega)

/-- An argument that leaves `u` below `2^(W-1)` (40_reducer.md R133): the last `wrap_W` does nothing. -/
theorem LegalCfg.montgomeryReduce_mul_radix {c : Cfg} (h : LegalCfg c) {a : Int}
    (ha : |a| + c.q * 2 ^ (c.w - 1) < 2 ^ (2 * c.w - 1)) :
    montgomeryReduce c a * 2 ^ c.w = a - wrap c.w (a * qinv c) * c.q := by
  obtain ⟨u, hu⟩ := h.radix_dvd_sub a
  have hr : montgomeryReduce c a = wrap c.w u := by
    rw [montgomeryReduce, hu, Int.mul_ediv_cancel_left _ (by positivity)]
  have hu' : u * 2 ^ c.w = a - wrap c.w (a * qinv c) * c.q := by rw [hu, mul_comm, Nat.cast_pow, Nat.cast_two]
  have hlt : |u| < 2 ^ (c.w - 1) :=
    abs_lt_of_mul_eq_sub (two_pow_eq_two_mul h.w_pos ▸ hu') (by positivity) h.q_pos (h.abs_wrap_le _)
      (two_pow_two_mul_sub_one h.w_pos ▸ ha)
  rw [hr, wrap_of_fits h.w_pos (fits_of_abs_lt hlt), hu']

/-- Without a wrap `montgomery_reduce(a)` is congruent to `a * R^(-1)` (40_reducer.md R121). -/
theorem LegalCfg.montgomeryReduce_modEq {c : Cfg} (h : LegalCfg c) {a : Int}
    (ha : |a| + c.q * 2 ^ (c.w - 1) < 2 ^ (2 * c.w - 1)) :
    montgomeryReduce c a * 2 ^ c.w ≡ a [ZMOD c.q] := by
  rw [h.montgomeryReduce_mul_radix ha]
  exact Int.modEq_iff_dvd.2 ⟨wrap c.w (a * qinv c), by ring⟩

/-- An argument below `Q * 2^(W-1)` meets the bound under which nothing wraps. -/
theorem LegalCfg.abs_add_lt_of_abs_lt_q_mul {c : Cfg} (h : LegalCfg c) {a : Int} (ha : |a| < c.q * 2 ^ (c.w - 1)) :
    |a| + c.q * 2 ^ (c.w - 1) < 2 ^ (2 * c.w - 1) := by
  rw [two_pow_two_mul_sub_one h.w_pos]
  linarith [h.q_mul_half_lt]

/-- `montgomery_reduce` answers a value in `(-Q, Q)` on arguments below `Q * 2^(W-1)` (40_reducer.md R121). -/
theorem LegalCfg.abs_montgomeryReduce_lt {c : Cfg} (h : LegalCfg c) {a : Int} (ha : |a| < c.q * 2 ^ (c.w - 1)) :
    |montgomeryReduce c a| < c.q := by
  have hr := h.montgomeryReduce_mul_radix (h.abs_add_lt_of_abs_lt_q_mul ha)
  exact abs_lt_of_mul_eq_sub (two_pow_eq_two_mul h.w_pos ▸ hr) (by positivity) h.q_pos (h.abs_wrap_le _) (by linarith)

/-! ## `fqmul` -/

/-- `fqmul` of two `W`-bit values never wraps (40_reducer.md R123). -/
theorem LegalCfg.fqmul_modEq {c : Cfg} (h : LegalCfg c) {a b : Int} (ha : |a| ≤ 2 ^ (c.w - 1)) (hb : |b| ≤ 2 ^ (c.w - 1)) :
    fqmul c a b * 2 ^ c.w ≡ a * b [ZMOD c.q] := by
  refine h.montgomeryReduce_modEq ?_
  have hab : |a * b| ≤ 2 ^ (c.w - 1) * 2 ^ (c.w - 1) := by
    rw [abs_mul]
    gcongr
  rw [two_pow_two_mul_sub_one h.w_pos]
  linarith [h.q_mul_half_lt]

/-- `fqmul` of a `W`-bit value and a residue lies in `(-Q, Q)` (40_reducer.md R123). -/
theorem LegalCfg.abs_fqmul_lt {c : Cfg} (h : LegalCfg c) {a b : Int} (ha : |a| ≤ 2 ^ (c.w - 1)) (hb : |b| < c.q) :
    |fqmul c a b| < c.q := by
  refine h.abs_montgomeryReduce_lt ?_
  calc |a * b| = |a| * |b| := abs_mul _ _
    _ ≤ 2 ^ (c.w - 1) * |b| := by gcongr
    _ < 2 ^ (c.w - 1) * c.q := by gcongr
    _ = c.q * 2 ^ (c.w - 1) := mul_comm _ _

/-- `fqmul(x, R^2 mod Q)` is congruent to `x * R` (40_reducer.md R130). -/
theorem LegalCfg.fqmul_montR2_modEq {c : Cfg} (h : LegalCfg c) {x : Int} (hx : |x| ≤ 2 ^ (c.w - 1)) :
    fqmul c x (montR2 c) ≡ x * 2 ^ c.w [ZMOD c.q] := by
  refine h.modEq_of_mul_radix ?_
  calc fqmul c x (montR2 c) * 2 ^ c.w ≡ x * montR2 c [ZMOD c.q] := h.fqmul_modEq hx (h.abs_montR2_lt.trans h.q_lt_half).le
    _ ≡ x * (2 ^ c.w * 2 ^ c.w) [ZMOD c.q] := (montR2_modEq c).mul_left x
    _ = x * 2 ^ c.w * 2 ^ c.w := (mul_assoc _ _ _).symm

end Sys2Proof.Machine
end

section
/-! SUPPORT. The commands of 40_reducer.md: the scalar reducers and the coefficient-wise commands. -/

namespace Sys2Proof.Machine

/-! ## Scalar commands -/

theorem exec_bred (sd sa : Nat) (s : State) :
    exec (.bred sd sa) s =
      if sd < 4 ∧ sa < 4 then finish (setScalar s sd (barrettReduce s.cfg (wrap s.cfg.w (getScalar s sa))))
      else raised .illegalCmd s := by
  change execBred sd sa s = _
  by_cases h1 : sd < 4 <;> by_cases h2 : sa < 4 <;> simp [execBred, scalarOk, h1, h2]

theorem exec_fqmul (sd sa sb : Nat) (s : State) :
    exec (.fqmul sd sa sb) s =
      if sd < 4 ∧ sa < 4 ∧ sb < 4 then
        finish (setScalar s sd (fqmul s.cfg (wrap s.cfg.w (getScalar s sa)) (wrap s.cfg.w (getScalar s sb))))
      else raised .illegalCmd s := by
  change execFqmul sd sa sb s = _
  by_cases h1 : sd < 4 <;> by_cases h2 : sa < 4 <;> by_cases h3 : sb < 4 <;> simp [execFqmul, scalarOk, h1, h2, h3]

/-- Settles O28: the product of two `W`-bit values is small enough for `montgomery_reduce` not to wrap. -/
theorem fqmulResult : Obligations.FqmulResult := by
  intro s sd sa sb hc
  have hl := (cfgValid_iff_legal s.cfg).1 hc
  refine ⟨fun h1 h2 h3 => ⟨_, (exec_fqmul sd sa sb s).trans (if_pos ⟨h1, h2, h3⟩), hl.isMontgomery_montgomeryReduce _,
      ?congr⟩,
    fun h => (exec_fqmul sd sa sb s).trans (if_neg h)⟩
  case congr =>
    exact Int.emod_eq_emod_iff_emod_sub_eq_zero.1 (hl.fqmul_modEq (hl.abs_wrap_le _) (hl.abs_wrap_le _))

/-- Settles O27: `barrett_reduce` is the remainder of division by `Q`. -/
theorem bredResult : Obligations.BredResult := by
  intro s sd sa hc
  have hq := ((cfgValid_iff_legal s.cfg).1 hc).q_pos
  exact ⟨fun h1 h2 => ⟨(exec_bred sd sa s).trans (if_pos ⟨h1, h2⟩), Int.emod_nonneg _ hq.ne', Int.emod_lt_of_pos _ hq⟩,
    fun h => (exec_bred sd sa s).trans (if_neg h)⟩

/-! ## Coefficient-wise commands -/

theorem slotUnary_legal (f : Poly → Poly) {pd pa : Nat} {s : State} (hd : pd < s.cfg.np) (ha : pa < s.cfg.np) :
    slotUnary f pd pa s
      = .next { s with p := s.p.set pd (fitPoly s.cfg.w (f (getSlot s pa))), status := completed s.status } := by
  obtain ⟨-, -, h⟩ | ⟨hn, -⟩ := slotUnary_cases f pd pa s
  · exact h
  · exact absurd ⟨hd, ha⟩ hn

theorem slotUnary_illegal (f : Poly → Poly) {pd pa : Nat} {s : State} (hn : ¬ (pd < s.cfg.np ∧ pa < s.cfg.np)) :
    slotUnary f pd pa s = .next { s with status := erred .illegalCmd s.status } := by
  obtain ⟨hd, ha, -⟩ | ⟨-, h⟩ := slotUnary_cases f pd pa s
  · exact absurd ⟨hd, ha⟩ hn
  · exact h

theorem slotBinary_legal (f : Poly → Poly → Poly) {pd pa pb : Nat} {s : State} (hd : pd < s.cfg.np) (ha : pa < s.cfg.np)
    (hb : pb < s.cfg.np) :
    slotBinary f pd pa pb s
      = .next { s with p := s.p.set pd (fitPoly s.cfg.w (f (getSlot s pa) (getSlot s pb))), status := completed s.status } := by
  obtain ⟨-, -, -, h⟩ | ⟨hn, -⟩ := slotBinary_cases f pd pa pb s
  · exact h
  · exact absurd ⟨hd, ha, hb⟩ hn

theorem slotBinary_illegal (f : Poly → Poly → Poly) {pd pa pb : Nat} {s : State}
    (hn : ¬ (pd < s.cfg.np ∧ pa < s.cfg.np ∧ pb < s.cfg.np)) :
    slotBinary f pd pa pb s = .next { s with status := erred .illegalCmd s.status } := by
  obtain ⟨hd, ha, hb, -⟩ | ⟨-, h⟩ := slotBinary_cases f pd pa pb s
  · exact absurd ⟨hd, ha, hb⟩ hn
  · exact h

theorem getD_fitPoly_map {s : State} (hs : SlotsFit s) (g : Int → Int) (k : Nat) {i : Nat} (hi : i < 256) :
    (fitPoly s.cfg.w ((getSlot s k).map g)).getD i 0 = wrap s.cfg.w (g (coeff s k i)) := by
  have hk := getSlot_length hs k
  rw [fitPoly_of_length _ (by simpa using hk)]
  simp [coeff, hk, hi]

theorem getD_fitPoly_zipWith {s : State} (hs : SlotsFit s) (g : Int → Int → Int) (j k : Nat) {i : Nat} (hi : i < 256) :
    (fitPoly s.cfg.w (List.zipWith g (getSlot s j) (getSlot s k))).getD i 0 = wrap s.cfg.w (g (coeff s j i) (coeff s k i)) := by
  have hj := getSlot_length hs j
  have hk := getSlot_length hs k
  rw [fitPoly_of_length _ (by simp [hj, hk])]
  simp [coeff, hj, hk, hi]

/-- A result in `(-Q, Q)` is stored as it is. -/
theorem LegalCfg.wrap_of_abs_lt_q {c : Cfg} (h : LegalCfg c) {x : Int} (hx : |x| < c.q) : wrap c.w x = x :=
  wrap_of_fits h.w_pos (fits_of_abs_lt (hx.trans h.q_lt_half))

theorem LegalCfg.abs_barrettReduce_lt {c : Cfg} (h : LegalCfg c) (x : Int) : |barrettReduce c x| < c.q := by
  rw [barrettReduce, abs_of_nonneg (Int.emod_nonneg _ h.q_pos.ne')]
  exact Int.emod_lt_of_pos _ h.q_pos

/-- Settles O31: every product with `R^2 mod Q` stays below the bound of `montgomery_reduce`, and one factor `R` cancels. -/
theorem ptomontResult : Obligations.PtomontResult := by
  intro s pd pa ⟨hc, hs, _⟩
  have hl := (cfgValid_iff_legal s.cfg).1 hc
  refine ⟨fun hd ha => ⟨_, slotUnary_legal _ hd ha, fitPoly_length _ _, fun i hi => ?_⟩, slotUnary_illegal _⟩
  have hx := abs_le_of_fits (coeff_fits hs pa i)
  have hlt := hl.abs_fqmul_lt hx hl.abs_montR2_lt
  rw [getD_fitPoly_map hs _ pa hi, hl.wrap_of_abs_lt_q hlt, ← montR2_eq]
  exact ⟨hl.isMontgomery_montgomeryReduce _, Int.emod_eq_emod_iff_emod_sub_eq_zero.1 (hl.fqmul_montR2_modEq hx),
    by zify; exact hlt⟩

/-- Settles O29: the slot write wraps each sum and each difference. -/
theorem addSubResult : Obligations.AddSubResult := by
  intro s pd pa pb hs
  refine ⟨fun hd ha hb => ⟨⟨_, slotBinary_legal polyAdd hd ha hb, fitPoly_length _ _, fun i hi => ?sum⟩,
      ⟨_, slotBinary_legal polySub hd ha hb, fitPoly_length _ _, fun i hi => ?difference⟩⟩,
    fun hn => ⟨slotBinary_illegal polyAdd hn, slotBinary_illegal polySub hn⟩⟩
  case sum => exact getD_fitPoly_zipWith hs _ pa pb hi
  case difference => exact getD_fitPoly_zipWith hs _ pa pb hi

/-- Settles O30: a canonical residue fits a coefficient, so the slot write keeps it. -/
theorem predResult : Obligations.PredResult := by
  intro s pd pa ⟨hc, hs, _⟩
  have hl := (cfgValid_iff_legal s.cfg).1 hc
  refine ⟨fun hd ha => ⟨_, slotUnary_legal _ hd ha, fitPoly_length _ _, fun i hi => ?_⟩, slotUnary_illegal _⟩
  rw [getD_fitPoly_map hs _ pa hi, hl.wrap_of_abs_lt_q (hl.abs_barrettReduce_lt _), barrettReduce]

end Sys2Proof.Machine
end

section
/-! SUPPORT. `NTT` and `INTT` against the loops of their pseudocode (41_transform.md R154, R155): one butterfly, one block of
butterflies, one stage of blocks, the seven stages. -/

namespace Sys2Proof.Machine

/-! ## One butterfly -/

/-- `step` at index `j` replaces the coefficients `x` at `j` and `y` at `j + len` by `f x y` and `g x y`, and no other. -/
def IsButterfly (len : Nat) (f g : Int → Int → Int) (step : Poly → Nat → Poly) : Prop :=
  ∀ (pre mid post : Poly) (x y : Int), mid.length + 1 = len →
    step (pre ++ x :: (mid ++ y :: post)) pre.length = pre ++ f x y :: (mid ++ g x y :: post)

/-- What `NTT`'s butterfly leaves at `j` for `x = r[j]`, `y = r[j+len]`. -/
def nttLow (c : Cfg) (zeta x y : Int) : Int := wrap c.w (x + fqmul c zeta y)

/-- What `NTT`'s butterfly leaves at `j + len`. -/
def nttHigh (c : Cfg) (zeta x y : Int) : Int := wrap c.w (x - fqmul c zeta y)

/-- What `INTT`'s butterfly leaves at `j`; the twiddle does not enter. -/
def inttLow (c : Cfg) (_zeta x y : Int) : Int := barrettReduce c (wrap c.w (x + y))

/-- What `INTT`'s butterfly leaves at `j + len`. -/
def inttHigh (c : Cfg) (zeta x y : Int) : Int := fqmul c zeta (wrap c.w (y - x))

theorem nttButterfly_isButterfly (c : Cfg) (len k : Nat) :
    IsButterfly len (nttLow c ((zrom c).getD k 0)) (nttHigh c ((zrom c).getD k 0)) (nttButterfly c len k) := by
  rintro pre mid post x y rfl
  simp [nttButterfly, nttLow, nttHigh]

theorem inttButterfly_isButterfly (c : Cfg) (len k : Nat) :
    IsButterfly len (inttLow c ((zrom c).getD k 0)) (inttHigh c ((zrom c).getD k 0)) (inttButterfly c len k) := by
  rintro pre mid post x y rfl
  simp [inttButterfly, inttLow, inttHigh, barrettReduce]

/-! ## One block -/

/-- The inner loop pairs the coefficients of `lo` with those of `hi`, `len` apart, from the left; what it has done joins `pre`
and `mid`. -/
theorem foldl_butterflies {len : Nat} {f g : Int → Int → Int} {step : Poly → Nat → Poly} (h : IsButterfly len f g step) :
    ∀ (lo hi pre mid post : Poly), lo.length = hi.length → lo.length + mid.length = len →
      (List.range' pre.length lo.length).foldl step (pre ++ (lo ++ (mid ++ (hi ++ post))))
        = pre ++ (List.zipWith f lo hi ++ (mid ++ (List.zipWith g lo hi ++ post)))
  | [], [], pre, mid, post, _, _ => by simp
  | x :: lo, y :: hi, pre, mid, post, heq, hlen => by
    rw [List.length_cons, add_assoc, add_comm 1] at hlen
    have hx := h pre (lo ++ mid) (hi ++ post) x y (by simpa [add_assoc] using hlen)
    have ih := foldl_butterflies h lo hi (pre ++ [f x y]) (mid ++ [g x y]) post (by simpa using heq) (by simpa using hlen)
    simp only [List.append_assoc, List.cons_append, List.nil_append, List.length_append, List.length_singleton] at hx ih
    simpa [List.range'_succ, hx] using ih

/-- The inner loop's block as the networks write it. -/
def blockOf (f g : Int → Int → Int) (lo hi : Poly) : Poly := List.zipWith f lo hi ++ List.zipWith g lo hi

/-- The whole inner loop, at a block that begins behind `pre`. -/
theorem foldl_block {len : Nat} {f g : Int → Int → Int} {step : Poly → Nat → Poly} (h : IsButterfly len f g step)
    (pre r : Poly) (hr : 2 * len ≤ r.length) :
    (List.range len).foldl (fun r o => step r (pre.length + o)) (pre ++ r)
      = pre ++ (blockOf f g (r.take len) ((r.drop len).take len) ++ r.drop (2 * len)) := by
  have hlo : (r.take len).length = len := by simp; omega
  have hhi : ((r.drop len).take len).length = len := by simp; omega
  have hsplit : r = r.take len ++ ((r.drop len).take len ++ r.drop (2 * len)) := by
    rw [two_mul, ← List.drop_drop, List.take_append_drop, List.take_append_drop]
  have hloop := foldl_butterflies h _ _ pre [] (r.drop (2 * len)) (hlo.trans hhi.symm) (by simpa using hlo)
  rw [List.nil_append, ← hsplit, hlo, List.range'_eq_map_range, List.foldl_map] at hloop
  rw [hloop, blockOf, List.nil_append, List.append_assoc]

/-! ## One stage -/

/-- The body of the pseudocode's loop over `len`: one pass over `start` and `j`, with the counter `k`. -/
def stageLoop (bfly : Nat → Nat → Poly → Nat → Poly) (next : Nat → Nat) (rk : Poly × Nat) (len : Nat) : Poly × Nat :=
  (List.range (128 / len)).foldl (fun rk b =>
    ((List.range len).foldl (fun r o => bfly len rk.2 r (2 * len * b + o)) rk.1, next rk.2)) rk

theorem nttLoops_eq_foldl (c : Cfg) (r : Poly) :
    nttLoops c r = [128, 64, 32, 16, 8, 4, 2].foldl (stageLoop (nttButterfly c) Nat.succ) (r, 1) := rfl

theorem inttLoops_eq_foldl (c : Cfg) (r : Poly) :
    inttLoops c r = [2, 4, 8, 16, 32, 64, 128].foldl (stageLoop (inttButterfly c) Nat.pred) (r, 127) := rfl

/-- A stage of blocks, one twiddle each, that both networks share. -/
def stageOf (f g : Int → Int → Int → Int) (len : Nat) : List Int → Poly → Poly
  | [], r => r
  | zeta :: zs, r =>
    blockOf (f zeta) (g zeta) (r.take len) ((r.drop len).take len) ++ stageOf f g len zs (r.drop (2 * len))

theorem forwardStage_eq_stageOf (c : Cfg) (len : Nat) (zs : List Int) (r : Poly) :
    forwardStage (fqmul c) (wrap c.w) len zs r = stageOf (nttLow c) (nttHigh c) len zs r := by
  induction zs generalizing r with
  | nil => rfl
  | cons zeta zs ih =>
    rw [forwardStage, stageOf, ih, forwardBlock, List.zipWith_map_right, List.zipWith_map_right]
    rfl

theorem inverseStage_eq_stageOf (c : Cfg) (len : Nat) (zs : List Int) (r : Poly) :
    inverseStage (fqmul c) (wrap c.w) (barrettReduce c) len zs r = stageOf (inttLow c) (inttHigh c) len zs r := by
  induction zs generalizing r with
  | nil => rfl
  | cons zeta zs ih =>
    rw [inverseStage, stageOf, ih]
    rfl

/-- `n` rounds of the loop over `start`, behind a part `pre` that earlier rounds finished: they use the twiddles of the counters
`k`, `next k`, and so on. -/
theorem foldl_blocks {bfly : Nat → Nat → Poly → Nat → Poly} {f g : Int → Int → Int → Int} {tw : Nat → Int} {len : Nat}
    (h : ∀ k, IsButterfly len (f (tw k)) (g (tw k)) (bfly len k)) (next : Nat → Nat) (n : Nat) :
    ∀ (b k : Nat) (pre r : Poly), pre.length = 2 * len * b → r.length = 2 * len * n →
      (List.range' b n).foldl (fun rk b =>
          ((List.range len).foldl (fun r o => bfly len rk.2 r (2 * len * b + o)) rk.1, next rk.2)) (pre ++ r, k)
        = (pre ++ stageOf f g len ((List.iterate next k n).map tw) r, next^[n] k) := by
  induction n with
  | zero => intros; rfl
  | succ n ih =>
    intro b k pre r hpre hr
    rw [Nat.mul_succ] at hr
    have hblock := foldl_block (h k) pre r (by omega)
    rw [hpre, ← List.append_assoc] at hblock
    have hlen : (pre ++ blockOf (f (tw k)) (g (tw k)) (r.take len) ((r.drop len).take len)).length = 2 * len * (b + 1) := by
      simp [blockOf, Nat.mul_succ]
      omega
    rw [List.range'_succ, List.foldl_cons, hblock, ih (b + 1) (next k) _ _ hlen (by simp; omega), List.append_assoc]
    rfl

/-- The half-distance `len` and the number `n` of blocks of a stage. -/
abbrev IsStage (len n : Nat) : Prop := len * n = 128 ∧ 2 ≤ len

theorem IsStage.blocks_eq {len n : Nat} (h : IsStage len n) : 128 / len = n := by
  obtain ⟨hn, hlen⟩ := h
  exact Nat.div_eq_of_eq_mul_right (by omega) hn.symm

theorem IsStage.ringDegree_eq {len n : Nat} (h : IsStage len n) : ringDegree = 2 * len * n := by
  obtain ⟨hn, -⟩ := h
  rw [mul_assoc, hn]
  rfl

theorem IsStage.two_mul_le_zrom_length {len n : Nat} (h : IsStage len n) (c : Cfg) : 2 * n ≤ (zrom c).length := by
  obtain ⟨hn, hlen⟩ := h
  calc 2 * n ≤ len * n := Nat.mul_le_mul_right n hlen
    _ = (zrom c).length := by simp [zrom, hn]

/-- A stage that starts with the counter at `k` uses the twiddles of `k`, `next k`, and so on, one a block. -/
theorem stageLoop_eq {bfly : Nat → Nat → Poly → Nat → Poly} {f g : Int → Int → Int → Int} {tw : Nat → Int} {len n : Nat}
    (h : ∀ k, IsButterfly len (f (tw k)) (g (tw k)) (bfly len k)) (hs : IsStage len n) (next : Nat → Nat) (k : Nat) {r : Poly}
    (hr : r.length = ringDegree) :
    stageLoop bfly next (r, k) len = (stageOf f g len ((List.iterate next k n).map tw) r, next^[n] k) := by
  rw [stageLoop, hs.blocks_eq, List.range_eq_range' (n := n)]
  exact foldl_blocks h next n 0 k [] r rfl (hr.trans hs.ringDegree_eq)

/-! ## The twiddles of a stage -/

theorem stageTwiddles_eq (c : Cfg) {len n : Nat} (hs : IsStage len n) :
    stageTwiddles (zrom c) len = (List.iterate Nat.succ n n).map ((zrom c).getD · 0) := by
  have hz := hs.two_mul_le_zrom_length c
  rw [stageTwiddles, hs.blocks_eq]
  refine List.ext_getElem (by simp; omega) fun i _ h => ?_
  have hi : n + i < (zrom c).length := by simp at h; omega
  simp [Nat.succ_iterate, hi]

theorem reverse_stageTwiddles_eq (c : Cfg) {len n : Nat} (hs : IsStage len n) :
    (stageTwiddles (zrom c) len).reverse = (List.iterate Nat.pred (2 * n - 1) n).map ((zrom c).getD · 0) := by
  have hz := hs.two_mul_le_zrom_length c
  rw [stageTwiddles, hs.blocks_eq]
  refine List.ext_getElem (by simp; omega) fun i _ h => ?_
  simp only [List.length_map, List.length_iterate] at h
  have hi : 2 * n - 1 - i < (zrom c).length := by omega
  have hlen : min n ((zrom c).length - n) = n := by omega
  have hidx : n + (n - 1 - i) = 2 * n - 1 - i := by omega
  simp [Nat.pred_iterate, hi, hlen, hidx]

/-- A stage of `NTT` uses `ZROM[n], …, ZROM[2n-1]`. -/
theorem nttStage_eq (c : Cfg) {len n : Nat} (hs : IsStage len n) {r : Poly} (hr : r.length = ringDegree) :
    stageLoop (nttButterfly c) Nat.succ (r, n) len
      = (forwardStage (fqmul c) (wrap c.w) len (stageTwiddles (zrom c) len) r, 2 * n) := by
  rw [stageLoop_eq (nttButterfly_isButterfly c len) hs _ n hr, forwardStage_eq_stageOf, stageTwiddles_eq c hs,
    Nat.succ_iterate, two_mul]

/-- A stage of `INTT` uses `ZROM[2n-1], …, ZROM[n]`. -/
theorem inttStage_eq (c : Cfg) {len n : Nat} (hs : IsStage len n) {r : Poly} (hr : r.length = ringDegree) :
    stageLoop (inttButterfly c) Nat.pred (r, 2 * n - 1) len
      = (inverseStage (fqmul c) (wrap c.w) (barrettReduce c) len (stageTwiddles (zrom c) len).reverse r, n - 1) := by
  rw [stageLoop_eq (inttButterfly_isButterfly c len) hs _ _ hr, inverseStage_eq_stageOf, reverse_stageTwiddles_eq c hs,
    Nat.pred_iterate]
  congr 1
  omega

/-! ## What every stage keeps -/

theorem polyFits_set {w : Nat} {r : Poly} {x : Int} (hr : PolyFits w r) (hx : CoeffFits w x) (i : Nat) :
    PolyFits w (r.set i x) := by
  obtain ⟨hlen, hfits⟩ := hr
  refine ⟨by rw [List.length_set, hlen], fun y hy => ?_⟩
  obtain hy | rfl := List.mem_or_eq_of_mem_set hy
  · exact hfits y hy
  · exact hx

/-- Every butterfly leaves a polynomial that fits a slot. -/
abbrev ButterflyFits (w : Nat) (bfly : Nat → Nat → Poly → Nat → Poly) : Prop :=
  ∀ len k r j, PolyFits w r → PolyFits w (bfly len k r j)

theorem nttButterfly_fits {c : Cfg} (h : LegalCfg c) : ButterflyFits c.w (nttButterfly c) := fun _ _ _ _ hr =>
  polyFits_set (polyFits_set hr (wrap_fits h.w_pos _) _) (wrap_fits h.w_pos _) _

theorem inttButterfly_fits {c : Cfg} (h : LegalCfg c) : ButterflyFits c.w (inttButterfly c) := fun _ _ _ _ hr =>
  polyFits_set (polyFits_set hr (fits_of_abs_lt ((h.abs_barrettReduce_lt _).trans h.q_lt_half)) _) (wrap_fits h.w_pos _) _

theorem stageLoop_fits {w : Nat} {bfly : Nat → Nat → Poly → Nat → Poly} (h : ButterflyFits w bfly) (next : Nat → Nat)
    (len : Nat) (rk : Poly × Nat) (hr : PolyFits w rk.1) : PolyFits w (stageLoop bfly next rk len).1 :=
  List.foldlRecOn (motive := fun rk : Poly × Nat => PolyFits w rk.1) _ _ hr
    fun rk hrk _ _ => List.foldlRecOn (motive := PolyFits w) _ _ hrk fun r hr _ _ => h len rk.2 r _ hr

/-! ## The seven stages -/

/-- The loop over `len`: where stage `i`, of half-distance `len i`, takes the counter from `k i` to `k (i + 1)`, the loop leaves
what the network leaves, and it fits a slot. -/
theorem foldl_stages {w : Nat} {bfly : Nat → Nat → Poly → Nat → Poly} (h : ButterflyFits w bfly) {next : Nat → Nat}
    {stage : Poly → Nat → Poly} {len k : Nat → Nat} {r : Poly} (hr : PolyFits w r) (m : Nat)
    (hs : ∀ i < m, ∀ r : Poly, r.length = ringDegree →
      stageLoop bfly next (r, k i) (len i) = (stage r (len i), k (i + 1))) :
    ((List.range m).map len).foldl (stageLoop bfly next) (r, k 0) = (((List.range m).map len).foldl stage r, k m)
      ∧ PolyFits w (((List.range m).map len).foldl stage r) := by
  induction m with
  | zero => exact ⟨rfl, hr⟩
  | succ m ih =>
    obtain ⟨heq, hfits⟩ := ih fun i hi => hs i (by omega)
    have hlast := hs m (by omega) _ hfits.1
    have hlastFits := stageLoop_fits h next (len m) (_, k m) hfits
    rw [hlast] at hlastFits
    simp only [List.range_succ, List.map_append, List.map_singleton, List.foldl_concat, heq]
    exact ⟨hlast, hlastFits⟩

/-- `NTT`'s stage `i` has half-distance `2^(7-i)`, and its counter starts at `2^i`. -/
theorem nttLoops_eq {c : Cfg} (h : LegalCfg c) {r : Poly} (hr : PolyFits c.w r) :
    nttLoops c r = (nttPoly c r, 128) ∧ PolyFits c.w (nttPoly c r) := by
  have hshape : ∀ i < 7, IsStage (2 ^ (7 - i)) (2 ^ i) := by decide
  have hlens : [128, 64, 32, 16, 8, 4, 2] = (List.range 7).map fun i => 2 ^ (7 - i) := rfl
  rw [nttLoops_eq_foldl, nttPoly, forwardNetwork, hlens]
  refine foldl_stages (nttButterfly_fits h) (k := fun i => 2 ^ i) hr 7 fun i hi r hr => ?_
  rw [nttStage_eq c (hshape i hi) hr, pow_succ']

/-- `INTT` as the engine computes it, without the final factor. -/
def inttNetwork (c : Cfg) (r : Poly) : Poly := inverseNetwork (fqmul c) (wrap c.w) (barrettReduce c) (zrom c) r

/-- `INTT`'s stage `i` has half-distance `2^(i+1)`, and its counter starts at `2^(7-i) - 1`. -/
theorem inttLoops_eq {c : Cfg} (h : LegalCfg c) {r : Poly} (hr : PolyFits c.w r) :
    inttLoops c r = (inttNetwork c r, 0) ∧ PolyFits c.w (inttNetwork c r) := by
  have hshape : ∀ i < 7, IsStage (2 ^ (i + 1)) (2 ^ (6 - i)) := by decide
  have hcounter : ∀ i < 7, 2 ^ (7 - i) = 2 * 2 ^ (6 - i) ∧ 2 ^ (7 - (i + 1)) = 2 ^ (6 - i) := by decide
  have hlens : [2, 4, 8, 16, 32, 64, 128] = (List.range 7).map fun i => 2 ^ (i + 1) := rfl
  rw [inttLoops_eq_foldl, inttNetwork, inverseNetwork, hlens]
  refine foldl_stages (inttButterfly_fits h) (k := fun i => 2 ^ (7 - i) - 1) hr 7 fun i hi r hr => ?_
  obtain ⟨hstart, hend⟩ := hcounter i hi
  rw [hstart, hend, inttStage_eq c (hshape i hi) hr]

/-! ## The factor `F` of `INTT` -/

theorem LegalCfg.inv128_mul {c : Cfg} (h : LegalCfg c) : inv128 c * 128 ≡ 1 [MOD c.q] := by
  have hq := h.q_mod
  have : inv128 c * 128 = 1 + 127 * c.q := by
    rw [inv128]
    omega
  rw [this]
  exact Nat.add_mul_modulus_modEq_iff.2 rfl

/-- `F` is the residue that `F * 128 = R (mod Q)` determines (41_transform.md R155). -/
theorem LegalCfg.finalF_eq {c : Cfg} (h : LegalCfg c) {F : Nat} (hF : F < c.q) (h128 : F * 128 % c.q = 2 ^ c.w % c.q) :
    finalF c = F := by
  have hmod : radix c * inv128 c ≡ F [MOD c.q] :=
    calc radix c * inv128 c ≡ F * 128 * inv128 c [MOD c.q] := Nat.ModEq.mul_right _ h128.symm
      _ = F * (inv128 c * 128) := by ring
      _ ≡ F * 1 [MOD c.q] := h.inv128_mul.mul_left F
      _ = F := mul_one F
  rw [finalF, hmod, Nat.mod_eq_of_lt hF]

theorem LegalCfg.inttPoly_eq {c : Cfg} (h : LegalCfg c) {F : Nat} (hF : F < c.q) (h128 : F * 128 % c.q = 2 ^ c.w % c.q)
    (r : Poly) : inttPoly c r = (inttNetwork c r).map (fun x => fqmul c x F) := by
  rw [inttPoly, h.finalF_eq hF h128, inttNetwork]

/-! ## The commands -/

/-- A result that fits a slot is written as it is. -/
theorem slotUnary_of_fits {f : Poly → Poly} {pd pa : Nat} {s : State} (hw : 0 < s.cfg.w) (hd : pd < s.cfg.np)
    (ha : pa < s.cfg.np) (hf : PolyFits s.cfg.w (f (getSlot s pa))) :
    slotUnary f pd pa s = .next { s with p := s.p.set pd (f (getSlot s pa)), status := completed s.status } := by
  rw [slotUnary_legal f hd ha, fitPoly_of_fits hw hf]

/-- Settles O32: the seven stages, block by block, are the model's network, and what they leave fits a slot. -/
theorem nttFollowsPseudocode : Obligations.NttFollowsPseudocode := by
  intro s pd pa ⟨hc, hs, _⟩
  have hl := (cfgValid_iff_legal s.cfg).1 hc
  obtain ⟨hloops, hfits⟩ := nttLoops_eq hl (getSlot_fits hs pa)
  rw [hloops]
  exact ⟨fun hd ha => ⟨slotUnary_of_fits hl.w_pos hd ha hfits, rfl⟩, slotUnary_illegal _⟩

/-- Settles O33: the seven stages are the model's network, and a product with `F < Q` lies in `(-Q, Q)`, so it fits a slot. -/
theorem inttFollowsPseudocode : Obligations.InttFollowsPseudocode := by
  intro s pd pa F ⟨hc, hs, _⟩ hF h128
  have hl := (cfgValid_iff_legal s.cfg).1 hc
  obtain ⟨hloops, hlen, hfits⟩ := inttLoops_eq hl (getSlot_fits hs pa)
  have hbound : ∀ x ∈ inttNetwork s.cfg (getSlot s pa), |fqmul s.cfg x F| < s.cfg.q := fun x hx =>
    hl.abs_fqmul_lt (abs_le_of_fits (hfits x hx)) (by simpa using hF)
  have hout : PolyFits s.cfg.w (inttPoly s.cfg (getSlot s pa)) := by
    rw [hl.inttPoly_eq hF h128]
    refine ⟨by simpa using hlen, List.forall_mem_map.2 fun x hx => ?_⟩
    exact fits_of_abs_lt ((hbound x hx).trans hl.q_lt_half)
  rw [hloops, ← hl.inttPoly_eq hF h128]
  exact ⟨fun hd ha => ⟨slotUnary_of_fits hl.w_pos hd ha hout, rfl, fun x hx => by zify; exact hbound x hx⟩,
    slotUnary_illegal _⟩

end Sys2Proof.Machine
end

section
/-! SUPPORT. The XOF unit: the variants by number, a new stream (42_sampler.md R172, R173). -/

namespace Sys2Proof.Machine

theorem exec_xinit (v : Nat) (s : State) :
    exec (.xinit v) s =
      if v < 4 then finish { s with xof := some { variant := variantOf v, absorbed := [], pos := 0, squeezing := false } }
      else raised .illegalCmd s := by
  change execXinit v s = _
  by_cases hv : v < 4 <;> simp [execXinit, variantOk, hv]

theorem variantOf_of_getElem? {v : Nat} {x : XofVariant} (h : [XofVariant.xofa, .xofb, .h, .g][v]? = some x) :
    v < 4 ∧ variantOf v = x := by
  obtain ⟨hv, rfl⟩ := List.getElem?_eq_some_iff.1 h
  refine ⟨hv, ?_⟩
  change v < 4 at hv
  interval_cases v <;> rfl

/-- Settles O38: a new stream of the variant replaces `xof` where `v` names one. -/
theorem xinitResult : Obligations.XinitResult := by
  intro s v
  refine ⟨fun x hx => ?named, fun hv => ?illegal⟩
  case named =>
    obtain ⟨hv, rfl⟩ := variantOf_of_getElem? hx
    exact (exec_xinit v s).trans (if_pos hv)
  case illegal => exact (exec_xinit v s).trans (if_neg (by omega))

end Sys2Proof.Machine
end

section
/-! SUPPORT. The checks of `checkError` beside those the commands make, and `xof` after a command (42_sampler.md R176). -/

namespace Sys2Proof.Machine

/-! ## What holds after a command -/

/-- The next state, where there is one, satisfies `Q`. -/
abbrev EndsIn (Q : State → Prop) (o : Outcome) : Prop := ∀ t, o = .next t → Q t

theorem endsIn_next {Q : State → Prop} {s : State} (h : Q s) : EndsIn Q (.next s) := by
  rintro t ⟨⟩
  exact h

theorem endsIn_reading {Q : State → Prop} {s : State} {a n : Nat} {k : Bytes → Outcome} (h : ∀ bs, EndsIn Q (k bs)) :
    EndsIn Q (reading s a n k) := fun t ht => by
  obtain ⟨bs, -, hk⟩ := reading_next ht
  exact h bs t hk

theorem endsIn_seedInput {Q : State → Prop} {mode a n : Nat} {s : State} {k : Bytes → State → Outcome}
    (h : ∀ e s', EndsIn Q (k e s')) : EndsIn Q (seedInput mode a n s k) := fun t ht => by
  obtain ⟨-, hk⟩ | ⟨-, e, -, hk⟩ := seedInput_next ht
  · exact h _ _ t hk
  · exact h e s t hk

/-! ## The checks -/

/-- The command makes exactly the checks of `checkError`, and where none fails it ends in a state that satisfies `Q`. -/
def Checked (i : Instr) (s : State) (Q : State → Prop) : Prop :=
  (∀ e, checkError s i = some e → exec i s = raised e s) ∧ (checkError s i = none → EndsIn Q (exec i s))

section
variable {i : Instr} {s : State} {Q : State → Prop} {k : Outcome}

theorem checked_of_error {e : ErrorCode} (hc : checkError s i = some e) (hexec : exec i s = raised e s) : Checked i s Q := by
  simp [Checked, hc, hexec]

theorem checked_of_illegal (hl : legalFields s i = false) (hexec : exec i s = raised .illegalCmd s) : Checked i s Q :=
  checked_of_error (by simp [checkError, hl]) hexec

theorem checked_of_passed (hc : checkError s i = none) (hexec : exec i s = k) (hk : EndsIn Q k) : Checked i s Q := by
  subst hexec
  exact ⟨by simp [hc], fun _ => hk⟩

/-- The checks in the order of 60_exceptions.md R325; a check the command does not make is one that cannot fail. -/
theorem checked_of_chain {px pn : Prop} [Decidable px] [Decidable pn] {l a : Bool}
    (hexec : exec i s = if !l then raised .illegalCmd s else if px then raised .xofSeq s else if pn then raised .invalidLen s
      else if !a then raised .addr s else k)
    (hl : legalFields s i = l) (hx : xofInSequence s i = !decide px) (hn : lengthsMatch s i = !decide pn)
    (ha : l = true → addressesOk s i = a) (hk : EndsIn Q k) : Checked i s Q := by
  cases l with
  | false => exact checked_of_illegal hl hexec
  | true =>
    have hc : checkError s i = if px then some .xofSeq else if pn then some .invalidLen
        else if !a then some .addr else none := by
      simp [checkError, hl, hx, hn, ha]
    replace hexec : exec i s = if px then raised .xofSeq s else if pn then raised .invalidLen s
      else if !a then raised .addr s else k := hexec
    split_ifs at hc hexec
    · exact checked_of_error hc hexec
    · exact checked_of_error hc hexec
    · exact checked_of_error hc hexec
    · exact checked_of_passed hc hexec hk

/-- The commands that check their fields and then their buffers. -/
theorem checked_of_fields_buffers {l a : Bool}
    (hexec : exec i s = if !l then raised .illegalCmd s else if !a then raised .addr s else k)
    (hl : legalFields s i = l) (ha : l = true → addressesOk s i = a) (hk : EndsIn Q k)
    (hx : xofInSequence s i = true := by rfl) (hn : lengthsMatch s i = true := by rfl) : Checked i s Q :=
  checked_of_chain (px := False) (pn := False) hexec hl hx hn ha hk

/-- The commands that check their fields only. -/
theorem checked_of_fields {l : Bool} (hexec : exec i s = if !l then raised .illegalCmd s else k) (hl : legalFields s i = l)
    (hk : EndsIn Q k) (hx : xofInSequence s i = true := by rfl) (hn : lengthsMatch s i = true := by rfl)
    (ha : addressesOk s i = true := by rfl) : Checked i s Q :=
  checked_of_fields_buffers (a := true) hexec hl (fun _ => ha) hk hx hn

end

/-- Every buffer is checked by `inBuffer`. -/
theorem addressesOk_eq (s : State) (i : Instr) :
    addressesOk s i = ((inputBuffers s i ++ outputBuffers s i).all (fun x => inBuffer s x.1 x.2)
      && decide ((outputBuffers s i).Pairwise (fun x y => x.1 + x.2 ≤ y.1 ∨ y.1 + y.2 ≤ x.1))) := by
  simp [addressesOk, inBuffer]

theorem addressesOk_of_one {s : State} {i : Instr} {a n : Nat}
    (h : inputBuffers s i = [(a, n)] ∧ outputBuffers s i = [] ∨ inputBuffers s i = [] ∧ outputBuffers s i = [(a, n)]) :
    addressesOk s i = inBuffer s a n := by
  obtain ⟨hin, hout⟩ | ⟨hin, hout⟩ := h <;> simp [addressesOk_eq, hin, hout]

/-- The buffer of a command's randomness is an operand with `MODE = 1` only. -/
theorem all_inBuffer_seed {mode : Nat} (h : twoModes mode = true) (s : State) (a n : Nat) :
    (if mode = 1 then [(a, n)] else []).all (fun x => inBuffer s x.1 x.2) = (decide (mode = 0) || inBuffer s a n) := by
  obtain rfl | rfl : mode = 0 ∨ mode = 1 := by simp [twoModes] at h; omega
  · rfl
  · simp

theorem ite_not_and (a b : Bool) (r k : Outcome) :
    (if !(a && b) then r else k) = if !a then r else if !b then r else k := by
  cases a <;> rfl

/-! ## `xof` -/

/-- What 42_sampler.md R176 says of `xof` after a command that passed its checks; it leaves `ZEROIZE` and the `X*` commands
to their own rules. -/
def XofLeft (s : State) (i : Instr) (t : State) : Prop :=
  match i with
  | .zeroize _ | .xinit _ | .xabsorb | .xsqueeze => True
  | _ => t.xof = if usesXofInside i then none else s.xof

theorem XofLeft.xof_eq_none {s t : State} {i : Instr} (h : XofLeft s i t) (hi : usesXofInside i = true) : t.xof = none := by
  unfold XofLeft at h
  split at h
  · cases hi
  · cases hi
  · cases hi
  · cases hi
  · rw [h, if_pos hi]

theorem XofLeft.xof_eq {s t : State} {i : Instr} (h : XofLeft s i t) (hi : usesXofInside i = false)
    (hz : ∀ mode, i ≠ .zeroize mode) (hx : ∀ v, i ≠ .xinit v) (ha : i ≠ .xabsorb) (hs : i ≠ .xsqueeze) : t.xof = s.xof := by
  unfold XofLeft at h
  split at h
  · exact absurd rfl (hz _)
  · exact absurd rfl (hx _)
  · exact absurd rfl ha
  · exact absurd rfl hs
  · simpa [hi] using h

theorem checked_challenge (pd : Nat) (s : State) : Checked (.challenge pd) s (XofLeft s (.challenge pd)) := by
  cases hg : s.cfg.sig with
  | none => exact checked_of_illegal (by simp [legalFields, hg]) (by simp only [exec, execChallenge, hg])
  | some g =>
    refine checked_of_fields_buffers (by simp only [exec, execChallenge, hg]; rfl) ?fields ?buffers
      (endsIn_reading fun seed => ?ends)
    case fields => simp [legalFields, slotOk, seedLenOk, within, hg]
    case buffers => exact fun _ => addressesOk_of_one (.inl ⟨rfl, rfl⟩)
    case ends => split <;> exact endsIn_next rfl

theorem checked_sigKeygen (mode : Nat) (s : State) : Checked (.sigKeygen mode) s (XofLeft s (.sigKeygen mode)) := by
  cases hg : s.cfg.sig with
  | none => exact checked_of_illegal (by simp [legalFields, hg]) (by simp only [exec, execSigKeygen, hg])
  | some g =>
    refine checked_of_fields_buffers (by simp only [exec, execSigKeygen, hg]; rfl) ?fields ?buffers
      (endsIn_seedInput fun xi s => ?ends)
    case fields => simp [legalFields, twoModes, hg]
    case buffers =>
      intro hmode
      simp [addressesOk_eq, inputBuffers, outputBuffers, disjoint, hg, all_inBuffer_seed hmode, Bool.and_comm]
    case ends => split <;> exact endsIn_next rfl

theorem checked_sigSign (mode : Nat) (s : State) : Checked (.sigSign mode) s (XofLeft s (.sigSign mode)) := by
  cases hg : s.cfg.sig with
  | none => exact checked_of_illegal (by simp [legalFields, hg]) (by simp only [exec, execSigSign, hg])
  | some g =>
    refine checked_of_chain (px := False) (by simp only [exec, execSigSign, hg]; rfl) ?fields rfl ?lengths ?buffers
      (endsIn_reading fun msg => endsIn_reading fun sk => ?ends)
    case fields => simp [legalFields, threeModes, hg, Nat.lt_succ_iff]
    case lengths => simp [lengthsMatch, hg]
    case buffers => simp [addressesOk_eq, inputBuffers, outputBuffers, hg, Bool.and_assoc]
    case ends => split <;> exact endsIn_next rfl

theorem checked_sigVerify (s : State) : Checked .sigVerify s (XofLeft s .sigVerify) := by
  cases hg : s.cfg.sig with
  | none => exact checked_of_illegal (by simp [legalFields, hg]) (by simp only [exec, execSigVerify, hg])
  | some g =>
    refine checked_of_chain (l := true) (px := False) (by simp only [exec, execSigVerify, hg]; rfl) ?fields rfl ?lengths ?buffers
      (endsIn_reading fun sig => endsIn_reading fun msg => endsIn_reading fun pk => ?ends)
    case fields => simp [legalFields, hg]
    case lengths => simp [lengthsMatch, hg]
    case buffers => simp [addressesOk_eq, inputBuffers, outputBuffers, hg, Bool.and_assoc, Bool.and_left_comm]
    case ends => split <;> exact endsIn_next rfl

theorem checked_kemKeygen (mode : Nat) (s : State) : Checked (.kemKeygen mode) s (XofLeft s (.kemKeygen mode)) := by
  cases hm : s.cfg.kem with
  | none => exact checked_of_illegal (by simp [legalFields, hm]) (by simp only [exec, execKemKeygen, hm])
  | some m =>
    refine checked_of_fields_buffers (by simp only [exec, execKemKeygen, hm]; rfl) ?fields ?buffers
      (endsIn_seedInput fun d s => endsIn_seedInput fun z s => ?ends)
    case fields => simp [legalFields, twoModes, hm]
    case buffers =>
      intro hmode
      simp [addressesOk_eq, inputBuffers, outputBuffers, disjoint, hm, all_inBuffer_seed hmode, Bool.and_assoc,
        Bool.and_comm]
    case ends => split <;> exact endsIn_next rfl

theorem checked_kemEncap (mode : Nat) (s : State) : Checked (.kemEncap mode) s (XofLeft s (.kemEncap mode)) := by
  cases hm : s.cfg.kem with
  | none => exact checked_of_illegal (by simp [legalFields, hm]) (by simp only [exec, execKemEncap, hm])
  | some m =>
    refine checked_of_chain (px := False) (by simp only [exec, execKemEncap, hm]; rfl) ?fields rfl ?lengths ?buffers
      (endsIn_reading fun pk => endsIn_seedInput fun e s => ?ends)
    case fields => simp [legalFields, twoModes, hm]
    case lengths => simp [lengthsMatch, hm]
    case buffers =>
      intro hmode
      simp [addressesOk_eq, inputBuffers, outputBuffers, disjoint, hm, all_inBuffer_seed hmode, Bool.and_assoc,
        Bool.and_comm]
    case ends => split <;> exact endsIn_next rfl

theorem checked_kemDecap (s : State) : Checked .kemDecap s (XofLeft s .kemDecap) := by
  cases hm : s.cfg.kem with
  | none => exact checked_of_illegal (by simp [legalFields, hm]) (by simp only [exec, execKemDecap, hm])
  | some m =>
    refine checked_of_chain (l := true) (px := False) (by simp only [exec, execKemDecap, hm]; rfl) ?fields rfl ?lengths ?buffers
      (endsIn_reading fun ct => endsIn_reading fun sk => ?ends)
    case fields => simp [legalFields, hm]
    case lengths => simp [lengthsMatch, hm]
    case buffers => simp [addressesOk_eq, inputBuffers, outputBuffers, hm, Bool.and_assoc]
    case ends => split <;> exact endsIn_next rfl

theorem checked_xabsorb (s : State) : Checked .xabsorb s (XofLeft s .xabsorb) := by
  cases hx : s.xof with
  | none =>
    exact checked_of_error (e := .xofSeq) (by simp [checkError, legalFields, xofInSequence, hx])
      (by simp only [exec, execXabsorb, hx])
  | some x =>
    refine checked_of_chain (l := true) (pn := False) (by simp only [exec, execXabsorb, hx]; rfl) rfl ?sequence rfl ?buffers
      (endsIn_reading fun bs => endsIn_next trivial)
    case sequence => simp [xofInSequence, hx]
    case buffers => exact fun _ => addressesOk_of_one (.inl ⟨rfl, rfl⟩)

theorem checked_xsqueeze (s : State) : Checked .xsqueeze s (XofLeft s .xsqueeze) := by
  cases hx : s.xof with
  | none =>
    exact checked_of_error (e := .xofSeq) (by simp [checkError, legalFields, xofInSequence, hx])
      (by simp only [exec, execXsqueeze, hx])
  | some x =>
    refine checked_of_chain (l := true) (pn := False) (by simp only [exec, execXsqueeze, hx]; rfl) rfl ?sequence rfl ?buffers
      (endsIn_next trivial)
    case sequence =>
      have : xofInSequence s .xsqueeze = withinLimit x (operand s 1) := by
        cases hv : x.variant <;> simp [xofInSequence, withinLimit, xofLimit, hx, hv]
      simp [this]
    case buffers => exact fun _ => addressesOk_of_one (.inr ⟨rfl, rfl⟩)

/-- Every command makes the checks of `checkError`, and past them leaves `xof` as R176 says. -/
theorem exec_checked (i : Instr) (s : State) : Checked i s (XofLeft s i) := by
  cases i with
  | nop => exact checked_of_fields (l := true) rfl rfl (endsIn_next rfl)
  | zeroize mode => exact checked_of_fields rfl (by simp [legalFields, twoModes]) (endsIn_next trivial)
  | mred sd sa => exact checked_of_fields rfl (by simp [legalFields, scalarOk]) (endsIn_next rfl)
  | bred sd sa => exact checked_of_fields rfl (by simp [legalFields, scalarOk]) (endsIn_next rfl)
  | fqmul sd sa sb => exact checked_of_fields rfl (by simp [legalFields, scalarOk, Bool.and_assoc]) (endsIn_next rfl)
  | padd pd pa pb => exact checked_of_fields rfl (by simp [legalFields, slotOk, Bool.and_assoc]) (endsIn_next rfl)
  | psub pd pa pb => exact checked_of_fields rfl (by simp [legalFields, slotOk, Bool.and_assoc]) (endsIn_next rfl)
  | pred pd pa => exact checked_of_fields rfl (by simp [legalFields, slotOk]) (endsIn_next rfl)
  | ptomont pd pa => exact checked_of_fields rfl (by simp [legalFields, slotOk]) (endsIn_next rfl)
  | ntt pd pa => exact checked_of_fields rfl (by simp [legalFields, slotOk]) (endsIn_next rfl)
  | intt pd pa => exact checked_of_fields rfl (by simp [legalFields, slotOk]) (endsIn_next rfl)
  | basemul pd pa pb => exact checked_of_fields rfl (by simp [legalFields, slotOk, Bool.and_assoc]) (endsIn_next rfl)
  | xinit v => exact checked_of_fields rfl (by simp [legalFields, variantOk, Nat.lt_succ_iff]) (endsIn_next trivial)
  | xabsorb => exact checked_xabsorb s
  | xsqueeze => exact checked_xsqueeze s
  | cbd pd eta =>
    exact checked_of_fields_buffers rfl (by simp [legalFields, slotOk, etaOk, within, Bool.and_comm])
      (fun _ => addressesOk_of_one (.inl ⟨rfl, rfl⟩)) (endsIn_reading fun bs => endsIn_next rfl)
  | getnoise pd eta =>
    exact checked_of_fields_buffers rfl
      (by simp [legalFields, slotOk, etaOk, nonceOk, seedLenOk, within, Bool.and_assoc, Bool.and_left_comm])
      (fun _ => addressesOk_of_one (.inl ⟨rfl, rfl⟩)) (endsIn_reading fun seed => endsIn_next rfl)
  | rejparse pd =>
    exact checked_of_fields_buffers rfl (by simp [legalFields, slotOk, countOk, ringDegree])
      (fun _ => addressesOk_of_one (.inl ⟨rfl, rfl⟩)) (endsIn_reading fun bs => endsIn_next rfl)
  | genuni pd =>
    refine checked_of_fields_buffers rfl (by simp [legalFields, slotOk, indexPairOk, seedLenOk, within, Bool.and_assoc])
      (fun _ => addressesOk_of_one (.inl ⟨rfl, rfl⟩)) (endsIn_reading fun seed => ?_)
    split <;> exact endsIn_next rfl
  | challenge pd => exact checked_challenge pd s
  | pack pa d =>
    exact checked_of_fields_buffers rfl (by simp [legalFields, slotOk, packWidthOk, within])
      (fun _ => addressesOk_of_one (.inr ⟨rfl, rfl⟩)) (endsIn_next rfl)
  | unpack pd d =>
    exact checked_of_fields_buffers rfl (by simp [legalFields, slotOk, packWidthOk, within])
      (fun _ => addressesOk_of_one (.inl ⟨rfl, rfl⟩)) (endsIn_reading fun bs => endsIn_next rfl)
  | compress pd pa d =>
    exact checked_of_fields (ite_not_and _ _ _ _).symm
      (by simp [legalFields, slotOk, compressWidthOk, Nat.add_one_le_iff, Bool.and_assoc, Bool.and_comm]) (endsIn_next rfl)
  | decompress pd pa d =>
    exact checked_of_fields (ite_not_and _ _ _ _).symm
      (by simp [legalFields, slotOk, compressWidthOk, Nat.add_one_le_iff, Bool.and_assoc, Bool.and_comm]) (endsIn_next rfl)
  | sigKeygen mode => exact checked_sigKeygen mode s
  | sigSign mode => exact checked_sigSign mode s
  | sigVerify => exact checked_sigVerify s
  | kemKeygen mode => exact checked_kemKeygen mode s
  | kemEncap mode => exact checked_kemEncap mode s
  | kemDecap => exact checked_kemDecap s

/-- A command whose check fails ends with the first failing check's error and changes nothing else. -/
theorem exec_eq_of_checkError {i : Instr} {s : State} {e : ErrorCode} (h : checkError s i = some e) :
    exec i s = .next { s with status := erred e s.status } :=
  (exec_checked i s).1 e h

/-- Settles O23: a failing check touches `STATUS` only, and past the checks `XofLeft` holds. -/
theorem xofAfterCommand : Obligations.XofAfterCommand := by
  intro i s t h
  have hfailed : checkError s i ≠ none → t.xof = s.xof := fun hc => by
    obtain ⟨e, he⟩ := Option.ne_none_iff_exists'.1 hc
    cases (exec_eq_of_checkError he).symm.trans h
    rfl
  have hpassed : checkError s i = none → XofLeft s i t := fun hc => (exec_checked i s).2 hc t h
  refine ⟨fun hi hc => (hpassed hc).xof_eq_none hi, hfailed, fun hi hz hx ha hs => ?_⟩
  by_cases hc : checkError s i = none
  · exact (hpassed hc).xof_eq hi hz hx ha hs
  · exact hfailed hc

end Sys2Proof.Machine
end

section
/-! SUPPORT. `COMPRESS` and `DECOMPRESS`: the ranges of the two roundings of 43_codec.md R203, and what the commands store
(R204, R205). -/

namespace Sys2Proof.Machine

/-! ## The roundings -/

/-- A width below `LOGQ` counts fewer codes than there are residues. -/
theorem LegalCfg.two_pow_lt_q {c : Cfg} (h : LegalCfg c) {d : Nat} (hd : d < logq c) : (2 : Int) ^ d < c.q := by
  have hq := h.q_pos
  have hlog : d ≤ Nat.log2 (c.q - 1) ∧ c.q - 1 ≠ 0 := by
    rw [logq, bitlen] at hd
    split at hd <;> omega
  have hpow : 2 ^ d ≤ c.q - 1 := (Nat.le_log2 hlog.2).1 hlog.1
  exact_mod_cast (by omega : 2 ^ d < c.q)

/-- The codes of decompression, ties rounded up. -/
theorem decompressCoeff_eq_roundedBack (c : Cfg) {d : Nat} (hd : 1 ≤ d) (x : Int) :
    decompressCoeff c d x = roundedBack c d (x % 2 ^ d) := by
  have hhalf : (2 : Int) ^ d = 2 * 2 ^ (d - 1) := two_pow_eq_two_mul hd
  have hdouble : 2 * (x % 2 ^ d) * c.q + (2 : Int) ^ d = 2 * (x % 2 ^ d * c.q + 2 ^ (d - 1)) := by
    rw [mul_add, ← hhalf, mul_assoc]
  rw [roundedBack, hdouble, Int.mul_ediv_mul_of_pos _ _ two_pos, decompressCoeff]
  push_cast
  rfl

theorem abs_roundedCode_lt (c : Cfg) (d : Nat) (x : Int) : |roundedCode c d x| < 2 ^ d := by
  have hpow : (0 : Int) < 2 ^ d := by positivity
  rw [roundedCode, abs_of_nonneg (Int.emod_nonneg _ hpow.ne')]
  exact Int.emod_lt_of_pos _ hpow

/-- The greatest code is `2^d - 1`, and `Q / 2^d` is more than the half that rounding can add. -/
theorem abs_roundedBack_lt {c : Cfg} {d : Nat} {x : Int} (hq : (2 : Int) ^ d < c.q) (h0 : 0 ≤ x) (hx : x < 2 ^ d) :
    |roundedBack c d x| < c.q := by
  have hpow : (0 : Int) < 2 ^ d := by positivity
  have hcode : (x + 1) * c.q ≤ 2 ^ d * c.q := mul_le_mul_of_nonneg_right hx (by omega)
  rw [roundedBack, abs_of_nonneg (by positivity)]
  exact Int.ediv_lt_of_lt_mul (by positivity) (by linarith)

/-! ## The commands -/

/-- A coefficient-wise command whose results lie in `(-Q, Q)` stores them as they are. -/
theorem slotUnary_map_legal {s : State} (hl : LegalCfg s.cfg) (hs : SlotsFit s) {g : Int → Int} {pd pa : Nat}
    (hpd : pd < s.cfg.np) (hpa : pa < s.cfg.np) (hg : ∀ x, |g x| < s.cfg.q) :
    ∃ f : Poly, slotUnary (List.map g) pd pa s = .next { s with p := s.p.set pd f, status := completed s.status }
      ∧ f.length = 256 ∧ ∀ i, i < 256 → f.getD i 0 = g (coeff s pa i) := by
  refine ⟨_, slotUnary_legal _ hpd hpa, fitPoly_length _ _, fun i hi => ?_⟩
  rw [getD_fitPoly_map hs g pa hi, hl.wrap_of_abs_lt_q (hg _)]

theorem compressWidthOk_iff (s : State) (d : Nat) : compressWidthOk s d = true ↔ 1 ≤ d ∧ d < logq s.cfg := by
  simp [compressWidthOk]

theorem exec_compress_of_width {s : State} {d : Nat} (h : 1 ≤ d ∧ d < logq s.cfg) (pd pa : Nat) :
    exec (.compress pd pa d) s = slotUnary (compressPoly s.cfg d) pd pa s := by
  change execCompress pd pa d s = _
  rw [execCompress, (compressWidthOk_iff s d).2 h]
  rfl

theorem exec_decompress_of_width {s : State} {d : Nat} (h : 1 ≤ d ∧ d < logq s.cfg) (pd pa : Nat) :
    exec (.decompress pd pa d) s = slotUnary (decompressPoly s.cfg d) pd pa s := by
  change execDecompress pd pa d s = _
  rw [execDecompress, (compressWidthOk_iff s d).2 h]
  rfl

theorem checkError_of_illegal {i : Instr} {s : State} (h : legalFields s i = false) : checkError s i = some .illegalCmd := by
  rw [checkError, h]
  rfl

/-- Settles O50: the roundings of R203 stay below `Q`, so the slot write keeps them. -/
theorem compressDecompressResult : Obligations.CompressDecompressResult := by
  intro s pd pa d ⟨hc, hs, _⟩
  have hl := (cfgValid_iff_legal s.cfg).1 hc
  refine ⟨fun hpd hpa h1 hd => ⟨?compress, ?decompress⟩, fun hn => ?illegal⟩
  case compress =>
    have heq : ∀ x, compressCoeff s.cfg d x = roundedCode s.cfg d x := fun x =>
      compressCoeff_eq_roundedCode s.cfg d x (by have := hl.q_mod; omega)
    obtain ⟨f, hexec, hlen, hf⟩ := slotUnary_map_legal hl hs hpd hpa (g := compressCoeff s.cfg d) fun x => by
      rw [heq]
      exact (abs_roundedCode_lt _ _ _).trans (hl.two_pow_lt_q hd)
    exact ⟨f, (exec_compress_of_width ⟨h1, hd⟩ pd pa).trans hexec, hlen, fun i hi => (hf i hi).trans (heq _)⟩
  case decompress =>
    have heq := decompressCoeff_eq_roundedBack s.cfg h1
    obtain ⟨f, hexec, hlen, hf⟩ := slotUnary_map_legal hl hs hpd hpa (g := decompressCoeff s.cfg d) fun x => by
      rw [heq]
      exact abs_roundedBack_lt (hl.two_pow_lt_q hd) (Int.emod_nonneg _ (by positivity)) (Int.emod_lt_of_pos _ (by positivity))
    exact ⟨f, (exec_decompress_of_width ⟨h1, hd⟩ pd pa).trans hexec, hlen, fun i hi => (hf i hi).trans (heq _)⟩
  case illegal =>
    exact ⟨exec_eq_of_checkError (checkError_of_illegal (decide_eq_false hn)),
      exec_eq_of_checkError (checkError_of_illegal (decide_eq_false hn))⟩

end Sys2Proof.Machine
end

section
/-! SUPPORT. `NOP` and `ZEROIZE` (46_system.md R290, R291). -/

namespace Sys2Proof.Machine

theorem exec_nop (s : State) : exec .nop s = .next { s with status := completed s.status } := finish_eq s

/-- Settles O24: `NOP` completes the state it starts from. -/
theorem nopResult : Obligations.NopResult :=
  ⟨exec_nop, fun s => exec_nop (accept 0 s), fun c => ⟨_, exec_nop (accept 0 (State.resetOf c)), rfl⟩⟩

/-- Buffer memory after `ZEROIZE` with `MODE = 1`: 0 at every address of `B`, no value above (46_system.md R291). -/
theorem read_zeroBuffer (s : State) (a : Nat) :
    (zeroBuffer s).mem.read a = if a < s.cfg.bmemSize then some 0 else none := by
  have h := read_cellsAt 0 (List.replicate s.cfg.bmemSize 0) a
  rwa [Nat.zero_add, List.getElem?_replicate] at h

/-- Settles O25: modes 0 and 1 by `execZeroize`, a mode above 1 fails the field check. -/
theorem zeroizeResult : Obligations.ZeroizeResult := by
  intro s mode
  refine ⟨finish_eq _, ⟨_, finish_eq (zeroBuffer (zeroWorking s)), ?below, ?above⟩, fun hmode => ?illegal⟩
  case below => exact fun a ha => (read_zeroBuffer _ a).trans (if_pos ha)
  case above => exact fun a ha => (read_zeroBuffer _ a).trans (if_neg (Nat.not_lt.2 ha))
  case illegal => exact exec_eq_of_checkError (checkError_of_illegal (decide_eq_false (Nat.not_le.2 hmode)))

end Sys2Proof.Machine
end

section
/-! SUPPORT. The working state after a protocol command (46_system.md R293). Which check of such a command fails does not
depend on `xof`, and past the checks `xof` is absent at the end (42_sampler.md R176), so an ending by an error that keeps every
`xof` is a failed check. -/

namespace Sys2Proof.Machine

/-- Slots and scalar registers are 0 and there is no XOF (46_system.md R293). -/
def WorkingZeroed (c : Cfg) (t : State) : Prop :=
  t.p = List.replicate c.np zeroPoly ∧ t.sreg = Vector.replicate 4 0 ∧ t.xof = none

theorem endsIn_raiseFatal {s s' : State} (h : s'.cfg = s.cfg) : EndsIn (WorkingZeroed s.cfg) (.next (raiseFatal s')) :=
  endsIn_next (h ▸ ⟨rfl, rfl, rfl⟩)

theorem endsIn_finishProtocol {s s' : State} (h : s'.cfg = s.cfg) : EndsIn (WorkingZeroed s.cfg) (finishProtocol s') :=
  endsIn_next (h ▸ ⟨rfl, rfl, rfl⟩)

/-- A command's randomness leaves the configuration alone. -/
theorem endsIn_seedInput_cfg {Q : State → Prop} {mode a n : Nat} {s : State} {k : Bytes → State → Outcome}
    (h : ∀ e s', s'.cfg = s.cfg → EndsIn Q (k e s')) : EndsIn Q (seedInput mode a n s k) := fun t ht => by
  obtain ⟨-, hk⟩ | ⟨-, e, -, hk⟩ := seedInput_next ht
  · exact h _ { s with draws := (drawEntropy n s.draws).2 } rfl t hk
  · exact h e s rfl t hk

/-- The command run from `s` with `x` for `xof` either ends in one error for every `x`, or zeroes the working state of `s`. -/
def RaisesOrZeroes (s : State) (run : Option Xof → Outcome) : Prop :=
  (∃ e, ∀ x, run x = raised e { s with xof := x }) ∨ EndsIn (WorkingZeroed s.cfg) (run s.xof)

theorem RaisesOrZeroes.of_raised {s : State} {e : ErrorCode} : RaisesOrZeroes s fun x => raised e { s with xof := x } :=
  .inl ⟨e, fun _ => rfl⟩

/-- A check that does not read `xof` comes before the rest of the command. -/
theorem RaisesOrZeroes.check {s : State} {run : Option Xof → Outcome} {c : Option Xof → Prop} [DecidablePred c]
    {e : ErrorCode} (hc : ∀ x, c x ↔ c s.xof) (h : RaisesOrZeroes s run) :
    RaisesOrZeroes s fun x => if c x then raised e { s with xof := x } else run x := by
  by_cases hs : c s.xof
  · exact .inl ⟨e, fun x => if_pos ((hc x).2 hs)⟩
  · have hrun : ∀ x, (if c x then raised e { s with xof := x } else run x) = run x := fun x => if_neg (mt (hc x).1 hs)
    simpa only [hrun] using h

theorem raisesOrZeroes_sigKeygen (mode : Nat) (s : State) :
    RaisesOrZeroes s fun x => exec (.sigKeygen mode) { s with xof := x } := by
  cases hg : s.cfg.sig <;> simp only [exec, execSigKeygen, hg]
  case none => exact .of_raised
  case some g =>
    refine .check (fun _ => .rfl) <| .check (fun _ => .rfl) <| .inr <| endsIn_seedInput_cfg fun xi s' hs => ?_
    split
    · exact endsIn_raiseFatal hs
    · exact endsIn_finishProtocol hs

theorem raisesOrZeroes_sigSign (mode : Nat) (s : State) :
    RaisesOrZeroes s fun x => exec (.sigSign mode) { s with xof := x } := by
  cases hg : s.cfg.sig <;> simp only [exec, execSigSign, hg]
  case none => exact .of_raised
  case some g =>
    refine .check (fun _ => .rfl) <| .check (fun _ => .rfl) <| .check (fun _ => .rfl) <| .inr <|
      endsIn_reading fun msg => endsIn_reading fun sk => ?_
    split
    · exact endsIn_raiseFatal rfl
    · exact endsIn_raiseFatal rfl
    · exact endsIn_finishProtocol rfl

theorem raisesOrZeroes_sigVerify (s : State) :
    RaisesOrZeroes s fun x => exec .sigVerify { s with xof := x } := by
  cases hg : s.cfg.sig <;> simp only [exec, execSigVerify, hg]
  case none => exact .of_raised
  case some g =>
    refine .check (fun _ => .rfl) <| .check (fun _ => .rfl) <| .inr <|
      endsIn_reading fun sig => endsIn_reading fun msg => endsIn_reading fun pk => ?_
    split
    · exact endsIn_raiseFatal rfl
    · exact endsIn_finishProtocol rfl

theorem raisesOrZeroes_kemKeygen (mode : Nat) (s : State) :
    RaisesOrZeroes s fun x => exec (.kemKeygen mode) { s with xof := x } := by
  cases hg : s.cfg.kem <;> simp only [exec, execKemKeygen, hg]
  case none => exact .of_raised
  case some g =>
    refine .check (fun _ => .rfl) <| .check (fun _ => .rfl) <| .inr <|
      endsIn_seedInput_cfg fun d s₁ h₁ => endsIn_seedInput_cfg fun z s₂ h₂ => ?_
    split
    · exact endsIn_raiseFatal (h₂.trans h₁)
    · exact endsIn_finishProtocol (h₂.trans h₁)

theorem raisesOrZeroes_kemEncap (mode : Nat) (s : State) :
    RaisesOrZeroes s fun x => exec (.kemEncap mode) { s with xof := x } := by
  cases hg : s.cfg.kem <;> simp only [exec, execKemEncap, hg]
  case none => exact .of_raised
  case some g =>
    refine .check (fun _ => .rfl) <| .check (fun _ => .rfl) <| .check (fun _ => .rfl) <| .inr <|
      endsIn_reading fun pk => endsIn_seedInput_cfg fun e s' hs => ?_
    split
    · exact endsIn_raiseFatal hs
    · exact endsIn_finishProtocol hs

theorem raisesOrZeroes_kemDecap (s : State) :
    RaisesOrZeroes s fun x => exec .kemDecap { s with xof := x } := by
  cases hg : s.cfg.kem <;> simp only [exec, execKemDecap, hg]
  case none => exact .of_raised
  case some g =>
    refine .check (fun _ => .rfl) <| .check (fun _ => .rfl) <| .inr <|
      endsIn_reading fun ct => endsIn_reading fun sk => ?_
    split
    · exact endsIn_raiseFatal rfl
    · exact endsIn_finishProtocol rfl

theorem raisesOrZeroes_exec {i : Instr} (hi : isProtocol i = true) (s : State) :
    RaisesOrZeroes s fun x => exec i { s with xof := x } := by
  match i, hi with
  | .sigKeygen mode, _ => exact raisesOrZeroes_sigKeygen mode s
  | .sigSign mode, _ => exact raisesOrZeroes_sigSign mode s
  | .sigVerify, _ => exact raisesOrZeroes_sigVerify s
  | .kemKeygen mode, _ => exact raisesOrZeroes_kemKeygen mode s
  | .kemEncap mode, _ => exact raisesOrZeroes_kemEncap mode s
  | .kemDecap, _ => exact raisesOrZeroes_kemDecap s

/-- No check of a protocol command reads `xof` (42_sampler.md R174, R175 bind the `X*` commands only). -/
theorem checkError_of_xof {i : Instr} (hi : isProtocol i = true) (s : State) (x : Option Xof) :
    checkError { s with xof := x } i = checkError s i := by
  match i, hi with
  | .sigKeygen _, _ | .sigSign _, _ | .sigVerify, _ | .kemKeygen _, _ | .kemEncap _, _ | .kemDecap, _ => rfl

/-- A protocol command that passes its checks zeroes the working state: with a stream in the unit it would still drop it
(`exec_checked`), so it does not end in an error that keeps the stream. -/
theorem endsIn_workingZeroed {i : Instr} {s : State} (hi : isProtocol i = true) (hc : checkError s i = none) :
    EndsIn (WorkingZeroed s.cfg) (exec i s) := by
  obtain ⟨e, he⟩ | hz := raisesOrZeroes_exec hi s
  · let s' : State := { s with xof := some { variant := .xofa, absorbed := [], pos := 0, squeezing := false } }
    have hleft : XofLeft s' i (raise e s') := (exec_checked i s').2 ((checkError_of_xof hi s _).trans hc) _ (he _)
    have hnone : s'.xof = none := hleft.xof_eq_none (by simp [usesXofInside, hi])
    cases hnone
  · exact hz

/-- Settles O22: past the checks by `endsIn_workingZeroed`; a failing check touches `STATUS` only. -/
theorem protocolCommandsZeroWorkingState : Obligations.ProtocolCommandsZeroWorkingState := by
  intro i s t hi h
  refine ⟨fun hc => endsIn_workingZeroed hi hc t h, fun hc => ?_⟩
  obtain ⟨e, he⟩ := Option.ne_none_iff_exists'.1 hc
  cases (exec_eq_of_checkError he).symm.trans h
  exact ⟨rfl, rfl, rfl, rfl⟩

end Sys2Proof.Machine
end

section
/-! SUPPORT. How a command ends (60_exceptions.md R322, R324, R326): with a recoverable error and no effect, complete without an
error, or with the fatal error. -/

namespace Sys2Proof.Machine

/-- The three ends of a command that starts in `s`. -/
inductive CommandEnd (s : State) : State → Prop where
  | raised {e : ErrorCode} (he : e ≠ .rejExhausted) : CommandEnd s (raise e s)
  | completed {t : State} (h : t.status = completed s.status) : CommandEnd s t
  | halted {t : State} (h : t.status = halted s.status) : CommandEnd s t

section
variable {s s' : State} {k : Outcome}

theorem endsIn_of_raised {e : ErrorCode} (he : e ≠ .rejExhausted := by decide) : EndsIn (CommandEnd s) (raised e s) :=
  endsIn_next (.raised he)

theorem endsIn_of_finish (h : s'.status = s.status) : EndsIn (CommandEnd s) (finish s') :=
  endsIn_next (.completed (by simp [h, completed]))

theorem endsIn_of_raiseFatal (h : s'.status = s.status) : EndsIn (CommandEnd s) (.next (raiseFatal s')) :=
  endsIn_next (.halted (by simp [h, halted, erred, completed, ErrorCode.code]))

/-- A check before execution comes before the rest of the command. -/
theorem endsIn_of_check {p : Prop} [Decidable p] {e : ErrorCode} (hk : EndsIn (CommandEnd s) k)
    (he : e ≠ .rejExhausted := by decide) : EndsIn (CommandEnd s) (if p then raised e s else k) := by
  split
  · exact endsIn_of_raised he
  · exact hk

/-- A command's randomness leaves all but the draws alone. -/
theorem endsIn_seedInput_draws {Q : State → Prop} {mode a n : Nat} {k : Bytes → State → Outcome}
    (h : ∀ e d, EndsIn Q (k e { s with draws := d })) : EndsIn Q (seedInput mode a n s k) := fun t ht => by
  obtain ⟨-, hk⟩ | ⟨-, e, -, hk⟩ := seedInput_next ht
  · exact h _ _ t hk
  · exact h e s.draws t hk

theorem endsIn_of_slotUnary (f : Poly → Poly) (pd pa : Nat) : EndsIn (CommandEnd s) (slotUnary f pd pa s) :=
  endsIn_of_check (endsIn_of_finish rfl)

theorem endsIn_of_slotBinary (f : Poly → Poly → Poly) (pd pa pb : Nat) : EndsIn (CommandEnd s) (slotBinary f pd pa pb s) :=
  endsIn_of_check (endsIn_of_finish rfl)

end

/-! ## The commands that can exhaust a stream or need `xof` -/

theorem execXabsorb_ends (s : State) : EndsIn (CommandEnd s) (execXabsorb s) := by
  unfold execXabsorb
  split
  · exact endsIn_of_raised
  · exact endsIn_of_check <| endsIn_of_check <| endsIn_reading fun bs => endsIn_of_finish rfl

theorem execXsqueeze_ends (s : State) : EndsIn (CommandEnd s) (execXsqueeze s) := by
  unfold execXsqueeze
  split
  · exact endsIn_of_raised
  · exact endsIn_of_check <| endsIn_of_check <| endsIn_of_finish rfl

theorem execGenuni_ends (pd : Nat) (s : State) : EndsIn (CommandEnd s) (execGenuni pd s) := by
  refine endsIn_of_check <| endsIn_of_check <| endsIn_reading fun seed => ?_
  split
  · exact endsIn_of_raiseFatal rfl
  · exact endsIn_of_finish rfl

theorem execChallenge_ends (pd : Nat) (s : State) : EndsIn (CommandEnd s) (execChallenge pd s) := by
  unfold execChallenge
  split
  · exact endsIn_of_raised
  · refine endsIn_of_check <| endsIn_of_check <| endsIn_reading fun seed => ?_
    split
    · exact endsIn_of_raiseFatal rfl
    · exact endsIn_of_finish rfl

theorem execSigKeygen_ends (mode : Nat) (s : State) : EndsIn (CommandEnd s) (execSigKeygen mode s) := by
  unfold execSigKeygen
  split
  · exact endsIn_of_raised
  · refine endsIn_of_check <| endsIn_of_check <| endsIn_seedInput_draws fun xi d => ?_
    split
    · exact endsIn_of_raiseFatal rfl
    · exact endsIn_of_finish rfl

theorem execSigSign_ends (mode : Nat) (s : State) : EndsIn (CommandEnd s) (execSigSign mode s) := by
  unfold execSigSign
  split
  · exact endsIn_of_raised
  · refine endsIn_of_check <| endsIn_of_check <| endsIn_of_check <|
      endsIn_reading fun msg => endsIn_reading fun sk => ?_
    split
    · exact endsIn_of_raiseFatal rfl
    · exact endsIn_of_raiseFatal rfl
    · exact endsIn_of_finish rfl

theorem execSigVerify_ends (s : State) : EndsIn (CommandEnd s) (execSigVerify s) := by
  unfold execSigVerify
  split
  · exact endsIn_of_raised
  · refine endsIn_of_check <| endsIn_of_check <|
      endsIn_reading fun sig => endsIn_reading fun msg => endsIn_reading fun pk => ?_
    split
    · exact endsIn_of_raiseFatal rfl
    · exact endsIn_of_finish rfl

theorem execKemKeygen_ends (mode : Nat) (s : State) : EndsIn (CommandEnd s) (execKemKeygen mode s) := by
  unfold execKemKeygen
  split
  · exact endsIn_of_raised
  · refine endsIn_of_check <| endsIn_of_check <|
      endsIn_seedInput_draws fun d _ => endsIn_seedInput_draws fun z _ => ?_
    split
    · exact endsIn_of_raiseFatal rfl
    · exact endsIn_of_finish rfl

theorem execKemEncap_ends (mode : Nat) (s : State) : EndsIn (CommandEnd s) (execKemEncap mode s) := by
  unfold execKemEncap
  split
  · exact endsIn_of_raised
  · refine endsIn_of_check <| endsIn_of_check <| endsIn_of_check <|
      endsIn_reading fun pk => endsIn_seedInput_draws fun e _ => ?_
    split
    · exact endsIn_of_raiseFatal rfl
    · exact endsIn_of_finish rfl

theorem execKemDecap_ends (s : State) : EndsIn (CommandEnd s) (execKemDecap s) := by
  unfold execKemDecap
  split
  · exact endsIn_of_raised
  · refine endsIn_of_check <| endsIn_of_check <| endsIn_reading fun ct => endsIn_reading fun sk => ?_
    split
    · exact endsIn_of_raiseFatal rfl
    · exact endsIn_of_finish rfl

/-! ## Every command -/

theorem exec_ends (i : Instr) (s : State) : EndsIn (CommandEnd s) (exec i s) := by
  cases i with
  | nop => exact endsIn_of_finish rfl
  | zeroize mode => exact endsIn_of_check (endsIn_of_finish (by split <;> rfl))
  | mred sd sa => exact endsIn_of_check (endsIn_of_finish rfl)
  | bred sd sa => exact endsIn_of_check (endsIn_of_finish rfl)
  | fqmul sd sa sb => exact endsIn_of_check (endsIn_of_finish rfl)
  | padd pd pa pb => exact endsIn_of_slotBinary _ pd pa pb
  | psub pd pa pb => exact endsIn_of_slotBinary _ pd pa pb
  | pred pd pa => exact endsIn_of_slotUnary _ pd pa
  | ptomont pd pa => exact endsIn_of_slotUnary _ pd pa
  | ntt pd pa => exact endsIn_of_slotUnary _ pd pa
  | intt pd pa => exact endsIn_of_slotUnary _ pd pa
  | basemul pd pa pb => exact endsIn_of_slotBinary _ pd pa pb
  | xinit v => exact endsIn_of_check (endsIn_of_finish rfl)
  | xabsorb => exact execXabsorb_ends s
  | xsqueeze => exact execXsqueeze_ends s
  | cbd pd eta => exact endsIn_of_check <| endsIn_of_check <| endsIn_reading fun bs => endsIn_of_finish rfl
  | getnoise pd eta => exact endsIn_of_check <| endsIn_of_check <| endsIn_reading fun seed => endsIn_of_finish rfl
  | rejparse pd => exact endsIn_of_check <| endsIn_of_check <| endsIn_reading fun bs => endsIn_of_finish rfl
  | genuni pd => exact execGenuni_ends pd s
  | challenge pd => exact execChallenge_ends pd s
  | pack pa d => exact endsIn_of_check <| endsIn_of_check <| endsIn_of_finish rfl
  | unpack pd d => exact endsIn_of_check <| endsIn_of_check <| endsIn_reading fun bs => endsIn_of_finish rfl
  | compress pd pa d => exact endsIn_of_check (endsIn_of_slotUnary _ pd pa)
  | decompress pd pa d => exact endsIn_of_check (endsIn_of_slotUnary _ pd pa)
  | sigKeygen mode => exact execSigKeygen_ends mode s
  | sigSign mode => exact execSigSign_ends mode s
  | sigVerify => exact execSigVerify_ends s
  | kemKeygen mode => exact execKemKeygen_ends mode s
  | kemEncap mode => exact execKemEncap_ends mode s
  | kemDecap => exact execKemDecap_ends s

/-- The codes of the recoverable errors (60_exceptions.md R320). -/
theorem ErrorCode.code_of_recoverable {e : ErrorCode} (he : e ≠ .rejExhausted) : 1 ≤ e.code ∧ e.code ≤ 4 := by
  cases e with
  | illegalCmd | invalidLen | addr | xofSeq => decide
  | rejExhausted => exact absurd rfl he

/-- Settles O19: of the three ends, only a recoverable error leaves `ERR = 1` with a code other than 5. -/
theorem recoverableErrorsPrecise : Obligations.RecoverableErrorsPrecise := by
  intro i s t hs h herr hcode
  cases exec_ends i s t h with
  | raised he =>
    obtain ⟨h1, h4⟩ := ErrorCode.code_of_recoverable he
    exact ⟨h1, h4, rfl⟩
  | completed ht => simp [ht, completed, hs] at herr
  | halted ht => simp [ht, halted, erred, ErrorCode.code] at hcode

end Sys2Proof.Machine
end

section
/-! SUPPORT. The host's write to `STATUS` (10_state.md R27, 60_exceptions.md R327). -/

namespace Sys2Proof.Machine

/-- Clearing `ERR` where the bit `b` of the write asks for it. -/
theorem ite_acknowledgeError (b : Bool) (st : Status) :
    (if b then acknowledgeError st else st) =
      { st with err := st.err && (st.halt || !b), errcode := if b && !st.halt then 0 else st.errcode } := by
  obtain ⟨busy, done, err, halt, cmdovr, errcode⟩ := st
  cases b with
  | false => simp
  | true => cases halt <;> simp [acknowledgeError]

/-- Each write-1-to-clear bit clears its own field; `HALT` keeps the error. -/
theorem writeStatus_eq (st : Status) (v : Word) :
    writeStatus st v =
      { st with
        done := st.done && !v.getLsbD 1
        cmdovr := st.cmdovr && !v.getLsbD 4
        err := st.err && (st.halt || !v.getLsbD 2)
        errcode := if v.getLsbD 2 && !st.halt then 0 else st.errcode } := by
  simp only [writeStatus, ite_acknowledgeError]
  cases v.getLsbD 1 <;> cases v.getLsbD 4 <;> simp

theorem hostWriteWord_status (s : State) (v : Word) :
    hostWriteWord s 0x060 v = { s with status := writeStatus s.status v } := rfl

/-- Settles O11: the write is `writeStatus`, and `CMD` is dropped in every state with `ERR = 1`. -/
theorem returnFromError : Obligations.ReturnFromError := by
  intro s v w rest hc hb
  refine ⟨⟨_, step_write_idle hc hb (by decide) (hostWriteWord_status _ v), ?write⟩, fun herr => ?dropped⟩
  case dropped => exact step_write_cmd hc (writeCmd_dropped w (by simp [canAccept_iff, herr]))
  case write =>
    rw [writeStatus_eq]
    refine ⟨rfl, hb, rfl, rfl, rfl, rfl, rfl, fun h2 hhalt => ?accepted, fun h1 h4 => ?lowered⟩
    case accepted => simp [canAccept_iff, hb, h2, hhalt]
    case lowered => simp [irq, h1, h4]

end Sys2Proof.Machine
end

section
/-! SUPPORT. The encoder and the decoder undo each other (30_encoding.md R91, R92, R97). -/

namespace Sys2Proof.Machine

open Sys2Proof.Laws

/-! ## The row of a command -/

theorem rowOf_eq (i : Instr) : rowOf i = (i.format.mask, BitVec.ofNat 32 i.opcode) := by
  cases i <;> rfl

/-- The word of a well-formed command has the command's opcode and matches its row. -/
theorem encode_matches_row (i : Instr) : EncodingMatchesRow.Statement i := by
  cases i with
  | nop => exact EncodingMatchesRow.nop
  | zeroize mode => exact EncodingMatchesRow.zeroize mode
  | mred sd sa => exact EncodingMatchesRow.mred sd sa
  | bred sd sa => exact EncodingMatchesRow.bred sd sa
  | fqmul sd sa sb => exact EncodingMatchesRow.fqmul sd sa sb
  | padd pd pa pb => exact EncodingMatchesRow.padd pd pa pb
  | psub pd pa pb => exact EncodingMatchesRow.psub pd pa pb
  | pred pd pa => exact EncodingMatchesRow.pred pd pa
  | ptomont pd pa => exact EncodingMatchesRow.ptomont pd pa
  | ntt pd pa => exact EncodingMatchesRow.ntt pd pa
  | intt pd pa => exact EncodingMatchesRow.intt pd pa
  | basemul pd pa pb => exact EncodingMatchesRow.basemul pd pa pb
  | xinit v => exact EncodingMatchesRow.xinit v
  | xabsorb => exact EncodingMatchesRow.xabsorb
  | xsqueeze => exact EncodingMatchesRow.xsqueeze
  | cbd pd eta => exact EncodingMatchesRow.cbd pd eta
  | getnoise pd eta => exact EncodingMatchesRow.getnoise pd eta
  | rejparse pd => exact EncodingMatchesRow.rejparse pd
  | genuni pd => exact EncodingMatchesRow.genuni pd
  | challenge pd => exact EncodingMatchesRow.challenge pd
  | pack pa d => exact EncodingMatchesRow.pack pa d
  | unpack pd d => exact EncodingMatchesRow.unpack pd d
  | compress pd pa d => exact EncodingMatchesRow.compress pd pa d
  | decompress pd pa d => exact EncodingMatchesRow.decompress pd pa d
  | sigKeygen mode => exact EncodingMatchesRow.sigKeygen mode
  | sigSign mode => exact EncodingMatchesRow.sigSign mode
  | sigVerify => exact EncodingMatchesRow.sigVerify
  | kemKeygen mode => exact EncodingMatchesRow.kemKeygen mode
  | kemEncap mode => exact EncodingMatchesRow.kemEncap mode
  | kemDecap => exact EncodingMatchesRow.kemDecap

/-! ## The command of a row and a word's fields -/

/-- The command of the same row whose operands are the fields of `w`. -/
def withFieldsOf (w : Word) : Instr → Instr
  | .nop => .nop
  | .zeroize _ => .zeroize (fieldMode w)
  | .mred _ _ => .mred (fieldRd w) (fieldRa w)
  | .bred _ _ => .bred (fieldRd w) (fieldRa w)
  | .fqmul _ _ _ => .fqmul (fieldRd w) (fieldRa w) (fieldRb w)
  | .padd _ _ _ => .padd (fieldRd w) (fieldRa w) (fieldRb w)
  | .psub _ _ _ => .psub (fieldRd w) (fieldRa w) (fieldRb w)
  | .pred _ _ => .pred (fieldRd w) (fieldRa w)
  | .ptomont _ _ => .ptomont (fieldRd w) (fieldRa w)
  | .ntt _ _ => .ntt (fieldRd w) (fieldRa w)
  | .intt _ _ => .intt (fieldRd w) (fieldRa w)
  | .basemul _ _ _ => .basemul (fieldRd w) (fieldRa w) (fieldRb w)
  | .xinit _ => .xinit (fieldWd w)
  | .xabsorb => .xabsorb
  | .xsqueeze => .xsqueeze
  | .cbd _ _ => .cbd (fieldRd w) (fieldWd w)
  | .getnoise _ _ => .getnoise (fieldRd w) (fieldWd w)
  | .rejparse _ => .rejparse (fieldRd w)
  | .genuni _ => .genuni (fieldRd w)
  | .challenge _ => .challenge (fieldRd w)
  | .pack _ _ => .pack (fieldRa w) (fieldWd w)
  | .unpack _ _ => .unpack (fieldRd w) (fieldWd w)
  | .compress _ _ _ => .compress (fieldRd w) (fieldRa w) (fieldWd w)
  | .decompress _ _ _ => .decompress (fieldRd w) (fieldRa w) (fieldWd w)
  | .sigKeygen _ => .sigKeygen (fieldMode w)
  | .sigSign _ => .sigSign (fieldMode w)
  | .sigVerify => .sigVerify
  | .kemKeygen _ => .kemKeygen (fieldMode w)
  | .kemEncap _ => .kemEncap (fieldMode w)
  | .kemDecap => .kemDecap

/-- A word with a row's opcode decodes, where it matches the row, to the row's command with the word's fields. -/
theorem decode_of_fieldOpc {w : Word} {i : Instr} (h : fieldOpc w = i.opcode) :
    decode w = inFormat i.format w (withFieldsOf w i) := by
  unfold decode
  cases i <;> simp only [h, Instr.opcode] <;> rfl

theorem decode_of_matches_row {w : Word} {i : Instr} (h : fieldOpc w = i.opcode)
    (hm : w &&& i.format.mask = BitVec.ofNat 32 i.opcode) : decode w = .ok (withFieldsOf w i) := by
  rw [decode_of_fieldOpc h, inFormat, h, if_pos hm]

/-- The encoder's word carries each operand in its field. -/
theorem withFieldsOf_encode {i : Instr} (h : i.wellFormed = true) : withFieldsOf (encode i) i = i := by
  cases i <;>
    simp only [Instr.wellFormed, fitsReg, fitsWd, fitsMode, Bool.and_eq_true, decide_eq_true_eq] at h <;>
    simp only [withFieldsOf, encode, fieldRd_packFields, fieldRa_packFields, fieldRb_packFields, fieldWd_packFields,
      fieldMode_packFields, h, Nat.reduceLT]

/-- Settles O2: the encoder's word matches the command's row, and its fields are the command's operands. -/
theorem decodeEncode : Obligations.DecodeEncode := by
  intro i h
  obtain ⟨hopc, hrow⟩ := encode_matches_row i h
  rw [decode_of_matches_row hopc hrow, withFieldsOf_encode h]

/-! ## From a word back to itself -/

/-- A word is put together from its fields where bits 31:27 are 0 (30_encoding.md R91). -/
theorem packFields_fields {w : Word} (h : w.toNat < 2 ^ 27) :
    packFields (fieldOpc w) (fieldRd w) (fieldRa w) (fieldRb w) (fieldWd w) (fieldMode w) = w := by
  apply BitVec.eq_of_toNat_eq
  simp only [packFields, fieldOpc, fieldRd, fieldRa, fieldRb, fieldWd, fieldMode, BitVec.toNat_ofNat]
  omega

/-- The bits that a row fixes are 0 above the opcode. -/
theorem bits_eq_zero_of_matches {w m : Word} {opc lo n : Nat} (h : w &&& m = BitVec.ofNat 32 opc) (ho : opc < 2 ^ 8)
    (hlo : 8 ≤ lo) (hm : ∀ t, t < n → m.getLsbD (lo + t) = true) : w.toNat / 2 ^ lo % 2 ^ n = 0 := by
  apply Nat.eq_of_testBit_eq
  intro t
  rw [Nat.testBit_mod_two_pow, Nat.testBit_div_two_pow, Nat.zero_testBit]
  by_cases ht : t < n
  · have hbit : (w &&& m).getLsbD (lo + t) = w.toNat.testBit (lo + t) := by
      rw [BitVec.getLsbD_and, hm t ht, Bool.and_true, BitVec.getLsbD]
    have hopc : opc.testBit (lo + t) = false :=
      Nat.testBit_lt_two_pow (ho.trans_le (Nat.pow_le_pow_right (by omega) (by omega)))
    rw [Nat.add_comm, ← hbit, h, BitVec.getLsbD_ofNat, hopc]
    simp
  · simp [ht]

theorem opcode_lt (i : Instr) : i.opcode < 2 ^ 8 := by
  cases i <;> norm_num [Instr.opcode]

/-- No row leaves bits 31:27 free. -/
theorem mask_high (f : Format) : ∀ t, t < 5 → f.mask.getLsbD (27 + t) = true := by
  cases f <;> decide

theorem toNat_lt_of_matches_row {w : Word} {i : Instr} (h : w &&& i.format.mask = BitVec.ofNat 32 i.opcode) :
    w.toNat < 2 ^ 27 := by
  have := bits_eq_zero_of_matches (n := 5) h (opcode_lt i) (by decide) (mask_high _)
  have := w.isLt
  omega

/-- The format fixes the `n` bits from `lo` on. -/
def fixes (f : Format) (lo n : Nat) : Bool := (List.range n).all fun t => f.mask.getLsbD (lo + t)

/-- A word that matches a row is the encoding of the row's command with the word's fields: the fields it does not use are
fixed at 0. -/
theorem encode_withFieldsOf {w : Word} {i : Instr} (ho : fieldOpc w = i.opcode)
    (h : w &&& i.format.mask = BitVec.ofNat 32 i.opcode) : encode (withFieldsOf w i) = w := by
  have hzero : ∀ lo n, 8 ≤ lo → fixes i.format lo n = true → w.toNat / 2 ^ lo % 2 ^ n = 0 := fun lo n hlo hf =>
    bits_eq_zero_of_matches h (opcode_lt i) hlo (by simpa [fixes] using hf)
  have hrd : fixes i.format 8 4 = true → fieldRd w = 0 := hzero 8 4 (by decide)
  have hra : fixes i.format 12 4 = true → fieldRa w = 0 := hzero 12 4 (by decide)
  have hrb : fixes i.format 16 4 = true → fieldRb w = 0 := hzero 16 4 (by decide)
  have hwd : fixes i.format 20 5 = true → fieldWd w = 0 := hzero 20 5 (by decide)
  have hmode : fixes i.format 25 2 = true → fieldMode w = 0 := hzero 25 2 (by decide)
  have hw := packFields_fields (toNat_lt_of_matches_row h)
  rw [ho] at hw
  refine Eq.trans ?_ hw
  cases i <;>
    simp only [Instr.format] at hrd hra hrb hwd hmode <;>
    simp (disch := decide) only [withFieldsOf, encode, Instr.opcode, hrd, hra, hrb, hwd, hmode]

theorem wellFormed_withFieldsOf (w : Word) (i : Instr) : (withFieldsOf w i).wellFormed = true := by
  have hrd : fieldRd w < 16 := Nat.mod_lt _ (by decide)
  have hra : fieldRa w < 16 := Nat.mod_lt _ (by decide)
  have hrb : fieldRb w < 16 := Nat.mod_lt _ (by decide)
  have hwd : fieldWd w < 32 := Nat.mod_lt _ (by decide)
  have hmode : fieldMode w < 4 := Nat.mod_lt _ (by decide)
  cases i <;> simp [withFieldsOf, Instr.wellFormed, fitsReg, fitsWd, fitsMode, hrd, hra, hrb, hwd, hmode]

theorem rowOf_opcode (i : Instr) : (rowOf i).2.toNat = i.opcode := by
  rw [rowOf_eq, BitVec.toNat_ofNat, Nat.mod_eq_of_lt ((opcode_lt i).trans (by decide))]

/-- A word that decodes has the opcode of its command, and its fields are the command's operands. -/
theorem fields_of_decode_ok {w : Word} {i : Instr} (h : decode w = .ok i) :
    fieldOpc w = i.opcode ∧ withFieldsOf w i = i := by
  obtain ⟨j, ho, -⟩ | ⟨-, hd⟩ := decode_cases w
  · rw [rowOf_opcode] at ho
    rw [decode_of_fieldOpc ho, inFormat] at h
    split at h
    case isTrue =>
      cases h
      rw [ho]
      cases j <;> exact ⟨rfl, rfl⟩
    case isFalse => cases h
  · rw [hd] at h
    cases h

/-- Settles O3: a word that decodes matches the row of its command, and the bits the row fixes leave the encoder no choice. -/
theorem encodeDecode : Obligations.EncodeDecode := by
  intro w i h
  obtain ⟨ho, hi⟩ := fields_of_decode_ok h
  have hrow : w &&& i.format.mask = BitVec.ofNat 32 i.opcode := by
    simpa only [rowOf_eq] using matches_row_of_decode_ok h
  refine ⟨?fits, ?word, hrow, (rowOf_eq i).symm, rowOf_mem_opcodeRows i⟩
  case fits =>
    rw [← hi]
    exact wellFormed_withFieldsOf w i
  case word =>
    rw [← hi]
    exact encode_withFieldsOf ho hrow

/-- Settles O1: the fields of nine words, read out. -/
theorem decodeSampleWords : Obligations.DecodeSampleWords := by
  unfold Obligations.DecodeSampleWords
  decide

/-! ## The turn that runs a command -/

theorem runCommand_of_decode_ok {s : State} {i : Instr} (h : decode s.latch.word = .ok i) : runCommand s = exec i s := by
  rw [runCommand, h]

/-- Settles O5: the turn, listed or not, is `runCommand` on a busy core. -/
theorem stepRunsCommand : Obligations.StepRunsCommand := by
  intro s i rest hc
  refine ⟨fun hb hd => ⟨?listed, step_runs_captured hc rfl hb hd⟩, fun w hd => ?accepted, fun hb => ?idle⟩
  case listed =>
    rw [step_event hc]
    exact (if_pos hb).trans (runCommand_of_decode_ok hd)
  case accepted =>
    rw [step_withFetchWord hc]
    exact runCommand_of_decode_ok (s := accept w s) hd
  case idle =>
    rw [step_event hc]
    exact if_neg (by simp [hb])

end Sys2Proof.Machine
end

section
/-! SUPPORT. The policies of signing and the coins it draws (44_signature.md R237, R238, R244; 10_state.md R48). -/

namespace Sys2Proof.Machine

/-! ## Norms (00_scope.md R16) -/

theorem foldl_max_lt_iff {α : Type} (h : α → Nat) (n : Nat) : ∀ (l : List α) (m : Nat),
    l.foldl (fun m x => max m (h x)) m < n ↔ m < n ∧ ∀ x ∈ l, h x < n
  | [], m => by simp
  | x :: l, m => by simp [foldl_max_lt_iff h n l, and_assoc]

theorem polyNorm_lt_iff {n : Nat} (hn : 0 < n) (f : Poly) : polyNorm f < n ↔ ∀ x ∈ f, x.natAbs < n := by
  simp [polyNorm, foldl_max_lt_iff Int.natAbs, hn]

theorem vecNorm_lt_iff {n : Nat} (hn : 0 < n) (v : List Poly) : vecNorm v < n ↔ ∀ f ∈ v, ∀ x ∈ f, x.natAbs < n := by
  simp [vecNorm, foldl_max_lt_iff polyNorm, polyNorm_lt_iff hn, hn]

/-- A bound test with the threshold `n - b`. -/
theorem vecNorm_add_lt_iff {n b : Nat} (hb : b < n) (v : List Poly) :
    vecNorm v + b < n ↔ ∀ f ∈ v, ∀ x ∈ f, x.natAbs + b < n := by
  simp only [← Nat.lt_sub_iff_add_lt, vecNorm_lt_iff (Nat.sub_pos_of_lt hb)]

/-! ## The policies -/

theorem boundTest_iff {c : Cfg} {g : SigCfg} {b : Nat} (h1 : b < g.gamma1) (h2 : b < g.gamma2) (z r : List Poly) :
    boundTest c g b z r = true ↔ WithinBounds c g b z r := by
  simp [boundTest, vecNorm_add_lt_iff h1, vecNorm_add_lt_iff h2]

/-- A tighter threshold rejects more. -/
theorem boundTest_mono {c : Cfg} {g : SigCfg} {a b : Nat} (h : a ≤ b) {z r : List Poly} (hb : boundTest c g b z r = true) :
    boundTest c g a z r = true := by
  simp only [boundTest, Bool.and_eq_true, decide_eq_true_eq] at hb ⊢
  omega

/-- `MODE` 0 and 1 test the bounds at `BETA` and `2*BETA` and draw nothing. -/
theorem policyAccepts_of_le_one {mode : Nat} (h : mode ≤ 1) (c : Cfg) (g : SigCfg) (z r : List Poly) (d : Draws) :
    policyAccepts c g mode z r d = (boundTest c g ((mode + 1) * beta g) z r, d) := by
  obtain rfl | rfl : mode = 0 ∨ mode = 1 := by omega
  · rw [Nat.zero_add, Nat.one_mul]
    rfl
  · rfl

theorem policyAccepts_two (c : Cfg) (g : SigCfg) (z r : List Poly) (d : Draws) :
    policyAccepts c g 2 z r d = ((drawCoin d).1 || boundTest c g (beta g) z r, coinsDrawn d 1) := by
  rw [← drawCoin_snd]
  rfl

/-! ## The coins of an attempt and of the loop -/

/-- How many coins an attempt draws: one with `MODE = 2`, unless its challenge's stream is used up before. -/
def attemptCoins (mode : Nat) : Attempt → Nat
  | .exhausted => 0
  | _ => if mode = 2 then 1 else 0

theorem coinsDrawn_zero (d : Draws) : coinsDrawn d 0 = d := by
  simp [coinsDrawn]

theorem policyAccepts_draws {mode : Nat} (h : mode ≤ 2) (c : Cfg) (g : SigCfg) (z r : List Poly) (d : Draws) :
    (policyAccepts c g mode z r d).2 = coinsDrawn d (if mode = 2 then 1 else 0) := by
  obtain h | rfl : mode ≤ 1 ∨ mode = 2 := by omega
  · rw [policyAccepts_of_le_one h, if_neg (by omega), coinsDrawn_zero]
  · rw [policyAccepts_two, if_pos rfl]

section
variable (c : Cfg) (g : SigCfg) (k : SigSecret) (ahat : List (List Poly)) (mu rpp : Bytes) {mode : Nat}

theorem signAttempt_draws (h : mode ≤ 2) (kappa : Nat) (d : Draws) :
    (signAttempt c g k ahat mu rpp mode kappa d).2
      = coinsDrawn d (attemptCoins mode (signAttempt c g k ahat mu rpp mode kappa d).1) := by
  unfold signAttempt
  dsimp only
  split
  · exact (coinsDrawn_zero d).symm
  · split_ifs <;> exact policyAccepts_draws h ..

/-- The attempts a loop made: `fuel` of them, unless it ended before. -/
def attemptsMade (attempt fuel : Nat) : SignEnd → Nat → Prop
  | .signed _ n, k => n = attempt + k
  | .attemptsExhausted, k => k = fuel
  | .streamExhausted, k => k ≤ fuel

/-- The loop draws one coin per attempt with `MODE = 2` and none otherwise. -/
theorem signLoop_draws (h : mode ≤ 2) : ∀ (fuel attempt kappa : Nat) (d : Draws),
    ∃ n, attemptsMade attempt fuel (signLoop c g k ahat mu rpp mode fuel attempt kappa d).1 n
      ∧ (signLoop c g k ahat mu rpp mode fuel attempt kappa d).2 = coinsDrawn d (if mode = 2 then n else 0)
  | 0, attempt, kappa, d => ⟨0, rfl, by rw [ite_self, coinsDrawn_zero]; rfl⟩
  | fuel + 1, attempt, kappa, d => by
    have hd := signAttempt_draws c g k ahat mu rpp h kappa d
    rw [signLoop]
    generalize hr : signAttempt c g k ahat mu rpp mode kappa d = r at hd ⊢
    obtain ⟨a, d'⟩ := r
    obtain rfl : d' = coinsDrawn d (attemptCoins mode a) := hd
    cases a with
    | signed sig => exact ⟨1, rfl, rfl⟩
    | exhausted => exact ⟨0, Nat.zero_le _, by rw [ite_self]; rfl⟩
    | retry =>
      obtain ⟨n, hn, hdraws⟩ := signLoop_draws h fuel (attempt + 1) (kappa + g.sl) (coinsDrawn d (attemptCoins mode .retry))
      refine ⟨n + 1, ?made, ?draws⟩
      case made =>
        dsimp only
        revert hn
        generalize (signLoop c g k ahat mu rpp mode fuel (attempt + 1) (kappa + g.sl) _).1 = e
        cases e <;> simp only [attemptsMade] <;> omega
      case draws =>
        dsimp only
        rw [hdraws, coinsDrawn_add]
        congr 1
        simp only [attemptCoins]
        split <;> omega

end

/-- Signing draws one coin per attempt with `MODE = 2` and none otherwise. -/
theorem signMessage_draws {mode : Nat} (h : mode ≤ 2) (c : Cfg) (g : SigCfg) (sk msg : Bytes) (d : Draws) :
    ∃ n, attemptsMade 0 c.maxSignRetries (signMessage c g mode sk msg d).1 n
      ∧ (signMessage c g mode sk msg d).2 = coinsDrawn d (if mode = 2 then n else 0) := by
  unfold signMessage
  dsimp only
  split
  · exact ⟨0, Nat.zero_le _, by rw [ite_self, coinsDrawn_zero]⟩
  · exact signLoop_draws c g _ _ _ _ h _ _ _ _

/-- Settles O55: the policies by their bound tests, the coins by counting them along the loop. -/
theorem signingDrawsAndPolicies : Obligations.SigningDrawsAndPolicies := by
  intro c g sk msg d d' sig n z r
  have hcoins : ∀ e, signMessage c g 2 sk msg d = (e, d') →
      ∃ k, attemptsMade 0 c.maxSignRetries e k ∧ d' = coinsDrawn d k := fun e he => by
    simpa [he] using signMessage_draws (le_refl 2) c g sk msg d
  refine ⟨fun mode hm h1 h2 => ?bounds, fun mode hm => ?nodraw, ?two, fun h => ?relaxed, fun mode hm => ?quiet, fun h => ?signed,
    fun h => ?rejected, fun h => ?stream⟩
  case bounds => rw [policyAccepts_of_le_one hm, boundTest_iff h1 h2]
  case nodraw => rw [policyAccepts_of_le_one hm]
  case two => rw [policyAccepts_two, policyAccepts_of_le_one (Nat.zero_le 1), Nat.zero_add, Nat.one_mul]
  case relaxed =>
    rw [policyAccepts_of_le_one (le_refl 1)] at h
    rw [policyAccepts_of_le_one (Nat.zero_le 1)]
    exact boundTest_mono (by omega) h
  case quiet =>
    obtain ⟨k, -, hk⟩ := signMessage_draws (by omega : mode ≤ 2) c g sk msg d
    rw [hk, if_neg (by omega), coinsDrawn_zero]
  case signed =>
    obtain ⟨k, hk, rfl⟩ := hcoins _ h
    rw [show n = k by simpa [attemptsMade] using hk]
  case rejected =>
    obtain ⟨k, hk, rfl⟩ := hcoins _ h
    rw [show k = _ from hk]
  case stream =>
    obtain ⟨k, hk, rfl⟩ := hcoins _ h
    exact ⟨k, hk, rfl⟩

end Sys2Proof.Machine
end

section
/-! SUPPORT. What a command does once its checks have passed (30_encoding.md R96 steps 4 and 5). -/

namespace Sys2Proof.Machine

/-- How a command goes on once no check has failed: the text of `exec` with the checks left out. -/
inductive Body (s : State) : Instr → Outcome → Prop where
  | nop : Body s .nop (finish s)
  | zeroize (mode : Nat) : Body s (.zeroize mode) (finish (if mode = 1 then zeroBuffer (zeroWorking s) else zeroWorking s))
  | mred (sd sa : Nat) :
      Body s (.mred sd sa) (finish (setScalar s sd (montgomeryReduce s.cfg (wrap (2 * s.cfg.w) (getScalar s sa)))))
  | bred (sd sa : Nat) : Body s (.bred sd sa) (finish (setScalar s sd (barrettReduce s.cfg (wrap s.cfg.w (getScalar s sa)))))
  | fqmul (sd sa sb : Nat) :
      Body s (.fqmul sd sa sb)
        (finish (setScalar s sd (fqmul s.cfg (wrap s.cfg.w (getScalar s sa)) (wrap s.cfg.w (getScalar s sb)))))
  | padd (pd pa pb : Nat) : Body s (.padd pd pa pb) (finish (setSlot s pd (polyAdd (getSlot s pa) (getSlot s pb))))
  | psub (pd pa pb : Nat) : Body s (.psub pd pa pb) (finish (setSlot s pd (polySub (getSlot s pa) (getSlot s pb))))
  | pred (pd pa : Nat) : Body s (.pred pd pa) (finish (setSlot s pd ((getSlot s pa).map (barrettReduce s.cfg))))
  | ptomont (pd pa : Nat) :
      Body s (.ptomont pd pa) (finish (setSlot s pd ((getSlot s pa).map fun x => fqmul s.cfg x (montR2 s.cfg))))
  | ntt (pd pa : Nat) : Body s (.ntt pd pa) (finish (setSlot s pd (nttPoly s.cfg (getSlot s pa))))
  | intt (pd pa : Nat) : Body s (.intt pd pa) (finish (setSlot s pd (inttPoly s.cfg (getSlot s pa))))
  | basemul (pd pa pb : Nat) :
      Body s (.basemul pd pa pb) (finish (setSlot s pd (basemulPoly s.cfg (getSlot s pa) (getSlot s pb))))
  | xinit (v : Nat) :
      Body s (.xinit v)
        (finish { s with xof := some { variant := variantOf v, absorbed := [], pos := 0, squeezing := false } })
  | xabsorb {x : Xof} (hx : s.xof = some x) :
      Body s .xabsorb (reading s (operand s 0) (operand s 1) fun bs =>
        finish { s with xof := some { x with absorbed := x.absorbed ++ bs } })
  | xsqueeze {x : Xof} (hx : s.xof = some x) (hl : withinLimit x (operand s 1) = true) :
      Body s .xsqueeze
        (finish { memWrite s (operand s 0) (operand s 1)
            (slice (xofStream s.cfg.hash x (x.pos + operand s 1)) x.pos (x.pos + operand s 1)) with
          xof := some { x with pos := x.pos + operand s 1, squeezing := true } })
  | cbd (pd eta : Nat) :
      Body s (.cbd pd eta) (reading s (operand s 0) (64 * eta) fun bs => finish (setSlot s pd (cbdPoly bs eta)))
  | getnoise (pd eta : Nat) :
      Body s (.getnoise pd eta) (reading s (operand s 0) (operand s 2) fun seed =>
        finish (dropXof (setSlot s pd (noisePoly s.cfg.hash s.cfg.nonceBytes seed (operand s 1) eta))))
  | rejparse (pd : Nat) :
      Body s (.rejparse pd) (reading s (operand s 0) (operand s 1) fun bs =>
        finish (setResult (setSlot s pd (overwriteFrom (getSlot s pd) (operand s 2) (rejChunks s.cfg bs (operand s 2)).1))
          (operand s 2 + (rejChunks s.cfg bs (operand s 2)).1.length)))
  | genuni (pd : Nat) :
      Body s (.genuni pd) (reading s (operand s 0) (operand s 2) fun seed =>
        match uniformPoly s.cfg seed (operand s 1 % 256) (operand s 1 / 256) with
        | none => .next (raiseFatal s)
        | some (f, n) => finish (dropXof (setResult (setSlot s pd f) ((s.cfg.cs * n + 7) / 8))))
  | challenge (pd : Nat) {g : SigCfg} (hg : s.cfg.sig = some g) :
      Body s (.challenge pd) (reading s (operand s 0) (operand s 1) fun seed =>
        match sampleInBall s.cfg g.tau seed with
        | none => .next (raiseFatal s)
        | some (f, pos) => finish (dropXof (setResult (setSlot s pd f) pos)))
  | pack (pa d : Nat) : Body s (.pack pa d) (finish (memWrite s (operand s 0) (32 * d) (packBytes d (getSlot s pa))))
  | unpack (pd d : Nat) :
      Body s (.unpack pd d) (reading s (operand s 0) (32 * d) fun bs => finish (setSlot s pd (unpackBytes d bs)))
  | compress (pd pa d : Nat) : Body s (.compress pd pa d) (finish (setSlot s pd (compressPoly s.cfg d (getSlot s pa))))
  | decompress (pd pa d : Nat) :
      Body s (.decompress pd pa d) (finish (setSlot s pd (decompressPoly s.cfg d (getSlot s pa))))
  | sigKeygen (mode : Nat) {g : SigCfg} (hg : s.cfg.sig = some g) :
      Body s (.sigKeygen mode) (seedInput mode (operand s 2) 32 s fun xi s' =>
        match sigKeyPair s'.cfg g xi with
        | none => .next (raiseFatal s')
        | some (pk, sk) => finishProtocol
            (memWrite (memWrite s' (operand s' 0) (sigPkBytes s.cfg g) pk) (operand s' 1) (sigSkBytes g) sk))
  | sigSign (mode : Nat) {g : SigCfg} (hg : s.cfg.sig = some g) :
      Body s (.sigSign mode) (reading s (operand s 0) (operand s 1) fun msg =>
        reading s (operand s 2) (sigSkBytes g) fun sk =>
          match signMessage s.cfg g mode sk msg s.draws with
          | (.attemptsExhausted, d) => .next (raiseFatal (setRetry { s with draws := d } s.cfg.maxSignRetries))
          | (.streamExhausted, d) => .next (raiseFatal (setRetry { s with draws := d } s.cfg.maxSignRetries))
          | (.signed sig n, d) =>
            finishProtocol (setRetry (memWrite { s with draws := d } (operand s 4) (sigBytes g) sig) n))
  | sigVerify {g : SigCfg} (hg : s.cfg.sig = some g) :
      Body s .sigVerify (reading s (operand s 0) (sigBytes g) fun sig =>
        reading s (operand s 2) (operand s 3) fun msg =>
          reading s (operand s 4) (sigPkBytes s.cfg g) fun pk =>
            match verifyCore s.cfg g sig msg pk with
            | none => .next (raiseFatal s)
            | some ok => finishProtocol (setResult s (if ok then 1 else 0)))
  | kemKeygen (mode : Nat) {m : KemCfg} (hm : s.cfg.kem = some m) :
      Body s (.kemKeygen mode) (seedInput mode (operand s 2) 32 s fun d s' =>
        seedInput mode (operand s' 2 + 32) 32 s' fun z s'' =>
          match kemKeyPair s''.cfg m d z with
          | none => .next (raiseFatal s'')
          | some (pk, sk) => finishProtocol
              (memWrite (memWrite s'' (operand s'' 0) (kemPkBytes m) pk) (operand s'' 1) (kemSkBytes s.cfg m) sk))
  | kemEncap (mode : Nat) {m : KemCfg} (hm : s.cfg.kem = some m) :
      Body s (.kemEncap mode) (reading s (operand s 0) (kemPkBytes m) fun pk =>
        seedInput mode (operand s 4) 32 s fun e s' =>
          match kemEncapsulate s'.cfg m pk e with
          | none => .next (raiseFatal s')
          | some (ct, ss) => finishProtocol
              (memWrite (memWrite s' (operand s' 2) (ctBytes m) ct) (operand s' 3) 32 ss))
  | kemDecap {m : KemCfg} (hm : s.cfg.kem = some m) :
      Body s .kemDecap (reading s (operand s 0) (ctBytes m) fun ct =>
        reading s (operand s 2) (kemSkBytes s.cfg m) fun sk =>
          match kemDecapsulate s.cfg m ct sk with
          | none => .next (raiseFatal s)
          | some ss => finishProtocol (memWrite s (operand s 4) 32 ss))

/-- The four checks of `checkError`, none of which has failed. -/
theorem checkError_eq_none_iff (s : State) (i : Instr) :
    checkError s i = none ↔ legalFields s i = true ∧ xofInSequence s i = true ∧ lengthsMatch s i = true ∧ addressesOk s i = true := by
  cases hl : legalFields s i <;> cases hx : xofInSequence s i <;> cases hn : lengthsMatch s i <;> cases ha : addressesOk s i <;>
    simp [checkError, hl, hx, hn, ha]

/-- A test that has not failed is passed over. -/
theorem ite_raised {b : Bool} (hb : b = true) (e : ErrorCode) (s : State) (k : Outcome) :
    (if !b then raised e s else k) = k := by
  rw [hb]
  rfl

section
variable {s : State}

theorem body_of_slotUnary {f : Poly → Poly} {pd pa : Nat} {i : Instr}
    (hb : Body s i (finish (setSlot s pd (f (getSlot s pa))))) (h : pd < s.cfg.np ∧ pa < s.cfg.np) :
    Body s i (slotUnary f pd pa s) := by
  rwa [slotUnary, ite_raised (by simp [slotOk, h])]

theorem body_of_slotBinary {f : Poly → Poly → Poly} {pd pa pb : Nat} {i : Instr}
    (hb : Body s i (finish (setSlot s pd (f (getSlot s pa) (getSlot s pb))))) (h : pd < s.cfg.np ∧ pa < s.cfg.np ∧ pb < s.cfg.np) :
    Body s i (slotBinary f pd pa pb s) := by
  rwa [slotBinary, ite_raised (by simp [slotOk, h])]

theorem body_execXabsorb (hx : xofInSequence s .xabsorb = true) (ha : addressesOk s .xabsorb = true) :
    Body s .xabsorb (execXabsorb s) := by
  rw [addressesOk_of_one (.inl ⟨rfl, rfl⟩)] at ha
  simp only [xofInSequence, Option.any_eq_true, Bool.not_eq_true'] at hx
  obtain ⟨x, hx, hsq⟩ := hx
  have := Body.xabsorb hx
  simpa only [execXabsorb, hx, hsq, ite_raised ha, Bool.false_eq_true, if_false] using this

theorem xofInSequence_xsqueeze (s : State) :
    xofInSequence s .xsqueeze = s.xof.any (fun x => withinLimit x (operand s 1)) := by
  cases hx : s.xof with
  | none => simp [xofInSequence, hx]
  | some x =>
    obtain ⟨v, absorbed, pos, squeezing⟩ := x
    cases v <;> simp [xofInSequence, hx, withinLimit, xofLimit]

theorem body_execXsqueeze (hx : xofInSequence s .xsqueeze = true) (ha : addressesOk s .xsqueeze = true) :
    Body s .xsqueeze (execXsqueeze s) := by
  rw [addressesOk_of_one (.inr ⟨rfl, rfl⟩)] at ha
  rw [xofInSequence_xsqueeze, Option.any_eq_true] at hx
  obtain ⟨x, hx, hl⟩ := hx
  unfold execXsqueeze
  rw [hx]
  dsimp only
  rw [ite_raised hl, ite_raised ha]
  exact .xsqueeze hx hl

/-- Every buffer operand lies in `B`, and the output buffers have no byte in common. -/
theorem addressesOk_iff (s : State) (i : Instr) :
    addressesOk s i = true ↔ (∀ x ∈ inputBuffers s i ++ outputBuffers s i, inBuffer s x.1 x.2 = true)
      ∧ (outputBuffers s i).Pairwise (fun x y => x.1 + x.2 ≤ y.1 ∨ y.1 + y.2 ≤ x.1) := by
  rw [addressesOk_eq, Bool.and_eq_true, List.all_eq_true, decide_eq_true_eq]

theorem body_execChallenge {pd : Nat} (hl : legalFields s (.challenge pd) = true)
    (ha : addressesOk s (.challenge pd) = true) : Body s (.challenge pd) (execChallenge pd s) := by
  rw [addressesOk_of_one (.inl ⟨rfl, rfl⟩)] at ha
  simp only [legalFields, Bool.and_eq_true, decide_eq_true_eq, Option.isSome_iff_exists] at hl
  obtain ⟨⟨g, hg⟩, hpd, hlen⟩ := hl
  unfold execChallenge
  rw [hg]
  dsimp only
  rw [ite_raised (by simp [slotOk, hpd, seedLenOk, within, hlen]), ite_raised ha]
  exact .challenge pd hg

theorem body_execSigKeygen {mode : Nat} (hl : legalFields s (.sigKeygen mode) = true)
    (ha : addressesOk s (.sigKeygen mode) = true) : Body s (.sigKeygen mode) (execSigKeygen mode s) := by
  simp only [legalFields, Bool.and_eq_true, decide_eq_true_eq, Option.isSome_iff_exists] at hl
  obtain ⟨⟨g, hg⟩, hmode⟩ := hl
  have hm : twoModes mode = true := by simpa [twoModes] using Nat.lt_succ_of_le hmode
  rw [addressesOk_eq, inputBuffers, List.all_append, all_inBuffer_seed hm] at ha
  unfold execSigKeygen
  rw [hg]
  dsimp only
  rw [ite_raised hm, ite_raised]
  · exact .sigKeygen mode hg
  · simp [outputBuffers, hg] at ha
    simp [ha, disjoint]

theorem body_execSigSign {mode : Nat} (hl : legalFields s (.sigSign mode) = true) (hn : lengthsMatch s (.sigSign mode) = true)
    (ha : addressesOk s (.sigSign mode) = true) : Body s (.sigSign mode) (execSigSign mode s) := by
  simp only [legalFields, Bool.and_eq_true, decide_eq_true_eq, Option.isSome_iff_exists] at hl
  obtain ⟨⟨g, hg⟩, hmode⟩ := hl
  simp only [lengthsMatch, hg, Option.all_some, decide_eq_true_eq] at hn
  unfold execSigSign
  rw [hg]
  dsimp only
  rw [ite_raised (by simpa [threeModes] using Nat.lt_succ_of_le hmode), if_neg (by simp [hn]), ite_raised]
  · exact .sigSign mode hg
  · simp [addressesOk_eq, inputBuffers, outputBuffers, hg] at ha
    simp [ha]

theorem body_execSigVerify (hl : legalFields s .sigVerify = true) (hn : lengthsMatch s .sigVerify = true)
    (ha : addressesOk s .sigVerify = true) : Body s .sigVerify (execSigVerify s) := by
  simp only [legalFields, Option.isSome_iff_exists] at hl
  obtain ⟨g, hg⟩ := hl
  simp only [lengthsMatch, hg, Option.all_some, decide_eq_true_eq] at hn
  unfold execSigVerify
  rw [hg]
  dsimp only
  rw [if_neg (by simp [hn]), ite_raised]
  · exact .sigVerify hg
  · simp [addressesOk_eq, inputBuffers, outputBuffers, hg] at ha
    simp [ha]

theorem body_execKemKeygen {mode : Nat} (hl : legalFields s (.kemKeygen mode) = true)
    (ha : addressesOk s (.kemKeygen mode) = true) : Body s (.kemKeygen mode) (execKemKeygen mode s) := by
  simp only [legalFields, Bool.and_eq_true, decide_eq_true_eq, Option.isSome_iff_exists] at hl
  obtain ⟨⟨m, hm⟩, hmode⟩ := hl
  have h2 : twoModes mode = true := by simpa [twoModes] using Nat.lt_succ_of_le hmode
  rw [addressesOk_eq, inputBuffers, List.all_append, all_inBuffer_seed h2] at ha
  unfold execKemKeygen
  rw [hm]
  dsimp only
  rw [ite_raised h2, ite_raised]
  · exact .kemKeygen mode hm
  · simp [outputBuffers, hm] at ha
    simp [ha, disjoint]

theorem body_execKemEncap {mode : Nat} (hl : legalFields s (.kemEncap mode) = true)
    (hn : lengthsMatch s (.kemEncap mode) = true) (ha : addressesOk s (.kemEncap mode) = true) :
    Body s (.kemEncap mode) (execKemEncap mode s) := by
  simp only [legalFields, Bool.and_eq_true, decide_eq_true_eq, Option.isSome_iff_exists] at hl
  obtain ⟨⟨m, hm⟩, hmode⟩ := hl
  have h2 : twoModes mode = true := by simpa [twoModes] using Nat.lt_succ_of_le hmode
  simp only [lengthsMatch, hm, Option.all_some, decide_eq_true_eq] at hn
  rw [addressesOk_eq, inputBuffers, List.all_append, List.all_append, all_inBuffer_seed h2] at ha
  unfold execKemEncap
  rw [hm]
  dsimp only
  rw [ite_raised h2, if_neg (by simp [hn]), ite_raised]
  · exact .kemEncap mode hm
  · simp [outputBuffers, hm] at ha
    simp [ha, disjoint]

theorem body_execKemDecap (hl : legalFields s .kemDecap = true) (hn : lengthsMatch s .kemDecap = true)
    (ha : addressesOk s .kemDecap = true) : Body s .kemDecap (execKemDecap s) := by
  simp only [legalFields, Option.isSome_iff_exists] at hl
  obtain ⟨m, hm⟩ := hl
  simp only [lengthsMatch, hm, Option.all_some, decide_eq_true_eq] at hn
  unfold execKemDecap
  rw [hm]
  dsimp only
  rw [if_neg (by simp [hn]), ite_raised]
  · exact .kemDecap hm
  · simp [addressesOk_eq, inputBuffers, outputBuffers, hm] at ha
    simp [ha]

end

/-- Past its checks, a command is its body. -/
theorem exec_body {s : State} {i : Instr} (h : checkError s i = none) : Body s i (exec i s) := by
  obtain ⟨hl, hx, hn, ha⟩ := (checkError_eq_none_iff s i).1 h
  have hone : ∀ a n, inputBuffers s i = [(a, n)] ∧ outputBuffers s i = [] ∨ inputBuffers s i = [] ∧ outputBuffers s i = [(a, n)] →
      inBuffer s a n = true := fun a n hb => addressesOk_of_one hb ▸ ha
  cases i with
  | nop => exact .nop
  | zeroize mode =>
    rw [exec, execZeroize, ite_raised (by simpa [legalFields, twoModes, Nat.lt_succ_iff] using hl)]
    exact .zeroize mode
  | mred sd sa =>
    rw [exec, execMred, ite_raised (by simpa [legalFields, scalarOk] using hl)]
    exact .mred sd sa
  | bred sd sa =>
    rw [exec, execBred, ite_raised (by simpa [legalFields, scalarOk] using hl)]
    exact .bred sd sa
  | fqmul sd sa sb =>
    rw [exec, execFqmul, ite_raised (by simpa [legalFields, scalarOk, and_assoc] using hl)]
    exact .fqmul sd sa sb
  | padd pd pa pb => exact body_of_slotBinary (.padd pd pa pb) (of_decide_eq_true hl)
  | psub pd pa pb => exact body_of_slotBinary (.psub pd pa pb) (of_decide_eq_true hl)
  | pred pd pa => exact body_of_slotUnary (.pred pd pa) (of_decide_eq_true hl)
  | ptomont pd pa => exact body_of_slotUnary (.ptomont pd pa) (of_decide_eq_true hl)
  | ntt pd pa => exact body_of_slotUnary (.ntt pd pa) (of_decide_eq_true hl)
  | intt pd pa => exact body_of_slotUnary (.intt pd pa) (of_decide_eq_true hl)
  | basemul pd pa pb => exact body_of_slotBinary (.basemul pd pa pb) (of_decide_eq_true hl)
  | xinit v =>
    rw [exec, execXinit, ite_raised (by simpa [legalFields, variantOk, Nat.lt_succ_iff] using hl)]
    exact .xinit v
  | xabsorb => exact body_execXabsorb hx ha
  | xsqueeze => exact body_execXsqueeze hx ha
  | cbd pd eta =>
    rw [exec, execCbd, ite_raised (by simpa [legalFields, etaOk, slotOk, within, and_comm] using hl),
      ite_raised (hone _ _ (.inl ⟨rfl, rfl⟩))]
    exact .cbd pd eta
  | getnoise pd eta =>
    rw [exec, execGetnoise,
      ite_raised (by simpa [legalFields, etaOk, slotOk, nonceOk, seedLenOk, within, and_assoc, and_left_comm] using hl),
      ite_raised (hone _ _ (.inl ⟨rfl, rfl⟩))]
    exact .getnoise pd eta
  | rejparse pd =>
    rw [exec, execRejparse, ite_raised (by simpa [legalFields, slotOk, countOk] using hl),
      ite_raised (hone _ _ (.inl ⟨rfl, rfl⟩))]
    exact .rejparse pd
  | genuni pd =>
    rw [exec, execGenuni, ite_raised (by simpa [legalFields, slotOk, indexPairOk, seedLenOk, within, and_assoc] using hl),
      ite_raised (hone _ _ (.inl ⟨rfl, rfl⟩))]
    exact .genuni pd
  | challenge pd => exact body_execChallenge hl ha
  | pack pa d =>
    rw [exec, execPack, ite_raised (by simpa [legalFields, slotOk, packWidthOk, within] using hl),
      ite_raised (hone _ _ (.inr ⟨rfl, rfl⟩))]
    exact .pack pa d
  | unpack pd d =>
    rw [exec, execUnpack, ite_raised (by simpa [legalFields, slotOk, packWidthOk, within] using hl),
      ite_raised (hone _ _ (.inl ⟨rfl, rfl⟩))]
    exact .unpack pd d
  | compress pd pa d =>
    obtain ⟨h1, h2, h3⟩ := of_decide_eq_true hl
    rw [exec, execCompress, ite_raised ((compressWidthOk_iff s d).2 h3)]
    exact body_of_slotUnary (.compress pd pa d) ⟨h1, h2⟩
  | decompress pd pa d =>
    obtain ⟨h1, h2, h3⟩ := of_decide_eq_true hl
    rw [exec, execDecompress, ite_raised ((compressWidthOk_iff s d).2 h3)]
    exact body_of_slotUnary (.decompress pd pa d) ⟨h1, h2⟩
  | sigKeygen mode => exact body_execSigKeygen hl ha
  | sigSign mode => exact body_execSigSign hl hn ha
  | sigVerify => exact body_execSigVerify hl hn ha
  | kemKeygen mode => exact body_execKemKeygen hl ha
  | kemEncap mode => exact body_execKemEncap hl hn ha
  | kemDecap => exact body_execKemDecap hl hn ha

end Sys2Proof.Machine
end

section
/-! SUPPORT. How every command ends: what it may change, where it can fault, which commands draw and which exhaust a stream
(30_encoding.md R96, 60_exceptions.md R324, R326, 70_reset_and_hazards.md R371, 10_state.md R50). -/

namespace Sys2Proof.Machine

/-! ## What a command may change -/

/-- Where the draws of a command come from: entropy for three commands with `MODE = 0`, the coin for `SIG_SIGN` with
`MODE = 2` (70_reset_and_hazards.md R371). -/
def DrawsBy (i : Instr) (d d' : Draws) : Prop :=
  d' = d ∨ ((i = .sigKeygen 0 ∨ i = .kemKeygen 0 ∨ i = .kemEncap 0) ∧ d'.coins = d.coins)
    ∨ (i = .sigSign 2 ∧ d'.entropy = d.entropy)

/-- `u` is `s` with a command's effect: what it may change, and the parts of the invariant that the change keeps. -/
structure Effect (i : Instr) (s u : State) : Prop where
  frame : u = { s with p := u.p, sreg := u.sreg, mem := u.mem, xof := u.xof, result := u.result, retry := u.retry, draws := u.draws }
  slots : 0 < s.cfg.w → SlotsFit s → SlotsFit u
  buffer : BufferFits s → BufferFits u
  xof : (∀ x ∈ s.xof, XofFits x) → ∀ x ∈ u.xof, XofFits x
  draws : DrawsBy i s.draws u.draws

/-- `u` is `s` as a command leaves it for the fatal error: only the draws and, after `SIG_SIGN`, `RETRY` differ. -/
structure Exhausted (i : Instr) (s u : State) : Prop where
  can : canExhaust i = true
  frame : u = { s with retry := u.retry, draws := u.draws }
  retry_sign : (∃ mode, i = .sigSign mode) → u.retry = BitVec.ofNat 32 s.cfg.maxSignRetries
  retry_other : (¬ ∃ mode, i = .sigSign mode) → u.retry = s.retry
  draws : DrawsBy i s.draws u.draws

/-- The ends of a command whose checks have passed. -/
inductive Ends (i : Instr) (s : State) : Outcome → Prop where
  | completes {u : State} (h : Effect i s u) : Ends i s (finish u)
  | exhausts {u : State} (h : Exhausted i s u) : Ends i s (.next (raiseFatal u))
  | faults {r : Fault} (h : Memory.wf s.mem → ∃ a, r = .noValue a ∧ s.mem.read a = none ∧ a < s.cfg.bmemSize
      ∧ ∃ b ∈ inputBuffers s i, b.1 ≤ a ∧ a < b.1 + b.2) : Ends i s (.fault r)

theorem xofFits_none : ∀ x ∈ (none : Option Xof), XofFits x := by
  simp

theorem inBuffer_iff (s : State) (a n : Nat) : inBuffer s a n = true ↔ InBounds s a n := by
  simp [inBuffer]

/-- A write inside `B` keeps buffer memory in canonical form and inside `B`. -/
theorem bufferFits_memWrite {s : State} {a n : Nat} (hin : inBuffer s a n = true) (v : Bytes) (h : BufferFits s) :
    BufferFits (memWrite s a n v) := by
  obtain ⟨hw, hb⟩ := h
  refine ⟨wf_writeBytes _ _ _ hw, below_writeBytes _ _ _ _ hb ?_⟩
  have hl : (v.take n).length ≤ n := List.length_take_le n v
  rw [inBuffer_iff] at hin
  rw [memWrite_cfg]
  omega

section
variable {i : Instr} {s : State}

/-- A command reads inside one of its input buffers, and so can fault only there. -/
theorem ends_reading {s' : State} {a n : Nat} {k : Bytes → Outcome} (ha : addressesOk s i = true) (hm : s'.mem = s.mem)
    (hb : ∃ b ∈ inputBuffers s i, b.1 ≤ a ∧ a + n ≤ b.1 + b.2) (hk : ∀ bs, Ends i s (k bs)) : Ends i s (reading s' a n k) := by
  unfold reading
  split
  case h_1 bs _ => exact hk bs
  case h_2 e he =>
    refine .faults fun hw => ⟨e, rfl, ?_⟩
    rw [hm] at he
    obtain ⟨_, hok, -⟩ | ⟨e', herr, h1, h2, hnone⟩ := readBytes_spec s.mem a n hw
    · rw [he] at hok
      cases hok
    · obtain rfl : e = e' := by simpa [he] using herr
      obtain ⟨b, hmem, hlo, hhi⟩ := hb
      have hin : InBounds s b.1 b.2 :=
        (inBuffer_iff _ _ _).1 (((addressesOk_iff s i).1 ha).1 b (List.mem_append_left _ hmem))
      refine ⟨hnone, ?_, b, hmem, by omega, by omega⟩
      rcases hin with h0 | h0 <;> omega

theorem drawsBy_drawEntropy {d : Draws} (hi : i = .sigKeygen 0 ∨ i = .kemKeygen 0 ∨ i = .kemEncap 0)
    (hd : DrawsBy i s.draws d) (n : Nat) : DrawsBy i s.draws (drawEntropy n d).2 := by
  refine .inr (.inl ⟨hi, ?_⟩)
  rw [drawEntropy_coins]
  obtain rfl | ⟨-, hc⟩ | ⟨hs, -⟩ := hd
  · rfl
  · exact hc
  · rw [hs] at hi
    simp at hi

/-- A command's randomness is drawn with `MODE = 0`, else read from its input buffer. -/
theorem ends_seedInput {mode a n : Nat} {d : Draws} {k : Bytes → State → Outcome} (ha : addressesOk s i = true)
    (hi : mode = 0 → i = .sigKeygen 0 ∨ i = .kemKeygen 0 ∨ i = .kemEncap 0)
    (hb : mode ≠ 0 → ∃ b ∈ inputBuffers s i, b.1 ≤ a ∧ a + n ≤ b.1 + b.2) (hd : DrawsBy i s.draws d)
    (hk : ∀ e d', DrawsBy i s.draws d' → Ends i s (k e { s with draws := d' })) :
    Ends i s (seedInput mode a n { s with draws := d } k) := by
  unfold seedInput
  split
  case isTrue h0 => exact hk _ _ (drawsBy_drawEntropy (hi h0) hd n)
  case isFalse h0 => exact ends_reading ha rfl (hb h0) fun e => hk e d hd

/-! ## The commands that write no buffer -/

theorem ends_setScalar (n : Nat) (v : Int) : Ends i s (finish (setScalar s n v)) :=
  .completes ⟨rfl, fun _ h => h, id, id, .inl rfl⟩

theorem ends_setSlot (k : Nat) (f : Poly) : Ends i s (finish (setSlot s k f)) :=
  .completes ⟨rfl, fun hw h => slotsFit_setSlot hw h k f, id, id, .inl rfl⟩

/-- The samplers that end with `xof <- none`. -/
theorem ends_setSlot_dropXof (k n : Nat) (f : Poly) : Ends i s (finish (dropXof (setResult (setSlot s k f) n))) :=
  .completes ⟨rfl, fun hw h => slotsFit_setSlot hw h k f, id, fun _ => xofFits_none, .inl rfl⟩

theorem ends_zeroize (mode : Nat) :
    Ends (.zeroize mode) s (finish (if mode = 1 then zeroBuffer (zeroWorking s) else zeroWorking s)) := by
  split
  · refine .completes ⟨rfl, fun _ _ => slotsFit_zeroWorking s, fun _ => ⟨wf_zeroBuffer _, fun x hx => ?_⟩,
      fun _ => xofFits_none, .inl rfl⟩
    simpa using (mem_cellsAt hx).2
  · exact .completes ⟨rfl, fun _ _ => slotsFit_zeroWorking s, id, fun _ => xofFits_none, .inl rfl⟩

theorem ends_xabsorb {x : Xof} (hx : s.xof = some x) (ha : addressesOk s .xabsorb = true) :
    Ends .xabsorb s (reading s (operand s 0) (operand s 1) fun bs =>
      finish { s with xof := some { x with absorbed := x.absorbed ++ bs } }) := by
  refine ends_reading ha rfl ⟨(operand s 0, operand s 1), List.mem_singleton_self _, le_rfl, le_rfl⟩ fun bs =>
    .completes ⟨rfl, fun _ h => h, id, fun h => ?_, .inl rfl⟩
  rintro _ ⟨⟩
  exact h x hx

/-! ## The commands that write a buffer -/

theorem withinLimit_iff (x : Xof) (n : Nat) :
    withinLimit x n = true ↔ (x.variant = .h → x.pos + n ≤ 32) ∧ (x.variant = .g → x.pos + n ≤ 64) := by
  obtain ⟨v, absorbed, pos, squeezing⟩ := x
  cases v <;> simp [withinLimit, xofLimit]

theorem ends_xsqueeze {x : Xof} (hl : withinLimit x (operand s 1) = true) (ha : addressesOk s .xsqueeze = true) (v : Bytes) :
    Ends .xsqueeze s (finish { memWrite s (operand s 0) (operand s 1) v with
      xof := some { x with pos := x.pos + operand s 1, squeezing := true } }) := by
  refine .completes ⟨rfl, fun _ h => h, fun h => ?_, fun _ => ?_, .inl rfl⟩
  · exact bufferFits_memWrite (((addressesOk_iff _ _).1 ha).1 (operand s 0, operand s 1) (List.mem_singleton_self _)) v h
  · rintro _ ⟨⟩
    obtain ⟨hh, hg⟩ := (withinLimit_iff _ _).1 hl
    exact ⟨fun _ => rfl, hh, hg⟩

/-- A protocol command that writes memory, `RESULT` and `RETRY` and then zeroes the working state. -/
theorem ends_finishProtocol {m : Memory} {r q : Word} {d : Draws} (hb : BufferFits s → BufferFits { s with mem := m })
    (hd : DrawsBy i s.draws d) :
    Ends i s (finishProtocol { s with mem := m, result := r, retry := q, draws := d }) :=
  .completes ⟨rfl, fun _ _ => slotsFit_zeroWorking _, hb, fun _ => xofFits_none, hd⟩

/-- The fatal error of a command other than `SIG_SIGN`. -/
theorem ends_raiseFatal {d : Draws} (hi : canExhaust i = true) (hs : ¬ ∃ mode, i = .sigSign mode) (hd : DrawsBy i s.draws d) :
    Ends i s (.next (raiseFatal { s with draws := d })) :=
  .exhausts ⟨hi, rfl, fun h => absurd h hs, fun _ => rfl, hd⟩

/-! ## The protocol commands -/

theorem mem_inputBuffers_of_mode_one {s : State} {i : Instr} {mode a n : Nat} {l : List (Nat × Nat)}
    (hin : inputBuffers s i = l ++ if mode = 1 then [(a, n)] else []) (hm : mode ≤ 1) (h0 : mode ≠ 0) :
    (a, n) ∈ inputBuffers s i := by
  rw [hin, if_pos (by omega)]
  simp

theorem drawsBy_signMessage {mode : Nat} (hm : mode ≤ 2) {c : Cfg} {g : SigCfg} {sk msg : Bytes} {d d' : Draws} {e : SignEnd}
    (h : signMessage c g mode sk msg d = (e, d')) : DrawsBy (.sigSign mode) d d' := by
  obtain ⟨n, -, hn⟩ := signMessage_draws hm c g sk msg d
  rw [h] at hn
  obtain rfl : d' = _ := hn
  by_cases h2 : mode = 2
  · exact .inr (.inr ⟨h2 ▸ rfl, rfl⟩)
  · exact .inl (by rw [if_neg h2, coinsDrawn_zero])

end

/-- The ends of a command whose checks have passed, each with what it may change. -/
theorem ends_of_body {s : State} {i : Instr} {o : Outcome} (h : Body s i o) (hc : checkError s i = none) : Ends i s o := by
  obtain ⟨hl, hx, hn, ha⟩ := (checkError_eq_none_iff s i).1 hc
  have hbuf : ∀ b ∈ inputBuffers s i ++ outputBuffers s i, inBuffer s b.1 b.2 = true := ((addressesOk_iff s i).1 ha).1
  cases h with
  | nop => exact .completes ⟨rfl, fun _ h => h, id, id, .inl rfl⟩
  | zeroize mode => exact ends_zeroize mode
  | mred | bred | fqmul => exact ends_setScalar _ _
  | padd | psub | pred | ptomont | ntt | intt | basemul | compress | decompress => exact ends_setSlot _ _
  | xinit v =>
    refine .completes ⟨rfl, fun _ h => h, id, fun _ => ?_, .inl rfl⟩
    rintro _ ⟨⟩
    simp [XofFits]
  | xabsorb h => exact ends_xabsorb h ha
  | xsqueeze _ hlimit => exact ends_xsqueeze hlimit ha _
  | cbd | unpack => exact ends_reading ha rfl ⟨_, List.mem_singleton_self _, le_rfl, le_rfl⟩ fun bs => ends_setSlot _ _
  | rejparse pd =>
    exact ends_reading ha rfl ⟨_, List.mem_singleton_self _, le_rfl, le_rfl⟩ fun bs =>
      .completes ⟨rfl, fun hw h => slotsFit_setSlot hw h _ _, id, id, .inl rfl⟩
  | getnoise pd eta =>
    exact ends_reading ha rfl ⟨_, List.mem_singleton_self _, le_rfl, le_rfl⟩ fun seed =>
      .completes ⟨rfl, fun hw h => slotsFit_setSlot hw h _ _, id, fun _ => xofFits_none, .inl rfl⟩
  | genuni pd =>
    refine ends_reading ha rfl ⟨_, List.mem_singleton_self _, le_rfl, le_rfl⟩ fun seed => ?_
    split
    · exact ends_raiseFatal rfl (by simp) (.inl rfl)
    · exact ends_setSlot_dropXof _ _ _
  | challenge pd hg =>
    refine ends_reading ha rfl ⟨_, List.mem_singleton_self _, le_rfl, le_rfl⟩ fun seed => ?_
    split
    · exact ends_raiseFatal rfl (by simp) (.inl rfl)
    · exact ends_setSlot_dropXof _ _ _
  | pack pa d =>
    exact .completes ⟨rfl, fun _ h => h, bufferFits_memWrite (hbuf _ (List.mem_singleton_self _)) _, id, .inl rfl⟩
  | @sigKeygen mode g hg =>
    simp only [legalFields, Bool.and_eq_true, decide_eq_true_eq] at hl
    have hin := mem_inputBuffers_of_mode_one (s := s) (i := .sigKeygen mode) (l := []) rfl hl.2
    refine ends_seedInput ha (by rintro rfl; simp) (fun h0 => ⟨_, hin h0, le_rfl, le_rfl⟩) (.inl rfl) fun xi d hd => ?_
    split
    · exact ends_raiseFatal rfl (by simp) hd
    · have h1 := hbuf (operand s 0, sigPkBytes s.cfg g) (by simp [outputBuffers, hg])
      have h2 := hbuf (operand s 1, sigSkBytes g) (by simp [outputBuffers, hg])
      exact ends_finishProtocol (fun h => bufferFits_memWrite (s := memWrite s _ _ _) h2 _ (bufferFits_memWrite h1 _ h)) hd
  | @sigSign mode g hg =>
    simp only [legalFields, Bool.and_eq_true, decide_eq_true_eq] at hl
    refine ends_reading ha rfl ⟨(operand s 0, operand s 1), by simp [inputBuffers], le_rfl, le_rfl⟩ fun msg =>
      ends_reading ha rfl ⟨(operand s 2, sigSkBytes g), by simp [inputBuffers, hg], le_rfl, le_rfl⟩ fun sk => ?_
    split
    case h_1 d hd => exact .exhausts ⟨rfl, rfl, fun _ => rfl, fun h => absurd ⟨mode, rfl⟩ h, drawsBy_signMessage hl.2 hd⟩
    case h_2 d hd => exact .exhausts ⟨rfl, rfl, fun _ => rfl, fun h => absurd ⟨mode, rfl⟩ h, drawsBy_signMessage hl.2 hd⟩
    case h_3 sig n d hd =>
      have h1 := hbuf (operand s 4, sigBytes g) (by simp [outputBuffers, hg])
      exact ends_finishProtocol (fun h => bufferFits_memWrite h1 _ h) (drawsBy_signMessage hl.2 hd)
  | @sigVerify g hg =>
    refine ends_reading ha rfl ⟨(operand s 0, sigBytes g), by simp [inputBuffers, hg], le_rfl, le_rfl⟩ fun sig =>
      ends_reading ha rfl ⟨(operand s 2, operand s 3), by simp [inputBuffers], le_rfl, le_rfl⟩ fun msg =>
      ends_reading ha rfl ⟨(operand s 4, sigPkBytes s.cfg g), by simp [inputBuffers, hg], le_rfl, le_rfl⟩ fun pk => ?_
    split
    · exact ends_raiseFatal rfl (by simp) (.inl rfl)
    · exact ends_finishProtocol id (.inl rfl)
  | @kemKeygen mode m hm =>
    simp only [legalFields, Bool.and_eq_true, decide_eq_true_eq] at hl
    have hin := mem_inputBuffers_of_mode_one (s := s) (i := .kemKeygen mode) (l := []) rfl hl.2
    refine ends_seedInput ha (by rintro rfl; simp) (fun h0 => ⟨_, hin h0, le_rfl, by simp⟩) (.inl rfl) fun d d1 hd1 =>
      ends_seedInput ha (by rintro rfl; simp) (fun h0 => ⟨_, hin h0, Nat.le_add_right _ _, le_rfl⟩) hd1 fun z d2 hd2 => ?_
    split
    · exact ends_raiseFatal rfl (by simp) hd2
    · have h1 := hbuf (operand s 0, kemPkBytes m) (by simp [outputBuffers, hm])
      have h2 := hbuf (operand s 1, kemSkBytes s.cfg m) (by simp [outputBuffers, hm])
      exact ends_finishProtocol (fun h => bufferFits_memWrite (s := memWrite s _ _ _) h2 _ (bufferFits_memWrite h1 _ h)) hd2
  | @kemEncap mode m hm =>
    simp only [legalFields, Bool.and_eq_true, decide_eq_true_eq] at hl
    have hin := mem_inputBuffers_of_mode_one (s := s) (i := .kemEncap mode) rfl hl.2
    refine ends_reading ha rfl ⟨(operand s 0, kemPkBytes m), by simp [inputBuffers, hm], le_rfl, le_rfl⟩ fun pk =>
      ends_seedInput ha (by rintro rfl; simp) (fun h0 => ⟨_, hin h0, le_rfl, le_rfl⟩) (.inl rfl) fun e d hd => ?_
    split
    · exact ends_raiseFatal rfl (by simp) hd
    · have h1 := hbuf (operand s 2, ctBytes m) (by simp [outputBuffers, hm])
      have h2 := hbuf (operand s 3, 32) (by simp [outputBuffers, hm])
      exact ends_finishProtocol (fun h => bufferFits_memWrite (s := memWrite s _ _ _) h2 _ (bufferFits_memWrite h1 _ h)) hd
  | @kemDecap m hm =>
    refine ends_reading ha rfl ⟨(operand s 0, ctBytes m), by simp [inputBuffers, hm], le_rfl, le_rfl⟩ fun ct =>
      ends_reading ha rfl ⟨(operand s 2, kemSkBytes s.cfg m), by simp [inputBuffers, hm], le_rfl, le_rfl⟩ fun sk => ?_
    split
    · exact ends_raiseFatal rfl (by simp) (.inl rfl)
    · have h1 := hbuf (operand s 4, 32) (by simp [outputBuffers])
      exact ends_finishProtocol (fun h => bufferFits_memWrite h1 _ h) (.inl rfl)

/-- All a command can do: a failing check's error and nothing else, or one of the ends of its body. -/
theorem exec_cases (i : Instr) (s : State) :
    (∃ e, checkError s i = some e ∧ exec i s = .next { s with status := erred e s.status })
      ∨ (checkError s i = none ∧ Ends i s (exec i s)) := by
  cases hc : checkError s i with
  | some e => exact .inl ⟨e, rfl, exec_eq_of_checkError hc⟩
  | none => exact .inr ⟨rfl, ends_of_body (exec_body hc) hc⟩

theorem checkError_ne_rejExhausted {s : State} {i : Instr} {e : ErrorCode} (h : checkError s i = some e) :
    e ≠ .rejExhausted := by
  rintro rfl
  unfold checkError at h
  split_ifs at h <;> cases h

/-! ## The whole-machine rules of a command -/

/-- Settles O18: the checks decide the recoverable errors, and the ends of a body are completion or the fatal error. -/
theorem errorsExactlyAsListed : Obligations.ErrorsExactlyAsListed := by
  intro i s
  refine ⟨fun e => exec_eq_of_checkError, fun hc t ht => ?_⟩
  have h := ends_of_body (exec_body hc) hc
  rw [ht] at h
  cases h with
  | completes h =>
    refine .inl ?_
    rw [complete_eq, h.frame]
  | exhausts h =>
    refine .inr ⟨h.can, ?_⟩
    rw [raiseFatal_eq, h.frame]

/-- Settles O17: an error and an end of a body complete the command, and `Ends` says where a body can fault. -/
theorem commandsComplete : Obligations.CommandsComplete := by
  intro i s hw
  obtain ⟨e, -, h⟩ | ⟨-, h⟩ := exec_cases i s
  · exact .inl ⟨_, h, rfl, rfl, rfl, rfl, by simp [irq, erred, completed]⟩
  · generalize exec i s = o at h
    cases h with
    | @completes u h =>
      have hu := h.frame
      refine .inl ⟨_, rfl, ?_⟩
      generalize u.p = p, u.sreg = sreg, u.mem = mem, u.xof = xof, u.result = result, u.retry = retry, u.draws = draws at hu
      subst hu
      exact ⟨rfl, rfl, rfl, rfl, by simp [irq]⟩
    | @exhausts u h =>
      have hu := h.frame
      refine .inl ⟨_, rfl, ?_⟩
      generalize u.retry = retry, u.draws = draws at hu
      subst hu
      exact ⟨rfl, rfl, rfl, rfl, by simp [irq]⟩
    | faults h =>
      obtain ⟨a, rfl, hnone, hlt, hin⟩ := h hw
      exact .inr ⟨a, rfl, hnone, hlt, hin⟩

/-- Settles O20: only the fatal error sets `HALT`, and it writes what `raiseFatal` writes. -/
theorem fatalErrorEffect : Obligations.FatalErrorEffect := by
  intro i s t hs ht hhalt
  obtain ⟨e, -, h⟩ | ⟨-, h⟩ := exec_cases i s
  · cases h.symm.trans ht
    exact absurd (hs.symm.trans hhalt) (by decide)
  · rw [ht] at h
    cases h with
    | @completes u h =>
      have hu : u.status = s.status := by rw [h.frame]
      rw [complete_status, hu] at hhalt
      exact absurd (hs.symm.trans hhalt) (by decide)
    | @exhausts u h =>
      refine ⟨h.can, ?_, fun hi => h.retry_sign hi, fun hi => h.retry_other hi⟩
      have hu := h.frame
      generalize u.retry = retry, u.draws = draws at hu
      subst hu
      rfl

theorem DrawsBy.forms {i : Instr} {d d' : Draws} (h : DrawsBy i d d') :
    (d'.entropy ≠ d.entropy → i = .sigKeygen 0 ∨ i = .kemKeygen 0 ∨ i = .kemEncap 0)
      ∧ (d'.coins ≠ d.coins → i = .sigSign 2)
      ∧ (d' ≠ d → i = .sigKeygen 0 ∨ i = .kemKeygen 0 ∨ i = .kemEncap 0 ∨ i = .sigSign 2) := by
  obtain rfl | ⟨hi, hc⟩ | ⟨hi, he⟩ := h
  · simp
  · exact ⟨fun _ => hi, fun h => absurd hc h, fun _ => by tauto⟩
  · exact ⟨fun h => absurd he h, fun _ => hi, fun _ => .inr (.inr (.inr hi))⟩

/-- Settles O21: every end of a command keeps the rule `DrawsBy`. -/
theorem onlyFourFormsDraw : Obligations.OnlyFourFormsDraw := by
  intro i s t ht
  suffices h : DrawsBy i s.draws t.draws from h.forms
  obtain ⟨e, -, h⟩ | ⟨-, h⟩ := exec_cases i s
  · cases h.symm.trans ht
    exact .inl rfl
  · rw [ht] at h
    cases h with
    | completes h => exact h.draws
    | exhausts h => exact h.draws

end Sys2Proof.Machine
end

section
/-! SUPPORT. The machine's invariant along every step, the reset state, and `HALT` (10_state.md R21, R27, R40, R49; 60_exceptions.md
R326; 70_reset_and_hazards.md R361). -/

namespace Sys2Proof.Machine

/-! ## `STATUS` at the ends of a command -/

theorem statusFits_completed {st : Status} (h : StatusFits st) : StatusFits (completed st) := by
  obtain ⟨herr, hle, hhalt, -⟩ := h
  exact ⟨herr, hle, hhalt, fun hb => absurd hb (by simp [completed])⟩

/-- A busy core has no error, so a recoverable one does not meet `HALT`. -/
theorem statusFits_erred {st : Status} (h : StatusFits st) (hb : st.busy = true) {e : ErrorCode} (he : e ≠ .rejExhausted) :
    StatusFits (erred e st) := by
  obtain ⟨herr, -, hhalt, hbusy⟩ := h
  have h0 : st.errcode = 0 := herr.1 (hbusy hb).2
  have h1 : st.halt = false := by simpa [h0] using hhalt
  cases e with
  | rejExhausted => exact absurd rfl he
  | illegalCmd | invalidLen | addr | xofSeq => simp [StatusFits, erred, completed, ErrorCode.code, h1]

theorem statusFits_halted (st : Status) : StatusFits (halted st) := by
  simp [StatusFits, halted, erred, completed, ErrorCode.code]

/-! ## A command keeps the invariant -/

theorem inv_erred {s : State} (h : Inv s) (hb : s.status.busy = true) {e : ErrorCode} (he : e ≠ .rejExhausted) :
    Inv { s with status := erred e s.status } := by
  obtain ⟨hc, hs, hm, hst, -, hx⟩ := h
  exact ⟨hc, hs, hm, statusFits_erred hst hb he, fun hbusy => absurd hbusy (by simp [erred, completed]), hx⟩

theorem inv_complete {s u : State} {i : Instr} (h : Inv s) (hu : Effect i s u) : Inv (complete u) := by
  obtain ⟨hc, hs, hm, hst, -, hx⟩ := h
  have hcfg : u.cfg = s.cfg := by rw [hu.frame]
  have hstatus : u.status = s.status := by rw [hu.frame]
  have hslots := hu.slots ((cfgValid_iff_legal _).1 hc).w_pos hs
  refine ⟨hcfg ▸ hc, hslots, hu.buffer hm, ?_, fun hbusy => absurd hbusy (by simp), hu.xof hx⟩
  rw [complete_status, hstatus]
  exact statusFits_completed hst

theorem inv_raiseFatal {s u : State} {i : Instr} (h : Inv s) (hu : Exhausted i s u) : Inv (raiseFatal u) := by
  obtain ⟨hc, -, hm, -, -, -⟩ := h
  have hcfg : u.cfg = s.cfg := by rw [hu.frame]
  have hmem : u.mem = s.mem := by rw [hu.frame]
  refine ⟨hcfg ▸ hc, slotsFit_zeroWorking u, ?_, statusFits_halted u.status, fun hbusy => absurd hbusy (by simp), xofFits_none⟩
  rw [BufferFits, raiseFatal_mem, raiseFatal_cfg, hcfg, hmem]
  exact hm

theorem inv_exec {s t : State} {i : Instr} (h : Inv s) (hb : s.status.busy = true) (ht : exec i s = .next t) : Inv t := by
  obtain ⟨e, hc, he⟩ | ⟨-, hends⟩ := exec_cases i s
  · cases he.symm.trans ht
    exact inv_erred h hb (checkError_ne_rejExhausted hc)
  · rw [ht] at hends
    cases hends with
    | completes hu => exact inv_complete h hu
    | exhausts hu => exact inv_raiseFatal h hu

theorem inv_coreTurn {s t : State} (h : Inv s) (ht : coreTurn s = .next t) : Inv t := by
  unfold coreTurn at ht
  split at ht
  case isFalse =>
    cases ht
    exact h
  case isTrue hb =>
    unfold runCommand at ht
    split at ht
    · exact inv_exec h hb ht
    · cases ht
      exact inv_erred h hb (e := .illegalCmd) (by decide)

/-! ## The host keeps the invariant -/

theorem inv_resetOf {c : Cfg} (hc : cfgValid c = true) : Inv (State.resetOf c) := by
  refine ⟨hc, slotsFit_zeroWorking (State.resetOf c), ⟨wf_reset c, fun x hx => absurd hx (by simp [State.resetOf])⟩, ?_,
    fun hb => absurd hb (by simp [State.resetOf, Status.idle]), xofFits_none⟩
  simp [State.resetOf, Status.idle, StatusFits]

theorem inv_resetCore {s : State} (hc : cfgValid s.cfg = true) : Inv (resetCore s) := inv_resetOf hc

theorem inv_writeCtrl {s : State} (h : Inv s) (v : Word) : Inv (writeCtrl s v) := by
  unfold writeCtrl
  split
  · exact inv_resetCore h.1
  · exact h

theorem inv_accept {s : State} (h : Inv s) (hacc : canAccept s.status = true) (w : Word) : Inv (accept w s) := by
  obtain ⟨hc, hs, hm, ⟨herr, hle, hhalt, -⟩, -, hx⟩ := h
  obtain ⟨-, he, -⟩ := (canAccept_iff _).1 hacc
  exact ⟨hc, hs, hm, ⟨herr, hle, hhalt, fun _ => ⟨rfl, he⟩⟩, fun _ => ⟨rfl, rfl⟩, hx⟩

theorem inv_writeCmd {s : State} (h : Inv s) (w : Word) : Inv (writeCmd s w) := by
  unfold writeCmd
  split
  · exact inv_accept h ‹_› w
  · exact h

theorem statusFits_acknowledgeError {st : Status} (h : StatusFits st) : StatusFits (acknowledgeError st) := by
  obtain ⟨herr, hle, hhalt, hbusy⟩ := h
  unfold acknowledgeError
  split
  case isTrue => exact ⟨herr, hle, hhalt, hbusy⟩
  case isFalse hh => exact ⟨by simp, by simp, by simp [hh], fun hb => ⟨(hbusy hb).1, rfl⟩⟩

theorem statusFits_writeStatus {st : Status} (h : StatusFits st) (v : Word) : StatusFits (writeStatus st v) := by
  have hdone : StatusFits (if v.getLsbD 1 then { st with done := false } else st) := by
    obtain ⟨herr, hle, hhalt, hbusy⟩ := h
    split
    · exact ⟨herr, hle, hhalt, fun hb => ⟨rfl, (hbusy hb).2⟩⟩
    · exact ⟨herr, hle, hhalt, hbusy⟩
  unfold writeStatus
  dsimp only
  generalize (if v.getLsbD 1 then { st with done := false } else st) = st1 at hdone ⊢
  have hack : StatusFits (if v.getLsbD 2 then acknowledgeError st1 else st1) := by
    split
    · exact statusFits_acknowledgeError hdone
    · exact hdone
  generalize (if v.getLsbD 2 then acknowledgeError st1 else st1) = st2 at hack ⊢
  split <;> exact hack

theorem inv_writeStatus {s : State} (h : Inv s) (hb : s.status.busy = false) (v : Word) :
    Inv { s with status := writeStatus s.status v } := by
  obtain ⟨hc, hs, hm, hst, -, hx⟩ := h
  refine ⟨hc, hs, hm, statusFits_writeStatus hst v, fun hbusy => absurd hbusy ?_, hx⟩
  rw [writeStatus_eq]
  simp [hb]

theorem inv_writeCoeff {s : State} (h : Inv s) (sl i : Nat) (v : Word) : Inv (writeCoeff s sl i v) := by
  obtain ⟨hc, ⟨hn, hf⟩, hm, hst, hr, hx⟩ := h
  have hw := ((cfgValid_iff_legal _).1 hc).w_pos
  refine ⟨hc, ⟨by simpa using hn, fun f hmem => ?_⟩, hm, hst, hr, hx⟩
  rw [writeCoeff_p, List.mem_iff_getElem] at hmem
  obtain ⟨j, hj, rfl⟩ := hmem
  rw [List.getElem_modify]
  rw [List.length_modify] at hj
  split
  · exact polyFits_set (hf _ (List.getElem_mem hj)) (wrap_fits hw _) i
  · exact hf _ (List.getElem_mem hj)

theorem inv_memWrite {s : State} (h : Inv s) {a n : Nat} (hin : inBuffer s a n = true) (v : Bytes) : Inv (memWrite s a n v) := by
  obtain ⟨hc, hs, hm, hst, hr, hx⟩ := h
  exact ⟨hc, hs, bufferFits_memWrite hin v hm, hst, hr, hx⟩

/-- A write to the register block; while the core is busy it reaches `CTRL` and `CMD` only. -/
theorem inv_regWrite {s : State} (h : Inv s) {off : Nat} (hb : s.status.busy = true → busyWriteOk off = true) (v : Word) :
    Inv (regWrite s off v) := by
  fun_cases regWrite
  case case1 => exact inv_writeCtrl h v
  case case2 => exact inv_writeCmd h v
  case case9 => exact inv_writeStatus h (by simpa using mt hb (by decide)) v
  all_goals exact h

/-- The last word of the BMEM window lies in `B` (20_memory.md R64). -/
theorem inBuffer_of_bmem {s : State} {off a : Nat} (hc : LegalCfg s.cfg) (ha : off % 4 = 0) (h : regionOf s.cfg off = .bmem a) :
    inBuffer s a 4 = true := by
  have := hc.bmem_aligned
  unfold regionOf at h
  split_ifs at h
  rw [Region.bmem.injEq] at h
  rw [inBuffer_iff]
  omega

theorem inv_hostWriteWord {s : State} (h : Inv s) {off : Nat} (ha : off % 4 = 0)
    (hb : s.status.busy = true → busyWriteOk off = true) (v : Word) : Inv (hostWriteWord s off v) := by
  unfold hostWriteWord
  split
  case h_1 => exact inv_regWrite h hb v
  case h_2 hr => exact inv_memWrite h (inBuffer_of_bmem ((cfgValid_iff_legal _).1 h.1) ha hr) _
  case h_3 => exact inv_writeCoeff h _ _ v
  case h_4 => exact h
  case h_5 => exact h

/-! ## One host access -/

/-- An accepted host read returns a word and changes nothing else (20_memory.md R69). -/
theorem hostRead_next {s t : State} {size : AccessSize} {off : Nat} (h : hostRead s size off = .next t) :
    ∃ x, t = { s with busData := x } := by
  unfold hostRead at h
  split_ifs at h
  split at h
  · cases h
    exact ⟨_, rfl⟩
  · cases h

/-- An accepted host write is an aligned one that a busy core allows. -/
theorem hostWrite_next {s t : State} {size : AccessSize} {off : Nat} {v : Word} (h : hostWrite s size off v = .next t) :
    size = .word ∧ off % 4 = 0 ∧ (s.status.busy = true → busyWriteOk off = true) ∧ t = hostWriteWord s off v := by
  unfold hostWrite at h
  split_ifs at h with h1 h2
  cases h
  simp only [aligned, Bool.not_eq_true', Bool.and_eq_false_iff, decide_eq_false_iff_not, not_or, not_not] at h1
  refine ⟨h1.1, h1.2, fun hb => ?_, rfl⟩
  simpa [hb] using h2

/-- What a step can be: the engine's turn, a host read, a host write, or the reset input, with the event taken off the bus. -/
theorem step_next {s t : State} (h : step s = .next t) :
    ∃ rest, coreTurn { s with bus := rest } = .next t
      ∨ (∃ x, t = { s with bus := rest, busData := x })
      ∨ (∃ off v, s.bus = .write .word off v :: rest ∧ off % 4 = 0 ∧ (s.status.busy = true → busyWriteOk off = true)
          ∧ t = hostWriteWord { s with bus := rest } off v)
      ∨ (s.bus = .resetPin :: rest ∧ t = resetCore { s with bus := rest }) := by
  unfold step at h
  split_ifs at h
  unfold nextEvent at h
  split at h
  case h_1 hbus => exact ⟨[], .inl (by rw [← hbus]; exact h)⟩
  case h_2 e rest hbus =>
    refine ⟨rest, ?_⟩
    cases e with
    | core => exact .inl h
    | read size off => exact .inr (.inl (hostRead_next h))
    | write size off v =>
      obtain ⟨rfl, ha, hb, ht⟩ := hostWrite_next h
      exact .inr (.inr (.inl ⟨off, v, hbus, ha, hb, ht⟩))
    | resetPin =>
      cases h
      exact .inr (.inr (.inr ⟨hbus, rfl⟩))

/-- Settles O7: the engine's turn, a host access and the reset input each keep the invariant. -/
theorem stepKeepsInvariant : Obligations.StepKeepsInvariant := by
  intro s t h ht
  obtain ⟨rest, hturn | ⟨x, rfl⟩ | ⟨off, v, -, ha, hb, rfl⟩ | ⟨-, rfl⟩⟩ := step_next ht
  · exact inv_coreTurn (s := { s with bus := rest }) h hturn
  · exact h
  · exact inv_hostWriteWord (s := { s with bus := rest }) h ha hb v
  · exact inv_resetCore h.1

/-- Settles O6: the reset state of a legal configuration, and that the one of `State.reset` is legal. -/
theorem resetMeetsInvariant : Obligations.ResetMeetsInvariant :=
  ⟨fun _ hc => inv_resetOf hc, inv_resetOf (by decide +kernel)⟩

/-! ## `HALT` (60_exceptions.md R326) -/

theorem halt_exec {s t : State} {i : Instr} (hh : s.status.halt = true) (ht : exec i s = .next t) : t.status.halt = true := by
  cases exec_ends i s t ht with
  | raised => exact hh
  | completed h => simpa [h, completed] using hh
  | halted h => simp [h, halted]

theorem halt_coreTurn {s t : State} (hh : s.status.halt = true) (ht : coreTurn s = .next t) : t.status.halt = true := by
  unfold coreTurn runCommand at ht
  split_ifs at ht
  · split at ht
    · exact halt_exec hh ht
    · cases ht
      exact hh
  · cases ht
    exact hh

/-- A register write leaves `HALT` only by `CTRL.SRST`. -/
theorem halt_regWrite {s : State} (hh : s.status.halt = true) (off : Nat) (v : Word) :
    (regWrite s off v).status.halt = true ∨ off = 0x040 ∧ v.getLsbD 1 = true := by
  fun_cases regWrite
  case case1 =>
    unfold writeCtrl
    split
    · exact .inr ⟨rfl, ‹_›⟩
    · exact .inl hh
  case case2 =>
    unfold writeCmd
    split <;> exact .inl hh
  case case9 => exact .inl (by simpa [writeStatus_eq] using hh)
  all_goals exact .inl hh

theorem halt_hostWriteWord {s : State} (hh : s.status.halt = true) (off : Nat) (v : Word) :
    (hostWriteWord s off v).status.halt = true ∨ off = 0x040 ∧ v.getLsbD 1 = true := by
  unfold hostWriteWord
  split
  case h_1 => exact halt_regWrite hh off v
  all_goals exact .inl hh

/-- Settles O16: no command and no other host access clears `HALT`. -/
theorem haltLeftOnlyByReset : Obligations.HaltLeftOnlyByReset := by
  intro s t hh ht
  obtain ⟨rest, hturn | ⟨x, rfl⟩ | ⟨off, v, hbus, -, -, rfl⟩ | ⟨hbus, -⟩⟩ := step_next ht
  · exact .inl (halt_coreTurn (s := { s with bus := rest }) hh hturn)
  · exact .inl hh
  · obtain h | ⟨rfl, hv⟩ := halt_hostWriteWord (s := { s with bus := rest }) hh off v
    · exact .inl h
    · exact .inr (.inr ⟨v, rest, hbus, hv⟩)
  · exact .inr (.inl ⟨rest, hbus⟩)

/-! ## Reset -/

theorem getD_replicate_self {α : Type} (n k : Nat) (a : α) : (List.replicate n a).getD k a = a := by
  by_cases h : k < n <;> simp [List.getD_eq_getElem?_getD, h]

/-- Settles O8: the fields of `State.resetOf`, read out. -/
theorem resetValues : Obligations.ResetValues := by
  intro c
  refine ⟨rfl, rfl, rfl, rfl, fun k hk => ?arg, rfl, rfl, fun a => rfl, rfl, fun k i => ?slot, fun n => ?scalar⟩
  case arg => simp [State.resetOf, Vector.getD, hk]
  case slot =>
    rw [coeff, getSlot, show (State.resetOf c).p = List.replicate c.np zeroPoly from rfl, getD_replicate_self]
    exact getD_replicate_self ringDegree i 0
  case scalar =>
    by_cases hn : n < 4 <;> simp [getScalar, State.resetOf, Vector.getD, hn]

/-- Settles O9: `CTRL` is writable in every state, and its bit 1 and the reset input are one operation. -/
theorem softResetIsHardwareReset : Obligations.SoftResetIsHardwareReset := by
  intro s v rest hc hv
  have hpin : step { s with bus := .resetPin :: rest }
      = .next { State.resetOf s.cfg with draws := s.draws, bus := rest, busData := s.busData } := step_event hc _ _
  refine ⟨Eq.trans ?_ hpin.symm, hpin⟩
  have hw : hostWriteWord { s with bus := rest } 0x040 v = writeCtrl { s with bus := rest } v := rfl
  rw [step_event hc]
  simp only [busEvent, hostWrite, aligned, busyWriteOk, hw, writeCtrl, if_pos hv]
  simp [resetCore]

end Sys2Proof.Machine
end

section
/-! SUPPORT. The register block and the BMEM window over the bus, and the accesses a busy core refuses (10_state.md R25 to R39,
20_memory.md R61 to R64, R72). -/

namespace Sys2Proof.Machine

/-! ## The protocols' constants -/

theorem bitlen_le {v n : Nat} (h : v < 2 ^ n) : bitlen v ≤ n := by
  unfold bitlen
  split
  · exact Nat.zero_le n
  · exact Nat.log2_lt ‹_› |>.2 h

theorem lt_two_pow_bitlen (v : Nat) : v < 2 ^ bitlen v := by
  unfold bitlen
  split
  case isTrue h => simp [h]
  case isFalse h => exact Nat.lt_log2_self

theorem LegalCfg.logq_le {c : Cfg} (h : LegalCfg c) : logq c ≤ 30 :=
  bitlen_le ((Nat.sub_le _ _).trans_lt h.q_lt_two_pow_thirty)

/-- The constraints on the KEM constants by name (00_scope.md R8, 45_kem.md R261). -/
structure LegalKem (c : Cfg) (m : KemCfg) : Prop where
  k : 1 ≤ m.k ∧ m.k ≤ 4
  eta : 2 ≤ m.eta ∧ m.eta ≤ 5
  dt : 1 ≤ m.dt ∧ m.dt ≤ logq c - 1
  du : 1 ≤ m.du ∧ m.du ≤ logq c - 1
  dv : 1 ≤ m.dv ∧ m.dv ≤ logq c - 1
  pk : kemPkBytes m ≤ c.bmemSize
  sk : kemSkBytes c m ≤ c.bmemSize
  ct : ctBytes m ≤ c.bmemSize

theorem LegalCfg.legalKem {c : Cfg} (h : LegalCfg c) {m : KemCfg} (hm : c.kem = some m) : LegalKem c m := by
  have hv := h.kem
  rw [hm] at hv
  simp only [Option.all_some, kemValid, List.all_cons, List.all_nil, id_eq, Bool.and_eq_true, decide_eq_true_eq, within_iff,
    and_true] at hv
  obtain ⟨h1, h2, h3, h4, h5, h6, h7, h8⟩ := hv
  exact ⟨h1, h2, h3, h4, h5, h6, h7, h8⟩

/-- The constraints on the signature constants by name (00_scope.md R8, 44_signature.md R222). -/
structure LegalSig (c : Cfg) (g : SigCfg) : Prop where
  sk : 1 ≤ g.sk ∧ g.sk ≤ 7
  sl : 1 ≤ g.sl ∧ g.sl ≤ 7
  seta : 2 ≤ g.seta ∧ g.seta ≤ 5
  tau : 1 ≤ g.tau ∧ g.tau ≤ 63
  gamma1 : 1 ≤ g.gamma1 ∧ g.gamma1 ≤ 2 ^ (c.w - 3)
  gamma1_pow : g.gamma1 = 2 ^ Nat.log2 g.gamma1
  gamma2 : 1 ≤ g.gamma2
  gamma2_dvd : (c.q - 1) % (2 * g.gamma2) = 0
  omega : 1 ≤ g.omega ∧ g.omega ≤ 255
  drop : 1 ≤ g.drop ∧ g.drop ≤ logq c - 1
  beta : 2 * beta g < g.gamma2
  nonce : c.nonceBytes = 2
  retries : c.maxSignRetries * g.sl < 2 ^ 16
  pk : sigPkBytes c g ≤ c.bmemSize
  skb : sigSkBytes g ≤ c.bmemSize
  sig : sigBytes g ≤ c.bmemSize

theorem LegalCfg.legalSig {c : Cfg} (h : LegalCfg c) {g : SigCfg} (hg : c.sig = some g) : LegalSig c g := by
  have hv := h.sig
  rw [hg] at hv
  simp only [Option.all_some, sigValid, List.all_cons, List.all_nil, id_eq, Bool.and_eq_true, decide_eq_true_eq, within_iff,
    and_true] at hv
  obtain ⟨h1, h2, h3, h4, h5, h6, h7, h8, h9, h10, h11, h12, h13, h14, h15, h16⟩ := hv
  exact ⟨h1, h2, h3, h4, h5, h6, h7, h8, h9, h10, h11, h12, h13, h14, h15, h16⟩

/-- `2*GAMMA2` divides `Q - 1`, so it fits a word. -/
theorem LegalSig.gamma2_le {c : Cfg} {g : SigCfg} (hc : LegalCfg c) (h : LegalSig c g) : 2 * g.gamma2 ≤ c.q - 1 := by
  have := hc.q_mod
  have := hc.zeta_order
  refine Nat.le_of_dvd ?_ (Nat.dvd_of_mod_eq_zero h.gamma2_dvd)
  by_contra h0
  obtain h1 : c.q = 1 := by omega
  have h2 := hc.prime
  rw [h1] at h2
  exact absurd h2 (by decide)

/-! ## `ID` and `CFG_*` (10_state.md R33 to R39) -/

/-- The identification registers: eleven offsets. -/
theorem identity_offset {off : Nat} (h4 : off % 4 = 0) (h : off ≤ 0x028) :
    off = 0x000 ∨ off = 0x004 ∨ off = 0x008 ∨ off = 0x00C ∨ off = 0x010 ∨ off = 0x014 ∨ off = 0x018 ∨ off = 0x01C ∨ off = 0x020
      ∨ off = 0x024 ∨ off = 0x028 := by
  omega

theorem hasFields_cfgRing {c : Cfg} (h : LegalCfg c) : HasFields (cfgRingWord c) (identityFields c 0x008) := by
  have h1 := h.width
  have h2 := h.logq_le
  have h3 : c.np - 1 < 16 := by have := h.slots; omega
  have h4 := h.chunkWidth
  have h5 : c.cs % 32 < 32 := Nat.mod_lt _ (by decide)
  simp only [HasFields, cfgRingWord, identityFields, List.forall_mem_cons, BitVec.toNat_ofNat]
  rw [h4]
  generalize c.np - 1 = np, c.cs % 32 = cs, logq c = l at *
  rw [Nat.mod_eq_of_lt (b := 2 ^ 32) (by omega)]
  have hslots : (c.w + 2 ^ 8 * l + 2 ^ 16 * np + 2 ^ 20 * l + 2 ^ 25 * cs) / 2 ^ 16 = np + 2 ^ 4 * l + 2 ^ 9 * cs := by omega
  refine ⟨by omega, by omega, by rw [hslots]; omega, by omega, by omega, by omega, by simp⟩

theorem hasFields_cfgXof {c : Cfg} (h : LegalCfg c) : HasFields (cfgXofWord c) (identityFields c 0x010) := by
  have h1 := h.blkA
  have h2 := h.blkB
  have h3 := h.nonceBytes
  simp only [HasFields, cfgXofWord, identityFields, List.forall_mem_cons, BitVec.toNat_ofNat]
  simp
  omega

theorem hasFields_cfgLim {c : Cfg} (h : LegalCfg c) : HasFields (cfgLimWord c) (identityFields c 0x014) := by
  have h1 := h.signRetries
  have h2 := h.xofBlocks
  simp only [HasFields, cfgLimWord, identityFields, List.forall_mem_cons, BitVec.toNat_ofNat]
  simp
  omega

theorem hasFields_cfgKem {c : Cfg} (h : LegalCfg c) : HasFields (cfgKemWord c) (identityFields c 0x01C) := by
  cases hm : c.kem with
  | none => simp [HasFields, cfgKemWord, identityFields, hm]
  | some m =>
    have hk := h.legalKem hm
    have h1 := hk.k
    have h2 := hk.eta
    have h3 := hk.dt
    have h4 := hk.du
    have h5 := hk.dv
    have h6 := h.logq_le
    simp only [HasFields, cfgKemWord, identityFields, hm, Option.elim_some, List.forall_mem_cons, BitVec.toNat_ofNat]
    simp
    omega

theorem hasFields_cfgSig0 {c : Cfg} (h : LegalCfg c) : HasFields (cfgSig0Word c) (identityFields c 0x020) := by
  cases hg : c.sig with
  | none => simp [HasFields, cfgSig0Word, identityFields, hg]
  | some g =>
    have hs := h.legalSig hg
    have h1 := hs.sk
    have h2 := hs.sl
    have h3 := hs.seta
    have h4 := hs.tau
    have h5 := hs.omega
    have h6 := hs.drop
    have h7 := h.logq_le
    simp only [HasFields, cfgSig0Word, identityFields, hg, Option.elim_some, List.forall_mem_cons, BitVec.toNat_ofNat]
    simp
    omega

/-- A register that is one field holds its value. -/
theorem hasFields_whole {n : Nat} (h : n < 2 ^ 32) : HasFields (BitVec.ofNat 32 n) [(0, 32, n)] := by
  simp only [HasFields, List.forall_mem_cons, BitVec.toNat_ofNat]
  simp
  omega

theorem hasFields_cfgSig1 {c : Cfg} (h : LegalCfg c) : HasFields (cfgSig1Word c) (identityFields c 0x024) := by
  cases hg : c.sig with
  | none => simp [HasFields, cfgSig1Word, identityFields, hg]
  | some g =>
    have hs := (h.legalSig hg).gamma1.2
    have hw : 2 ^ (c.w - 3) ≤ 2 ^ 29 := Nat.pow_le_pow_right (by decide) (by have := h.width; omega)
    simpa only [cfgSig1Word, identityFields, hg, Option.elim_some] using hasFields_whole (by omega)

theorem hasFields_cfgSig2 {c : Cfg} (h : LegalCfg c) : HasFields (cfgSig2Word c) (identityFields c 0x028) := by
  cases hg : c.sig with
  | none => simp [HasFields, cfgSig2Word, identityFields, hg]
  | some g =>
    have hs := (h.legalSig hg).gamma2_le h
    have hq := h.q_lt_two_pow_thirty
    simpa only [cfgSig2Word, identityFields, hg, Option.elim_some] using hasFields_whole (by omega)

theorem hasFields_regRead {s : State} (h : LegalCfg s.cfg) {off : Nat} (h4 : off % 4 = 0) (ho : off ≤ 0x028) :
    HasFields (regRead s off) (identityFields s.cfg off) := by
  have hq := h.q_lt_two_pow_thirty
  have hz := h.zeta_lt
  have hb := h.bmem_le
  obtain rfl | rfl | rfl | rfl | rfl | rfl | rfl | rfl | rfl | rfl | rfl := identity_offset h4 ho
  · exact hasFields_whole (n := 0x4D425201) (by decide)
  · exact hasFields_whole (by omega)
  · exact hasFields_cfgRing h
  · exact hasFields_whole (by omega)
  · exact hasFields_cfgXof h
  · exact hasFields_cfgLim h
  · exact hasFields_whole (by omega)
  · exact hasFields_cfgKem h
  · exact hasFields_cfgSig0 h
  · exact hasFields_cfgSig1 h
  · exact hasFields_cfgSig2 h

/-! ## The offset map (20_memory.md R61) -/

theorem regionOf_registers {c : Cfg} {off : Nat} (h : off < 0x100) : regionOf c off = .registers := if_pos h

theorem hostReadWord_registers {s : State} {off : Nat} (h : off < 0x100) : hostReadWord s off = .ok (regRead s off) := by
  rw [hostReadWord, regionOf_registers h]

theorem hostWriteWord_registers {s : State} {off : Nat} (h : off < 0x100) (v : Word) :
    hostWriteWord s off v = regWrite s off v := by
  rw [hostWriteWord, regionOf_registers h]

/-- An offset with a register that the host can write. -/
theorem regWrite_of_readonly (s : State) {off : Nat} (h : off ≤ 0x03F ∨ off = 0x064 ∨ off = 0x068 ∨ 0x06C ≤ off ∧ off < 0x080 ∨ 0x0A0 ≤ off)
    (v : Word) : regWrite s off v = s := by
  fun_cases regWrite
  case case18 => rfl
  all_goals exact absurd h (by decide)

theorem regRead_of_reserved (s : State) {off : Nat}
    (h : 0x02C ≤ off ∧ off ≤ 0x03F ∨ 0x06C ≤ off ∧ off ≤ 0x07F ∨ 0x0A0 ≤ off) : regRead s off = 0 := by
  fun_cases regRead
  case case30 => rfl
  all_goals exact absurd h (by decide)

/-- A reserved offset lies in the register block or in no region (20_memory.md R61). -/
theorem regionOf_reserved {c : Cfg} (hb : c.bmemSize ≤ 65536) {off : Nat} (h : ReservedOffset c off) :
    off < 0x100 ∨ regionOf c off = .reserved := by
  by_cases h1 : off < 0x100
  · exact .inl h1
  · rw [regionOf, if_neg h1, if_neg (by omega), if_neg (by omega), if_neg (by omega)]
    exact .inr rfl

theorem hostReadWord_reserved {s : State} (hb : s.cfg.bmemSize ≤ 65536) {off : Nat}
    (h : ReservedOffset s.cfg off) : hostReadWord s off = .ok 0 := by
  obtain h1 | h1 := regionOf_reserved hb h
  · rw [hostReadWord_registers h1, regRead_of_reserved s (by omega)]
  · rw [hostReadWord, h1]

theorem hostWriteWord_reserved {s : State} (hb : s.cfg.bmemSize ≤ 65536) {off : Nat}
    (h : ReservedOffset s.cfg off) (v : Word) : hostWriteWord s off v = s := by
  obtain h1 | h1 := regionOf_reserved hb h
  · rw [hostWriteWord_registers h1, regWrite_of_readonly s (by omega)]
  · rw [hostWriteWord, h1]

/-! ## Scalar registers and `ARG` (10_state.md R25, R32) -/

section
variable (s : State)

theorem regRead_scalar {n : Nat} (hn : n < 4) (hi : Bool) :
    regRead s (0x080 + 8 * n + if hi then 4 else 0) = scalarWord s n hi := by
  interval_cases n <;> cases hi <;> rfl

theorem regWrite_scalar {n : Nat} (hn : n < 4) (hi : Bool) (v : Word) :
    regWrite s (0x080 + 8 * n + if hi then 4 else 0) v = writeScalarWord s n hi v := by
  interval_cases n <;> cases hi <;> rfl

theorem regRead_arg {k : Nat} (hk : k < 6) : regRead s (0x048 + 4 * k) = s.arg.getD k 0 := by
  interval_cases k <;> rfl

theorem regWrite_arg {k : Nat} (hk : k < 6) (v : Word) : regWrite s (0x048 + 4 * k) v = writeArg s k v := by
  interval_cases k <;> rfl

theorem writeScalarWord_other {n m : Nat} (hm : m ≠ n) (hi : Bool) (v : Word) :
    (writeScalarWord s n hi v).sreg.getD m 0 = s.sreg.getD m 0 := by
  by_cases h : m < 4 <;> simp [writeScalarWord, Vector.getD, h, Ne.symm hm]

/-- The half that is written, and the half that is kept. -/
theorem writeScalarWord_same {n : Nat} (hn : n < 4) (hi : Bool) (v : Word) :
    scalarWord (writeScalarWord s n hi v) n hi = v ∧ scalarWord (writeScalarWord s n hi v) n (!hi) = scalarWord s n (!hi) := by
  have hr : (writeScalarWord s n hi v).sreg.getD n 0 = if hi then v ++ scalarWord s n false else scalarWord s n true ++ v := by
    simp [writeScalarWord, Vector.getD, hn]
  cases hi with
  | true =>
    rw [scalarWord, scalarWord, hr]
    exact ⟨BitVec.extractLsb'_append_eq_left, BitVec.extractLsb'_append_eq_right⟩
  | false =>
    rw [scalarWord, scalarWord, hr]
    exact ⟨BitVec.extractLsb'_append_eq_right, BitVec.extractLsb'_append_eq_left⟩

end

/-! ## `STATUS` (10_state.md R27) -/

theorem bitVal_lt (b : Bool) : bitVal b < 2 := by
  cases b <;> decide

theorem statusWord_toNat (st : Status) :
    (statusWord st).toNat = bitVal st.busy + 2 * bitVal st.done + 4 * bitVal st.err + 8 * bitVal st.halt + 16 * bitVal st.cmdovr
      + 256 * st.errcode.toNat := by
  have h1 := bitVal_lt st.busy
  have h2 := bitVal_lt st.done
  have h3 := bitVal_lt st.err
  have h4 := bitVal_lt st.halt
  have h5 := bitVal_lt st.cmdovr
  have h6 := st.errcode.isLt
  rw [statusWord, BitVec.toNat_ofNat, Nat.mod_eq_of_lt (by omega)]

theorem decide_bitVal (b : Bool) : decide (bitVal b = 1) = b := by
  cases b <;> rfl

/-- Each flag at its bit, the code in bits 15:8, and 0 elsewhere. -/
theorem statusWord_bits (st : Status) :
    (statusWord st).getLsbD 0 = st.busy ∧ (statusWord st).getLsbD 1 = st.done ∧ (statusWord st).getLsbD 2 = st.err
      ∧ (statusWord st).getLsbD 3 = st.halt ∧ (statusWord st).getLsbD 4 = st.cmdovr ∧ (statusWord st).extractLsb' 5 3 = 0
      ∧ (statusWord st).extractLsb' 8 8 = st.errcode ∧ (statusWord st).extractLsb' 16 16 = 0 := by
  have h1 := bitVal_lt st.busy
  have h2 := bitVal_lt st.done
  have h3 := bitVal_lt st.err
  have h4 := bitVal_lt st.halt
  have h5 := bitVal_lt st.cmdovr
  have h6 := st.errcode.isLt
  have hbit : ∀ k b, (statusWord st).toNat / 2 ^ k % 2 = bitVal b → (statusWord st).getLsbD k = b := fun k b h => by
    rw [BitVec.getLsbD, Nat.testBit_eq_decide_div_mod_eq, h, decide_bitVal]
  have hpart : ∀ lo n (x : BitVec n), (statusWord st).toNat / 2 ^ lo % 2 ^ n = x.toNat → (statusWord st).extractLsb' lo n = x :=
    fun lo n x h => BitVec.eq_of_toNat_eq (by rw [BitVec.extractLsb'_toNat, Nat.shiftRight_eq_div_pow, h])
  rw [statusWord_toNat] at hbit hpart
  refine ⟨hbit _ _ ?_, hbit _ _ ?_, hbit _ _ ?_, hbit _ _ ?_, hbit _ _ ?_, hpart _ _ _ ?_, hpart _ _ _ ?_, hpart _ _ _ ?_⟩ <;>
    simp <;> omega

/-! ## The register block over the bus -/

section
variable {s : State} {rest : List BusEvent}

/-- A read of a register that the core allows: any of an idle core, `STATUS`, `ID` and `CFG_*` of a busy one (20_memory.md R72). -/
theorem step_read_register (hc : cfgValid s.cfg = true) {off : Nat} (h4 : off % 4 = 0) (hlt : off < 0x100)
    (hb : s.status.busy = true → busyReadOk off = true) :
    step { s with bus := .read .word off :: rest } = .next { s with bus := rest, busData := regRead { s with bus := rest } off } := by
  rw [step_event hc]
  have hok : (s.status.busy && !busyReadOk off) = false := by
    cases h : s.status.busy with
    | false => rfl
    | true => simp [hb h]
  simp [busEvent, hostRead, aligned, h4, hok, hostReadWord_registers (s := { s with bus := rest }) hlt]

theorem step_write_register (hc : cfgValid s.cfg = true) {off : Nat} {v : Word} (h4 : off % 4 = 0) (hlt : off < 0x100)
    (hb : s.status.busy = true → busyWriteOk off = true) :
    step { s with bus := .write .word off v :: rest } = .next (regWrite { s with bus := rest } off v) := by
  rw [step_event hc]
  have hok : (s.status.busy && !busyWriteOk off) = false := by
    cases h : s.status.busy with
    | false => rfl
    | true => simp [hb h]
  simp [busEvent, hostWrite, aligned, h4, hok, hostWriteWord_registers (s := { s with bus := rest }) hlt]

/-- A write of `CTRL` without `SRST` reaches `IE` in every state. -/
theorem step_write_ctrl (hc : cfgValid s.cfg = true) {v : Word} (hv : v.getLsbD 1 = false) :
    step { s with bus := .write .word 0x040 v :: rest } = .next { s with bus := rest, ie := v.getLsbD 0 } := by
  rw [step_write_register hc (by decide) (by decide) (fun _ => rfl), regWrite, writeCtrl, if_neg (by rw [hv]; decide)]

theorem step_read_identity (hc : cfgValid s.cfg = true) {off : Nat} (h4 : off % 4 = 0) (ho : off ≤ 0x028) :
    ∃ x : Word, step { s with bus := .read .word off :: rest } = .next { s with bus := rest, busData := x }
      ∧ HasFields x (identityFields s.cfg off) :=
  ⟨_, step_read_register hc h4 (by omega) (fun _ => by simp [busyReadOk, ho]),
    hasFields_regRead (s := { s with bus := rest }) ((cfgValid_iff_legal _).1 hc) h4 ho⟩

theorem step_write_readonly (hc : cfgValid s.cfg = true) (hb : s.status.busy = false) {off : Nat} {v : Word} (h4 : off % 4 = 0)
    (ho : off ≤ 0x028 ∨ off = 0x064 ∨ off = 0x068 ∨ ReservedOffset s.cfg off) :
    step { s with bus := .write .word off v :: rest } = .next { s with bus := rest } := by
  have hbm := ((cfgValid_iff_legal _).1 hc).bmem_le
  by_cases hr : ReservedOffset s.cfg off
  · exact step_write_idle hc hb h4 (hostWriteWord_reserved (s := { s with bus := rest }) hbm hr v)
  · rw [step_write_register hc h4 (by omega) (by simp [hb]), regWrite_of_readonly _ (by omega)]

theorem step_write_scalar (hc : cfgValid s.cfg = true) (hb : s.status.busy = false) {n : Nat} (hn : n < 4) (hi : Bool)
    (v : Word) :
    step { s with bus := .write .word (0x080 + 8 * n + if hi then 4 else 0) v :: rest }
      = .next (writeScalarWord { s with bus := rest } n hi v) := by
  rw [step_write_register hc (by split <;> omega) (by split <;> omega) (by simp [hb]), regWrite_scalar _ hn]

theorem step_read_scalar (hc : cfgValid s.cfg = true) (hb : s.status.busy = false) {n : Nat} (hn : n < 4) (hi : Bool) :
    step { s with bus := .read .word (0x080 + 8 * n + if hi then 4 else 0) :: rest }
      = .next { s with bus := rest, busData := scalarWord s n hi } := by
  rw [step_read_register hc (by split <;> omega) (by split <;> omega) (by simp [hb]), regRead_scalar _ hn]
  rfl

end

/-- Settles O12: each register is read and written through its own equation. -/
theorem registerBlock : Obligations.RegisterBlock := by
  intro s v k n rest hc hb hk hn
  have hl := (cfgValid_iff_legal _).1 hc
  have hread : ∀ off, off % 4 = 0 → off < 0x100 → step { s with bus := .read .word off :: rest }
      = .next { s with bus := rest, busData := regRead { s with bus := rest } off } :=
    fun off h4 hlt => step_read_register hc h4 hlt (by simp [hb])
  have hhigh : 0x084 + 8 * n = 0x080 + 8 * n + if true then 4 else 0 := by simp; omega
  rw [hhigh]
  refine ⟨hread _ (by decide) (by decide), fun off h4 ho => step_read_identity hc h4 ho,
    fun off h4 ho => step_write_readonly hc hb h4 ho, fun off h4 ho => ?reserved, ?ctrl, hread _ (by decide) (by decide),
    hread _ (by decide) (by decide), step_read_scalar hc hb hn false, step_read_scalar hc hb hn true, ?writeArg, ?readArg,
    ⟨_, step_write_scalar hc hb hn false v, rfl, fun m hm => writeScalarWord_other _ hm _ v, writeScalarWord_same _ hn false v⟩,
    ⟨_, step_write_scalar hc hb hn true v, rfl, fun m hm => writeScalarWord_other _ hm _ v, writeScalarWord_same _ hn true v⟩,
    ⟨_, hread _ (by decide) (by decide), statusWord_bits s.status⟩, fun hv => step_write_ctrl hc hv⟩
  case reserved => exact step_read_idle hc hb h4 (hostReadWord_reserved (s := { s with bus := rest }) hl.bmem_le ho)
  case ctrl =>
    rw [hread _ (by decide) (by decide)]
    cases hie : s.ie <;> simp [regRead, ctrlWord, bitVal]
  case writeArg =>
    rw [step_write_register hc (by omega) (by omega) (by simp [hb]), regWrite_arg _ hk]
    rfl
  case readArg => rw [hread _ (by omega) (by omega), regRead_arg _ hk]

/-! ## What a busy core refuses (20_memory.md R63, R72) -/

/-- Settles O15: `hostRead` and `hostWrite` refuse by alignment and by offset, and the rest goes through as on an idle core. -/
theorem hostAccessesRefused : Obligations.HostAccessesRefused := by
  intro s off v size rest hc
  refine ⟨fun h => ?unaligned, fun h4 hb h1 h2 => ?read, fun h4 hb h1 h2 => ?write, fun hb => ⟨?status, ?identity, ?ctrl, ?cmd⟩⟩
  case unaligned =>
    have ha : aligned size off = false := by
      simp only [aligned, Bool.and_eq_false_iff, decide_eq_false_iff_not]
      exact h
    rw [step_event hc, step_event hc]
    exact ⟨by simp [busEvent, hostRead, ha], by simp [busEvent, hostWrite, ha]⟩
  case read =>
    have ho : busyReadOk off = false := by simp [busyReadOk, h1, h2]
    rw [step_event hc]
    simp [busEvent, hostRead, aligned, h4, hb, ho]
  case write =>
    have ho : busyWriteOk off = false := by simp [busyWriteOk, h1, h2]
    rw [step_event hc]
    simp [busEvent, hostWrite, aligned, h4, hb, ho]
  case status => exact step_read_register hc (by decide) (by decide) (fun _ => rfl)
  case identity => exact fun o h4 ho => step_read_identity hc h4 ho
  case ctrl => exact fun hv => step_write_ctrl hc hv
  case cmd => exact step_write_cmd hc (writeCmd_dropped v (by simp [canAccept_iff, hb]))

/-! ## The BMEM window (20_memory.md R64) -/

theorem regionOf_bmem {c : Cfg} {a : Nat} (h : a < c.bmemSize) : regionOf c (0x10000 + a) = .bmem a := by
  rw [regionOf, if_neg (by omega), if_pos (by omega), Nat.add_sub_cancel_left]

/-- A write of `n` bytes stores them and changes no other byte. -/
theorem stored_memWrite (s : State) (a : Nat) {n : Nat} {v : Bytes} (h : v.length = n) :
    Stored s.mem (memWrite s a n v).mem a v := by
  rw [memWrite_mem, List.take_of_length_le h.le]
  exact ⟨fun k hk => read_writeBytes_inside _ _ _ _ hk, fun x hx => read_writeBytes_outside _ _ _ _ hx⟩

theorem leBytes_four (v : Word) :
    leBytes 4 v.toNat = [v.extractLsb' 0 8, v.extractLsb' 8 8, v.extractLsb' 16 8, v.extractLsb' 24 8] := by
  simp only [leBytes, List.cons.injEq, ← BitVec.toNat_inj, BitVec.toNat_ofNat, BitVec.extractLsb'_toNat, Nat.shiftRight_eq_div_pow]
  exact ⟨by omega, trivial, by omega, by omega, trivial⟩

theorem intLe_four (b0 b1 b2 b3 : Byte) :
    intLe [b0, b1, b2, b3] = b0.toNat + 2 ^ 8 * b1.toNat + 2 ^ 16 * b2.toNat + 2 ^ 24 * b3.toNat := by
  simp only [intLe, List.foldr_cons, List.foldr_nil]
  omega

/-- Settles O13: the window's word is four bytes of `B`, and `MemRead` of them faults where one has no value. -/
theorem bufferWindowLittleEndian : Obligations.BufferWindowLittleEndian := by
  rintro s a v rest ⟨hc, -, ⟨hw, -⟩, -⟩ hb h4 ha
  refine ⟨⟨(memWrite s a 4 (leBytes 4 v.toNat)).mem, ?write, ?stored⟩, fun b0 b1 b2 b3 h0 h1 h2 h3 =>
      ⟨BitVec.ofNat 32 (intLe [b0, b1, b2, b3]), ?read, ?value⟩,
    fun k hk hnone => ?fault⟩
  case write =>
    refine step_write_idle hc hb (by omega) ?_
    rw [hostWriteWord, regionOf_bmem ha]
    rfl
  case stored =>
    rw [← leBytes_four]
    exact stored_memWrite s a (leBytes_length 4 _)
  case read =>
    refine step_read_idle hc hb (by omega) ?_
    rw [hostReadWord, regionOf_bmem ha]
    have hr : s.mem.readBytes a 4 = .ok [b0, b1, b2, b3] := by
      refine readBytes_of_holds _ _ _ _ hw rfl fun j hj => ?_
      have hj : j < 4 := hj
      interval_cases j
      · exact h0
      · exact h1
      · exact h2
      · exact h3
    simp only [hr]
  case value =>
    have i0 := b0.isLt
    have i1 := b1.isLt
    have i2 := b2.isLt
    have i3 := b3.isLt
    rw [intLe_four, BitVec.toNat_ofNat, Nat.mod_eq_of_lt (by omega)]
  case fault =>
    obtain ⟨bs, -, hlen, hbs⟩ | ⟨e, he, h1, h2, h3⟩ := readBytes_spec s.mem a 4 hw
    · have := hbs k hk
      rw [hnone, List.getElem?_eq_getElem (by omega)] at this
      cases this
    · refine ⟨e, ?_, h1, h2, h3⟩
      rw [step_event hc]
      have hword : hostReadWord { s with bus := rest } (0x10000 + a) = .error e := by
        rw [hostReadWord, regionOf_bmem ha]
        simp only [he]
      have halign : (0x10000 + a) % 4 = 0 := by omega
      simp [busEvent, hostRead, aligned, halign, hb, hword]

end Sys2Proof.Machine
end

section
/-! SUPPORT. The XOF unit's streams and the two commands that absorb and squeeze (42_sampler.md R170, R172, R174, R175). -/

namespace Sys2Proof.Machine

/-! ## A stream's beginning (42_sampler.md R170) -/

theorem squeezeBlocks_prefix (r : Nat) : ∀ (k : Nat) (a : Lanes), squeezeBlocks r k a <+: squeezeBlocks r (k + 1) a
  | 0, _ => List.nil_prefix
  | 1, _ => List.prefix_append _ _
  | k + 2, a => (List.prefix_append_right_inj _).2 (squeezeBlocks_prefix r (k + 1) (keccakF a))

theorem squeezeBlocks_prefix_of_le (r : Nat) (a : Lanes) {k k' : Nat} (h : k ≤ k') :
    squeezeBlocks r k a <+: squeezeBlocks r k' a := by
  induction h with
  | refl => exact List.prefix_rfl
  | step _ ih => exact ih.trans (squeezeBlocks_prefix r _ a)

/-- Two beginnings of a list of blocks agree where both reach. -/
theorem take_eq_of_prefix {α : Type} {l l' : List α} (h : l <+: l') {n n' : Nat} (hn : n ≤ n') (hl : n ≤ l.length) :
    l.take n = (l'.take n').take n := by
  rw [List.take_take, Nat.min_eq_left hn, List.prefix_iff_eq_take.1 h, List.take_take, Nat.min_eq_left hl]

theorem spongeBytes_take {r : Nat} (h0 : 0 < r) (hr : r ≤ 200) (sfx : Byte) (m : Bytes) {n n' : Nat} (h : n ≤ n') :
    spongeBytes r sfx m n = (spongeBytes r sfx m n').take n := by
  refine take_eq_of_prefix (squeezeBlocks_prefix_of_le r _ (Nat.div_le_div_right (by omega))) h ?_
  rw [squeezeBlocks_length hr _ _ (absorbAll_shape r sfx m)]
  have h1 := Nat.div_add_mod (n + r - 1) r
  have h2 := Nat.mod_lt (n + r - 1) h0
  omega

theorem streamOf_take (f : Nat → Byte) {n n' : Nat} (h : n ≤ n') : streamOf f n = (streamOf f n').take n := by
  rw [streamOf, streamOf, ← List.map_take, List.take_range, Nat.min_eq_left h]

theorem xofaBytes_take (suite : HashSuite) (m : Bytes) {n n' : Nat} (h : n ≤ n') :
    xofaBytes suite m n = (xofaBytes suite m n').take n := by
  cases suite with
  | keccak => exact spongeBytes_take (by decide) (by decide) _ m h
  | constant b => simp [xofaBytes, h]
  | other k => exact streamOf_take _ h

theorem xofbBytes_take (suite : HashSuite) (m : Bytes) {n n' : Nat} (h : n ≤ n') :
    xofbBytes suite m n = (xofbBytes suite m n').take n := by
  cases suite with
  | keccak => exact spongeBytes_take (by decide) (by decide) _ m h
  | constant b => simp [xofbBytes, h]
  | other k => exact streamOf_take _ h

/-- Settles O41: the blocks of a sponge begin like fewer blocks, and the other suites' streams are given byte by byte. -/
theorem streamBeginningsAgree : Obligations.StreamBeginningsAgree := fun suite m _ _ h =>
  ⟨xofaBytes_length suite m _, xofaBytes_take suite m h, xofbBytes_length suite m _, xofbBytes_take suite m h,
    hashH_length suite m, hashG_length suite m⟩

/-! ## A command past its checks -/

/-- The body of a command is determined by the state and the command. -/
theorem Body.unique {s : State} {i : Instr} {o o' : Outcome} (h : Body s i o) (h' : Body s i o') : o = o' := by
  cases h
  case xabsorb hx | challenge hx | sigKeygen hx | sigSign hx | sigVerify hx | kemKeygen hx | kemEncap hx | kemDecap hx =>
    cases h'
    next hx' =>
      cases hx.symm.trans hx'
      rfl
  case xsqueeze hx _ =>
    cases h'
    next hx' _ =>
      cases hx.symm.trans hx'
      rfl
  all_goals
    cases h'
    rfl

theorem exec_eq_of_body {s : State} {i : Instr} {o : Outcome} (h : checkError s i = none) (hb : Body s i o) : exec i s = o :=
  (exec_body h).unique hb

/-! ## The checks of a command with one buffer -/

/-- A command with one buffer passes its checks where its fields are legal and the buffer lies in `B`. -/
theorem checkError_eq_none_of_one {s : State} {i : Instr} {a n : Nat} (hl : legalFields s i = true) (hin : InBounds s a n)
    (hb : inputBuffers s i = [(a, n)] ∧ outputBuffers s i = [] ∨ inputBuffers s i = [] ∧ outputBuffers s i = [(a, n)])
    (hx : xofInSequence s i = true := by rfl) (hn : lengthsMatch s i = true := by rfl) : checkError s i = none :=
  (checkError_eq_none_iff s i).2 ⟨hl, hx, hn, by rw [addressesOk_of_one hb, inBuffer_iff]; exact hin⟩

theorem checkError_eq_addr_of_one {s : State} {i : Instr} {a n : Nat} (hl : legalFields s i = true) (hin : ¬ InBounds s a n)
    (hb : inputBuffers s i = [(a, n)] ∧ outputBuffers s i = [] ∨ inputBuffers s i = [] ∧ outputBuffers s i = [(a, n)])
    (hx : xofInSequence s i = true) (hn : lengthsMatch s i = true := by rfl) : checkError s i = some .addr := by
  have ha : addressesOk s i = false := by
    rw [addressesOk_of_one hb, ← Bool.not_eq_true, inBuffer_iff]
    exact hin
  simp [checkError, hl, hx, hn, ha]

theorem checkError_eq_xofSeq {s : State} {i : Instr} (hl : legalFields s i = true) (hx : xofInSequence s i = false) :
    checkError s i = some .xofSeq := by
  simp [checkError, hl, hx]

/-! ## `XABSORB` (42_sampler.md R174) -/

theorem xofInSequence_xabsorb {s : State} {x : Xof} (hx : s.xof = some x) : xofInSequence s .xabsorb = !x.squeezing := by
  rw [xofInSequence, hx]
  rfl

/-- Settles O39: the sequence check, then the buffer check, then the bytes that memory holds. -/
theorem xabsorbResult : Obligations.XabsorbResult := by
  intro s bs hw
  refine ⟨fun x hx hsq hin hlen hbs => ?absorbed, fun h => ?sequence, fun x hx hsq hin => ?address⟩
  case absorbed =>
    have hc : checkError s .xabsorb = none :=
      checkError_eq_none_of_one rfl hin (.inl ⟨rfl, rfl⟩) (by rw [xofInSequence_xabsorb hx, hsq]; rfl)
    rw [exec_eq_of_body hc (.xabsorb hx), reading_of_holds _ hw hlen hbs]
    rfl
  case sequence =>
    refine exec_eq_of_checkError (checkError_eq_xofSeq rfl ?_)
    obtain h | ⟨x, hx, hsq⟩ := h
    · rw [xofInSequence, h]
      rfl
    · rw [xofInSequence_xabsorb hx, hsq]
      rfl
  case address =>
    exact exec_eq_of_checkError
      (checkError_eq_addr_of_one rfl hin (.inl ⟨rfl, rfl⟩) (by rw [xofInSequence_xabsorb hx, hsq]; rfl))

/-! ## `XSQUEEZE` (42_sampler.md R175) -/

theorem xofInSequence_xsqueeze_of_some {s : State} {x : Xof} (hx : s.xof = some x) :
    xofInSequence s .xsqueeze = withinLimit x (operand s 1) := by
  rw [xofInSequence_xsqueeze, hx]
  rfl

/-- Within the variant's limit the stream has as many bytes as are asked for. -/
theorem xofStream_length (suite : HashSuite) {x : Xof} {n : Nat} (hh : x.variant = .h → n ≤ 32) (hg : x.variant = .g → n ≤ 64) :
    (xofStream suite x n).length = n := by
  unfold xofStream
  cases hv : x.variant with
  | xofa => exact xofaBytes_length ..
  | xofb => exact xofbBytes_length ..
  | h => simpa [hashH_length] using hh hv
  | g => simpa [hashG_length] using hg hv

theorem getElem?_slice (bs : Bytes) (a : Nat) {n k : Nat} (hk : k < n) : (slice bs a (a + n))[k]? = bs[a + k]? := by
  rw [slice, List.getElem?_take, if_pos (by omega), List.getElem?_drop]

/-- Settles O40: the stored bytes are the slice of the stream that starts at `pos`. -/
theorem xsqueezeResult : Obligations.XsqueezeResult := by
  intro s
  refine ⟨fun x hx hh hg hin => ?squeezed, fun hx => ?absent, fun x hx hlim => ?limit, fun x hx hh hg hin => ?address⟩
  case absent =>
    refine exec_eq_of_checkError (checkError_eq_xofSeq rfl ?_)
    rw [xofInSequence_xsqueeze, hx]
    rfl
  case limit =>
    refine exec_eq_of_checkError (checkError_eq_xofSeq rfl ?_)
    rw [xofInSequence_xsqueeze_of_some hx, ← Bool.not_eq_true, withinLimit_iff]
    rintro ⟨hh, hg⟩
    obtain ⟨hv, h⟩ | ⟨hv, h⟩ := hlim
    · exact absurd (hh hv) (by omega)
    · exact absurd (hg hv) (by omega)
  case address =>
    exact exec_eq_of_checkError (checkError_eq_addr_of_one rfl hin (.inr ⟨rfl, rfl⟩)
      (by rw [xofInSequence_xsqueeze_of_some hx, withinLimit_iff]; exact ⟨hh, hg⟩))
  case squeezed =>
    have hc : checkError s .xsqueeze = none := checkError_eq_none_of_one rfl hin (.inr ⟨rfl, rfl⟩)
      (by rw [xofInSequence_xsqueeze_of_some hx, withinLimit_iff]; exact ⟨hh, hg⟩)
    have hlim : withinLimit x (operand s 1) = true := (withinLimit_iff _ _).2 ⟨hh, hg⟩
    have hlen : (slice (xofStream s.cfg.hash x (x.pos + operand s 1)) x.pos (x.pos + operand s 1)).length = operand s 1 := by
      rw [slice_length (by rw [xofStream_length _ hh hg]), Nat.add_sub_cancel_left]
    refine ⟨_, _, exec_eq_of_body hc (.xsqueeze hx hlim), stored_memWrite s (operand s 0) hlen, hlen, fun k hk => ?_⟩
    rw [getElem?_slice _ _ hk, xofStream]
    have hlt : x.pos + k < x.pos + operand s 1 := by omega
    cases x.variant <;> simp [hlt]

end Sys2Proof.Machine
end

section
/-! SUPPORT. `MRED` (40_reducer.md R124), `CBD` and `GETNOISE` (42_sampler.md R177 to R179). -/

namespace Sys2Proof.Machine

/-! ## `MRED` -/

/-- Settles O26: `montgomery_reduce` of the source, with R133's bound under which it does not wrap. -/
theorem mredResult : Obligations.MredResult := by
  intro s sd sa hc
  have hl := (cfgValid_iff_legal s.cfg).1 hc
  refine ⟨fun hd ha => ?legal, fun h => exec_eq_of_checkError (checkError_of_illegal (decide_eq_false h))⟩
  have hck : checkError s (.mred sd sa) = none := (checkError_eq_none_iff _ _).2 ⟨decide_eq_true ⟨hd, ha⟩, rfl, rfl, rfl⟩
  refine ⟨_, exec_eq_of_body hck (.mred sd sa), hl.isMontgomery_montgomeryReduce _, fun h => ?congruence, fun h => ?range⟩
  case congruence =>
    refine Int.emod_eq_emod_iff_emod_sub_eq_zero.1 (hl.montgomeryReduce_modEq ?_)
    rw [Int.abs_eq_natAbs]
    exact_mod_cast Nat.add_lt_of_lt_sub h
  case range =>
    have := hl.abs_montgomeryReduce_lt (a := wrap (2 * s.cfg.w) (getScalar s sa)) (by
      rw [Int.abs_eq_natAbs]
      exact_mod_cast h)
    rw [Int.abs_eq_natAbs] at this
    exact_mod_cast this

/-! ## A command that writes one slot -/

/-- A polynomial that fits is written as it is. -/
theorem setSlot_of_fits {s : State} (hw : 0 < s.cfg.w) {f : Poly} (hf : PolyFits s.cfg.w f) (pd : Nat) :
    setSlot s pd f = { s with p := s.p.set pd f } := by
  rw [setSlot, fitPoly_of_fits hw hf]

theorem getD_map_range {α : Type} (g : Nat → α) {n i : Nat} (hi : i < n) {d : α} : ((List.range n).map g).getD i d = g i := by
  rw [List.getD_eq_getElem?_getD, List.getElem?_map, List.getElem?_range hi]
  rfl

/-! ## Sums of bits -/

theorem bitAt_le_one (bs : Bytes) (n : Nat) : bitAt bs n ≤ 1 := by
  unfold bitAt
  split <;> decide

theorem bitSum_le (bs : Bytes) (lo n : Nat) : ((List.range n).map (fun t => bitAt bs (lo + t))).sum ≤ n := by
  have h := List.sum_le_card_nsmul ((List.range n).map (fun t => bitAt bs (lo + t))) 1 fun x hx => by
    obtain ⟨t, -, rfl⟩ := List.mem_map.1 hx
    exact bitAt_le_one _ _
  simpa using h

theorem LegalCfg.two_pow_fifteen_le {c : Cfg} (h : LegalCfg c) : (2 : Int) ^ 15 ≤ 2 ^ (c.w - 1) :=
  pow_le_pow_right₀ (by decide) (by have := h.width; omega)

/-- A centered binomial coefficient is at most `eta <= 5` in absolute value. -/
theorem cbdOf_fits {c : Cfg} (h : LegalCfg c) {eta : Nat} (heta : eta ≤ 5) (bs : Bytes) : PolyFits c.w (cbdOf bs eta) := by
  refine ⟨by simp [cbdOf], fun x hx => ?_⟩
  obtain ⟨i, -, rfl⟩ := List.mem_map.1 hx
  have hpow := h.two_pow_fifteen_le
  have h1 := bitSum_le bs (2 * eta * i) eta
  have h2 := bitSum_le bs (2 * eta * i + eta) eta
  constructor <;> omega

/-! ## The commands -/

/-- Settles O42: the bit counts of `CBD` are those of `cbdOf`, and they fit a slot. -/
theorem cbdResult : Obligations.CbdResult := by
  intro s pd eta bs ⟨hc, _, hb, _⟩ hpd h2 h5 hin hlen hbs
  have hl := (cfgValid_iff_legal s.cfg).1 hc
  have hck : checkError s (.cbd pd eta) = none :=
    checkError_eq_none_of_one (decide_eq_true ⟨hpd, h2, h5⟩) (.inr hin) (.inl ⟨rfl, rfl⟩)
  refine ⟨cbdOf bs eta, ?_, (cbdOf_fits hl h5 bs).1, fun i hi => getD_map_range _ hi⟩
  rw [exec_eq_of_body hck (.cbd pd eta), reading_of_holds _ hb.1 hlen hbs, cbdPoly_eq_cbdOf,
    setSlot_of_fits hl.w_pos (cbdOf_fits hl h5 bs)]
  rfl

/-- Settles O43: `CBD`'s counts over the seeded stream. -/
theorem getnoiseResult : Obligations.GetnoiseResult := by
  intro s pd eta seed buf ⟨hc, _, hb, _⟩ hpd h2 h5 hnonce h1 h255 hin hlen hseed hbuf
  have hl := (cfgValid_iff_legal s.cfg).1 hc
  have hck : checkError s (.getnoise pd eta) = none :=
    checkError_eq_none_of_one (decide_eq_true ⟨hpd, h2, h5, hnonce, h1, h255⟩) (.inr hin) (.inl ⟨rfl, rfl⟩)
  refine ⟨cbdOf buf eta, ?_, (cbdOf_fits hl h5 buf).1, fun i hi => getD_map_range _ hi⟩
  rw [exec_eq_of_body hck (.getnoise pd eta), reading_of_holds _ hb.1 hlen hseed, noisePoly, ← hbuf, cbdPoly_eq_cbdOf,
    setSlot_of_fits hl.w_pos (cbdOf_fits hl h5 buf)]
  rfl

end Sys2Proof.Machine
end

section
/-! SUPPORT. `PACK` and `UNPACK` (43_codec.md R200 to R202, R208, R209) and the rounding bound of R207. -/

namespace Sys2Proof.Machine

/-! ## The layout -/

/-- The number of `pack_d`'s bytes (43_codec.md R200). -/
theorem intLe_packBytes {d : Nat} {f : Poly} (hf : f.length = 256) : intLe (packBytes d f) = packNat d f := by
  rw [packBytes, intLe_leBytes, Nat.mod_eq_of_lt]
  have h := packNat_lt d f
  rwa [hf, show d * 256 = 8 * (32 * d) by ring, Nat.pow_mul] at h

theorem unpackBytes_packBytes (d : Nat) {f : Poly} (hf : f.length = 256) :
    unpackBytes d (packBytes d f) = f.map (fun x => x % 2 ^ d) := by
  refine List.ext_getElem (by simp [unpackBytes, hf]) fun i h1 h2 => ?_
  have hi : i < f.length := by simpa using h2
  simp only [unpackBytes, List.getElem_map, List.getElem_range]
  rw [intLe_packBytes hf, codeAt_packNat d f i hi,
    List.getD_eq_getElem _ _ hi, Int.toNat_of_nonneg (Int.emod_nonneg _ (by positivity))]
  norm_cast

theorem codeAt_succ (d v i : Nat) : codeAt d v (i + 1) = codeAt d (v >>> d) i := by
  rw [codeAt, codeAt, ← Nat.shiftRight_add, Nat.mul_succ, Nat.add_comm]

/-- Packing the codes of a number gives its low bits back. -/
theorem packNat_codes (d : Nat) : ∀ n v : Nat,
    packNat d ((List.range n).map fun i => (codeAt d v i : Int)) = v % 2 ^ (d * n)
  | 0, v => by simp [packNat, Nat.mod_one]
  | n + 1, v => by
    have hzero : ((codeAt d v 0 : Int) % ((2 ^ d : Nat) : Int)).toNat = v % 2 ^ d := by
      rw [codeAt, Nat.mul_zero, Nat.shiftRight_zero, ← Int.natCast_mod, Int.toNat_natCast, Nat.mod_mod]
    rw [List.range_succ_eq_map, List.map_cons, List.map_map, packNat_cons, hzero]
    have hrest : (fun i => (codeAt d v i : Int)) ∘ Nat.succ = fun i => (codeAt d (v >>> d) i : Int) :=
      funext fun i => congrArg _ (codeAt_succ d v i)
    rw [hrest, packNat_codes d n, Nat.shiftRight_eq_div_pow, Nat.mul_succ, Nat.add_comm (d * n) d, Nat.pow_add, Nat.mod_mul]

theorem packBytes_unpackBytes {d : Nat} {bs : Bytes} (h : bs.length = 32 * d) : packBytes d (unpackBytes d bs) = bs := by
  have hlt : intLe bs < 2 ^ (d * ringDegree) := by
    have := intLe_lt bs
    rwa [h, show (256 : Nat) = 2 ^ 8 from rfl, ← Nat.pow_mul, show 8 * (32 * d) = d * ringDegree by ring] at this
  rw [packBytes, unpackBytes, packNat_codes, Nat.mod_eq_of_lt hlt, ← h, leBytes_intLe]

/-- Packing reads the low `d` bits only. -/
theorem packNat_congr (d : Nat) (g : Int → Int) (hg : ∀ x, g x % ((2 ^ d : Nat) : Int) = x % ((2 ^ d : Nat) : Int)) :
    ∀ f : Poly, packNat d (f.map g) = packNat d f
  | [] => rfl
  | x :: f => by rw [List.map_cons, packNat_cons, packNat_cons, hg, packNat_congr d g hg f]

theorem wrap_emod_of_le {d w : Nat} (h : d ≤ w) (x : Int) : wrap w x % ((2 ^ d : Nat) : Int) = x % ((2 ^ d : Nat) : Int) := by
  have hdvd : ((2 ^ d : Nat) : Int) ∣ ((2 ^ w : Nat) : Int) := Int.natCast_dvd_natCast.2 (Nat.pow_dvd_pow 2 h)
  rw [← Int.emod_emod_of_dvd _ hdvd, wrap_emod, Int.emod_emod_of_dvd _ hdvd]

theorem packBytes_map_wrap {d w : Nat} (h : d ≤ w) (f : Poly) : packBytes d (f.map (wrap w)) = packBytes d f := by
  rw [packBytes, packBytes, packNat_congr d _ (wrap_emod_of_le h)]

/-- Bit `t` of the low `d` bits. -/
theorem testBit_emod {d t : Nat} (ht : t < d) (x : Int) :
    (((x % ((2 ^ d : Nat) : Int)).toNat / 2 ^ t % 2 : Nat) : Int) = x / 2 ^ t % 2 := by
  obtain ⟨k, rfl⟩ : ∃ k, d = t + (k + 1) := ⟨d - t - 1, by omega⟩
  have hpos : (0 : Int) < 2 ^ t := by positivity
  have hnn : 0 ≤ x % ((2 ^ (t + (k + 1)) : Nat) : Int) := Int.emod_nonneg _ (by positivity)
  rw [Int.natCast_mod, Int.natCast_ediv, Int.toNat_of_nonneg hnn]
  push_cast
  have hx : x % 2 ^ (t + (k + 1)) = x - 2 ^ t * (2 * 2 ^ k * (x / 2 ^ (t + (k + 1)))) := by
    rw [Int.emod_def]
    ring
  rw [hx, Int.sub_mul_ediv_left _ _ hpos.ne', mul_assoc, Int.sub_mul_emod_self_left]

/-- Bit `d*i + t` of a packed polynomial is bit `t` of coefficient `i` (43_codec.md R200, R201). -/
theorem bitAt_packBytes {d i t : Nat} {f : Poly} (hf : f.length = 256) (hi : i < 256) (ht : t < d) :
    (bitAt (packBytes d f) (d * i + t) : Int) = f.getD i 0 / 2 ^ t % 2 := by
  have hcode := codeAt_packNat d f i (by omega)
  have hbit : bitAt (packBytes d f) (d * i + t) = codeAt d (packNat d f) i / 2 ^ t % 2 := by
    rw [← bitOf_intLe, intLe_packBytes hf, bitOf, codeAt, Nat.shiftRight_add, Nat.shiftRight_eq_div_pow _ t]
    obtain ⟨k, rfl⟩ : ∃ k, d = t + (k + 1) := ⟨d - t - 1, by omega⟩
    rw [Nat.pow_add, Nat.mod_mul_right_div_self, Nat.mod_mod_of_dvd _ (Dvd.intro_left _ (Nat.pow_succ _ _).symm)]
  rw [hbit, hcode, testBit_emod ht]

/-! ## Objects laid out one after another -/

theorem bitAt_append_left {xs : Bytes} (ys : Bytes) {k : Nat} (h : k < 8 * xs.length) : bitAt (xs ++ ys) k = bitAt xs k := by
  rw [bitAt, bitAt, List.getD_append _ _ _ _ (by omega)]

theorem bitAt_append_right (xs ys : Bytes) (k : Nat) : bitAt (xs ++ ys) (8 * xs.length + k) = bitAt ys k := by
  rw [bitAt, bitAt, List.getD_append_right _ _ _ _ (by omega), show (8 * xs.length + k) / 8 - xs.length = k / 8 by omega,
    Nat.mul_add_mod]

theorem bitsAt_append_right (xs ys : Bytes) (lo n : Nat) : bitsAt (xs ++ ys) (8 * xs.length + lo) n = bitsAt ys lo n := by
  simp only [bitsAt, Nat.add_assoc, bitAt_append_right]

theorem bitsAt_append_left {xs : Bytes} (ys : Bytes) {lo n : Nat} (h : lo + n ≤ 8 * xs.length) :
    bitsAt (xs ++ ys) lo n = bitsAt xs lo n := by
  refine congrArg List.sum (List.map_congr_left fun t ht => ?_)
  rw [bitAt_append_left ys (by have := List.mem_range.1 ht; omega)]

theorem codesAt_append_right (xs ys : Bytes) (off d n : Nat) : codesAt (xs ++ ys) (xs.length + off) d n = codesAt ys off d n := by
  simp only [codesAt, Nat.add_assoc, Nat.mul_add 8, bitsAt_append_right]

/-- Coefficient `k` of polynomial `i` lies in the `32*d*n` bytes of `n` polynomials. -/
theorem code_bits_le {d n i k : Nat} (hi : i < n) (hk : k < 256) (off : Nat) :
    8 * (off + 32 * d * i) + d * k + d ≤ 8 * (off + 32 * d * n) := by
  have h1 : 32 * d * (i + 1) ≤ 32 * d * n := Nat.mul_le_mul_left _ hi
  have h2 : d * (k + 1) ≤ d * 256 := Nat.mul_le_mul_left _ hk
  rw [Nat.mul_succ] at h1 h2
  omega

theorem codesAt_append_left {xs : Bytes} (ys : Bytes) {off d n : Nat} (h : off + 32 * d * n ≤ xs.length) :
    codesAt (xs ++ ys) off d n = codesAt xs off d n := by
  refine List.map_congr_left fun i hi => List.map_congr_left fun k hk => ?_
  have := code_bits_le (d := d) (List.mem_range.1 hi) (List.mem_range.1 hk) off
  rw [bitsAt_append_left ys (by omega)]

/-- One polynomial is its codes. -/
theorem codesAt_zero_one (bs : Bytes) (d : Nat) : codesAt bs 0 d 1 = [unpackBytes d bs] := by
  simp only [codesAt, unpackBytes, codeAt, bitsAt_eq]
  simp

theorem codesAt_succ (bs : Bytes) (off d n : Nat) :
    codesAt bs off d (n + 1) = codesAt bs off d 1 ++ codesAt bs (off + 32 * d) d n := by
  rw [codesAt, Nat.add_comm n 1, List.range_add, List.map_append, List.map_map, ← codesAt, codesAt.eq_1 bs (off + 32 * d)]
  refine congrArg _ (List.map_congr_left fun i _ => ?_)
  rw [Function.comp, Nat.mul_add (32 * d), Nat.mul_one, Nat.add_assoc off]

/-- The codes of a packed vector are the low bits of its coefficients (43_codec.md R209). -/
theorem codesAt_packVec (d : Nat) : ∀ v : List Poly, (∀ f ∈ v, f.length = 256) →
    codesAt (packVec d v) 0 d v.length = mapCoeffs (fun x => x % 2 ^ d) v
  | [], _ => rfl
  | f :: v, h => by
    have hf := h f List.mem_cons_self
    have ih := codesAt_packVec d v fun g hg => h g (List.mem_cons_of_mem _ hg)
    have hlen : (packBytes d f).length = 32 * d := packBytes_length d f
    have htail : codesAt (packBytes d f ++ packVec d v) (0 + 32 * d) d v.length = codesAt (packVec d v) 0 d v.length := by
      rw [← hlen, Nat.zero_add, ← Nat.add_zero (packBytes d f).length, codesAt_append_right]
    change codesAt (packBytes d f ++ packVec d v) 0 d (v.length + 1) = _
    rw [codesAt_succ, codesAt_append_left _ (by omega), codesAt_zero_one, unpackBytes_packBytes d hf, htail, ih]
    rfl

/-! ## The commands -/

theorem checkError_pack {s : State} {pa d : Nat} (hpa : pa < s.cfg.np) (h1 : 1 ≤ d) (hw : d ≤ s.cfg.w) (h31 : d ≤ 31)
    (hin : operand s 0 + 32 * d ≤ s.cfg.bmemSize) : checkError s (.pack pa d) = none :=
  checkError_eq_none_of_one (decide_eq_true ⟨hpa, h1, hw, h31⟩) (.inr hin) (.inr ⟨rfl, rfl⟩)

theorem checkError_unpack {s : State} {pd d : Nat} (hpd : pd < s.cfg.np) (h1 : 1 ≤ d) (hw : d ≤ s.cfg.w) (h31 : d ≤ 31)
    (hin : operand s 0 + 32 * d ≤ s.cfg.bmemSize) : checkError s (.unpack pd d) = none :=
  checkError_eq_none_of_one (decide_eq_true ⟨hpd, h1, hw, h31⟩) (.inr hin) (.inl ⟨rfl, rfl⟩)

/-- Settles O47: the stored bytes are `packBytes` of the slot. -/
theorem packResult : Obligations.PackResult := by
  intro s pa d ⟨_, hs, _⟩ hpa h1 hw h31 hin
  have hlen : (packBytes d (getSlot s pa)).length = 32 * d := packBytes_length _ _
  exact ⟨_, _, exec_eq_of_body (checkError_pack hpa h1 hw h31 hin) (.pack pa d), stored_memWrite s _ hlen, hlen,
    fun i t hi ht => bitAt_packBytes (getSlot_fits hs pa).1 hi ht, fun v hv => ⟨packVec_length d v, codesAt_packVec d v hv⟩⟩

theorem getD_set_self {l : List Poly} {k : Nat} (h : k < l.length) (f : Poly) : (l.set k f).getD k zeroPoly = f := by
  simp [h]

/-- What `UNPACK` writes: the codes, wrapped. -/
theorem exec_unpack {s : State} {pd d : Nat} {bs : Bytes} (hmem : Memory.wf s.mem) (hpd : pd < s.cfg.np) (h1 : 1 ≤ d)
    (hw : d ≤ s.cfg.w) (h31 : d ≤ 31) (hin : operand s 0 + 32 * d ≤ s.cfg.bmemSize) (hlen : bs.length = 32 * d)
    (hbs : HoldsBytes s (operand s 0) bs) :
    exec (.unpack pd d) s
      = .next { s with p := s.p.set pd ((unpackBytes d bs).map (wrap s.cfg.w)), status := completed s.status } := by
  rw [exec_eq_of_body (checkError_unpack hpd h1 hw h31 hin) (.unpack pd d), reading_of_holds _ hmem hlen hbs, setSlot,
    fitPoly_of_length _ (unpackBytes_length d bs)]
  rfl

/-- Settles O48: a code of `d < W` bits fits a slot. -/
theorem unpackResult : Obligations.UnpackResult := by
  intro s pd d bs ⟨hc, _, hb, _⟩ hpd h1 hw h31 hin hlen hbs
  have hl := (cfgValid_iff_legal s.cfg).1 hc
  refine ⟨_, exec_unpack hb.1 hpd h1 hw h31 hin hlen hbs, by simp [unpackBytes_length], fun i hi => ?_⟩
  have hcode : ((unpackBytes d bs).map (wrap s.cfg.w)).getD i 0 = wrap s.cfg.w (bitsAt bs (d * i) d) := by
    rw [unpackBytes, List.map_map, getD_map_range _ hi, Function.comp, codeAt, bitsAt_eq]
  refine ⟨hcode, fun hdw => hcode.trans (wrap_of_fits hl.w_pos ?_)⟩
  have hlt : (bitsAt bs (d * i) d : Int) < 2 ^ d := by
    rw [bitsAt_eq]
    exact_mod_cast Nat.mod_lt _ (by positivity)
  have hpow : (2 : Int) ^ d ≤ 2 ^ (s.cfg.w - 1) := pow_le_pow_right₀ (by decide) (by omega)
  constructor <;> omega

/-- Settles O49: `pack_d` and `unpack_d` invert each other, and the wrap of a slot keeps the low `d` bits. -/
theorem packUnpackRoundTrip : Obligations.PackUnpackRoundTrip := by
  intro s pa pd d bs ⟨hc, hs, hb, _⟩ hpa hpd h1 hw h31 hin
  have hl := (cfgValid_iff_legal s.cfg).1 hc
  have hplen := hs.1
  refine ⟨fun hcodes => ?coefficients, fun hlen hbs => ?bytes⟩
  case coefficients =>
    have hfits := getSlot_fits hs pa
    have hlen : (packBytes d (getSlot s pa)).length = 32 * d := packBytes_length _ _
    have hst := stored_memWrite s (operand s 0) hlen
    have hcanon : ((unpackBytes d (packBytes d (getSlot s pa))).map (wrap s.cfg.w)) = getSlot s pa := by
      rw [unpackBytes_packBytes d hfits.1, List.map_map]
      refine (List.map_congr_left fun x hx => ?_).trans (List.map_id _)
      obtain ⟨i, hi, rfl⟩ := List.getElem_of_mem hx
      have hi' := hcodes i
      rw [coeff, List.getD_eq_getElem _ _ hi] at hi'
      exact (congrArg (wrap s.cfg.w) (Int.emod_eq_of_lt hi'.1 hi'.2)).trans (wrap_of_fits hl.w_pos (hfits.2 _ hx))
    refine ⟨_, _, exec_eq_of_body (checkError_pack hpa h1 hw h31 hin) (.pack pa d),
      exec_unpack (wf_memWrite s _ _ _ hb.1) hpd h1 hw h31 hin hlen hst.1, ?_⟩
    exact (getD_set_self (hplen ▸ hpd) _).trans hcanon
  case bytes =>
    refine ⟨_, _, exec_unpack hb.1 hpd h1 hw h31 hin hlen hbs,
      exec_eq_of_body (checkError_pack hpd h1 hw h31 hin) (.pack pd d), fun x => ?_⟩
    have hslot : getSlot { s with
        p := s.p.set pd ((unpackBytes d bs).map (wrap s.cfg.w)), status := completed s.status } pd
          = (unpackBytes d bs).map (wrap s.cfg.w) := getD_set_self (hplen ▸ hpd) _
    rw [hslot, packBytes_map_wrap hw, packBytes_unpackBytes hlen]
    obtain ⟨hin', hout⟩ := stored_memWrite { s with
        p := s.p.set pd ((unpackBytes d bs).map (wrap s.cfg.w)), status := completed s.status } (operand s 0) hlen
    by_cases hx : x < operand s 0 ∨ operand s 0 + bs.length ≤ x
    · exact hout x hx
    · obtain ⟨k, rfl⟩ : ∃ k, x = operand s 0 + k := ⟨x - operand s 0, by omega⟩
      exact (hin' k (by omega)).trans (hbs k (by omega)).symm

end Sys2Proof.Machine
end
section
/-! SUPPORT. The rounding bound of compression (43_codec.md R207). -/

namespace Sys2Proof.Machine

/-- The centred remainder is the least representative in absolute value. -/
theorem natAbs_cmod_le {q : Nat} (hq : 0 < q) {a b : Int} (h : a ≡ b [ZMOD q]) : (cmod a q).natAbs ≤ b.natAbs := by
  obtain ⟨k, hk⟩ := Int.modEq_iff_dvd.1 (show cmod a q ≡ b [ZMOD q] from (cmod_emod a q).trans h)
  obtain ⟨h1, h2⟩ := cmod_bounds (a := a) hq
  obtain hk0 | hk0 | hk0 : k = 0 ∨ 1 ≤ k ∨ k ≤ -1 := by omega
  · rw [hk0, mul_zero] at hk
    omega
  · have : (q : Int) * 1 ≤ q * k := mul_le_mul_of_nonneg_left hk0 (by omega)
    omega
  · have : (q : Int) * k ≤ q * -1 := mul_le_mul_of_nonneg_left hk0 (by omega)
    omega

/-- Half a code step is at most half of `Q`. -/
theorem two_mul_two_pow_pred {d : Nat} (hd : 1 ≤ d) : (2 : Int) ^ d = 2 * ((2 ^ (d - 1) : Nat) : Int) := by
  rw [two_pow_eq_two_mul hd]
  push_cast
  rfl

/-- A residue's nearest code, before its reduction modulo `2^d`, is at most `Q / 2` away from it in units of `1/2^d`. -/
theorem nearest_code_bounds {q n x : Int} (hq : 0 < q) (hn : 0 < n) (h0 : 0 ≤ x) (hx : x < q) (hodd : q % 2 = 1) :
    0 ≤ (x * n + (q - 1) / 2) / q ∧ (x * n + (q - 1) / 2) / q ≤ n
      ∧ -q < 2 * ((x * n + (q - 1) / 2) / q * q - x * n) ∧ 2 * ((x * n + (q - 1) / 2) / q * q - x * n) < q := by
  have hxn : 0 ≤ x * n := mul_nonneg h0 hn.le
  have hxq : (x + 1) * n ≤ q * n := mul_le_mul_of_nonneg_right hx hn.le
  have h1 := Int.ediv_mul_add_emod (x * n + (q - 1) / 2) q
  have h2 := Int.emod_nonneg (x * n + (q - 1) / 2) hq.ne'
  have h3 := Int.emod_lt_of_pos (x * n + (q - 1) / 2) hq
  refine ⟨Int.ediv_nonneg (by omega) hq.le, ?_, by omega, by omega⟩
  refine Int.lt_add_one_iff.1 (Int.ediv_lt_of_lt_mul hq ?_)
  calc x * n + (q - 1) / 2 < x * n + n + q := by omega
    _ ≤ q * n + q := by linarith
    _ = (n + 1) * q := by ring

/-- Going back from a code `k` with `2^d = 2h` errs by at most half a unit. -/
theorem rounded_bounds {h v : Int} (hh : 0 < h) : -h < (v + h) / (2 * h) * (2 * h) - v ∧ (v + h) / (2 * h) * (2 * h) - v ≤ h := by
  have h1 := Int.ediv_mul_add_emod (v + h) (2 * h)
  have h2 := Int.emod_nonneg (v + h) (show 2 * h ≠ 0 by omega)
  have h3 := Int.emod_lt_of_pos (v + h) (show 0 < 2 * h by omega)
  constructor <;> omega

/-- Decompressing the reduced code differs by a multiple of `Q` from decompressing the code `k <= 2^d`. -/
theorem decompress_code_modEq (c : Cfg) {d : Nat} (hd : 1 ≤ d) {k : Int} (h0 : 0 ≤ k) (h : k ≤ 2 ^ d) :
    decompressCoeff c d (k % (2 ^ d : Nat)) ≡ (k * c.q + (2 ^ (d - 1) : Nat)) / (2 ^ d : Nat) [ZMOD c.q] := by
  have hhalf := two_mul_two_pow_pred hd
  have hpos : (0 : Int) < (2 ^ (d - 1) : Nat) := by positivity
  have hcast : ((2 ^ d : Nat) : Int) = 2 ^ d := by push_cast; rfl
  rw [decompressCoeff, Int.emod_emod, hcast]
  obtain hlt | rfl := h.lt_or_eq
  · rw [Int.emod_eq_of_lt h0 hlt]
  · rw [Int.emod_self, zero_mul, zero_add, Int.add_comm, Int.add_mul_ediv_left _ _ (by positivity),
      Int.ediv_eq_zero_of_lt hpos.le (by rw [hhalf]; omega), zero_add]
    exact (Int.modEq_zero_iff_dvd.2 dvd_rfl).symm

/-- A code survives the way back and forth: half a unit of `1/2^d` is less than half of `Q`. -/
theorem compressCoeff_decompressCoeff {c : Cfg} (hq : 0 < c.q) (hodd : (c.q : Int) % 2 = 1) {d : Nat} (hd : 1 ≤ d)
    (hlt : (2 : Int) ^ d < c.q) {x : Int} (h0 : 0 ≤ x) (hx : x < 2 ^ d) :
    compressCoeff c d (decompressCoeff c d x) = x := by
  have hhalf := two_mul_two_pow_pred hd
  have hpos : (0 : Int) < (2 ^ (d - 1) : Nat) := by positivity
  have hcast : ((2 ^ d : Nat) : Int) = 2 ^ d := by push_cast; rfl
  have hpow : (0 : Int) < 2 ^ d := by positivity
  have hxq : (x + 1) * c.q ≤ 2 ^ d * c.q := mul_le_mul_of_nonneg_right hx (by omega)
  obtain ⟨hlo, hhi⟩ := rounded_bounds (v := x * c.q) hpos
  rw [decompressCoeff, hcast, Int.emod_eq_of_lt h0 hx]
  have hy0 : 0 ≤ (x * c.q + (2 ^ (d - 1) : Nat)) / 2 ^ d := Int.ediv_nonneg (by positivity) hpow.le
  rw [← hhalf] at hlo hhi
  generalize (x * c.q + (2 ^ (d - 1) : Nat)) / 2 ^ d = y at *
  have hyq : y < c.q := lt_of_mul_lt_mul_left (a := (2 : Int) ^ d) (by linarith) hpow.le
  rw [compressCoeff, hcast, Int.emod_eq_of_lt hy0 hyq]
  have hquot : (y * 2 ^ d + (c.q - 1) / 2) / c.q = x :=
    le_antisymm (Int.lt_add_one_iff.1 (Int.ediv_lt_of_lt_mul (by omega) (by rw [add_mul]; omega)))
      (Int.le_ediv_of_mul_le (by omega) (by omega))
  rw [hquot, Int.emod_eq_of_lt h0 hx]

/-- Settles O51: both roundings err by at most half a unit, `Q/2` and `2^(d-1)` in units of `1/2^d`. -/
theorem compressionRoundingBound : Obligations.CompressionRoundingBound := by
  intro c d x hc h1 hd
  have hl := (cfgValid_iff_legal c).1 hc
  have hq := hl.q_pos
  have hodd : (c.q : Int) % 2 = 1 := by have := hl.q_mod; omega
  have hhalf := two_mul_two_pow_pred h1
  have hpos : (0 : Int) < (2 ^ (d - 1) : Nat) := by positivity
  have hcast : ((2 ^ d : Nat) : Int) = 2 ^ d := by push_cast; rfl
  refine ⟨?bound, compressCoeff_eq_roundedCode c d x (by omega), fun hx0 hx => ⟨?back, ?exact⟩⟩
  case back => rw [decompressCoeff_eq_roundedBack c h1, Int.emod_eq_of_lt hx0 hx]
  case bound =>
    obtain ⟨hk0, hk, hlo, hhi⟩ := nearest_code_bounds hq (n := 2 ^ d) (by positivity) (Int.emod_nonneg x hq.ne')
      (Int.emod_lt_of_pos x hq) hodd
    obtain ⟨hlo', hhi'⟩ := rounded_bounds (v := (x % c.q * 2 ^ d + (c.q - 1) / 2) / c.q * c.q) hpos
    rw [compressCoeff, hcast]
    generalize (x % c.q * 2 ^ d + (c.q - 1) / 2) / c.q = k at *
    have hmod : decompressCoeff c d (k % 2 ^ d) - x ≡ (k * c.q + (2 ^ (d - 1) : Nat)) / 2 ^ d - x % c.q [ZMOD c.q] :=
      (hcast ▸ decompress_code_modEq c h1 hk0 hk).sub (Int.mod_modEq x c.q).symm
    refine (natAbs_cmod_le (by omega) hmod).trans ((Nat.le_div_iff_mul_le (by positivity)).2 ?_)
    rw [← hhalf] at hlo' hhi'
    generalize (k * c.q + (2 ^ (d - 1) : Nat)) / 2 ^ d = y at *
    have habs : |(y - x % c.q) * 2 ^ (d + 1)| ≤ c.q + 2 ^ d := by
      rw [pow_succ, abs_le]
      constructor <;> linarith
    rw [abs_mul, abs_of_pos (show (0 : Int) < 2 ^ (d + 1) by positivity), Int.abs_eq_natAbs] at habs
    exact_mod_cast habs
  case exact => exact compressCoeff_decompressCoeff (by omega) hodd h1 (hl.two_pow_lt_q hd) hx0 hx

end Sys2Proof.Machine
end

section
/-! SUPPORT. Uniform rejection sampling (42_sampler.md R180 to R182) and the matrix it makes (44_signature.md R230, 45_kem.md
R263). -/

namespace Sys2Proof.Machine

/-! ## Bits of a part of a string -/

theorem bitAt_drop (bs : Bytes) (n k : Nat) : bitAt (bs.drop n) k = bitAt bs (8 * n + k) := by
  have h1 : (8 * n + k) / 8 = n + k / 8 := by omega
  have h2 : (8 * n + k) % 8 = k % 8 := by omega
  rw [bitAt, bitAt, h1, h2, List.getD_eq_getElem?_getD, List.getElem?_drop, ← List.getD_eq_getElem?_getD]

theorem bitAt_take {bs : Bytes} {n k : Nat} (h : k < 8 * n) : bitAt (bs.take n) k = bitAt bs k := by
  have hk : k / 8 < n := by omega
  rw [bitAt, bitAt, List.getD_eq_getElem?_getD, List.getElem?_take, if_pos hk, ← List.getD_eq_getElem?_getD]

theorem bitsAt_drop (bs : Bytes) (n lo d : Nat) : bitsAt (bs.drop n) lo d = bitsAt bs (8 * n + lo) d := by
  simp only [bitsAt, bitAt_drop, Nat.add_assoc]

theorem bitsAt_take {bs : Bytes} {n lo d : Nat} (h : lo + d ≤ 8 * n) : bitsAt (bs.take n) lo d = bitsAt bs lo d := by
  refine congrArg List.sum (List.map_congr_left fun t ht => ?_)
  rw [bitAt_take (by have := List.mem_range.1 ht; omega)]

/-! ## The scan -/

section
variable {c : Cfg}

/-- The values below `Q` among the `n` chunks from chunk `k` on, in order. -/
def chunksFrom (c : Cfg) (bs : Bytes) (k n : Nat) : List Nat :=
  ((List.range n).map (fun j => bitsAt bs (c.cs * (k + j)) c.cw)).filter (fun v => decide (v < c.q))

theorem accepted_eq_chunksFrom (c : Cfg) (bs : Bytes) (n : Nat) : accepted c bs n = chunksFrom c bs 0 n := by
  simp only [accepted, chunksFrom, Nat.zero_add]

theorem chunksFrom_add (c : Cfg) (bs : Bytes) (k m n : Nat) :
    chunksFrom c bs k (m + n) = chunksFrom c bs k m ++ chunksFrom c bs (k + m) n := by
  simp only [chunksFrom, List.range_add, List.map_append, List.map_map, List.filter_append, Function.comp_def, Nat.add_assoc]

theorem chunksFrom_succ (c : Cfg) (bs : Bytes) (k n : Nat) :
    chunksFrom c bs k (n + 1)
      = (if bitsAt bs (c.cs * k) c.cw < c.q then [bitsAt bs (c.cs * k) c.cw] else []) ++ chunksFrom c bs (k + 1) n := by
  rw [Nat.add_comm n, chunksFrom_add]
  simp [chunksFrom, List.filter_singleton]

theorem accepted_prefix {bs : Bytes} {m n : Nat} (h : m ≤ n) : accepted c bs m <+: accepted c bs n := by
  obtain ⟨d, rfl⟩ := Nat.exists_eq_add_of_le h
  rw [accepted_eq_chunksFrom, accepted_eq_chunksFrom, chunksFrom_add]
  exact List.prefix_append _ _

theorem lt_q_of_mem_accepted {bs : Bytes} {n v : Nat} (h : v ∈ accepted c bs n) : v < c.q :=
  of_decide_eq_true (List.mem_filter.1 h).2

/-- Chunk `k` as the scan reads it: from the byte its first bit lies in (42_sampler.md R180). -/
theorem scanned_chunk (hcw : c.cw ≤ c.cs) (bs : Bytes) (k : Nat) :
    (intLe ((bs.drop (c.cs * k / 8)).take ((c.cs * k % 8 + c.cs + 7) / 8)) >>> (c.cs * k % 8)) % 2 ^ c.cw
      = bitsAt bs (c.cs * k) c.cw := by
  rw [← bitsAt_eq, bitsAt_take (by omega), bitsAt_drop, Nat.div_add_mod]

/-- What a scan of at most `fuel` chunks from chunk `k` on, with `ctr` coefficients there already, has found. -/
structure Scanned (c : Cfg) (bs : Bytes) (fuel k ctr : Nat) (r : List Int × Nat) : Prop where
  le : r.2 ≤ fuel
  values : r.1 = (chunksFrom c bs k r.2).map (fun v : Nat => (v : Int))
  room : ctr ≤ 256 → ctr + r.1.length ≤ 256
  stopped : r.2 < fuel → 256 ≤ ctr + r.1.length
  first : ∀ m, m < r.2 → ctr + (chunksFrom c bs k m).length < 256

/-- One more chunk in front. -/
theorem Scanned.cons {bs : Bytes} {fuel k ctr n : Nat} {f vs : List Int} (hctr : ctr < 256)
    (hvs : (if bitsAt bs (c.cs * k) c.cw < c.q then [bitsAt bs (c.cs * k) c.cw] else []).map (fun v : Nat => (v : Int)) = vs)
    (h : Scanned c bs fuel (k + 1) (ctr + vs.length) (f, n)) : Scanned c bs (fuel + 1) k ctr (vs ++ f, n + 1) := by
  have hlen : vs.length ≤ 1 := by
    rw [← hvs]
    split <;> simp
  have hfrom : ∀ m, (chunksFrom c bs k (m + 1)).length = vs.length + (chunksFrom c bs (k + 1) m).length := fun m => by
    rw [chunksFrom_succ, List.length_append, ← hvs, List.length_map]
  refine ⟨Nat.succ_le_succ h.le, ?_, fun _ => ?_, fun hlt => ?_, fun m hm => ?_⟩
  · rw [chunksFrom_succ, List.map_append, hvs, ← h.values]
  · rw [List.length_append, ← Nat.add_assoc]
    exact h.room (by omega)
  · rw [List.length_append, ← Nat.add_assoc]
    exact h.stopped (Nat.lt_of_succ_lt_succ hlt)
  · cases m with
    | zero => simpa [chunksFrom] using hctr
    | succ m =>
      have := h.first m (Nat.lt_of_succ_lt_succ hm)
      rw [hfrom]
      omega

theorem rejScan_scanned (hcw : c.cw ≤ c.cs) (bs : Bytes) : ∀ fuel k ctr : Nat,
    Scanned c bs fuel k ctr (rejScan c fuel (bs.drop (c.cs * k / 8)) (c.cs * k % 8) ctr)
  | 0, k, ctr => ⟨le_rfl, rfl, fun h => h, fun h => absurd h (Nat.lt_irrefl 0), fun m hm => absurd hm (Nat.not_lt_zero m)⟩
  | fuel + 1, k, ctr => by
    rw [rejScan]
    split
    case isFalse hctr =>
      exact ⟨Nat.zero_le _, rfl, fun h => h, fun _ => Nat.not_lt.1 hctr, fun m hm => absurd hm (Nat.not_lt_zero m)⟩
    case isTrue hctr =>
      have hrest : (bs.drop (c.cs * k / 8)).drop ((c.cs * k % 8 + c.cs) / 8) = bs.drop (c.cs * (k + 1) / 8) := by
        rw [List.drop_drop, Nat.mul_succ]
        congr 1
        omega
      have hoff : (c.cs * k % 8 + c.cs) % 8 = c.cs * (k + 1) % 8 := by
        rw [Nat.mul_succ]
        omega
      dsimp only
      rw [scanned_chunk hcw, hrest, hoff]
      split
      case isTrue hv => exact (rejScan_scanned hcw bs fuel (k + 1) (ctr + 1)).cons hctr (by rw [if_pos hv, List.map_singleton])
      case isFalse hv => exact (rejScan_scanned hcw bs fuel (k + 1) ctr).cons hctr (by rw [if_neg hv, List.map_nil])

theorem LegalCfg.chunk_le (h : LegalCfg c) : c.cw ≤ c.cs := by
  have := h.chunkStride
  omega

/-- `rej(buf, ctr0)` scans the chunks of the buffer from the first on (42_sampler.md R180). -/
theorem rejChunks_scanned (h : LegalCfg c) (bs : Bytes) (ctr : Nat) :
    Scanned c bs (8 * bs.length / c.cs) 0 ctr (rejChunks c bs ctr) := by
  have hs := rejScan_scanned h.chunk_le bs (8 * bs.length / c.cs) 0 ctr
  rwa [Nat.mul_zero, Nat.zero_div, Nat.zero_mod, List.drop_zero] at hs

/-- The scan's values are the first accepted ones, as many as fit. -/
theorem rejChunks_values (h : LegalCfg c) (bs : Bytes) {ctr : Nat} (hctr : ctr ≤ 256) :
    (rejChunks c bs ctr).1
      = ((accepted c bs (8 * bs.length / c.cs)).take (256 - ctr)).map (fun v : Nat => (v : Int)) := by
  have hs := rejChunks_scanned h bs ctr
  have hp : accepted c bs (rejChunks c bs ctr).2 <+: accepted c bs (8 * bs.length / c.cs) := accepted_prefix hs.le
  have hval := hs.values
  rw [← accepted_eq_chunksFrom] at hval
  have hlen := congrArg List.length hval
  rw [List.length_map] at hlen
  have hroom := hs.room hctr
  rw [hval]
  congr 1
  obtain heq | hlt := Nat.eq_or_lt_of_le hs.le
  · rw [← heq, List.take_of_length_le (by omega)]
  · have := hs.stopped hlt
    rw [List.prefix_iff_eq_take.1 hp]
    congr 1
    omega

end

/-! ## `REJPARSE` (42_sampler.md R181) -/

theorem getD_overwriteFrom {f : Poly} {ctr : Nat} {vs : List Int} (h : ctr + vs.length ≤ f.length) (i : Nat) :
    (overwriteFrom f ctr vs).getD i 0 = if ctr ≤ i ∧ i < ctr + vs.length then vs.getD (i - ctr) 0 else f.getD i 0 := by
  have hc : (f.take ctr).length = ctr := by
    rw [List.length_take]
    omega
  rw [overwriteFrom, List.append_assoc]
  by_cases h1 : i < ctr
  · rw [if_neg (by omega), List.getD_append _ _ _ _ (by omega)]
    simp [h1]
  · rw [List.getD_append_right _ _ _ _ (by omega), hc]
    by_cases h2 : i < ctr + vs.length
    · rw [if_pos ⟨by omega, h2⟩, List.getD_append _ _ _ _ (by omega)]
    · rw [if_neg (by omega), List.getD_append_right _ _ _ _ (by omega)]
      simp [show ctr + vs.length + (i - ctr - vs.length) = i by omega]

theorem overwriteFrom_fits {w : Nat} {f : Poly} (hf : PolyFits w f) {ctr : Nat} {vs : List Int} (h : ctr + vs.length ≤ 256)
    (hv : ∀ v ∈ vs, CoeffFits w v) : PolyFits w (overwriteFrom f ctr vs) := by
  have hlen : f.length = 256 := hf.1
  constructor
  · simp only [overwriteFrom, List.length_append, List.length_take, List.length_drop, hlen]
    omega
  · intro x hx
    rw [overwriteFrom, List.mem_append, List.mem_append] at hx
    obtain (hx | hx) | hx := hx
    · exact hf.2 x (List.mem_of_mem_take hx)
    · exact hv x hx
    · exact hf.2 x (List.mem_of_mem_drop hx)

theorem LegalCfg.fits_of_lt_q {c : Cfg} (h : LegalCfg c) {v : Nat} (hv : v < c.q) : CoeffFits c.w (v : Int) := by
  have := h.q_lt_half
  constructor <;> omega

/-- Settles O44: the scan's values are the first accepted ones, and `overwriteFrom` keeps the other coefficients. -/
theorem rejparseResult : Obligations.RejparseResult := by
  intro s pd n bs ⟨hc, hs, hb, _⟩ hpd hctr hin hlen hbs hn
  have hl := (cfgValid_iff_legal s.cfg).1 hc
  have hck : checkError s (.rejparse pd) = none :=
    checkError_eq_none_of_one (decide_eq_true ⟨hpd, hctr⟩) hin (.inl ⟨rfl, rfl⟩)
  have hval := rejChunks_values hl bs hctr
  have hvlen : (rejChunks s.cfg bs (operand s 2)).1.length = n := by
    rw [hval, List.length_map, List.length_take, hn, Nat.min_comm]
  have hold := getSlot_fits hs pd
  have hroom : operand s 2 + (rejChunks s.cfg bs (operand s 2)).1.length ≤ 256 := by omega
  have hfits : PolyFits s.cfg.w (overwriteFrom (getSlot s pd) (operand s 2) (rejChunks s.cfg bs (operand s 2)).1) := by
    refine overwriteFrom_fits hold hroom fun v hv => ?_
    rw [hval] at hv
    obtain ⟨u, hu, rfl⟩ := List.mem_map.1 hv
    exact hl.fits_of_lt_q (lt_q_of_mem_accepted (List.mem_of_mem_take hu))
  refine ⟨_, ?_, hfits.1, fun i hi => ?_⟩
  · rw [exec_eq_of_body hck (.rejparse pd), reading_of_holds _ hb.1 hlen hbs, setSlot_of_fits hl.w_pos hfits, hvlen]
    rfl
  · rw [getD_overwriteFrom (hroom.trans hold.1.ge), hvlen]
    refine if_ctx_congr Iff.rfl (fun hi' => ?_) fun _ => rfl
    rw [hval, List.getD_eq_getElem?_getD, List.getElem?_map, List.getElem?_take, if_pos (by omega), List.getD_eq_getElem?_getD]
    cases (accepted s.cfg bs (8 * bs.length / s.cfg.cs))[i - operand s 2]? <;> rfl

/-! ## The uniform polynomial (42_sampler.md R182) -/

section
variable {c : Cfg}

/-- The capped stream of a seed and an index pair (42_sampler.md R182). -/
abbrev uniformStream (c : Cfg) (seed : Bytes) (x y : Nat) : Bytes :=
  xofaBytes c.hash (seed ++ [BitVec.ofNat 8 x, BitVec.ofNat 8 y]) (c.maxXofBlocks * c.blkA)

theorem uniformPoly_eq (c : Cfg) (seed : Bytes) (x y : Nat) :
    uniformPoly c seed x y
      = if (rejChunks c (uniformStream c seed x y) 0).1.length < 256 then none else some (rejChunks c (uniformStream c seed x y) 0) := by
  simp only [uniformPoly, uniformStream, leBytes, List.append_assoc, List.singleton_append]

/-- `uniformPoly` answers where the capped stream holds 256 values below `Q`. -/
theorem uniformPoly_eq_none_iff (h : LegalCfg c) (seed : Bytes) (x y : Nat) :
    uniformPoly c seed x y = none
      ↔ (accepted c (uniformStream c seed x y) (8 * (uniformStream c seed x y).length / c.cs)).length < 256 := by
  rw [uniformPoly_eq, rejChunks_values h _ (Nat.zero_le _), List.length_map, List.length_take]
  generalize (accepted c _ _).length = m
  simp

/-- What `uniformPoly` answers: the first 256 values below `Q`, with the least number of chunks that hold them. -/
theorem uniformPoly_eq_some (h : LegalCfg c) {seed : Bytes} {x y : Nat} {f : Poly} {n : Nat}
    (hf : uniformPoly c seed x y = some (f, n)) :
    f = (accepted c (uniformStream c seed x y) n).map (fun v : Nat => (v : Int)) ∧ f.length = 256
      ∧ n ≤ 8 * (uniformStream c seed x y).length / c.cs
      ∧ ∀ k, k < n → (accepted c (uniformStream c seed x y) k).length < 256 := by
  rw [uniformPoly_eq] at hf
  split at hf
  case isTrue => cases hf
  case isFalse hlen =>
    have hs := rejChunks_scanned h (uniformStream c seed x y) 0
    rw [Option.some.inj hf] at hs hlen
    have hlo : 256 ≤ f.length := Nat.not_lt.1 hlen
    have hroom : 0 + f.length ≤ 256 := hs.room (Nat.zero_le _)
    have hval := hs.values
    have hfirst := hs.first
    rw [← accepted_eq_chunksFrom] at hval
    simp only [← accepted_eq_chunksFrom, Nat.zero_add] at hfirst
    exact ⟨hval, by omega, hs.le, hfirst⟩

/-- `IsUniform` with its list of integers written as the image of the accepted values. -/
theorem isUniform_def (c : Cfg) (seed : Bytes) (f : Poly) :
    IsUniform c seed f ↔ f.length = 256 ∧ ∃ n, n ≤ 8 * (xofaBytes c.hash seed (c.maxXofBlocks * c.blkA)).length / c.cs
      ∧ f = (accepted c (xofaBytes c.hash seed (c.maxXofBlocks * c.blkA)) n).map (fun v : Nat => (v : Int)) := by
  simp only [IsUniform, List.bind_eq_flatMap, List.pure_def, List.flatMap_singleton', List.map_eq_flatMap]

/-- `IsUniform` says what `uniformPoly` answers. -/
theorem isUniform_iff (h : LegalCfg c) (seed : Bytes) (x y : Nat) (f : Poly) :
    IsUniform c (seed ++ [BitVec.ofNat 8 x, BitVec.ofNat 8 y]) f ↔ (uniformPoly c seed x y).map Prod.fst = some f := by
  rw [isUniform_def, show xofaBytes c.hash (seed ++ [BitVec.ofNat 8 x, BitVec.ofNat 8 y]) (c.maxXofBlocks * c.blkA)
    = uniformStream c seed x y from rfl]
  constructor
  · rintro ⟨hlen, n, hn, hf⟩
    have hacc := congrArg List.length hf
    rw [hlen, List.length_map] at hacc
    cases hu : uniformPoly c seed x y with
    | none =>
      have h1 := (uniformPoly_eq_none_iff h seed x y).1 hu
      have h2 := (accepted_prefix (c := c) (bs := uniformStream c seed x y) hn).length_le
      omega
    | some r =>
      obtain ⟨hr, hrlen, -, hfirst⟩ := uniformPoly_eq_some h (f := r.1) (n := r.2) hu
      have hle : r.2 ≤ n := by
        by_contra hlt
        have := hfirst n (by omega)
        omega
      rw [hr, List.length_map] at hrlen
      have heq := (accepted_prefix (c := c) (bs := uniformStream c seed x y) hle).eq_of_length (by omega)
      rw [Option.map_some, hf, hr, heq]
  · intro hu
    obtain ⟨⟨g, n⟩, hg, rfl⟩ := Option.map_eq_some_iff.1 hu
    obtain ⟨hr, hrlen, hn, -⟩ := uniformPoly_eq_some h hg
    exact ⟨hrlen, n, hn, hr⟩

/-! ## The matrix -/

theorem mapM_range_eq_some_iff {α : Type} (F : Nat → Option α) (n : Nat) (l : List α) :
    (List.range n).mapM F = some l ↔ l.length = n ∧ ∀ i, i < n → F i = l[i]? := by
  induction n generalizing F l with
  | zero =>
    rw [List.range_zero, List.mapM_nil]
    constructor
    · intro h
      cases h
      exact ⟨rfl, fun i hi => absurd hi (Nat.not_lt_zero i)⟩
    · rintro ⟨h, -⟩
      rw [List.length_eq_zero_iff.1 h]
      rfl
  | succ n ih =>
    rw [List.range_succ_eq_map, List.mapM_cons, Nat.forall_lt_succ_left, List.mapM_map]
    cases l with
    | nil =>
      simp only [List.length_nil, Nat.zero_ne_add_one, false_and, iff_false]
      cases F 0 with
      | none => exact nofun
      | some a => cases (List.range n).mapM (F ∘ Nat.succ) <;> exact nofun
    | cons a l =>
      have ih' := ih (F ∘ Nat.succ) l
      simp only [List.length_cons, Nat.add_right_cancel_iff, List.getElem?_cons_zero, List.getElem?_cons_succ]
      constructor
      · intro hm
        obtain ⟨b, hb, hm⟩ := Option.bind_eq_some_iff.1 hm
        obtain ⟨l', hl', hm⟩ := Option.bind_eq_some_iff.1 hm
        cases hm
        obtain ⟨h1, h2⟩ := ih'.1 hl'
        exact ⟨h1, hb, h2⟩
      · rintro ⟨h1, h2, h3⟩
        rw [h2, ih'.2 ⟨h1, h3⟩]
        rfl

theorem eq_getElem?_iff {α : Type} {l : List α} {i : Nat} (hi : i < l.length) (d : α) (o : Option α) :
    o = l[i]? ↔ o = some (l.getD i d) := by
  rw [List.getD_eq_getElem _ _ hi, List.getElem?_eq_getElem hi]

/-- `IsMatrix` says what `expandMatrix` answers. -/
theorem isMatrix_iff (h : LegalCfg c) (rho : Bytes) (rows cols : Nat) (ahat : List (List Poly)) :
    IsMatrix c rho rows cols ahat ↔ expandMatrix c rho rows cols = some ahat := by
  rw [expandMatrix, mapM_range_eq_some_iff]
  refine and_congr_right fun hrows => forall₂_congr fun i hi => ?_
  rw [eq_getElem?_iff (by omega) [], mapM_range_eq_some_iff]
  refine and_congr_right fun hcols => forall₂_congr fun j hj => ?_
  rw [eq_getElem?_iff (by omega) zeroPoly, isUniform_iff h]

theorem expandMatrix_eq_none_iff (h : LegalCfg c) (rho : Bytes) (rows cols : Nat) :
    expandMatrix c rho rows cols = none ↔ ¬ ∃ ahat, IsMatrix c rho rows cols ahat := by
  simp only [isMatrix_iff h, ← Option.isSome_iff_exists, Option.not_isSome_iff_eq_none]

end

/-! ## `GENUNI` (42_sampler.md R182) -/

theorem ofNat_mod_256 (n : Nat) : BitVec.ofNat 8 (n % 256) = BitVec.ofNat 8 n :=
  BitVec.eq_of_toNat_eq (by rw [BitVec.toNat_ofNat, BitVec.toNat_ofNat, Nat.mod_mod])

/-- Settles O45: `uniformPoly` over the stream of the nonce's two bytes. -/
theorem genuniResult : Obligations.GenuniResult := by
  intro s pd seed stream ⟨hc, _, hb, _⟩ hpd hnonce h1 h255 hin hlen hseed hstream
  have hl := (cfgValid_iff_legal s.cfg).1 hc
  have hck : checkError s (.genuni pd) = none :=
    checkError_eq_none_of_one (decide_eq_true ⟨hpd, hnonce, h1, h255⟩) (.inr hin) (.inl ⟨rfl, rfl⟩)
  have hst : uniformStream s.cfg seed (operand s 1 % 256) (operand s 1 / 256) = stream := by
    rw [hstream, uniformStream, ofNat_mod_256]
  rw [exec_eq_of_body hck (.genuni pd), reading_of_holds _ hb.1 hlen hseed]
  have hnone := uniformPoly_eq_none_iff hl seed (operand s 1 % 256) (operand s 1 / 256)
  rw [hst] at hnone
  cases hu : uniformPoly s.cfg seed (operand s 1 % 256) (operand s 1 / 256) with
  | none => exact ⟨fun h => absurd (hnone.1 hu) (by omega), fun _ => rfl⟩
  | some r =>
    obtain ⟨f, n⟩ := r
    obtain ⟨hf, hflen, hn, hfirst⟩ := uniformPoly_eq_some hl hu
    rw [hst] at hf hn hfirst
    have hacc : (accepted s.cfg stream n).length = 256 := by rw [← hflen, hf, List.length_map]
    have hfits : PolyFits s.cfg.w f := by
      refine ⟨hflen, fun x hx => ?_⟩
      rw [hf] at hx
      obtain ⟨v, hv, rfl⟩ := List.mem_map.1 hx
      exact hl.fits_of_lt_q (lt_q_of_mem_accepted hv)
    refine ⟨fun _ => ⟨f, n, ?_, hflen, hn, hacc, hfirst, fun i hi => ?_⟩, fun h => absurd (hnone.2 h) (by rw [hu]; exact nofun)⟩
    · dsimp only
      rw [setSlot_of_fits hl.w_pos hfits]
      rfl
    · rw [hf, List.getD_eq_getElem?_getD, List.getElem?_map, List.getD_eq_getElem?_getD]
      cases (accepted s.cfg stream n)[i]? <;> rfl

end Sys2Proof.Machine
end

section
/-! SUPPORT. Challenge sampling (42_sampler.md R183, R184). -/

namespace Sys2Proof.Machine

/-! ## The picked bytes -/

/-- For each index of the list in turn, the stream position picked for it: the first one, from `lo` or after the one before on,
whose byte is at most the index. -/
def PicksFrom (stream : Bytes) : Nat → List Nat → List Nat → Prop
  | _, [], picks => picks = []
  | _, _ :: _, [] => False
  | lo, i :: is, p :: ps =>
    (lo ≤ p ∧ p < stream.length ∧ (stream.getD p 0).toNat ≤ i ∧ ∀ x, lo ≤ x → x < p → i < (stream.getD x 0).toNat)
      ∧ PicksFrom stream (p + 1) is ps

/-- The stream bytes consumed after these picks. -/
def picksEnd (lo : Nat) (picks : List Nat) : Nat := picks.foldl (fun _ p => p + 1) lo

/-- One move of `sample_in_ball`: the coefficient at `b` goes to the index and a sign takes its place. -/
def place (f : Poly) (i b sign : Nat) : Poly := (f.set i (f.getD b 0)).set b (1 - 2 * (sign : Int))

/-- The moves for the indices and picks, the signs from the low bit of `signs` up. -/
def placeAll (stream : Bytes) : List Nat → List Nat → Nat → Poly → Poly
  | i :: is, p :: ps, signs, f => placeAll stream is ps (signs >>> 1) (place f i (stream.getD p 0).toNat (signs % 2))
  | _, _, _, f => f

/-- The pick that `drawIndex` makes from position `lo` of the stream on. -/
theorem drawIndex_drop_eq_some {stream : Bytes} {lo i v : Nat} {rest : Bytes} {n : Nat} :
    drawIndex i (stream.drop lo) = some (v, rest, n) ↔
      ∃ p, (lo ≤ p ∧ p < stream.length ∧ (stream.getD p 0).toNat ≤ i ∧ ∀ x, lo ≤ x → x < p → i < (stream.getD x 0).toNat)
        ∧ v = (stream.getD p 0).toNat ∧ rest = stream.drop (p + 1) ∧ lo + n = p + 1 := by
  have hget : ∀ k, (stream.drop lo).getD k 0 = stream.getD (lo + k) 0 := fun k => by
    rw [List.getD_eq_getElem?_getD, List.getElem?_drop, ← List.getD_eq_getElem?_getD]
  rw [drawIndex_eq_some, List.length_drop]
  constructor
  · rintro ⟨h1, hn, rfl, hv, rfl, hmin⟩
    refine ⟨lo + (n - 1), ⟨by omega, by omega, hget _ ▸ hv, fun x hx hlt => ?_⟩, by rw [hget], ?_, by omega⟩
    · obtain ⟨k, rfl⟩ := Nat.exists_eq_add_of_le hx
      exact hget k ▸ hmin k (by omega)
    · rw [List.drop_drop]
      congr 1
      omega
  · rintro ⟨p, ⟨hlo, hp, hv, hmin⟩, rfl, rfl, hn⟩
    have hpn : lo + (n - 1) = p := by omega
    refine ⟨by omega, by omega, by rw [hget, hpn], hv, ?_, fun k hk => hget k ▸ hmin (lo + k) (by omega) (by omega)⟩
    rw [List.drop_drop, hn]

/-- `ballLoop` answers the moves for the picks, where there are picks. -/
theorem ballLoop_eq_some_iff (stream : Bytes) : ∀ (is : List Nat) (lo signs : Nat) (f g : Poly) (pos : Nat),
    ballLoop is (stream.drop lo) f signs lo = some (g, pos)
      ↔ ∃ picks, PicksFrom stream lo is picks ∧ pos = picksEnd lo picks ∧ g = placeAll stream is picks signs f
  | [], lo, signs, f, g, pos => by
    constructor
    · intro h
      cases h
      exact ⟨[], rfl, rfl, rfl⟩
    · rintro ⟨_, rfl, rfl, rfl⟩
      rfl
  | i :: is, lo, signs, f, g, pos => by
    rw [ballLoop]
    constructor
    · intro h
      cases hd : drawIndex i (stream.drop lo) with
      | none => rw [hd] at h; cases h
      | some r =>
        obtain ⟨b, rest, n⟩ := r
        rw [hd] at h
        obtain ⟨p, hp, rfl, rfl, hn⟩ := drawIndex_drop_eq_some.1 hd
        dsimp only at h
        rw [hn] at h
        obtain ⟨picks, hpicks, rfl, rfl⟩ := (ballLoop_eq_some_iff stream is (p + 1) (signs >>> 1) _ g pos).1 h
        exact ⟨p :: picks, ⟨hp, hpicks⟩, rfl, rfl⟩
    · rintro ⟨_ | ⟨p, picks⟩, hpicks, rfl, rfl⟩
      · exact hpicks.elim
      · obtain ⟨hp, hpicks⟩ := hpicks
        have hn : lo + (p + 1 - lo) = p + 1 := by omega
        rw [drawIndex_drop_eq_some.2 ⟨p, hp, rfl, rfl, hn⟩]
        dsimp only
        rw [hn]
        exact (ballLoop_eq_some_iff stream is (p + 1) (signs >>> 1) _ _ _).2 ⟨picks, hpicks, rfl, rfl⟩

/-! ## The picks and moves by number -/

theorem picksFrom_iff (stream : Bytes) : ∀ (is picks : List Nat) (lo : Nat),
    PicksFrom stream lo is picks ↔ picks.length = is.length ∧ ∀ k, k < is.length →
      let lo' := if k = 0 then lo else picks.getD (k - 1) 0 + 1
      lo' ≤ picks.getD k 0 ∧ picks.getD k 0 < stream.length ∧ (stream.getD (picks.getD k 0) 0).toNat ≤ is.getD k 0
        ∧ ∀ x, lo' ≤ x → x < picks.getD k 0 → is.getD k 0 < (stream.getD x 0).toNat
  | [], picks, lo => by simp [PicksFrom]
  | i :: is, [], lo => by simp [PicksFrom]
  | i :: is, p :: ps, lo => by
    rw [PicksFrom, picksFrom_iff stream is ps (p + 1), List.length_cons, List.length_cons, Nat.forall_lt_succ_left,
      Nat.add_right_cancel_iff, and_left_comm]
    refine and_congr_right fun _ => and_congr Iff.rfl (forall₂_congr fun k _ => ?_)
    cases k <;> rfl

/-- A stream that ends at `lo` holds no pick. -/
theorem not_picksFrom_of_length_le {stream : Bytes} {lo : Nat} (h : stream.length ≤ lo) {is : List Nat} (his : is ≠ [])
    (picks : List Nat) : ¬ PicksFrom stream lo is picks := by
  obtain ⟨i, is, rfl⟩ := List.exists_cons_of_ne_nil his
  cases picks with
  | nil => exact id
  | cons p ps =>
    rintro ⟨⟨hlo, hp, -⟩, -⟩
    omega

theorem picksEnd_eq {lo : Nat} {picks : List Nat} (h : picks ≠ []) : picksEnd lo picks = picks.getD (picks.length - 1) 0 + 1 := by
  obtain ⟨ps, p, rfl⟩ := (List.eq_nil_or_concat picks).resolve_left h
  simp [picksEnd]

theorem placeAll_eq_foldl (stream : Bytes) : ∀ (is picks : List Nat) (signs : Nat) (f : Poly), picks.length = is.length →
    placeAll stream is picks signs f
      = (List.range is.length).foldl
          (fun acc k => place acc (is.getD k 0) (stream.getD (picks.getD k 0) 0).toNat (bitOf signs k)) f
  | [], [], _, _, _ => rfl
  | i :: is, p :: ps, signs, f, h => by
    rw [placeAll, placeAll_eq_foldl stream is ps _ _ (Nat.succ.inj h), List.length_cons, List.range_succ_eq_map, List.foldl_cons,
      List.foldl_map]
    have hbit : ∀ k, bitOf (signs >>> 1) k = bitOf signs (k + 1) := fun k => by
      rw [bitOf, bitOf, ← Nat.shiftRight_add, Nat.add_comm 1]
    simp only [hbit]
    rfl

/-! ## `IsChallenge` -/

/-- The indices of `sample_in_ball`. -/
def ballIndices (tau : Nat) : List Nat := (List.range tau).map fun k => 256 - tau + k

theorem ballIndices_getD {tau k : Nat} (h : k < tau) : (ballIndices tau).getD k 0 = 256 - tau + k := by
  rw [ballIndices, getD_map_range _ h]

theorem ballIndices_length (tau : Nat) : (ballIndices tau).length = tau := by simp [ballIndices]

theorem picksFirst_iff (stream : Bytes) (tau : Nat) (picks : List Nat) :
    PicksFirst stream tau picks ↔ PicksFrom stream 8 (ballIndices tau) picks := by
  rw [picksFrom_iff, ballIndices_length, PicksFirst]
  refine and_congr_right fun _ => forall₂_congr fun k hk => ?_
  rw [ballIndices_getD hk]

/-- The signs are the stream's first 64 bits. -/
theorem bitOf_signs (stream : Bytes) {k : Nat} (h : k < 64) : bitOf (intLe (stream.take 8)) k = bitAt stream k := by
  rw [bitOf_intLe, bitAt_take h]

/-- `IsChallenge` with its moves named. -/
theorem isChallenge_def (c : Cfg) {tau : Nat} (htau : 1 ≤ tau) (h64 : tau ≤ 64) (seed : Bytes) (f : Poly) (pos : Nat) :
    IsChallenge c tau seed f pos ↔
      ∃ picks, PicksFrom (xofbBytes c.hash seed (c.maxXofBlocks * c.blkB)) 8 (ballIndices tau) picks
        ∧ pos = picksEnd 8 picks
        ∧ f = placeAll (xofbBytes c.hash seed (c.maxXofBlocks * c.blkB)) (ballIndices tau) picks
            (intLe ((xofbBytes c.hash seed (c.maxXofBlocks * c.blkB)).take 8)) zeroPoly := by
  unfold IsChallenge
  generalize xofbBytes c.hash seed (c.maxXofBlocks * c.blkB) = stream
  dsimp only
  refine exists_congr fun picks => ?_
  rw [picksFirst_iff]
  refine and_congr_right fun hp => ?_
  have hlen := ((picksFrom_iff stream _ picks 8).1 hp).1
  have hne : picks ≠ [] := by
    rintro rfl
    rw [ballIndices_length] at hlen
    exact absurd hlen (by simp; omega)
  rw [picksEnd_eq hne, placeAll_eq_foldl stream _ _ _ _ hlen, hlen, ballIndices_length]
  refine and_congr_right fun _ => ?_
  have hfold : ∀ (l : List Nat) (acc : Poly), (∀ k ∈ l, k < tau) →
      l.foldl (fun (acc : Poly) k =>
          let b := (stream.getD (picks.getD k 0) 0).toNat
          (acc.set (256 - tau + k) (acc.getD b 0)).set b (1 - 2 * (bitAt stream k : Int))) acc
        = l.foldl (fun acc k => place acc ((ballIndices tau).getD k 0) (stream.getD (picks.getD k 0) 0).toNat
            (bitOf (intLe (stream.take 8)) k)) acc := fun l acc hl =>
    List.foldl_ext _ _ _ fun acc k hk => by
      rw [place, ballIndices_getD (hl k hk), bitOf_signs stream (by have := hl k hk; omega)]
  rw [hfold _ _ fun k hk => List.mem_range.1 hk]

/-- `IsChallenge` says what `sampleInBall` answers (42_sampler.md R183; a cap below 8 bytes leaves no challenge, log 22). -/
theorem isChallenge_iff (c : Cfg) {tau : Nat} (htau : 1 ≤ tau) (h64 : tau ≤ 64) (seed : Bytes) (f : Poly) (pos : Nat) :
    IsChallenge c tau seed f pos ↔ sampleInBall c tau seed = some (f, pos) := by
  rw [isChallenge_def c htau h64, sampleInBall, ← ballIndices, ballLoop_eq_some_iff]
  obtain hcap | hcap := Nat.le_total 8 (c.maxXofBlocks * c.blkB)
  · rw [Nat.max_eq_right hcap]
  · rw [Nat.max_eq_left hcap]
    have hne : ballIndices tau ≠ [] := fun h0 => by
      have := ballIndices_length tau
      rw [h0, List.length_nil] at this
      omega
    have hlen : ∀ n, n ≤ 8 → (xofbBytes c.hash seed n).length ≤ 8 := fun n hn => (xofbBytes_length ..).trans_le hn
    exact iff_of_false (fun ⟨picks, hp, _⟩ => not_picksFrom_of_length_le (hlen _ hcap) hne picks hp)
      (fun ⟨picks, hp, _⟩ => not_picksFrom_of_length_le (hlen 8 le_rfl) hne picks hp)

/-! ## The weight -/

/-- A polynomial of `sample_in_ball` before the move for index `i`: `n` signs, and zero from `i` on. -/
structure InBall (f : Poly) (i n : Nat) : Prop where
  length : f.length = 256
  small : ∀ x ∈ f, x = -1 ∨ x = 0 ∨ x = 1
  zero : ∀ j, i ≤ j → f.getD j 0 = 0
  weight : (f.filter (fun x => x ≠ 0)).length = n

theorem InBall.place {f : Poly} {i n b sign : Nat} (h : InBall f i n) (hi : i < 256) (hb : b ≤ i) (hs : sign ≤ 1) :
    InBall (place f i b sign) (i + 1) (n + 1) := by
  obtain ⟨hlen, hsmall, hzero, hweight⟩ := h
  have hsign : (1 - 2 * (sign : Int)) = -1 ∨ (1 - 2 * (sign : Int)) = 1 := by omega
  have hfi : f[i] = 0 := by rw [← List.getD_eq_getElem f 0 (by omega), hzero i le_rfl]
  have hfb : f.getD b 0 = f[b] := List.getD_eq_getElem f 0 (by omega)
  have hget : (f.set i f[b])[b]'(by simp; omega) = f[b] := by
    rw [List.getElem_set]
    split <;> rfl
  rw [Machine.place, hfb]
  refine ⟨by simp [hlen], fun x hx => ?small, fun j hj => ?zero, ?weight⟩
  case small =>
    obtain hx | rfl := List.mem_or_eq_of_mem_set hx
    · obtain hx | rfl := List.mem_or_eq_of_mem_set hx
      · exact hsmall x hx
      · exact hsmall _ (List.getElem_mem _)
    · omega
  case zero =>
    rw [List.getD_eq_getElem?_getD, List.getElem?_set_ne (by omega), List.getElem?_set_ne (by omega), ← List.getD_eq_getElem?_getD,
      hzero j (by omega)]
  case weight =>
    rw [← List.countP_eq_length_filter] at hweight ⊢
    rw [List.countP_set (by simp; omega), List.countP_set (by omega), hget, hfi, hweight]
    have hone : (1 - 2 * (sign : Int)) ≠ 0 := by omega
    have hpos : f[b] ≠ 0 → 1 ≤ n := fun h0 => hweight ▸ List.countP_pos_iff.2 ⟨_, List.getElem_mem _, by simpa using h0⟩
    by_cases h0 : f[b] = 0 <;> simp [h0, hone]

theorem placeAll_inBall {stream : Bytes} : ∀ (m : Nat) {i n lo signs : Nat} {picks : List Nat} {f : Poly},
    PicksFrom stream lo (List.range' i m) picks → InBall f i n → i + m ≤ 256 →
      InBall (placeAll stream (List.range' i m) picks signs f) (i + m) (n + m)
  | 0, _, _, _, _, _, _, _, hf, _ => hf
  | m + 1, i, n, _, signs, [], _, hp, _, _ => hp.elim
  | m + 1, i, n, _, signs, p :: ps, f, ⟨⟨_, _, hb, _⟩, hp⟩, hf, him => by
    have := placeAll_inBall m (signs := signs >>> 1) hp (hf.place (sign := signs % 2) (by omega) hb (by omega)) (by omega)
    rwa [Nat.add_assoc, Nat.add_assoc, Nat.add_comm 1] at this

theorem inBall_zeroPoly (i : Nat) : InBall zeroPoly i 0 where
  length := List.length_replicate
  small := fun x hx => .inr (.inl (List.eq_of_mem_replicate hx))
  zero := fun j _ => by simp [zeroPoly, List.getElem?_replicate]; split <;> rfl
  weight := by simp [zeroPoly]

theorem ballIndices_eq_range' (tau : Nat) : ballIndices tau = List.range' (256 - tau) tau := by
  rw [ballIndices, List.range'_eq_map_range]

/-- A challenge has `TAU` signs and no other coefficient (42_sampler.md R183). -/
theorem IsChallenge.inBall {c : Cfg} {tau : Nat} (htau : 1 ≤ tau) (h64 : tau ≤ 64) {seed : Bytes} {f : Poly} {pos : Nat}
    (h : IsChallenge c tau seed f pos) : InBall f 256 tau := by
  obtain ⟨picks, hp, -, rfl⟩ := (isChallenge_def c htau h64 seed f pos).1 h
  rw [ballIndices_eq_range'] at hp ⊢
  have := placeAll_inBall tau (signs := intLe ((xofbBytes c.hash seed (c.maxXofBlocks * c.blkB)).take 8)) hp
    (inBall_zeroPoly _) (by omega)
  rwa [Nat.sub_add_cancel (by omega), Nat.zero_add] at this

theorem InBall.fits {c : Cfg} (hl : LegalCfg c) {f : Poly} {i n : Nat} (h : InBall f i n) : PolyFits c.w f := by
  refine ⟨h.length, fun x hx => ?_⟩
  have := hl.two_pow_fifteen_le
  obtain rfl | rfl | rfl := h.small x hx <;> constructor <;> omega

/-! ## `CHALLENGE` (42_sampler.md R184) -/

/-- Settles O46: `sampleInBall` answers exactly where `IsChallenge` holds of something. -/
theorem challengeResult : Obligations.ChallengeResult := by
  intro s g pd seed ⟨hc, _, hb, _⟩ hg hpd h1 h255 hin hlen hseed
  have hl := (cfgValid_iff_legal s.cfg).1 hc
  have htau := (hl.legalSig hg).tau
  have hck : checkError s (.challenge pd) = none :=
    checkError_eq_none_of_one (by simp [legalFields, hg, hpd, h1, h255]) (.inr hin) (.inl ⟨rfl, rfl⟩)
  have hiff := isChallenge_iff s.cfg htau.1 (htau.2.trans (by decide)) seed
  rw [exec_eq_of_body hck (.challenge pd hg), reading_of_holds _ hb.1 hlen hseed]
  refine ⟨fun f pos hf => ?found, fun hnone => ?exhausted⟩
  case found =>
    have hball := hf.inBall htau.1 (htau.2.trans (by decide))
    have hsome := (hiff f pos).1 hf
    obtain ⟨picks, hp, hpos, -⟩ := hf
    obtain ⟨hlo, hhi, -⟩ := hp.2 (g.tau - 1) (by omega)
    have h8 : ∀ k, k < g.tau → 8 ≤ picks.getD k 0 := fun k => by
      induction k with
      | zero => exact fun hk => (hp.2 0 hk).1
      | succ k ih => exact fun hk => (Nat.le_succ_of_le (ih (by omega))).trans (hp.2 (k + 1) hk).1
    have := h8 (g.tau - 1) (by omega)
    rw [xofbBytes_length] at hhi
    refine ⟨?_, hball.length, hball.small, hball.weight, by omega, by omega⟩
    rw [hsome]
    dsimp only
    rw [setSlot_of_fits hl.w_pos (hball.fits hl)]
    rfl
  case exhausted =>
    have : sampleInBall s.cfg g.tau seed = none :=
      Option.eq_none_iff_forall_ne_some.2 fun r hr => hnone ⟨r.1, r.2, (hiff r.1 r.2).2 hr⟩
    rw [this]
    rfl

end Sys2Proof.Machine
end

section
/-! SUPPORT. The transform over a commutative ring (41_transform.md R152 to R155): the stages as relations between coefficient
functions, the residues they compute, and that the two networks undo each other. -/

namespace Sys2Proof.Machine

/-! ## Exponents -/

/-- Stage `s` squares the twiddle of block `m` to the root of the stage before (41_transform.md R151, R153). -/
def rootExp : Nat → Nat → Nat
  | 0, _ => 128
  | s + 1, m => brv7 (2 ^ s + m / 2) + 128 * (m % 2)

theorem two_mul_brv7_twiddle : ∀ s < 7, ∀ m < 2 ^ s, 2 * brv7 (2 ^ s + m) % 256 = rootExp s m % 256 := by decide +kernel

theorem rootExp_seven : ∀ m < 128, rootExp 7 m % 256 = (2 * brv7 m + 1) % 256 := by decide +kernel

/-- The twiddles that the inverse stage uses are those of the forward stage, mirrored (41_transform.md R155). -/
theorem brv7_add_mirror : ∀ s < 7, ∀ m < 2 ^ s, brv7 (2 ^ s + m) + brv7 (2 ^ (s + 1) - 1 - m) = 128 := by decide +kernel

section
variable {K : Type} [CommRing K] {ζ : K}

theorem pow_eq_of_mod_256 (h : ζ ^ 128 = -1) {a b : Nat} (hab : a % 256 = b % 256) : ζ ^ a = ζ ^ b := by
  have h256 : ζ ^ 256 = 1 := by
    rw [show 256 = 128 * 2 from rfl, pow_mul, h, neg_one_sq]
  rw [pow_eq_pow_mod a h256, pow_eq_pow_mod b h256, hab]

/-! ## The stages -/

/-- Coefficient `j` of the lower half of block `m`, at stage `s`. -/
abbrev lowIndex (s m j : Nat) : Nat := 2 ^ (8 - s) * m + j

/-- Coefficient `j` of the upper half. -/
abbrev highIndex (s m j : Nat) : Nat := 2 ^ (8 - s) * m + 2 ^ (7 - s) + j

/-- `b` is what stage `s` of `NTT` makes of `a` (41_transform.md R154). -/
def ForwardRel (ζ : K) (s : Nat) (a b : Nat → K) : Prop :=
  ∀ m, m < 2 ^ s → ∀ j, j < 2 ^ (7 - s) →
    b (lowIndex s m j) = a (lowIndex s m j) + ζ ^ brv7 (2 ^ s + m) * a (highIndex s m j)
      ∧ b (highIndex s m j) = a (lowIndex s m j) - ζ ^ brv7 (2 ^ s + m) * a (highIndex s m j)

/-- `a` is what the stage of `INTT` that mirrors stage `s` makes of `b` (41_transform.md R155). -/
def InverseRel (ζ : K) (s : Nat) (b a : Nat → K) : Prop :=
  ∀ m, m < 2 ^ s → ∀ j, j < 2 ^ (7 - s) →
    a (lowIndex s m j) = b (lowIndex s m j) + b (highIndex s m j)
      ∧ a (highIndex s m j) = ζ ^ brv7 (2 ^ (s + 1) - 1 - m) * (b (highIndex s m j) - b (lowIndex s m j))

theorem block_size {s : Nat} (hs : s < 7) : 2 ^ (8 - s) = 2 * 2 ^ (7 - s) ∧ 2 ^ s * 2 ^ (8 - s) = 256 := by
  rw [← Nat.pow_add, show s + (8 - s) = 8 by omega, show 8 - s = (7 - s) + 1 by omega, Nat.pow_succ']
  exact ⟨rfl, rfl⟩

/-- Every index is in one half of one block. -/
theorem exists_block {s k : Nat} (hs : s < 7) (hk : k < 256) :
    ∃ m, m < 2 ^ s ∧ ∃ j, j < 2 ^ (7 - s) ∧ (k = lowIndex s m j ∨ k = highIndex s m j) := by
  obtain ⟨hhalf, htotal⟩ := block_size hs
  have hm : k / 2 ^ (8 - s) < 2 ^ s := Nat.div_lt_of_lt_mul (by rw [Nat.mul_comm, htotal]; exact hk)
  have hdiv := Nat.div_add_mod k (2 ^ (8 - s))
  have hlt := Nat.mod_lt k (show 0 < 2 ^ (8 - s) by positivity)
  by_cases hj : k % 2 ^ (8 - s) < 2 ^ (7 - s)
  · exact ⟨_, hm, k % 2 ^ (8 - s), hj, .inl hdiv.symm⟩
  · exact ⟨_, hm, k % 2 ^ (8 - s) - 2 ^ (7 - s), by omega, .inr (by simp only [highIndex]; omega)⟩

theorem lowIndex_lt {s m j : Nat} (hs : s < 7) (hm : m < 2 ^ s) (hj : j < 2 ^ (7 - s)) : lowIndex s m j < 256 := by
  obtain ⟨hhalf, htotal⟩ := block_size hs
  have : 2 ^ (8 - s) * (m + 1) ≤ 2 ^ (8 - s) * 2 ^ s := Nat.mul_le_mul_left _ hm
  rw [Nat.mul_comm _ (2 ^ s), htotal, Nat.mul_succ] at this
  simp only [lowIndex]
  omega

theorem highIndex_lt {s m j : Nat} (hs : s < 7) (hm : m < 2 ^ s) (hj : j < 2 ^ (7 - s)) : highIndex s m j < 256 := by
  obtain ⟨hhalf, htotal⟩ := block_size hs
  have : 2 ^ (8 - s) * (m + 1) ≤ 2 ^ (8 - s) * 2 ^ s := Nat.mul_le_mul_left _ hm
  rw [Nat.mul_comm _ (2 ^ s), htotal, Nat.mul_succ] at this
  simp only [highIndex]
  omega

/-! ## The residues that the forward stages compute -/

theorem sum_range_two_mul (c : Nat → K) (n : Nat) :
    ∑ i ∈ Finset.range (2 * n), c i = ∑ i ∈ Finset.range n, (c (2 * i) + c (2 * i + 1)) := by
  induction n with
  | zero => rfl
  | succ n ih =>
    rw [Nat.mul_succ, Finset.sum_range_succ, Finset.sum_range_succ, ih, Finset.sum_range_succ]
    ring

/-- A polynomial in `v` by its even and its odd part. -/
theorem sum_even_add_odd (c : Nat → K) (v : K) (n : Nat) :
    ∑ i ∈ Finset.range (2 * n), c i * v ^ i
      = ∑ i ∈ Finset.range n, c (2 * i) * (v ^ 2) ^ i + v * ∑ i ∈ Finset.range n, c (2 * i + 1) * (v ^ 2) ^ i := by
  rw [sum_range_two_mul, Finset.mul_sum, ← Finset.sum_add_distrib]
  refine Finset.sum_congr rfl fun i _ => ?_
  rw [pow_succ, pow_mul]
  ring

/-- After `s` stages block `m` holds the residues modulo `X^(256/2^s) - root`. -/
def Residues (ζ : K) (s : Nat) (a b : Nat → K) : Prop :=
  ∀ m, m < 2 ^ s → ∀ j, j < 2 ^ (8 - s) →
    b (lowIndex s m j) = ∑ i ∈ Finset.range (2 ^ s), a (2 ^ (8 - s) * i + j) * (ζ ^ rootExp s m) ^ i

theorem residues_zero (a : Nat → K) : Residues ζ 0 a a := by
  intro m hm j _
  obtain rfl : m = 0 := by omega
  simp [lowIndex]

theorem Residues.forward (h : ζ ^ 128 = -1) {s : Nat} (hs : s < 7) {a b b' : Nat → K} (hr : Residues ζ s a b)
    (hf : ForwardRel ζ s b b') : Residues ζ (s + 1) a b' := by
  obtain ⟨hhalf, -⟩ := block_size hs
  have h7 : 8 - (s + 1) = 7 - s := by omega
  intro m' hm' j hj
  rw [h7] at hj
  have hm : m' / 2 < 2 ^ s := by rw [Nat.pow_succ] at hm'; omega
  have hlow := hr _ hm j (by omega)
  have hhigh := hr _ hm (2 ^ (7 - s) + j) (by omega)
  obtain ⟨hb1, hb2⟩ := hf _ hm j hj
  have hsq : (ζ ^ rootExp (s + 1) m') ^ 2 = ζ ^ rootExp s (m' / 2) := by
    rw [← pow_mul]
    refine pow_eq_of_mod_256 h ?_
    rw [← two_mul_brv7_twiddle s hs _ hm, rootExp]
    omega
  have hindex : ∀ i, 2 ^ (8 - s) * i = 2 ^ (7 - s) * (2 * i) := fun i => by rw [hhalf]; ring
  have hsum : ∑ i ∈ Finset.range (2 ^ (s + 1)), a (2 ^ (7 - s) * i + j) * (ζ ^ rootExp (s + 1) m') ^ i
      = b (lowIndex s (m' / 2) j) + ζ ^ rootExp (s + 1) m' * b (highIndex s (m' / 2) j) := by
    rw [Nat.pow_succ', sum_even_add_odd, hsq, hlow, highIndex, Nat.add_assoc, hhigh]
    simp only [hindex, Nat.mul_add (2 ^ (7 - s)), Nat.mul_one, Nat.add_assoc]
  rw [h7, hsum]
  obtain hpar | hpar := Nat.mod_two_eq_zero_or_one m'
  · have hindex' : lowIndex (s + 1) m' j = lowIndex s (m' / 2) j := by
      rw [lowIndex, lowIndex, h7, hindex, show 2 * (m' / 2) = m' by omega]
    rw [hindex', hb1, rootExp, hpar, Nat.mul_zero, Nat.add_zero]
  · have hindex' : lowIndex (s + 1) m' j = highIndex s (m' / 2) j := by
      rw [lowIndex, highIndex, h7, hindex, ← Nat.mul_succ, show (2 * (m' / 2)).succ = m' by omega]
    rw [hindex', hb2, rootExp, hpar, Nat.mul_one, pow_add, h]
    ring

/-! ## The seven stages -/

/-- The arrays before, between and after the stages of `NTT`. -/
def ForwardChain (ζ : K) (seq : Nat → Nat → K) : Prop := ∀ s, s < 7 → ForwardRel ζ s (seq s) (seq (s + 1))

/-- The same for `INTT`, numbered downward. -/
def InverseChain (ζ : K) (seq : Nat → Nat → K) : Prop := ∀ s, s < 7 → InverseRel ζ s (seq (s + 1)) (seq s)

theorem ForwardChain.residues (h : ζ ^ 128 = -1) {seq : Nat → Nat → K} (hf : ForwardChain ζ seq) :
    ∀ s, s ≤ 7 → Residues ζ s (seq 0) (seq s)
  | 0, _ => residues_zero _
  | s + 1, hs => (hf.residues h s (by omega)).forward h (by omega) (hf s (by omega))

/-- The forward network computes the residues modulo `X^2 - g_i` (41_transform.md R152). -/
theorem ForwardChain.residue (h : ζ ^ 128 = -1) {seq : Nat → Nat → K} (hf : ForwardChain ζ seq) {i b : Nat} (hi : i < 128)
    (hb : b < 2) : seq 7 (2 * i + b) = ∑ j ∈ Finset.range 128, seq 0 (2 * j + b) * (ζ ^ (2 * brv7 i + 1)) ^ j := by
  rw [← pow_eq_of_mod_256 h (rootExp_seven i hi)]
  exact hf.residues h 7 le_rfl i hi b hb

/-- An inverse stage after its forward stage doubles. -/
theorem InverseRel.of_forward (h : ζ ^ 128 = -1) {s : Nat} (hs : s < 7) {a b a' b' : Nat → K} {μ : K} (hf : ForwardRel ζ s a b)
    (hi : InverseRel ζ s b' a') (hb : ∀ k, k < 256 → b' k = μ * b k) : ∀ k, k < 256 → a' k = 2 * μ * a k := by
  intro k hk
  obtain ⟨m, hm, j, hj, hk⟩ := exists_block hs hk
  obtain ⟨hf1, hf2⟩ := hf m hm j hj
  obtain ⟨hi1, hi2⟩ := hi m hm j hj
  have htwiddle : ζ ^ brv7 (2 ^ s + m) * ζ ^ brv7 (2 ^ (s + 1) - 1 - m) = -1 := by
    rw [← pow_add, brv7_add_mirror s hs m hm, h]
  rw [hb _ (lowIndex_lt hs hm hj), hb _ (highIndex_lt hs hm hj), hf1, hf2] at hi1 hi2
  obtain rfl | rfl := hk
  · rw [hi1]
    ring
  · rw [hi2]
    linear_combination (-2 * μ * a (highIndex s m j)) * htwiddle

/-- A forward stage after its inverse stage doubles. -/
theorem ForwardRel.of_inverse (h : ζ ^ 128 = -1) {s : Nat} (hs : s < 7) {a b a' b' : Nat → K} {μ : K} (hi : InverseRel ζ s b a)
    (hf : ForwardRel ζ s a' b') (ha : ∀ k, k < 256 → a' k = μ * a k) : ∀ k, k < 256 → b' k = 2 * μ * b k := by
  intro k hk
  obtain ⟨m, hm, j, hj, hk⟩ := exists_block hs hk
  obtain ⟨hf1, hf2⟩ := hf m hm j hj
  obtain ⟨hi1, hi2⟩ := hi m hm j hj
  have htwiddle : ζ ^ brv7 (2 ^ s + m) * ζ ^ brv7 (2 ^ (s + 1) - 1 - m) = -1 := by
    rw [← pow_add, brv7_add_mirror s hs m hm, h]
  rw [ha _ (lowIndex_lt hs hm hj), ha _ (highIndex_lt hs hm hj), hi1, hi2] at hf1 hf2
  obtain rfl | rfl := hk
  · rw [hf1]
    linear_combination (μ * (b (highIndex s m j) - b (lowIndex s m j))) * htwiddle
  · rw [hf2]
    linear_combination (-μ * (b (highIndex s m j) - b (lowIndex s m j))) * htwiddle

/-- `INTT`'s stages after `NTT`'s multiply by 128 (41_transform.md R157). -/
theorem InverseChain.of_forward (h : ζ ^ 128 = -1) {p t : Nat → Nat → K} {μ : K} (hp : ForwardChain ζ p)
    (ht : InverseChain ζ t) (heq : ∀ k, k < 256 → t 7 k = μ * p 7 k) : ∀ k, k < 256 → t 0 k = 128 * μ * p 0 k := by
  have hstep : ∀ n, n ≤ 7 → ∀ k, k < 256 → t (7 - n) k = 2 ^ n * μ * p (7 - n) k := fun n => by
    induction n with
    | zero => simpa using heq
    | succ n ih =>
      intro hn
      have hs : 7 - (n + 1) + 1 = 7 - n := by omega
      rw [pow_succ', mul_assoc]
      exact InverseRel.of_forward h (by omega) (hp _ (by omega)) (ht _ (by omega)) (hs ▸ ih (by omega))
  have h7 := hstep 7 le_rfl
  norm_num at h7
  exact h7

/-- `NTT`'s stages after `INTT`'s multiply by 128. -/
theorem ForwardChain.of_inverse (h : ζ ^ 128 = -1) {t p : Nat → Nat → K} {μ : K} (ht : InverseChain ζ t)
    (hp : ForwardChain ζ p) (heq : ∀ k, k < 256 → p 0 k = μ * t 0 k) : ∀ k, k < 256 → p 7 k = 128 * μ * t 7 k := by
  have hstep : ∀ n, n ≤ 7 → ∀ k, k < 256 → p n k = 2 ^ n * μ * t n k := fun n => by
    induction n with
    | zero => simpa using heq
    | succ n ih =>
      intro hn
      rw [pow_succ', mul_assoc]
      exact ForwardRel.of_inverse h (by omega) (ht n (by omega)) (hp n (by omega)) (ih (by omega))
  have h7 := hstep 7 le_rfl
  norm_num at h7
  exact h7

/-! ## The ring product (00_scope.md R16, 41_transform.md R156) -/

/-- Coefficient `n` of the product modulo `X^256 + 1`. -/
def negacyclicOf (f g : Nat → K) (n : Nat) : K :=
  ∑ i ∈ Finset.range 256, f i * (if i ≤ n then g (n - i) else -g (256 + n - i))

/-- Multiplying by `x^i` where `x^256 = -1` shifts the coefficients around with a sign. -/
theorem sum_shift {A : Type} [CommRing A] (g : Nat → A) {x : A} (hx : x ^ 256 = -1) {i : Nat} (hi : i < 256) :
    ∑ n ∈ Finset.range 256, (if i ≤ n then g (n - i) else -g (256 + n - i)) * x ^ n
      = x ^ i * ∑ j ∈ Finset.range 256, g j * x ^ j := by
  obtain ⟨l, hl⟩ := Nat.exists_eq_add_of_le hi.le
  have hupper : ∑ j ∈ Finset.range l, (if i ≤ i + j then g (i + j - i) else -g (256 + (i + j) - i)) * x ^ (i + j)
      = x ^ i * ∑ j ∈ Finset.range l, g j * x ^ j := by
    rw [Finset.mul_sum]
    refine Finset.sum_congr rfl fun j _ => ?_
    rw [if_pos (Nat.le_add_right i j), Nat.add_sub_cancel_left, pow_add]
    ring
  have hlower : ∑ n ∈ Finset.range i, (if i ≤ n then g (n - i) else -g (256 + n - i)) * x ^ n
      = x ^ i * ∑ n ∈ Finset.range i, g (l + n) * x ^ (l + n) := by
    rw [Finset.mul_sum]
    refine Finset.sum_congr rfl fun n hn => ?_
    have hn := Finset.mem_range.1 hn
    rw [if_neg (by omega), show 256 + n - i = l + n by omega]
    have : x ^ i * x ^ (l + n) = x ^ 256 * x ^ n := by rw [← pow_add, ← pow_add, hl, Nat.add_assoc]
    linear_combination (-g (l + n)) * this + (-g (l + n) * x ^ n) * hx
  have hsplit : ∑ j ∈ Finset.range 256, g j * x ^ j
      = ∑ j ∈ Finset.range l, g j * x ^ j + ∑ n ∈ Finset.range i, g (l + n) * x ^ (l + n) := by
    rw [hl, Nat.add_comm i l, Finset.sum_range_add]
  rw [hsplit, mul_add, ← hupper, ← hlower, add_comm, ← Finset.sum_range_add]
  rw [← hl]

/-- Evaluating at an `x` with `x^256 = -1` turns the product modulo `X^256 + 1` into a product. -/
theorem eval_negacyclicOf (f g : Nat → K) {x : K} (hx : x ^ 256 = -1) :
    ∑ n ∈ Finset.range 256, negacyclicOf f g n * x ^ n
      = (∑ i ∈ Finset.range 256, f i * x ^ i) * ∑ j ∈ Finset.range 256, g j * x ^ j := by
  simp only [negacyclicOf, Finset.sum_mul]
  rw [Finset.sum_comm]
  refine Finset.sum_congr rfl fun i hi => ?_
  have := sum_shift g hx (Finset.mem_range.1 hi)
  rw [mul_assoc, ← this, Finset.mul_sum]
  exact Finset.sum_congr rfl fun n _ => by ring

/-- The residue of the coefficients of parity `b` at `y`: `sum over j of f[2j + b] * y^j`. -/
def residueOf (y : K) (f : Nat → K) (b : Nat) : K := ∑ j ∈ Finset.range 128, f (2 * j + b) * y ^ j

/-- The variable of `K[X] / (X^2 - y)`. -/
abbrev quadX (y : K) : QuadraticAlgebra K y 0 := ⟨0, 1⟩

theorem quadX_sq (y : K) : quadX y ^ 2 = algebraMap K _ y := by
  rw [sq]
  ext <;> simp

theorem quadX_pow_two_mul (y : K) (j : Nat) : quadX y ^ (2 * j) = algebraMap K _ (y ^ j) := by
  rw [pow_mul, quadX_sq, map_pow]

/-- The residue modulo `X^2 - y` is the pair of the two parities' residues. -/
theorem eval_quadX (y : K) (f : Nat → K) :
    ∑ n ∈ Finset.range 256, algebraMap K (QuadraticAlgebra K y 0) (f n) * quadX y ^ n
      = ⟨residueOf y f 0, residueOf y f 1⟩ := by
  have hterm : ∀ j, algebraMap K (QuadraticAlgebra K y 0) (f (2 * j)) * quadX y ^ (2 * j)
      + algebraMap K _ (f (2 * j + 1)) * quadX y ^ (2 * j + 1) = ⟨f (2 * j) * y ^ j, f (2 * j + 1) * y ^ j⟩ := fun j => by
    rw [pow_succ, quadX_pow_two_mul]
    ext <;> simp [-map_pow]
  rw [show 256 = 2 * 128 from rfl, sum_range_two_mul]
  simp only [hterm, residueOf, Nat.add_zero]
  induction Finset.range 128 using Finset.induction_on with
  | empty => rfl
  | insert j t hj ih =>
    simp only [Finset.sum_insert hj, ih]
    rfl

/-- The product modulo `X^256 + 1` is, modulo each factor `X^2 - y`, the product of the residues (41_transform.md R156). -/
theorem residueOf_negacyclicOf {y : K} (hy : y ^ 128 = -1) (f g : Nat → K) :
    residueOf y (negacyclicOf f g) 0 = residueOf y f 0 * residueOf y g 0 + residueOf y f 1 * residueOf y g 1 * y
      ∧ residueOf y (negacyclicOf f g) 1 = residueOf y f 0 * residueOf y g 1 + residueOf y f 1 * residueOf y g 0 := by
  have hx : quadX y ^ 256 = -1 := by
    rw [show 256 = 2 * 128 from rfl, quadX_pow_two_mul, hy, map_neg, map_one]
  have hmap : ∀ n, negacyclicOf (fun i => algebraMap K (QuadraticAlgebra K y 0) (f i)) (fun i => algebraMap K _ (g i)) n
      = algebraMap K _ (negacyclicOf f g n) := fun n => by
    simp only [negacyclicOf, map_sum, map_mul, apply_ite (algebraMap K (QuadraticAlgebra K y 0)), map_neg]
  have h := eval_negacyclicOf (fun i => algebraMap K (QuadraticAlgebra K y 0) (f i)) (fun i => algebraMap K _ (g i)) hx
  simp only [hmap, eval_quadX] at h
  obtain ⟨hre, him⟩ := QuadraticAlgebra.ext_iff.1 h
  simp only [QuadraticAlgebra.re_mul, QuadraticAlgebra.im_mul] at hre him
  constructor
  · rw [hre]
    ring
  · rw [him]
    ring

theorem residueOf_add (y : K) (f g : Nat → K) (b : Nat) :
    residueOf y (fun n => f n + g n) b = residueOf y f b + residueOf y g b := by
  simp only [residueOf, add_mul, Finset.sum_add_distrib]

end

end Sys2Proof.Machine
end

section
/-! SUPPORT. The butterfly networks of the model as the stages of the transform, for every multiplication and reduction that are
right on the values that occur (41_transform.md R154, R155). -/

namespace Sys2Proof.Machine

/-! ## One stage -/

theorem getD_zipWith {f : Int → Int → Int} {xs ys : Poly} {j : Nat} (hx : j < xs.length) (hy : j < ys.length) :
    (List.zipWith f xs ys).getD j 0 = f (xs.getD j 0) (ys.getD j 0) := by
  rw [List.getD_eq_getElem _ _ (by simp [hx, hy]), List.getElem_zipWith, List.getD_eq_getElem _ _ hx, List.getD_eq_getElem _ _ hy]

theorem getD_drop (r : Poly) (n k : Nat) : (r.drop n).getD k 0 = r.getD (n + k) 0 := by
  rw [List.getD_eq_getElem?_getD, List.getElem?_drop, ← List.getD_eq_getElem?_getD]

theorem getD_take {r : Poly} {n k : Nat} (h : k < n) : (r.take n).getD k 0 = r.getD k 0 := by
  rw [List.getD_eq_getElem?_getD, List.getElem?_take, if_pos h, ← List.getD_eq_getElem?_getD]

theorem blockOf_length {f g : Int → Int → Int} {lo hi : Poly} {len : Nat} (hlo : lo.length = len) (hhi : hi.length = len) :
    (blockOf f g lo hi).length = 2 * len := by
  simp [blockOf, hlo, hhi]
  omega

theorem stageOf_length (f g : Int → Int → Int → Int) (len : Nat) : ∀ (zs : List Int) (r : Poly), r.length = 2 * len * zs.length →
    (stageOf f g len zs r).length = r.length
  | [], r, _ => rfl
  | z :: zs, r, h => by
    rw [List.length_cons, Nat.mul_succ] at h
    rw [stageOf, List.length_append, blockOf_length (len := len) (by simp; omega) (by simp; omega),
      stageOf_length f g len zs _ (by simp; omega)]
    simp
    omega

/-- What a stage leaves in the two halves of block `m`. -/
theorem stageOf_getD (f g : Int → Int → Int → Int) (len : Nat) : ∀ (zs : List Int) (r : Poly), r.length = 2 * len * zs.length →
    ∀ m, m < zs.length → ∀ j, j < len →
      (stageOf f g len zs r).getD (2 * len * m + j) 0
          = f (zs.getD m 0) (r.getD (2 * len * m + j) 0) (r.getD (2 * len * m + len + j) 0)
        ∧ (stageOf f g len zs r).getD (2 * len * m + len + j) 0
          = g (zs.getD m 0) (r.getD (2 * len * m + j) 0) (r.getD (2 * len * m + len + j) 0)
  | [], _, _, _, hm, _, _ => absurd hm (Nat.not_lt_zero _)
  | z :: zs, r, h, m, hm, j, hj => by
    rw [List.length_cons, Nat.mul_succ] at h
    have hlo : (r.take len).length = len := by simp; omega
    have hhi : ((r.drop len).take len).length = len := by simp; omega
    have hblock := blockOf_length (f := f z) (g := g z) hlo hhi
    have hzip : (List.zipWith (f z) (r.take len) ((r.drop len).take len)).length = len := by simp; omega
    have hleft : (r.take len).getD j 0 = r.getD j 0 := getD_take hj
    have hright : ((r.drop len).take len).getD j 0 = r.getD (len + j) 0 := by rw [getD_take hj, getD_drop]
    rw [stageOf]
    cases m with
    | zero =>
      rw [Nat.mul_zero, Nat.zero_add, Nat.zero_add, List.getD_append _ _ _ _ (by omega), List.getD_append _ _ _ _ (by omega), blockOf,
        List.getD_append _ _ _ _ (by omega), List.getD_append_right _ _ _ _ (by omega), hzip, Nat.add_sub_cancel_left,
        getD_zipWith (by omega) (by omega), getD_zipWith (by omega) (by omega), hleft, hright]
      exact ⟨rfl, rfl⟩
    | succ m =>
      have ih := stageOf_getD f g len zs (r.drop (2 * len)) (by simp; omega) m (Nat.lt_of_succ_lt_succ hm) j hj
      simp only [getD_drop] at ih
      have h1 : 2 * len * (m + 1) + j = 2 * len + (2 * len * m + j) := by ring
      have h2 : 2 * len * (m + 1) + len + j = 2 * len + (2 * len * m + len + j) := by ring
      rw [h1, h2, List.getD_append_right _ _ _ _ (by omega), List.getD_append_right _ _ _ _ (by omega), hblock,
        Nat.add_sub_cancel_left, Nat.add_sub_cancel_left]
      exact ih

theorem forwardStage_eq (mul : Int → Int → Int) (red : Int → Int) (len : Nat) (zs : List Int) (r : Poly) :
    forwardStage mul red len zs r = stageOf (fun z x y => red (x + mul z y)) (fun z x y => red (x - mul z y)) len zs r := by
  induction zs generalizing r with
  | nil => rfl
  | cons z zs ih => rw [forwardStage, stageOf, ih, forwardBlock, List.zipWith_map_right, List.zipWith_map_right, blockOf]

theorem inverseStage_eq (mul : Int → Int → Int) (red sum : Int → Int) (len : Nat) (zs : List Int) (r : Poly) :
    inverseStage mul red sum len zs r
      = stageOf (fun _ x y => sum (red (x + y))) (fun z x y => mul z (red (y - x))) len zs r := by
  induction zs generalizing r with
  | nil => rfl
  | cons z zs ih =>
    rw [inverseStage, stageOf, ih]
    rfl

/-! ## The stages of a network -/

/-- 256 coefficients with a property. -/
def AllCoeffs (P : Int → Prop) (r : Poly) : Prop := r.length = 256 ∧ ∀ k, k < 256 → P (r.getD k 0)

theorem allCoeffs_of_mem {P : Int → Prop} {r : Poly} (hlen : r.length = 256) (h : ∀ x ∈ r, P x) : AllCoeffs P r :=
  ⟨hlen, fun _ hk => List.getD_eq_getElem r 0 (hlen ▸ hk) ▸ h _ (List.getElem_mem _)⟩

theorem AllCoeffs.forall_mem {P : Int → Prop} {r : Poly} (h : AllCoeffs P r) : ∀ x ∈ r, P x := by
  intro x hx
  obtain ⟨k, hk, rfl⟩ := List.getElem_of_mem hx
  exact List.getD_eq_getElem r 0 hk ▸ h.2 k (h.1 ▸ hk)

section
variable {q : Nat} {table : List Int} {P P' : Int → Prop} {r : Poly} {s : Nat}

/-- The coefficients of a list as residues. -/
def resid (q : Nat) (r : Poly) (k : Nat) : ZMod q := ((r.getD k 0 : Int) : ZMod q)

theorem blocks_of_stage (hs : s < 7) : 128 / 2 ^ (7 - s) = 2 ^ s := by
  refine Nat.div_eq_of_eq_mul_left (by positivity) ?_
  rw [← Nat.pow_add, Nat.add_sub_cancel' hs.le]

theorem stageTwiddles_length (ht : table.length = 128) (hs : s < 7) : (stageTwiddles table (2 ^ (7 - s))).length = 2 ^ s := by
  have : 2 * 2 ^ s ≤ 128 := by rw [← Nat.pow_succ']; exact (Nat.pow_le_pow_right (by decide) (show s + 1 ≤ 7 by omega)).trans (by decide)
  rw [stageTwiddles, blocks_of_stage hs]
  simp
  omega

theorem stageTwiddles_getD (hs : s < 7) {m : Nat} (hm : m < 2 ^ s) :
    (stageTwiddles table (2 ^ (7 - s))).getD m 0 = table.getD (2 ^ s + m) 0 := by
  rw [stageTwiddles, blocks_of_stage hs, getD_take hm, getD_drop]

theorem stageTwiddles_reverse_getD (ht : table.length = 128) (hs : s < 7) {m : Nat} (hm : m < 2 ^ s) :
    (stageTwiddles table (2 ^ (7 - s))).reverse.getD m 0 = table.getD (2 ^ (s + 1) - 1 - m) 0 := by
  have hlen := stageTwiddles_length ht hs
  rw [List.getD_eq_getElem?_getD, List.getElem?_reverse (by omega), ← List.getD_eq_getElem?_getD, hlen,
    stageTwiddles_getD hs (by omega)]
  congr 1
  rw [Nat.pow_succ]
  omega

/-- A stage whose two halves have the property `P'` wherever the operands have `P`. -/
theorem stageOf_allCoeffs {f g : Int → Int → Int → Int} {zs : List Int} (hs : s < 7) (hzs : zs.length = 2 ^ s)
    (hfg : ∀ m, m < 2 ^ s → ∀ x y, P x → P y → P' (f (zs.getD m 0) x y) ∧ P' (g (zs.getD m 0) x y)) (hr : AllCoeffs P r) :
    AllCoeffs P' (stageOf f g (2 ^ (7 - s)) zs r) := by
  obtain ⟨hhalf, htotal⟩ := block_size hs
  have hlen : r.length = 2 * 2 ^ (7 - s) * zs.length := by rw [hr.1, hzs, ← hhalf, Nat.mul_comm, htotal]
  refine ⟨(stageOf_length _ _ _ _ _ hlen).trans hr.1, fun k hk => ?_⟩
  obtain ⟨m, hm, j, hj, hk⟩ := exists_block hs hk
  obtain ⟨h1, h2⟩ := stageOf_getD f g _ zs r hlen m (hzs ▸ hm) j hj
  rw [← hhalf] at h1 h2
  obtain ⟨hf, hg⟩ := hfg m hm _ _ (hr.2 _ (lowIndex_lt hs hm hj)) (hr.2 _ (highIndex_lt hs hm hj))
  obtain rfl | rfl := hk
  · rw [lowIndex, h1]
    exact hf
  · rw [highIndex, h2]
    exact hg

/-- The twiddle entry `z`, used with `mul` and `red` on operands with `P`, acts as the residue `w`, and leaves `P'`. -/
structure ForwardOk (q : Nat) (mul : Int → Int → Int) (red : Int → Int) (P P' : Int → Prop) (z : Int) (w : ZMod q) : Prop where
  plus : ∀ x y, P x → P y → P' (red (x + mul z y)) ∧ ((red (x + mul z y) : Int) : ZMod q) = x + w * y
  minus : ∀ x y, P x → P y → P' (red (x - mul z y)) ∧ ((red (x - mul z y) : Int) : ZMod q) = x - w * y

/-- The same for `INTT`'s butterfly. -/
structure InverseOk (q : Nat) (mul : Int → Int → Int) (red sum : Int → Int) (P P' : Int → Prop) (z : Int) (w : ZMod q) : Prop where
  sum : ∀ x y, P x → P y → P' (sum (red (x + y))) ∧ ((sum (red (x + y)) : Int) : ZMod q) = x + y
  diff : ∀ x y, P x → P y → P' (mul z (red (y - x))) ∧ ((mul z (red (y - x)) : Int) : ZMod q) = w * (y - x)

theorem forwardStage_rel {mul : Int → Int → Int} {red : Int → Int} {ζ : ZMod q} (hs : s < 7) (ht : table.length = 128)
    (hok : ∀ i, i < 128 → ForwardOk q mul red P P' (table.getD i 0) (ζ ^ brv7 i)) (hr : AllCoeffs P r) :
    AllCoeffs P' (forwardStage mul red (2 ^ (7 - s)) (stageTwiddles table (2 ^ (7 - s))) r)
      ∧ ForwardRel ζ s (resid q r) (resid q (forwardStage mul red (2 ^ (7 - s)) (stageTwiddles table (2 ^ (7 - s))) r)) := by
  obtain ⟨hhalf, htotal⟩ := block_size hs
  have hzs := stageTwiddles_length ht hs
  have hlen : r.length = 2 * 2 ^ (7 - s) * (stageTwiddles table (2 ^ (7 - s))).length := by
    rw [hr.1, hzs, ← hhalf, Nat.mul_comm, htotal]
  have hindex : ∀ m, m < 2 ^ s → 2 ^ s + m < 128 := fun m hm => by
    have : 2 ^ (s + 1) ≤ 2 ^ 7 := Nat.pow_le_pow_right (by decide) (by omega)
    rw [Nat.pow_succ] at this
    omega
  rw [forwardStage_eq]
  refine ⟨stageOf_allCoeffs hs hzs (fun m hm x y hx hy => ?_) hr, fun m hm j hj => ?_⟩
  · rw [stageTwiddles_getD hs hm]
    have h := hok _ (hindex m hm)
    exact ⟨(h.plus x y hx hy).1, (h.minus x y hx hy).1⟩
  · obtain ⟨h1, h2⟩ := stageOf_getD (fun z x y => red (x + mul z y)) (fun z x y => red (x - mul z y)) _ _ r hlen m (hzs ▸ hm) j hj
    rw [← hhalf, stageTwiddles_getD hs hm] at h1 h2
    have h := hok _ (hindex m hm)
    have hx := hr.2 _ (lowIndex_lt hs hm hj)
    have hy := hr.2 _ (highIndex_lt hs hm hj)
    simp only [resid, lowIndex, highIndex, h1, h2]
    exact ⟨(h.plus _ _ hx hy).2, (h.minus _ _ hx hy).2⟩

theorem inverseStage_rel {mul : Int → Int → Int} {red sum : Int → Int} {ζ : ZMod q} (hs : s < 7) (ht : table.length = 128)
    (hok : ∀ i, i < 128 → InverseOk q mul red sum P P' (table.getD i 0) (ζ ^ brv7 i)) (hr : AllCoeffs P r) :
    AllCoeffs P' (inverseStage mul red sum (2 ^ (7 - s)) (stageTwiddles table (2 ^ (7 - s))).reverse r)
      ∧ InverseRel ζ s (resid q r)
          (resid q (inverseStage mul red sum (2 ^ (7 - s)) (stageTwiddles table (2 ^ (7 - s))).reverse r)) := by
  obtain ⟨hhalf, htotal⟩ := block_size hs
  have hzs : (stageTwiddles table (2 ^ (7 - s))).reverse.length = 2 ^ s := by rw [List.length_reverse, stageTwiddles_length ht hs]
  have hlen : r.length = 2 * 2 ^ (7 - s) * (stageTwiddles table (2 ^ (7 - s))).reverse.length := by
    rw [hr.1, hzs, ← hhalf, Nat.mul_comm, htotal]
  have hindex : ∀ m, m < 2 ^ s → 2 ^ (s + 1) - 1 - m < 128 := fun m hm => by
    have : 2 ^ (s + 1) ≤ 2 ^ 7 := Nat.pow_le_pow_right (by decide) (by omega)
    omega
  rw [inverseStage_eq]
  refine ⟨stageOf_allCoeffs hs hzs (fun m hm x y hx hy => ?_) hr, fun m hm j hj => ?_⟩
  · rw [stageTwiddles_reverse_getD ht hs hm]
    have h := hok _ (hindex m hm)
    exact ⟨(h.sum x y hx hy).1, (h.diff x y hx hy).1⟩
  · obtain ⟨h1, h2⟩ := stageOf_getD (fun _ x y => sum (red (x + y))) (fun z x y => mul z (red (y - x))) _ _ r hlen m (hzs ▸ hm) j hj
    rw [← hhalf] at h1 h2
    rw [stageTwiddles_reverse_getD ht hs hm] at h2
    have h := hok _ (hindex m hm)
    have hx := hr.2 _ (lowIndex_lt hs hm hj)
    have hy := hr.2 _ (highIndex_lt hs hm hj)
    simp only [resid, lowIndex, highIndex, h1, h2]
    exact ⟨(h.sum _ _ hx hy).2, (h.diff _ _ hx hy).2⟩

end

/-! ## The networks -/

section
variable {q : Nat} {table : List Int} {ζ : ZMod q}

/-- The list after `s` stages of `NTT`. -/
def forwardStages (mul : Int → Int → Int) (red : Int → Int) (table : List Int) (r : Poly) : Nat → Poly
  | 0 => r
  | s + 1 => forwardStage mul red (2 ^ (7 - s)) (stageTwiddles table (2 ^ (7 - s))) (forwardStages mul red table r s)

/-- The list after `n` stages of `INTT`. -/
def inverseStages (mul : Int → Int → Int) (red sum : Int → Int) (table : List Int) (r : Poly) : Nat → Poly
  | 0 => r
  | n + 1 =>
    inverseStage mul red sum (2 ^ (7 - (6 - n))) (stageTwiddles table (2 ^ (7 - (6 - n)))).reverse
      (inverseStages mul red sum table r n)

theorem forwardNetwork_eq (mul : Int → Int → Int) (red : Int → Int) (table : List Int) (r : Poly) :
    forwardNetwork mul red table r = forwardStages mul red table r 7 := rfl

theorem inverseNetwork_eq (mul : Int → Int → Int) (red sum : Int → Int) (table : List Int) (r : Poly) :
    inverseNetwork mul red sum table r = inverseStages mul red sum table r 7 := rfl

/-- The forward network, where its butterflies are right from `P s` to `P (s + 1)` in stage `s`. -/
theorem forwardNetwork_chain {mul : Int → Int → Int} {red : Int → Int} {P : Nat → Int → Prop} (ht : table.length = 128)
    (hok : ∀ s, s < 7 → ∀ i, i < 128 → ForwardOk q mul red (P s) (P (s + 1)) (table.getD i 0) (ζ ^ brv7 i)) {r : Poly}
    (hr : AllCoeffs (P 0) r) :
    AllCoeffs (P 7) (forwardNetwork mul red table r)
      ∧ ∃ seq, ForwardChain ζ seq ∧ seq 0 = resid q r ∧ seq 7 = resid q (forwardNetwork mul red table r) := by
  have hall : ∀ s, s ≤ 7 → AllCoeffs (P s) (forwardStages mul red table r s) := fun s => by
    induction s with
    | zero => exact fun _ => hr
    | succ s ih => exact fun hs => (forwardStage_rel (by omega) ht (hok s (by omega)) (ih (by omega))).1
  exact ⟨hall 7 le_rfl, fun s => resid q (forwardStages mul red table r s),
    fun s hs => (forwardStage_rel hs ht (hok s hs) (hall s hs.le)).2, rfl, rfl⟩

/-- The inverse network, where its butterflies keep `P`. -/
theorem inverseNetwork_chain {mul : Int → Int → Int} {red sum : Int → Int} {P : Int → Prop} (ht : table.length = 128)
    (hok : ∀ i, i < 128 → InverseOk q mul red sum P P (table.getD i 0) (ζ ^ brv7 i)) {r : Poly} (hr : AllCoeffs P r) :
    AllCoeffs P (inverseNetwork mul red sum table r)
      ∧ ∃ seq, InverseChain ζ seq ∧ seq 7 = resid q r ∧ seq 0 = resid q (inverseNetwork mul red sum table r) := by
  have hall : ∀ n, n ≤ 7 → AllCoeffs P (inverseStages mul red sum table r n) := fun n => by
    induction n with
    | zero => exact fun _ => hr
    | succ n ih => exact fun hn => (inverseStage_rel (by omega) ht hok (ih (by omega))).1
  refine ⟨hall 7 le_rfl, fun s => resid q (inverseStages mul red sum table r (7 - s)), fun s hs => ?_, rfl, rfl⟩
  have h := (inverseStage_rel (s := 6 - (6 - s)) (by omega) ht hok (hall (6 - s) (by omega))).2
  beta_reduce
  rw [show 7 - s = (6 - s) + 1 by omega, show 7 - (s + 1) = 6 - s by omega, inverseStages]
  rwa [show 6 - (6 - s) = s by omega] at h ⊢

end

end Sys2Proof.Machine
end

section
/-! SUPPORT. The protocols' transform, pair product and ring product on exact residues (44_signature.md R223, 45_kem.md R262). -/

namespace Sys2Proof.Machine

/-! ## Canonical residues -/

/-- A canonical residue (00_scope.md R16). -/
abbrev Canonical (q : Nat) (x : Int) : Prop := 0 ≤ x ∧ x < q

theorem canonical_emod {q : Nat} (hq : 0 < q) (x : Int) : Canonical q (x % q) :=
  ⟨Int.emod_nonneg _ (by omega), Int.emod_lt_of_pos _ (by omega)⟩

/-- A canonical residue is the remainder of every integer of its class. -/
theorem Canonical.eq_emod {q : Nat} {x y : Int} (h : Canonical q x) (hxy : (x : ZMod q) = y) : x = y % q := by
  rw [ZMod.intCast_eq_intCast_iff] at hxy
  rw [← hxy, Int.emod_eq_of_lt h.1 h.2]

theorem AllCoeffs.eq_of_resid {q : Nat} {r r' : Poly} (h : AllCoeffs (Canonical q) r) (h' : AllCoeffs (Canonical q) r')
    (heq : ∀ k, k < 256 → resid q r k = resid q r' k) : r = r' := by
  refine List.ext_getElem (h.1.trans h'.1.symm) fun k h1 h2 => ?_
  have hk : k < 256 := h.1 ▸ h1
  rw [← List.getD_eq_getElem r 0 h1, ← List.getD_eq_getElem r' 0 h2, (h.2 k hk).eq_emod (heq k hk),
    Int.emod_eq_of_lt (h'.2 k hk).1 (h'.2 k hk).2]

theorem getD_map {f : Int → Int} {r : Poly} {k : Nat} (hk : k < r.length) : (r.map f).getD k 0 = f (r.getD k 0) := by
  rw [List.getD_eq_getElem _ _ (by simpa using hk), List.getElem_map, List.getD_eq_getElem _ _ hk]

theorem canon_allCoeffs {q : Nat} (hq : 0 < q) {f : Poly} (hf : f.length = 256) : AllCoeffs (Canonical q) (canon q f) := by
  refine allCoeffs_of_mem (by simpa [canon] using hf) fun x hx => ?_
  obtain ⟨y, -, rfl⟩ := List.mem_map.1 hx
  exact canonical_emod hq y

theorem resid_canon {q : Nat} {f : Poly} {k : Nat} (hk : k < f.length) : resid q (canon q f) k = resid q f k := by
  rw [resid, canon, getD_map hk, ZMod.intCast_mod, resid]

/-- Sums over a list of numbers are sums over a range. -/
theorem sum_map_range {A : Type} [AddCommMonoid A] (f : Nat → A) (n : Nat) :
    ((List.range n).map f).sum = ∑ i ∈ Finset.range n, f i := rfl

theorem exists_index {k : Nat} (hk : k < 256) : ∃ i, i < 128 ∧ ∃ b, b < 2 ∧ k = 2 * i + b :=
  ⟨k / 2, by omega, k % 2, by omega, by omega⟩

/-! ## `ZETA` -/

section
variable {c : Cfg}

/-- `ZETA` as a residue. -/
abbrev zetaOf (c : Cfg) : ZMod c.q := (c.zeta : ZMod c.q)

theorem cast_zetaPow (c : Cfg) (e : Nat) : ((zetaPow c e : Int) : ZMod c.q) = zetaOf c ^ e := by
  rw [zetaPow, Int.cast_natCast, ZMod.natCast_mod, Nat.cast_pow]

theorem LegalCfg.q_nat_pos (h : LegalCfg c) : 0 < c.q := by
  have := h.q_pos
  omega

theorem LegalCfg.zeta_pow (h : LegalCfg c) : zetaOf c ^ 128 = -1 := by
  rw [← cast_zetaPow, h.zeta_order, Int.cast_natCast, Nat.cast_sub h.q_nat_pos, ZMod.natCast_self, Nat.cast_one, zero_sub]

theorem cast_rootG (c : Cfg) (i : Nat) : (rootG c i : ZMod c.q) = zetaOf c ^ (2 * brv7 i + 1) := cast_zetaPow c _

theorem LegalCfg.rootG_pow (h : LegalCfg c) (i : Nat) : (rootG c i : ZMod c.q) ^ 128 = -1 := by
  rw [cast_rootG, pow_right_comm, h.zeta_pow]
  exact Odd.neg_one_pow ⟨_, rfl⟩

/-- The statement's sum of residues, as a residue. -/
theorem cast_residueSum (c : Cfg) (f : Nat → Int) (b i : Nat) :
    (residueSum c f b i : ZMod c.q) = residueOf (rootG c i : ZMod c.q) (fun k => (f k : ZMod c.q)) b := by
  rw [residueSum, sum_map_range, residueOf]
  push_cast
  rfl

theorem zetaTable_length (c : Cfg) : (zetaTable c).length = 128 := by simp [zetaTable]

/-! ## The exact transform -/

theorem mulMod_cast (c : Cfg) (x y : Int) : ((mulMod c x y : Int) : ZMod c.q) = x * y := by
  rw [mulMod, ZMod.intCast_mod, Int.cast_mul]

theorem forwardOk_exact (h : LegalCfg c) {i : Nat} (hi : i < 128) :
    ForwardOk c.q (mulMod c) (· % (c.q : Int)) (Canonical c.q) (Canonical c.q) ((zetaTable c).getD i 0) (zetaOf c ^ brv7 i) := by
  rw [zetaTable, getD_map_range _ hi]
  constructor <;> intro x y _ _ <;>
    exact ⟨canonical_emod h.q_nat_pos _, by
      rw [ZMod.intCast_mod]
      push_cast [mulMod_cast]
      rw [← cast_zetaPow, Int.cast_natCast]⟩

theorem inverseOk_exact (h : LegalCfg c) {i : Nat} (hi : i < 128) :
    InverseOk c.q (mulMod c) (· % (c.q : Int)) id (Canonical c.q) (Canonical c.q) ((zetaTable c).getD i 0) (zetaOf c ^ brv7 i) := by
  rw [zetaTable, getD_map_range _ hi]
  refine ⟨fun x y _ _ => ⟨canonical_emod h.q_nat_pos _, ?_⟩, fun x y _ _ => ⟨canonical_emod h.q_nat_pos _, ?_⟩⟩
  · rw [id, ZMod.intCast_mod, Int.cast_add]
  · rw [mulMod_cast, ZMod.intCast_mod, Int.cast_sub, ← cast_zetaPow]

/-- `tr` as a chain of stages. -/
theorem exactNtt_chain (h : LegalCfg c) {f : Poly} (hf : f.length = 256) :
    AllCoeffs (Canonical c.q) (exactNtt c f)
      ∧ ∃ seq, ForwardChain (zetaOf c) seq ∧ seq 0 = resid c.q (canon c.q f) ∧ seq 7 = resid c.q (exactNtt c f) :=
  forwardNetwork_chain (P := fun _ => Canonical c.q) (zetaTable_length c) (fun _ _ _ hi => forwardOk_exact h hi)
    (canon_allCoeffs h.q_nat_pos hf)

theorem exactNtt_allCoeffs (h : LegalCfg c) {f : Poly} (hf : f.length = 256) : AllCoeffs (Canonical c.q) (exactNtt c f) :=
  (exactNtt_chain h hf).1

/-- `tr` computes the residues modulo the 128 factors. -/
theorem resid_exactNtt (h : LegalCfg c) {f : Poly} (hf : f.length = 256) {i b : Nat} (hi : i < 128) (hb : b < 2) :
    resid c.q (exactNtt c f) (2 * i + b) = residueOf (rootG c i : ZMod c.q) (resid c.q f) b := by
  obtain ⟨-, seq, hchain, h0, h7⟩ := exactNtt_chain h hf
  rw [← h7, hchain.residue h.zeta_pow hi hb, h0, ← cast_rootG]
  refine Finset.sum_congr rfl fun j hj => ?_
  rw [resid_canon (by have := Finset.mem_range.1 hj; omega)]

/-- `inv128` inverts 128. -/
theorem LegalCfg.inv128_cast (h : LegalCfg c) : ((inv128 c : Int) : ZMod c.q) * 128 = 1 := by
  have := (ZMod.natCast_eq_natCast_iff _ _ _).2 h.inv128_mul
  push_cast at this ⊢
  exact this

theorem exactIntt_chain (h : LegalCfg c) {f : Poly} (hf : f.length = 256) :
    AllCoeffs (Canonical c.q) (exactIntt c f)
      ∧ ∃ seq, InverseChain (zetaOf c) seq ∧ seq 7 = resid c.q (canon c.q f)
        ∧ ∀ k, k < 256 → resid c.q (exactIntt c f) k = (inv128 c : Int) * seq 0 k := by
  obtain ⟨hall, seq, hchain, h7, h0⟩ := inverseNetwork_chain (zetaTable_length c) (fun _ hi => inverseOk_exact h hi)
    (canon_allCoeffs h.q_nat_pos hf)
  refine ⟨allCoeffs_of_mem (by simp [exactIntt, hall.1]) fun x hx => ?_, seq, hchain, h7, fun k hk => ?_⟩
  · obtain ⟨y, -, rfl⟩ := List.mem_map.1 hx
    exact canonical_emod h.q_nat_pos _
  · rw [resid, exactIntt, getD_map (hall.1 ▸ hk), mulMod_cast, h0, resid]

theorem exactIntt_allCoeffs (h : LegalCfg c) {f : Poly} (hf : f.length = 256) : AllCoeffs (Canonical c.q) (exactIntt c f) :=
  (exactIntt_chain h hf).1

/-- `itr` undoes `tr`. -/
theorem exactIntt_exactNtt (h : LegalCfg c) {f : Poly} (hf : f.length = 256) : exactIntt c (exactNtt c f) = canon c.q f := by
  obtain ⟨hall, p, hp, hp0, hp7⟩ := exactNtt_chain h hf
  obtain ⟨hall', t, ht, ht7, ht0⟩ := exactIntt_chain h hall.1
  refine hall'.eq_of_resid (canon_allCoeffs h.q_nat_pos hf) fun k hk => ?_
  have hround := ht.of_forward h.zeta_pow hp (μ := 1) (fun k hk => by rw [ht7, hp7, resid_canon (hall.1 ▸ hk), one_mul]) k hk
  rw [ht0 k hk, hround, hp0]
  linear_combination (resid c.q (canon c.q f) k) * h.inv128_cast

/-- `tr` undoes `itr`. -/
theorem exactNtt_exactIntt (h : LegalCfg c) {f : Poly} (hf : f.length = 256) : exactNtt c (exactIntt c f) = canon c.q f := by
  obtain ⟨hall, t, ht, ht7, ht0⟩ := exactIntt_chain h hf
  obtain ⟨hall', p, hp, hp0, hp7⟩ := exactNtt_chain h hall.1
  refine hall'.eq_of_resid (canon_allCoeffs h.q_nat_pos hf) fun k hk => ?_
  have hround := hp.of_inverse h.zeta_pow ht (μ := (inv128 c : Int))
    (fun k hk => by rw [hp0, resid_canon (hall.1 ▸ hk), ht0 k hk]) k hk
  rw [← hp7, hround, ht7]
  linear_combination (resid c.q (canon c.q f) k) * h.inv128_cast

/-- A canonical list with the residues of `h` is `tr(h)`. -/
theorem eq_exactNtt (hl : LegalCfg c) {f h : Poly} (hf : AllCoeffs (Canonical c.q) f) (hh : h.length = 256)
    (heq : ∀ i b, i < 128 → b < 2 → resid c.q f (2 * i + b) = residueOf (rootG c i : ZMod c.q) (resid c.q h) b) :
    f = exactNtt c h := by
  refine hf.eq_of_resid (exactNtt_allCoeffs hl hh) fun k hk => ?_
  obtain ⟨i, hi, b, hb, rfl⟩ := exists_index hk
  rw [heq i b hi hb, resid_exactNtt hl hh hi hb]

/-! ## Pair products -/

theorem pairwiseProducts_spec (pair : Int → Int → Int → Int → Int → Int × Int) : ∀ (zs : List Int) (f g : Poly),
    f.length = 2 * zs.length → g.length = 2 * zs.length →
      (pairwiseProducts pair zs f g).length = 2 * zs.length ∧ ∀ i, i < zs.length →
        (pairwiseProducts pair zs f g).getD (2 * i) 0
            = (pair (zs.getD i 0) (f.getD (2 * i) 0) (f.getD (2 * i + 1) 0) (g.getD (2 * i) 0) (g.getD (2 * i + 1) 0)).1
          ∧ (pairwiseProducts pair zs f g).getD (2 * i + 1) 0
            = (pair (zs.getD i 0) (f.getD (2 * i) 0) (f.getD (2 * i + 1) 0) (g.getD (2 * i) 0) (g.getD (2 * i + 1) 0)).2
  | [], f, g, hf, hg => by simp [pairwiseProducts]
  | z :: zs, a0 :: a1 :: as, b0 :: b1 :: bs, hf, hg => by
    have ih := pairwiseProducts_spec pair zs as bs (by simpa [Nat.mul_succ] using hf) (by simpa [Nat.mul_succ] using hg)
    refine ⟨by simp [pairwiseProducts, ih.1, Nat.mul_succ], fun i hi => ?_⟩
    cases i with
    | zero => exact ⟨rfl, rfl⟩
    | succ i => exact ih.2 i (Nat.lt_of_succ_lt_succ hi)

theorem exactPairs_spec (h : LegalCfg c) {f g : Poly} (hf : f.length = 256) (hg : g.length = 256) :
    AllCoeffs (Canonical c.q) (exactPairs c f g) ∧ ∀ i b, i < 128 → b < 2 →
      resid c.q (exactPairs c f g) (2 * i + b) = (pairProduct (rootG c i) f g i b : Int) := by
  have hzs : ((List.range 128).map (rootG c)).length = 128 := by simp
  obtain ⟨hlen, hval⟩ := pairwiseProducts_spec (exactPair c) ((List.range 128).map (rootG c)) f g (by rw [hzs, hf]) (by rw [hzs, hg])
  have hpair : ∀ i b, i < 128 → b < 2 →
      (exactPairs c f g).getD (2 * i + b) 0 = pairProduct (rootG c i) f g i b % (c.q : Int) := fun i b hi hb => by
    obtain ⟨h0, h1⟩ := hval i (by omega)
    rw [getD_map_range _ hi] at h0 h1
    obtain rfl | rfl : b = 0 ∨ b = 1 := by omega
    · rw [Nat.add_zero, exactPairs, h0, exactPair, pairProduct, if_pos rfl, add_comm]
    · rw [exactPairs, h1, exactPair, pairProduct, if_neg one_ne_zero]
  refine ⟨⟨by rw [exactPairs, hlen, hzs], fun k hk => ?_⟩, fun i b hi hb => by rw [resid, hpair i b hi hb, ZMod.intCast_mod]⟩
  obtain ⟨i, hi, b, hb, rfl⟩ := exists_index hk
  rw [hpair i b hi hb]
  exact canonical_emod h.q_nat_pos _

/-- The statement's product modulo `X^256 + 1`, as a residue. -/
theorem cast_negacyclic (q : Nat) (f g : Poly) (n : Nat) :
    (negacyclic f g n : ZMod q) = negacyclicOf (resid q f) (resid q g) n := by
  rw [negacyclic, sum_map_range, negacyclicOf]
  push_cast
  rfl

/-- The pair product of two transforms is the residue of the product (41_transform.md R156). -/
theorem cast_pairProduct_exactNtt (h : LegalCfg c) {f g : Poly} (hf : f.length = 256) (hg : g.length = 256) {i b : Nat}
    (hi : i < 128) (hb : b < 2) :
    ((pairProduct (rootG c i) (exactNtt c f) (exactNtt c g) i b : Int) : ZMod c.q)
      = residueOf (rootG c i : ZMod c.q) (negacyclicOf (resid c.q f) (resid c.q g)) b := by
  obtain ⟨h0, h1⟩ := residueOf_negacyclicOf (h.rootG_pow i) (resid c.q f) (resid c.q g)
  rw [← resid_exactNtt h hf hi (by decide), ← resid_exactNtt h hg hi (by decide), ← resid_exactNtt h hf hi (by decide),
    ← resid_exactNtt h hg hi (by decide)] at h0 h1
  obtain rfl | rfl : b = 0 ∨ b = 1 := by omega
  · rw [h0, pairProduct, if_pos rfl]
    push_cast
    rfl
  · rw [h1, pairProduct, if_neg one_ne_zero]
    push_cast
    rfl

/-- The product in the ring as a list, unreduced. -/
def negacyclicPoly (f g : Poly) : Poly := (List.range 256).map (negacyclic f g)

theorem resid_negacyclicPoly (q : Nat) (f g : Poly) {k : Nat} (hk : k < 256) :
    resid q (negacyclicPoly f g) k = negacyclicOf (resid q f) (resid q g) k := by
  rw [resid, negacyclicPoly, getD_map_range _ hk, cast_negacyclic]

theorem residueOf_congr {q : Nat} (y : ZMod q) {f g : Nat → ZMod q} (h : ∀ k, k < 256 → f k = g k) {b : Nat} (hb : b < 2) :
    residueOf y f b = residueOf y g b :=
  Finset.sum_congr rfl fun j hj => by rw [h _ (by have := Finset.mem_range.1 hj; omega)]

/-- The product of two polynomials through the transform is the ring's (00_scope.md R16). -/
theorem ringMul_eq (h : LegalCfg c) {f g : Poly} (hf : f.length = 256) (hg : g.length = 256) :
    ringMul c f g = canon c.q (negacyclicPoly f g) := by
  have hn : (negacyclicPoly f g).length = 256 := by simp [negacyclicPoly]
  obtain ⟨hall, hval⟩ := exactPairs_spec h (exactNtt_allCoeffs h hf).1 (exactNtt_allCoeffs h hg).1
  rw [ringMul, eq_exactNtt h hall hn fun i b hi hb => ?_, exactIntt_exactNtt h hn]
  rw [hval i b hi hb, cast_pairProduct_exactNtt h hf hg hi hb]
  exact (residueOf_congr _ (fun k hk => resid_negacyclicPoly _ _ _ hk) hb).symm

/-! ## Sums -/

theorem addMod_spec (h : LegalCfg c) {f g : Poly} (hf : f.length = 256) (hg : g.length = 256) :
    AllCoeffs (Canonical c.q) (addMod c f g) ∧ ∀ k, k < 256 → resid c.q (addMod c f g) k = resid c.q f k + resid c.q g k := by
  have hlen : (polyAdd f g).length = 256 := by simp [polyAdd, hf, hg]
  refine ⟨canon_allCoeffs h.q_nat_pos hlen, fun k hk => ?_⟩
  rw [addMod, resid_canon (hlen ▸ hk), resid, polyAdd, getD_zipWith (hf ▸ hk) (hg ▸ hk), Int.cast_add]
  rfl

theorem foldl_addMod_spec (h : LegalCfg c) : ∀ (l : List Poly) (z : Poly), AllCoeffs (Canonical c.q) z → (∀ p ∈ l, p.length = 256) →
    AllCoeffs (Canonical c.q) (l.foldl (addMod c) z)
      ∧ ∀ k, k < 256 → resid c.q (l.foldl (addMod c) z) k = resid c.q z k + (l.map (resid c.q · k)).sum
  | [], z, hz, _ => ⟨hz, fun k _ => by simp⟩
  | p :: l, z, hz, hl => by
    obtain ⟨hadd, hval⟩ := addMod_spec h hz.1 (hl p List.mem_cons_self)
    obtain ⟨hall, hsum⟩ := foldl_addMod_spec h l _ hadd fun x hx => hl x (List.mem_cons_of_mem _ hx)
    refine ⟨hall, fun k hk => ?_⟩
    rw [List.foldl_cons, hsum k hk, hval k hk, List.map_cons, List.sum_cons, add_assoc]

theorem zipWith_eq_map_range {α : Type} (F : Poly → Poly → α) {a v : List Poly} (h : a.length = v.length) :
    List.zipWith F a v = (List.range v.length).map fun j => F (a.getD j []) (v.getD j []) := by
  refine List.ext_getElem (by simp [h]) fun j h1 h2 => ?_
  have hj : j < v.length := by simpa using h2
  rw [List.getElem_zipWith, List.getElem_map, List.getElem_range, List.getD_eq_getElem _ _ hj, List.getD_eq_getElem _ _ (h ▸ hj)]

theorem zeroPoly_allCoeffs {q : Nat} (hq : 0 < q) : AllCoeffs (Canonical q) zeroPoly :=
  allCoeffs_of_mem (by simp [zeroPoly]) fun x hx => by
    rw [List.eq_of_mem_replicate hx]
    exact ⟨le_rfl, by omega⟩

theorem resid_zeroPoly (q k : Nat) : resid q zeroPoly k = 0 := by
  rw [resid, zeroPoly, List.getD_eq_getElem?_getD, List.getElem?_replicate]
  split <;> simp

theorem length_getD {v : List Poly} (hv : ∀ x ∈ v, x.length = 256) {j : Nat} (hj : j < v.length) : (v.getD j []).length = 256 :=
  List.getD_eq_getElem v [] hj ▸ hv _ (List.getElem_mem _)

/-- The inner product sums the pair products (45_kem.md R262). -/
theorem exactDot_spec (h : LegalCfg c) {a v : List Poly} (hlen : a.length = v.length) (ha : ∀ x ∈ a, x.length = 256)
    (hv : ∀ x ∈ v, x.length = 256) :
    AllCoeffs (Canonical c.q) (exactDot c a v) ∧ ∀ i b, i < 128 → b < 2 →
      resid c.q (exactDot c a v) (2 * i + b)
        = ∑ j ∈ Finset.range v.length, ((pairProduct (rootG c i) (a.getD j []) (v.getD j []) i b : Int) : ZMod c.q) := by
  have hpairs : ∀ j, j < v.length → _ := fun j hj => exactPairs_spec h (length_getD ha (hlen ▸ hj)) (length_getD hv hj)
  rw [exactDot, zipWith_eq_map_range _ hlen]
  obtain ⟨hall, hsum⟩ := foldl_addMod_spec h ((List.range v.length).map fun j => exactPairs c (a.getD j []) (v.getD j [])) _
    (zeroPoly_allCoeffs h.q_nat_pos) fun p hp => by
      obtain ⟨j, hj, rfl⟩ := List.mem_map.1 hp
      exact (hpairs j (List.mem_range.1 hj)).1.1
  refine ⟨hall, fun i b hi hb => ?_⟩
  rw [hsum _ (by omega), resid_zeroPoly, zero_add, List.map_map, sum_map_range]
  exact Finset.sum_congr rfl fun j hj => (hpairs j (Finset.mem_range.1 hj)).2 i b hi hb

theorem residueOf_sum {q : Nat} (y : ZMod q) (F : Nat → Nat → ZMod q) (n b : Nat) :
    residueOf y (fun k => ∑ j ∈ Finset.range n, F j k) b = ∑ j ∈ Finset.range n, residueOf y (F j) b := by
  simp only [residueOf, Finset.sum_mul]
  exact Finset.sum_comm

theorem getD_map_poly {F : Poly → Poly} {v : List Poly} {j : Nat} (hj : j < v.length) : (v.map F).getD j [] = F (v.getD j []) := by
  rw [List.getD_eq_getElem _ _ (by simpa using hj), List.getElem_map, List.getD_eq_getElem _ _ hj]

/-- One row of the matrix product: the inner product in the ring. -/
theorem exactIntt_exactDot_map (h : LegalCfg c) {row v : List Poly} (hlen : row.length = v.length)
    (hrow : ∀ x ∈ row, x.length = 256) (hv : ∀ x ∈ v, x.length = 256) :
    exactIntt c (exactDot c (row.map (exactNtt c)) (v.map (exactNtt c)))
      = canon c.q ((List.range 256).map fun n =>
          ((List.range v.length).map (fun j => negacyclic (row.getD j []) (v.getD j []) n)).sum) := by
  have hmap : ∀ {u : List Poly}, (∀ x ∈ u, x.length = 256) → ∀ x ∈ u.map (exactNtt c), x.length = 256 := fun hu x hx => by
    obtain ⟨y, hy, rfl⟩ := List.mem_map.1 hx
    exact (exactNtt_allCoeffs h (hu y hy)).1
  obtain ⟨hall, hval⟩ := exactDot_spec h (a := row.map (exactNtt c)) (v := v.map (exactNtt c)) (by simpa using hlen) (hmap hrow)
    (hmap hv)
  rw [List.length_map] at hval
  rw [eq_exactNtt h hall (h := (List.range 256).map fun n =>
      ((List.range v.length).map (fun j => negacyclic (row.getD j []) (v.getD j []) n)).sum) (by simp) fun i b hi hb => ?_,
    exactIntt_exactNtt h (by simp)]
  rw [hval i b hi hb, residueOf_congr _ (g := fun k => ∑ j ∈ Finset.range v.length,
    negacyclicOf (resid c.q (row.getD j [])) (resid c.q (v.getD j [])) k) (fun k hk => ?_) hb, residueOf_sum]
  · refine Finset.sum_congr rfl fun j hj => ?_
    have hj := Finset.mem_range.1 hj
    rw [getD_map_poly (hlen ▸ hj), getD_map_poly hj,
      cast_pairProduct_exactNtt h (length_getD hrow (hlen ▸ hj)) (length_getD hv hj) hi hb]
  · rw [resid, getD_map_range _ hk, sum_map_range, Int.cast_sum]
    exact Finset.sum_congr rfl fun j _ => cast_negacyclic _ _ _ _

/-- Settles O37: through the residues modulo the 128 factors, which the transform computes and its inverse undoes. -/
theorem ringProductIsExact : Obligations.RingProductIsExact := by
  intro c f g a v m hc hf hg ha hv hav hm
  have h := (cfgValid_iff_legal c).1 hc
  obtain ⟨hdot, hdotval⟩ := exactDot_spec h hav ha hv
  refine ⟨?_, fun n hn => ?product, (exactNtt_allCoeffs h hf).1, fun i b hi hb => ?transform, exactIntt_exactNtt h hf,
    exactNtt_exactIntt h hf, ?sum, hdot.1, fun i b hi hb => ?dot, ?matrix⟩
  · rw [ringMul_eq h hf hg]
    simp [canon, negacyclicPoly]
  case product => rw [ringMul_eq h hf hg, canon, negacyclicPoly, List.map_map, getD_map_range _ hn, Function.comp]
  case transform =>
    refine ((exactNtt_allCoeffs h hf).2 _ (by omega)).eq_emod ?_
    rw [cast_residueSum]
    exact resid_exactNtt h hf hi hb
  case sum => rw [addMod, canon, polyAdd, List.map_zipWith]
  case dot =>
    refine (hdot.2 _ (by omega)).eq_emod ?_
    rw [sum_map_range, Int.cast_sum]
    exact hdotval i b hi hb
  case matrix =>
    rw [matTimes, List.map_map]
    refine List.map_congr_left fun row hrow => ?_
    rw [Function.comp, exactIntt_exactDot_map h (hm row hrow).1 (hm row hrow).2 hv, canon, List.map_map]
    rfl

end

end Sys2Proof.Machine
end

section
/-! SUPPORT. `NTT`, `INTT` and `BASEMUL` as the engine computes them (41_transform.md R152 to R158). -/

namespace Sys2Proof.Machine

section
variable {c : Cfg}

/-! ## The engine's butterflies -/

theorem fqmul_comm (c : Cfg) (a b : Int) : fqmul c a b = fqmul c b a := by
  rw [fqmul, mul_comm, ← fqmul]

theorem LegalCfg.abs_zromEntry_lt (h : LegalCfg c) (i : Nat) : |zromEntry c i| < c.q := by
  obtain ⟨h1, h2⟩ := cmod_bounds (a := zetaPow c (brv7 i) * radix c) h.q_nat_pos
  have := h.q_pos
  rw [abs_lt, zromEntry]
  constructor <;> omega

theorem zrom_length (c : Cfg) : (zrom c).length = 128 := by simp [zrom]

/-- `fqmul` by a twiddle multiplies by a power of `ZETA` (41_transform.md R151). -/
theorem LegalCfg.cast_fqmul_zrom (h : LegalCfg c) {i : Nat} (hi : i < 128) {y : Int} (hy : |y| ≤ 2 ^ (c.w - 1)) :
    ((fqmul c ((zrom c).getD i 0) y : Int) : ZMod c.q) = zetaOf c ^ brv7 i * y := by
  have hmod : fqmul c ((zrom c).getD i 0) y ≡ c.zeta ^ brv7 i * y [ZMOD c.q] := h.modEq_of_mul_radix <|
    calc fqmul c ((zrom c).getD i 0) y * 2 ^ c.w ≡ (zrom c).getD i 0 * y [ZMOD c.q] :=
          h.fqmul_modEq (by rw [zrom_getD hi]; exact ((h.abs_zromEntry_lt i).trans h.q_lt_half).le) hy
      _ ≡ c.zeta ^ brv7 i * 2 ^ c.w * y [ZMOD c.q] := by
        rw [zrom_getD hi]
        exact (zromEntry_modEq c i).mul_right y
      _ = c.zeta ^ brv7 i * y * 2 ^ c.w := by ring
  have hcast := (ZMod.intCast_eq_intCast_iff _ _ _).2 hmod
  push_cast at hcast
  exact hcast

theorem LegalCfg.abs_fqmul_zrom_lt (h : LegalCfg c) {i : Nat} (hi : i < 128) {y : Int} (hy : |y| ≤ 2 ^ (c.w - 1)) :
    |fqmul c ((zrom c).getD i 0) y| < c.q := by
  rw [fqmul_comm, zrom_getD hi]
  exact h.abs_fqmul_lt hy (h.abs_zromEntry_lt i)

/-- The bound before stage `s` of `NTT` (41_transform.md R158). -/
abbrev GrowthBound (c : Cfg) (B s : Nat) (x : Int) : Prop := |x| ≤ B + s * ((c.q : Int) - 1)

theorem LegalCfg.growth_le (h : LegalCfg c) {B s : Nat} (hB : B + 7 * (c.q - 1) + 1 ≤ 2 ^ (c.w - 1)) (hs : s ≤ 7) :
    (B : Int) + s * ((c.q : Int) - 1) < 2 ^ (c.w - 1) := by
  have hq := h.q_pos
  have hstep : (s : Int) * ((c.q : Int) - 1) ≤ 7 * ((c.q : Int) - 1) := mul_le_mul_of_nonneg_right (by omega) (by omega)
  have hB' : ((B + 7 * (c.q - 1) + 1 : Nat) : Int) ≤ 2 ^ (c.w - 1) := by exact_mod_cast hB
  omega

theorem forwardOk_engine (h : LegalCfg c) {B : Nat} (hB : B + 7 * (c.q - 1) + 1 ≤ 2 ^ (c.w - 1)) {s : Nat} (hs : s < 7) {i : Nat}
    (hi : i < 128) :
    ForwardOk c.q (fqmul c) (wrap c.w) (GrowthBound c B s) (GrowthBound c B (s + 1)) ((zrom c).getD i 0) (zetaOf c ^ brv7 i) := by
  have hlast := h.growth_le hB (s := s + 1) hs
  have hnow := h.growth_le hB hs.le
  have hterm : ∀ y, GrowthBound c B s y → |fqmul c ((zrom c).getD i 0) y| < c.q
      ∧ ((fqmul c ((zrom c).getD i 0) y : Int) : ZMod c.q) = zetaOf c ^ brv7 i * y := fun y hy =>
    have hy' : |y| ≤ 2 ^ (c.w - 1) := hy.trans hnow.le
    ⟨h.abs_fqmul_zrom_lt hi hy', h.cast_fqmul_zrom hi hy'⟩
  have hsucc : (B : Int) + (s + 1 : Nat) * ((c.q : Int) - 1) = B + s * ((c.q : Int) - 1) + (c.q - 1) := by
    push_cast
    ring
  constructor <;> intro x y hx hy <;> obtain ⟨ht, hcast⟩ := hterm y hy
  · have hbound : GrowthBound c B (s + 1) (x + fqmul c ((zrom c).getD i 0) y) := by
      rw [GrowthBound, hsucc]
      exact (abs_add_le _ _).trans (add_le_add hx (by omega))
    rw [wrap_of_fits h.w_pos (fits_of_abs_lt (hbound.trans_lt hlast))]
    exact ⟨hbound, by rw [Int.cast_add, hcast]⟩
  · have hbound : GrowthBound c B (s + 1) (x - fqmul c ((zrom c).getD i 0) y) := by
      rw [GrowthBound, hsucc]
      exact (abs_sub _ _).trans (add_le_add hx (by omega))
    rw [wrap_of_fits h.w_pos (fits_of_abs_lt (hbound.trans_lt hlast))]
    exact ⟨hbound, by rw [Int.cast_sub, hcast]⟩

/-- The bound that every stage of `INTT` keeps (41_transform.md R158). -/
abbrev QuarterBound (c : Cfg) (x : Int) : Prop := |x| < 2 ^ (c.w - 2)

theorem LegalCfg.two_mul_quarter (h : LegalCfg c) : 2 * (2 : Int) ^ (c.w - 2) = 2 ^ (c.w - 1) := by
  rw [← pow_succ']
  congr 1
  have := h.width
  omega

theorem LegalCfg.q_lt_quarter (h : LegalCfg c) : (c.q : Int) < 2 ^ (c.w - 2) := by exact_mod_cast h.q_lt

theorem inverseOk_engine (h : LegalCfg c) {i : Nat} (hi : i < 128) :
    InverseOk c.q (fqmul c) (wrap c.w) (barrettReduce c) (QuarterBound c) (QuarterBound c) ((zrom c).getD i 0)
      (zetaOf c ^ brv7 i) := by
  have htwo := h.two_mul_quarter
  have hq := h.q_lt_quarter
  refine ⟨fun x y hx hy => ?_, fun x y hx hy => ?_⟩
  · have hsum : |x + y| < 2 ^ (c.w - 1) := (abs_add_le x y).trans_lt (by linarith)
    rw [wrap_of_fits h.w_pos (fits_of_abs_lt hsum)]
    exact ⟨(h.abs_barrettReduce_lt _).trans hq, by rw [barrettReduce, ZMod.intCast_mod, Int.cast_add]⟩
  · have hdiff : |y - x| < 2 ^ (c.w - 1) := (abs_sub y x).trans_lt (by linarith)
    rw [wrap_of_fits h.w_pos (fits_of_abs_lt hdiff)]
    exact ⟨(h.abs_fqmul_zrom_lt hi hdiff.le).trans hq, by rw [h.cast_fqmul_zrom hi hdiff.le, Int.cast_sub]⟩

/-! ## The engine's transforms -/

/-- `NTT` within its bound: a chain of stages with bounded growth. -/
theorem nttPoly_chain (h : LegalCfg c) {B : Nat} (hB : B + 7 * (c.q - 1) + 1 ≤ 2 ^ (c.w - 1)) {r : Poly}
    (hr : AllCoeffs (GrowthBound c B 0) r) :
    AllCoeffs (GrowthBound c B 7) (nttPoly c r)
      ∧ ∃ seq, ForwardChain (zetaOf c) seq ∧ seq 0 = resid c.q r ∧ seq 7 = resid c.q (nttPoly c r) :=
  forwardNetwork_chain (zrom_length c) (fun _ hs _ hi => forwardOk_engine h hB hs hi) hr

/-- `F` divides by 128 (41_transform.md R155). -/
theorem LegalCfg.cast_fqmul_finalF (h : LegalCfg c) {x : Int} (hx : |x| ≤ 2 ^ (c.w - 1)) :
    |fqmul c x (finalF c)| < c.q ∧ ((fqmul c x (finalF c) : Int) : ZMod c.q) = (inv128 c : Int) * x := by
  have hF : |finalF c| < c.q := by
    rw [finalF, Nat.abs_cast]
    exact_mod_cast Nat.mod_lt _ h.q_nat_pos
  have hmod : fqmul c x (finalF c) ≡ inv128 c * x [ZMOD c.q] := h.modEq_of_mul_radix <|
    calc fqmul c x (finalF c) * 2 ^ c.w ≡ x * finalF c [ZMOD c.q] := h.fqmul_modEq hx (hF.trans h.q_lt_half).le
      _ ≡ x * (2 ^ c.w * inv128 c) [ZMOD c.q] := by
        rw [finalF, radix]
        push_cast
        exact (Int.mod_modEq _ _).mul_left x
      _ = inv128 c * x * 2 ^ c.w := by ring
  have hcast := (ZMod.intCast_eq_intCast_iff _ _ _).2 hmod
  rw [Int.cast_mul] at hcast
  exact ⟨h.abs_fqmul_lt hx hF, hcast⟩

/-- `INTT` within its bound: a chain of stages and the factor `1/128`. -/
theorem inttPoly_chain (h : LegalCfg c) {r : Poly} (hr : AllCoeffs (QuarterBound c) r) :
    AllCoeffs (fun x => |x| < c.q) (inttPoly c r)
      ∧ ∃ seq, InverseChain (zetaOf c) seq ∧ seq 7 = resid c.q r
        ∧ ∀ k, k < 256 → resid c.q (inttPoly c r) k = (inv128 c : Int) * seq 0 k := by
  obtain ⟨hall, seq, hchain, h7, h0⟩ := inverseNetwork_chain (zrom_length c) (fun _ hi => inverseOk_engine h hi) hr
  have hle : ∀ x : Int, QuarterBound c x → |x| ≤ 2 ^ (c.w - 1) := fun x hx => by
    have := h.two_mul_quarter
    have : (0 : Int) < 2 ^ (c.w - 2) := by positivity
    rw [QuarterBound] at hx
    omega
  refine ⟨allCoeffs_of_mem (by simp [inttPoly, hall.1]) fun x hx => ?_, seq, hchain, h7, fun k hk => ?_⟩
  · obtain ⟨y, hy, rfl⟩ := List.mem_map.1 hx
    exact (h.cast_fqmul_finalF (hle y (hall.forall_mem y hy))).1
  · rw [resid, inttPoly, getD_map (hall.1 ▸ hk), (h.cast_fqmul_finalF (hle _ (hall.2 k hk))).2, h0, resid]

theorem inttPoly_fits (h : LegalCfg c) {r : Poly} (hr : AllCoeffs (QuarterBound c) r) : PolyFits c.w (inttPoly c r) := by
  obtain ⟨hall, -⟩ := inttPoly_chain h hr
  exact ⟨hall.1, fun x hx => fits_of_abs_lt ((hall.forall_mem x hx).trans h.q_lt_half)⟩

theorem resid_inttPoly_nttPoly (h : LegalCfg c) {B : Nat} (hB : B + 7 * (c.q - 1) + 1 ≤ 2 ^ (c.w - 1)) {r : Poly}
    (hr : AllCoeffs (GrowthBound c B 0) r) (hmid : AllCoeffs (QuarterBound c) (nttPoly c r)) {k : Nat} (hk : k < 256) :
    resid c.q (inttPoly c (nttPoly c r)) k = resid c.q r k := by
  obtain ⟨-, p, hp, hp0, hp7⟩ := nttPoly_chain h hB hr
  obtain ⟨-, t, ht, ht7, ht0⟩ := inttPoly_chain h hmid
  have hround := ht.of_forward h.zeta_pow hp (μ := 1) (fun k _ => by rw [ht7, hp7, one_mul]) k hk
  rw [ht0 k hk, hround, hp0]
  linear_combination (resid c.q r k) * h.inv128_cast

theorem resid_nttPoly_inttPoly (h : LegalCfg c) {B : Nat} (hB : B + 7 * (c.q - 1) + 1 ≤ 2 ^ (c.w - 1)) {r : Poly}
    (hr : AllCoeffs (QuarterBound c) r) (hmid : AllCoeffs (GrowthBound c B 0) (inttPoly c r)) {k : Nat} (hk : k < 256) :
    resid c.q (nttPoly c (inttPoly c r)) k = resid c.q r k := by
  obtain ⟨-, t, ht, ht7, ht0⟩ := inttPoly_chain h hr
  obtain ⟨-, p, hp, hp0, hp7⟩ := nttPoly_chain h hB hmid
  have hround := hp.of_inverse h.zeta_pow ht (μ := (inv128 c : Int)) (fun k hk => by rw [hp0, ht0 k hk]) k hk
  rw [← hp7, hround, ht7]
  linear_combination (resid c.q r k) * h.inv128_cast

/-! ## The commands -/

theorem emod_sub_eq_zero_of_cast {q : Nat} {x y : Int} (h : (x : ZMod q) = y) : (x - y) % (q : Int) = 0 :=
  Int.emod_eq_emod_iff_emod_sub_eq_zero.1 ((ZMod.intCast_eq_intCast_iff _ _ _).1 h)

theorem natAbs_getD_le {f : Poly} (hf : f.length = 256) {B : Nat} (h : ∀ k, k < 256 → (f.getD k 0).natAbs ≤ B) (k : Nat) :
    (f.getD k 0).natAbs ≤ B := by
  by_cases hk : k < 256
  · exact h k hk
  · rw [List.getD_eq_default _ _ (by omega)]
    exact Nat.zero_le _

end

section
variable {s : State} {pd pa B : Nat}

/-- The state after a command that wrote the slot `pd`. -/
def afterSlot (s : State) (pd : Nat) (f : Poly) : State := { s with p := s.p.set pd f, status := completed s.status }

theorem getSlot_afterSlot (hs : SlotsFit s) (hpd : pd < s.cfg.np) (f : Poly) : getSlot (afterSlot s pd f) pd = f :=
  getD_set_self (hs.1 ▸ hpd) f

theorem coeff_afterSlot (hs : SlotsFit s) (hpd : pd < s.cfg.np) (f : Poly) (i : Nat) :
    coeff (afterSlot s pd f) pd i = f.getD i 0 := by
  rw [coeff, getSlot_afterSlot hs hpd]

theorem afterSlot_slotsFit (hs : SlotsFit s) {f : Poly} (hf : PolyFits s.cfg.w f) : SlotsFit (afterSlot s pd f) := by
  refine ⟨(List.length_set ..).trans hs.1, fun g hg => ?_⟩
  obtain hg | rfl := List.mem_or_eq_of_mem_set hg
  · exact hs.2 g hg
  · exact hf

/-- `NTT` on a slot. -/
theorem exec_ntt (hl : LegalCfg s.cfg) (hs : SlotsFit s) (hpd : pd < s.cfg.np) (hpa : pa < s.cfg.np) :
    exec (.ntt pd pa) s = .next (afterSlot s pd (nttPoly s.cfg (getSlot s pa))) :=
  slotUnary_of_fits hl.w_pos hpd hpa (nttLoops_eq hl (getSlot_fits hs pa)).2

theorem exec_intt (hl : LegalCfg s.cfg) (hpd : pd < s.cfg.np) (hpa : pa < s.cfg.np)
    (hr : AllCoeffs (QuarterBound s.cfg) (getSlot s pa)) :
    exec (.intt pd pa) s = .next (afterSlot s pd (inttPoly s.cfg (getSlot s pa))) :=
  slotUnary_of_fits hl.w_pos hpd hpa (inttPoly_fits hl hr)

theorem growthBound_of_coeff (hs : SlotsFit s) (h : ∀ i, (coeff s pa i).natAbs ≤ B) :
    AllCoeffs (GrowthBound s.cfg B 0) (getSlot s pa) := by
  refine ⟨(getSlot_fits hs pa).1, fun k _ => ?_⟩
  have := h k
  rw [coeff] at this
  rw [GrowthBound, Nat.cast_zero, zero_mul, add_zero, Int.abs_eq_natAbs]
  exact_mod_cast this

theorem quarterBound_of_coeff {f : Poly} {c : Cfg} (hf : f.length = 256) (h : ∀ i, (f.getD i 0).natAbs + 1 ≤ 2 ^ (c.w - 2)) :
    AllCoeffs (QuarterBound c) f := by
  refine ⟨hf, fun k _ => ?_⟩
  have := h k
  rw [QuarterBound, Int.abs_eq_natAbs]
  exact_mod_cast (show (f.getD k 0).natAbs < 2 ^ (c.w - 2) by omega)

end

/-- Settles O34: the stages compute the residues, and each adds at most `Q - 1`. -/
theorem nttIsTheTransform : Obligations.NttIsTheTransform := by
  intro s pd pa B ⟨hc, hs, _⟩ hpd hpa hB hcoeff
  have hl := (cfgValid_iff_legal s.cfg).1 hc
  obtain ⟨hall, seq, hchain, h0, h7⟩ := nttPoly_chain hl hB (growthBound_of_coeff hs hcoeff)
  refine ⟨_, exec_ntt hl hs hpd hpa, hall.1, fun i b hi hb => emod_sub_eq_zero_of_cast ?residue, natAbs_getD_le hall.1 ?bound⟩
  case residue =>
    rw [cast_residueSum, cast_rootG]
    change resid s.cfg.q _ (2 * i + b) = _
    rw [← h7, hchain.residue hl.zeta_pow hi hb, h0]
    rfl
  case bound =>
    intro k hk
    have hle := hall.2 k hk
    have hq := hl.q_pos
    rw [GrowthBound, Int.abs_eq_natAbs, Nat.cast_ofNat] at hle
    omega

/-- Settles O35: the two networks undo each other up to the factor 128 that `F` takes away. -/
theorem transformRoundTrip : Obligations.TransformRoundTrip := by
  intro s pd pa ⟨hc, hs, _⟩ hpd hpa
  have hl := (cfgValid_iff_legal s.cfg).1 hc
  refine ⟨fun B hcoeff hB => ⟨_, exec_ntt hl hs hpd hpa, fun hmid => ?inverse⟩, fun hcoeff hq8 => ?forward⟩
  case inverse =>
    have hr := growthBound_of_coeff hs hcoeff
    obtain ⟨hall, -⟩ := nttPoly_chain hl hB hr
    simp only [coeff_afterSlot hs hpd] at hmid
    have hquarter := quarterBound_of_coeff hall.1 hmid
    have hslots := afterSlot_slotsFit (pd := pd) hs (nttLoops_eq hl (getSlot_fits hs pa)).2
    refine ⟨_, exec_intt hl hpd hpd (by rw [getSlot_afterSlot hs hpd]; exact hquarter), fun i hi => emod_sub_eq_zero_of_cast ?_⟩
    rw [coeff_afterSlot hslots hpd, getSlot_afterSlot hs hpd]
    exact resid_inttPoly_nttPoly hl hB hr hquarter hi
  case forward =>
    have hr := quarterBound_of_coeff (getSlot_fits hs pa).1 hcoeff
    obtain ⟨hall, -⟩ := inttPoly_chain hl hr
    have hq := hl.q_nat_pos
    have hmid : AllCoeffs (GrowthBound s.cfg (s.cfg.q - 1) 0) (inttPoly s.cfg (getSlot s pa)) :=
      ⟨hall.1, fun k hk => by have := hall.2 k hk; rw [GrowthBound]; omega⟩
    have hslots := afterSlot_slotsFit (pd := pd) hs (inttPoly_fits hl hr)
    refine ⟨_, _, exec_intt hl hpd hpa hr, exec_ntt hl hslots hpd hpd, fun i hi => emod_sub_eq_zero_of_cast ?_⟩
    rw [coeff_afterSlot hslots hpd, getSlot_afterSlot hs hpd]
    exact resid_nttPoly_inttPoly hl (by omega) hr hmid hi

section
variable {c : Cfg}

/-! ## `BASEMUL` (41_transform.md R156) -/

theorem getD_flatMap_neg : ∀ (l : List Int) (m : Nat), m < 2 * l.length →
    (l.flatMap fun z => [z, -z]).getD m 0 = l.getD (m / 2) 0 * (if m % 2 = 0 then 1 else -1)
  | z :: l, 0, _ => by simp
  | z :: l, 1, _ => by simp
  | z :: l, m + 2, h => by
    have ih := getD_flatMap_neg l m (by rw [List.length_cons] at h; omega)
    rw [show (m + 2) / 2 = m / 2 + 1 by omega, show (m + 2) % 2 = m % 2 by omega]
    exact ih

theorem pairTwiddles_getD (c : Cfg) {m : Nat} (hm : m < 128) :
    (pairTwiddles (zrom c)).getD m 0 = (zrom c).getD (64 + m / 2) 0 * (if m % 2 = 0 then 1 else -1) := by
  rw [pairTwiddles, getD_flatMap_neg _ _ (by simp [zrom_length]; omega), getD_drop]

theorem pairTwiddles_length (c : Cfg) : (pairTwiddles (zrom c)).length = 128 := by
  simp [pairTwiddles, List.length_flatMap, zrom_length]

/-- The twiddle of pair `m` is `g_m * R` (41_transform.md R151, R156). -/
theorem LegalCfg.cast_pairTwiddle (h : LegalCfg c) {m : Nat} (hm : m < 128) :
    (((zrom c).getD (64 + m / 2) 0 * (if m % 2 = 0 then 1 else -1) : Int) : ZMod c.q) = rootG c m * 2 ^ c.w := by
  have hz := (ZMod.intCast_eq_intCast_iff _ _ _).2 (zromEntry_modEq c (64 + m / 2))
  have hroot : (rootG c m : ZMod c.q) = zetaOf c ^ brv7 (64 + m / 2) * (if m % 2 = 0 then 1 else -1) := by
    rw [cast_rootG, ← pow_eq_of_mod_256 h.zeta_pow (rootExp_seven m hm), rootExp, pow_add, pow_mul, h.zeta_pow]
    obtain hpar | hpar := Nat.mod_two_eq_zero_or_one m <;> simp [hpar]
  rw [zrom_getD (by omega), hroot]
  push_cast at hz ⊢
  rw [hz]
  ring

theorem LegalCfg.cast_fqmul (h : LegalCfg c) {a b : Int} (ha : |a| ≤ 2 ^ (c.w - 1)) (hb : |b| ≤ 2 ^ (c.w - 1)) :
    ((fqmul c a b : Int) : ZMod c.q) * 2 ^ c.w = a * b := by
  have := (ZMod.intCast_eq_intCast_iff _ _ _).2 (h.fqmul_modEq ha hb)
  push_cast at this
  exact this

/-- `fqmul` of two factors that keep a distance `Q` from the coefficient bound is below a quarter of `R`, with a quarter of `Q`
to spare. -/
theorem LegalCfg.abs_fqmul_of_distance (h : LegalCfg c) {a b : Int} (ha : |a| + c.q ≤ 2 ^ (c.w - 1))
    (hb : |b| + c.q ≤ 2 ^ (c.w - 1)) : 4 * |fqmul c a b| + c.q < 2 * 2 ^ (c.w - 1) := by
  have hq := h.q_pos
  have hquarter := h.q_lt_quarter
  have htwo := h.two_mul_quarter
  have hab : |a * b| ≤ (2 ^ (c.w - 1) - c.q) * (2 ^ (c.w - 1) - c.q) := by
    rw [abs_mul]
    exact mul_le_mul (by omega) (by omega) (abs_nonneg b) (by have := abs_nonneg a; omega)
  have hwrap := h.abs_wrap_le (a * b * qinv c)
  have hqh := h.q_mul_half_lt
  have hr : fqmul c a b * (2 * 2 ^ (c.w - 1)) = a * b - wrap c.w (a * b * qinv c) * c.q := by
    rw [← two_pow_eq_two_mul h.w_pos]
    refine h.montgomeryReduce_mul_radix ?_
    rw [two_pow_two_mul_sub_one h.w_pos]
    nlinarith
  have habs : |fqmul c a b| * (2 * 2 ^ (c.w - 1)) ≤ |a * b| + 2 ^ (c.w - 1) * c.q :=
    calc |fqmul c a b| * (2 * 2 ^ (c.w - 1)) = |fqmul c a b * (2 * 2 ^ (c.w - 1))| := by
          rw [abs_mul, abs_of_pos (show (0 : Int) < 2 * 2 ^ (c.w - 1) by positivity)]
      _ ≤ |a * b| + |wrap c.w (a * b * qinv c) * c.q| := hr ▸ abs_sub _ _
      _ ≤ |a * b| + 2 ^ (c.w - 1) * c.q := by
        rw [abs_mul (wrap c.w (a * b * qinv c)), abs_of_pos hq]
        gcongr
  generalize (2 : Int) ^ (c.w - 1) = H at *
  have hsmall : 2 * ((c.q : Int) * c.q) < c.q * H := by nlinarith
  refine lt_of_mul_lt_mul_right (a := H) ?_ (by omega)
  linarith

/-- The even and the odd coefficient of pair `m` as the engine computes them. -/
theorem basemulPoly_spec (c : Cfg) {f g : Poly} (hf : f.length = 256) (hg : g.length = 256) :
    (basemulPoly c f g).length = 256 ∧ ∀ m, m < 128 →
      (basemulPoly c f g).getD (2 * m) 0
          = wrap c.w (fqmul c (fqmul c (f.getD (2 * m + 1) 0) (g.getD (2 * m + 1) 0))
                ((zrom c).getD (64 + m / 2) 0 * (if m % 2 = 0 then 1 else -1))
              + fqmul c (f.getD (2 * m) 0) (g.getD (2 * m) 0))
        ∧ (basemulPoly c f g).getD (2 * m + 1) 0
          = wrap c.w (fqmul c (f.getD (2 * m) 0) (g.getD (2 * m + 1) 0) + fqmul c (f.getD (2 * m + 1) 0) (g.getD (2 * m) 0)) := by
  have hz := pairTwiddles_length c
  obtain ⟨hlen, hval⟩ := pairwiseProducts_spec (basemulPair c) (pairTwiddles (zrom c)) f g (by rw [hz, hf]) (by rw [hz, hg])
  refine ⟨by rw [basemulPoly, hlen, hz], fun m hm => ?_⟩
  rw [← pairTwiddles_getD c hm]
  exact hval m (by omega)

theorem basemulPoly_fits (h : LegalCfg c) {f g : Poly} (hf : f.length = 256) (hg : g.length = 256) :
    PolyFits c.w (basemulPoly c f g) := by
  obtain ⟨hlen, hval⟩ := basemulPoly_spec c hf hg
  have hall : AllCoeffs (CoeffFits c.w) (basemulPoly c f g) := by
    refine ⟨hlen, fun k hk => ?_⟩
    obtain ⟨m, hm, b, hb, rfl⟩ := exists_index hk
    obtain ⟨h0, h1⟩ := hval m hm
    obtain rfl | rfl : b = 0 ∨ b = 1 := by omega
    · exact h0 ▸ wrap_fits h.w_pos _
    · exact h1 ▸ wrap_fits h.w_pos _
  exact ⟨hlen, hall.forall_mem⟩

/-- Inside the bound nothing wraps, and a pair is `1/R` times the product modulo `X^2 - g_m`. -/
theorem cast_basemul_pair (h : LegalCfg c) {a0 a1 b0 b1 : Int} (ha0 : |a0| + c.q ≤ 2 ^ (c.w - 1)) (ha1 : |a1| + c.q ≤ 2 ^ (c.w - 1))
    (hb0 : |b0| + c.q ≤ 2 ^ (c.w - 1)) (hb1 : |b1| + c.q ≤ 2 ^ (c.w - 1)) {m : Nat} (hm : m < 128) :
    ((wrap c.w (fqmul c (fqmul c a1 b1) ((zrom c).getD (64 + m / 2) 0 * (if m % 2 = 0 then 1 else -1)) + fqmul c a0 b0) * 2 ^ c.w
        : Int) : ZMod c.q) = ((a0 * b0 + a1 * b1 * rootG c m : Int) : ZMod c.q)
      ∧ ((wrap c.w (fqmul c a0 b1 + fqmul c a1 b0) * 2 ^ c.w : Int) : ZMod c.q) = ((a0 * b1 + a1 * b0 : Int) : ZMod c.q) := by
  have hq := h.q_pos
  have hqh := h.q_lt_quarter
  have htwo := h.two_mul_quarter
  have hle : ∀ {x : Int}, |x| + c.q ≤ 2 ^ (c.w - 1) → |x| ≤ 2 ^ (c.w - 1) := fun hx => by omega
  have hz : |(zrom c).getD (64 + m / 2) 0 * (if m % 2 = 0 then 1 else -1)| < c.q := by
    rw [zrom_getD (by omega), abs_mul]
    have := h.abs_zromEntry_lt (64 + m / 2)
    split <;> simpa using this
  have h00 := h.abs_fqmul_of_distance ha0 hb0
  have h11 := h.abs_fqmul_of_distance ha1 hb1
  have h01 := h.abs_fqmul_of_distance ha0 hb1
  have h10 := h.abs_fqmul_of_distance ha1 hb0
  have hfq : |fqmul c a1 b1| ≤ 2 ^ (c.w - 1) := by omega
  have htw := h.abs_fqmul_lt hfq hz
  rw [wrap_of_fits h.w_pos (fits_of_abs_lt ((abs_add_le _ _).trans_lt (by omega))),
    wrap_of_fits h.w_pos (fits_of_abs_lt ((abs_add_le _ _).trans_lt (by omega)))]
  have c00 := h.cast_fqmul (hle ha0) (hle hb0)
  have c11 := h.cast_fqmul (hle ha1) (hle hb1)
  have c01 := h.cast_fqmul (hle ha0) (hle hb1)
  have c10 := h.cast_fqmul (hle ha1) (hle hb0)
  have ctw := h.cast_fqmul hfq (hz.trans h.q_lt_half).le
  rw [h.cast_pairTwiddle hm] at ctw
  rw [Int.cast_mul, Int.cast_mul, Int.cast_add, Int.cast_add, Int.cast_pow, Int.cast_ofNat]
  push_cast
  constructor
  · linear_combination ctw + c00 + (rootG c m : ZMod c.q) * c11
  · linear_combination c01 + c10

end

/-- Settles O36: the four products of `basemulPoly`, and their sizes inside R156's bound. -/
theorem basemulResult : Obligations.BasemulResult := by
  intro s pd pa pb ⟨hc, hs, _⟩
  have hl := (cfgValid_iff_legal s.cfg).1 hc
  have hf := (getSlot_fits hs pa).1
  have hg := (getSlot_fits hs pb).1
  obtain ⟨hlen, hval⟩ := basemulPoly_spec s.cfg hf hg
  refine ⟨fun hpd hpa hpb => ⟨_, ?exec, hlen, fun m hm => ⟨(hval m hm).1, (hval m hm).2, fun ha hb => ?congruence⟩⟩,
    slotBinary_illegal _⟩
  case exec =>
    change slotBinary (basemulPoly s.cfg) pd pa pb s = _
    rw [slotBinary_legal _ hpd hpa hpb, fitPoly_of_fits hl.w_pos (basemulPoly_fits hl hf hg)]
  case congruence =>
    have habs : ∀ {x : Int}, x.natAbs + s.cfg.q ≤ 2 ^ (s.cfg.w - 1) → |x| + s.cfg.q ≤ 2 ^ (s.cfg.w - 1) := fun hx => by
      rw [Int.abs_eq_natAbs]
      exact_mod_cast hx
    obtain ⟨heven, hodd⟩ := cast_basemul_pair hl (habs (ha (2 * m))) (habs (ha (2 * m + 1))) (habs (hb (2 * m)))
      (habs (hb (2 * m + 1))) hm
    rw [(hval m hm).1, (hval m hm).2]
    exact ⟨emod_sub_eq_zero_of_cast heven, emod_sub_eq_zero_of_cast hodd⟩

end Sys2Proof.Machine
end

section
/-! SUPPORT. What the protocols' proofs share: objects laid out in byte strings, noise, matrices, and the endings of a protocol
command (44_signature.md, 45_kem.md). -/

namespace Sys2Proof.Machine

/-! ## Fields of a byte string -/

theorem slice_append_left {xs : Bytes} (ys : Bytes) {a b : Nat} (h : b ≤ xs.length) : slice (xs ++ ys) a b = slice xs a b := by
  obtain hab | hab := Nat.le_total a b
  · rw [slice, slice, List.drop_append_of_le_length (by omega), List.take_append_of_le_length (by simp; omega)]
  · rw [slice, slice, Nat.sub_eq_zero_of_le hab, List.take_zero, List.take_zero]

theorem slice_append_right (xs ys : Bytes) (a b : Nat) : slice (xs ++ ys) (xs.length + a) (xs.length + b) = slice ys a b := by
  rw [slice, slice, List.drop_append, List.drop_eq_nil_of_le (Nat.le_add_right _ _), List.nil_append, Nat.add_sub_cancel_left,
    Nat.add_sub_add_left]

theorem slice_self {xs : Bytes} {n : Nat} (h : xs.length = n) : slice xs 0 n = xs := by
  rw [slice, List.drop_zero, Nat.sub_zero, List.take_of_length_le h.le]

/-- The field `ys` of a byte string that stands behind `xs`. -/
theorem slice_field {xs ys : Bytes} (zs : Bytes) {a b : Nat} (ha : xs.length = a) (hb : a + ys.length = b) :
    slice (xs ++ ys ++ zs) a b = ys := by
  have h := slice_append_right xs (ys ++ zs) 0 ys.length
  rw [← List.append_assoc, ha, hb, Nat.add_zero, slice_append_left zs le_rfl, slice_self rfl] at h
  exact h

/-- The polynomials packed behind `pre` (43_codec.md R209). -/
theorem codesAt_layout {pre : Bytes} (post : Bytes) {d : Nat} {v : List Poly} (hv : ∀ f ∈ v, f.length = 256) {off n : Nat}
    (hoff : pre.length = off) (hn : v.length = n) :
    codesAt (pre ++ packVec d v ++ post) off d n = mapCoeffs (fun x => x % 2 ^ d) v := by
  have hlen : (packVec d v).length = 32 * d * n := by rw [packVec_length, hn]
  have h := codesAt_append_right pre (packVec d v) 0 d n
  rw [hoff, Nat.add_zero] at h
  rw [codesAt_append_left post (by rw [List.length_append, hoff, hlen]), h, ← hn, codesAt_packVec d v hv]

theorem codesAt_length (bs : Bytes) (off d n : Nat) : (codesAt bs off d n).length = n := by simp [codesAt]

theorem length_of_mem_codesAt {bs : Bytes} {off d n : Nat} {f : Poly} (h : f ∈ codesAt bs off d n) : f.length = 256 := by
  obtain ⟨i, -, rfl⟩ := List.mem_map.1 h
  simp

/-- A code of `d` bits. -/
theorem code_bounds_of_mem {bs : Bytes} {off d n : Nat} {f : Poly} (h : f ∈ codesAt bs off d n) {x : Int} (hx : x ∈ f) :
    0 ≤ x ∧ x < 2 ^ d := by
  obtain ⟨i, -, rfl⟩ := List.mem_map.1 h
  obtain ⟨k, -, rfl⟩ := List.mem_map.1 hx
  rw [bitsAt_eq]
  exact ⟨Int.natCast_nonneg _, by exact_mod_cast Nat.mod_lt _ (by positivity)⟩

/-! ## Functions of every coefficient -/

theorem mapCoeffs_congr {f g : Int → Int} {v : List Poly} (h : ∀ p ∈ v, ∀ x ∈ p, f x = g x) : mapCoeffs f v = mapCoeffs g v :=
  List.map_congr_left fun p hp => List.map_congr_left fun x hx => h p hp x hx

theorem mapCoeffs_id {f : Int → Int} {v : List Poly} (h : ∀ p ∈ v, ∀ x ∈ p, f x = x) : mapCoeffs f v = v :=
  (List.map_congr_left fun p hp => (List.map_congr_left fun x hx => h p hp x hx).trans (List.map_id p)).trans (List.map_id v)

theorem mapCoeffs_mapCoeffs (f g : Int → Int) (v : List Poly) : mapCoeffs f (mapCoeffs g v) = mapCoeffs (f ∘ g) v := by
  simp only [mapCoeffs, List.map_map]
  exact List.map_congr_left fun p _ => List.map_map

/-- Every element of the vector has 256 coefficients. -/
abbrev Polys (v : List Poly) : Prop := ∀ f ∈ v, f.length = 256

theorem polys_mapCoeffs {v : List Poly} (h : Polys v) (f : Int → Int) : Polys (mapCoeffs f v) := by
  intro p hp
  obtain ⟨g, hg, rfl⟩ := List.mem_map.1 hp
  rw [List.length_map, h g hg]

theorem polys_map {v : List Poly} {F : Poly → Poly} (h : ∀ f ∈ v, (F f).length = 256) : Polys (v.map F) := by
  intro p hp
  obtain ⟨f, hf, rfl⟩ := List.mem_map.1 hp
  exact h f hf

theorem polys_map_range {n : Nat} {F : Nat → Poly} (h : ∀ i, (F i).length = 256) : Polys ((List.range n).map F) := by
  intro p hp
  obtain ⟨i, -, rfl⟩ := List.mem_map.1 hp
  exact h i

theorem polys_zipWith {u v : List Poly} {F : Poly → Poly → Poly} (hu : Polys u) (hv : Polys v)
    (h : ∀ f g, f.length = 256 → g.length = 256 → (F f g).length = 256) : Polys (List.zipWith F u v) := by
  intro p hp
  obtain ⟨i, hi, rfl⟩ := List.getElem_of_mem hp
  rw [List.getElem_zipWith]
  exact h _ _ (hu _ (List.getElem_mem _)) (hv _ (List.getElem_mem _))

/-! ## Noise and matrices -/

theorem noisePoly_eq (suite : HashSuite) (nb : Nat) (seed : Bytes) (nonce eta : Nat) :
    noisePoly suite nb seed nonce eta = cbdOf (xofbBytes suite (seed ++ leBytes nb nonce) (64 * eta)) eta :=
  cbdPoly_eq_cbdOf _ _

theorem cbdOf_length (bs : Bytes) (eta : Nat) : (cbdOf bs eta).length = 256 := by simp [cbdOf]

section
variable {c : Cfg}

theorem polys_exactNtt (hl : LegalCfg c) {v : List Poly} (hv : Polys v) : Polys (v.map (exactNtt c)) :=
  polys_map fun f hf => (exactNtt_allCoeffs hl (hv f hf)).1

theorem addMod_length (hl : LegalCfg c) {f g : Poly} (hf : f.length = 256) (hg : g.length = 256) : (addMod c f g).length = 256 :=
  (addMod_spec hl hf hg).1.1

/-- The rows of a matrix of transform-order elements. -/
theorem IsMatrix.row {rho : Bytes} {rows cols : Nat} {ahat : List (List Poly)} (h : IsMatrix c rho rows cols ahat) :
    ∀ row ∈ ahat, row.length = cols ∧ Polys row := by
  intro row hrow
  obtain ⟨i, hi, rfl⟩ := List.getElem_of_mem hrow
  obtain ⟨hlen, h⟩ := h
  obtain ⟨hcols, hj⟩ := h i (by omega)
  rw [List.getD_eq_getElem _ _ hi] at hcols hj
  refine ⟨hcols, fun f hf => ?_⟩
  obtain ⟨j, hj', rfl⟩ := List.getElem_of_mem hf
  have := (hj j (by omega)).1
  rwa [List.getD_eq_getElem _ _ hj'] at this

theorem exactIntt_exactDot_length (hl : LegalCfg c) {a v : List Poly} (hlen : a.length = v.length) (ha : Polys a) (hv : Polys v) :
    (exactIntt c (exactDot c a v)).length = 256 :=
  (exactIntt_allCoeffs hl (exactDot_spec hl hlen ha hv).1.1).1

theorem polys_matTimes (hl : LegalCfg c) {ahat : List (List Poly)} {v : List Poly} (hv : Polys v)
    (h : ∀ row ∈ ahat, row.length = v.length ∧ Polys row) : Polys (matTimes c ahat v) := by
  intro p hp
  obtain ⟨row, hrow, rfl⟩ := List.mem_map.1 hp
  obtain ⟨hlen, hpolys⟩ := h row hrow
  exact exactIntt_exactDot_length hl (by simpa using hlen) hpolys (polys_exactNtt hl hv)

theorem matTimes_length (c : Cfg) (ahat : List (List Poly)) (v : List Poly) : (matTimes c ahat v).length = ahat.length := by
  simp [matTimes]

theorem length_zipWith_matTimes {F : Poly → Poly → Poly} {ahat : List (List Poly)} {u v : List Poly} {n : Nat}
    (ha : ahat.length = n) (hv : v.length = n) : (List.zipWith F (matTimes c ahat u) v).length = n := by
  rw [List.length_zipWith, matTimes_length, ha, hv, Nat.min_self]

/-- `Q - 1` has `LOGQ` bits. -/
theorem lt_two_pow_logq (hl : LegalCfg c) {x : Int} (hx : Canonical c.q x) : x < 2 ^ logq c := by
  have h1 := lt_two_pow_bitlen (c.q - 1)
  have h2 : ((c.q - 1 : Nat) : Int) < 2 ^ logq c := by exact_mod_cast h1
  have := hl.q_nat_pos
  have := hx.2
  omega

end

/-! ## A protocol command's inputs and endings -/

section
variable {s : State}

/-- The randomness of a command, drawn or read (30_encoding.md R94). -/
theorem seedInput_eq {mode a n : Nat} {e : Bytes} {d : Draws} (hw : Memory.wf s.mem)
    (h : mode = 0 ∧ (e, d) = drawEntropy n s.draws ∨ mode = 1 ∧ e.length = n ∧ HoldsBytes s a e ∧ d = s.draws)
    (k : Bytes → State → Outcome) : seedInput mode a n s k = k e { s with draws := d } := by
  obtain ⟨rfl, h⟩ | ⟨rfl, hlen, he, rfl⟩ := h
  · rw [seedInput, if_pos rfl, ← h]
  · rw [seedInput, if_neg one_ne_zero, reading_of_holds _ hw hlen he]

/-- Two byte strings written one after the other where they do not overlap. -/
theorem storedTwo_memWrite (s : State) {a b n m : Nat} {v w : Bytes} (hv : v.length = n) (hw : w.length = m)
    (hd : a + n ≤ b ∨ b + m ≤ a) : StoredTwo s.mem (memWrite (memWrite s a n v) b m w).mem a v b w := by
  obtain ⟨hv1, hv2⟩ := stored_memWrite s a hv
  obtain ⟨hw1, hw2⟩ := stored_memWrite (memWrite s a n v) b hw
  refine ⟨fun k hk => (hw2 _ (by omega)).trans (hv1 k hk), hw1, fun x hx hx' => (hw2 x hx').trans (hv2 x hx)⟩

/-- A byte string held in two parts. -/
theorem holdsBytes_append {a : Nat} {xs ys : Bytes} (h : HoldsBytes s a (xs ++ ys)) :
    HoldsBytes s a xs ∧ HoldsBytes s (a + xs.length) ys := by
  refine ⟨fun k hk => ?_, fun k hk => ?_⟩
  · rw [h k (by rw [List.length_append]; omega), List.getElem?_append_left hk]
  · rw [Nat.add_assoc, h (xs.length + k) (by rw [List.length_append]; omega), List.getElem?_append_right (by omega),
      Nat.add_sub_cancel_left]

theorem checkError_eq_none_of {i : Instr} (hl : legalFields s i = true) (hn : lengthsMatch s i = true)
    (hb : ∀ x ∈ inputBuffers s i ++ outputBuffers s i, InBounds s x.1 x.2)
    (hd : (outputBuffers s i).Pairwise (fun x y => x.1 + x.2 ≤ y.1 ∨ y.1 + y.2 ≤ x.1)) (hx : xofInSequence s i = true := by rfl) :
    checkError s i = none :=
  (checkError_eq_none_iff s i).2
    ⟨hl, hx, hn, (addressesOk_iff s i).2 ⟨fun x hx => (inBuffer_iff s x.1 x.2).2 (hb x hx), hd⟩⟩

end

end Sys2Proof.Machine
end

section
/-! SUPPORT. The KEM (45_kem.md): `KEM_KEYGEN`, `KEM_ENCAP`, `KEM_DECAP`. -/

namespace Sys2Proof.Machine

section
variable {c : Cfg} {m : KemCfg}

/-! ## Codes of compression -/

theorem LegalCfg.q_odd (hl : LegalCfg c) : c.q % 2 = 1 := by
  have := hl.q_mod
  omega

theorem roundedCode_emod (c : Cfg) (d : Nat) (x : Int) : roundedCode c d x % 2 ^ d = roundedCode c d x := by
  rw [roundedCode, Int.emod_emod]

theorem roundedCode_emod_q (c : Cfg) (d : Nat) (x : Int) : roundedCode c d (x % c.q) = roundedCode c d x := by
  rw [roundedCode, roundedCode, Int.emod_emod]

/-- `compress_d` of every coefficient, as the statements write it. -/
theorem map_compressPoly (hl : LegalCfg c) (d : Nat) (v : List Poly) :
    v.map (compressPoly c d) = mapCoeffs (roundedCode c d) v :=
  mapCoeffs_congr fun _ _ x _ => compressCoeff_eq_roundedCode c d x hl.q_odd

/-- The compressed vector behind `pre` (43_codec.md R209). -/
theorem codesAt_compressed (hl : LegalCfg c) {pre post : Bytes} {d off n : Nat} {v : List Poly} (hv : Polys v)
    (hoff : pre.length = off) (hn : v.length = n) :
    codesAt (pre ++ packVec d (v.map (compressPoly c d)) ++ post) off d n = mapCoeffs (roundedCode c d) v := by
  rw [map_compressPoly hl, codesAt_layout post (polys_mapCoeffs hv _) hoff ((List.length_map _).trans hn), mapCoeffs_mapCoeffs]
  exact mapCoeffs_congr fun _ _ x _ => roundedCode_emod c d x

/-- `decompress_d` of the codes of a vector. -/
theorem map_decompressPoly {d : Nat} (hd : 1 ≤ d) {bs : Bytes} {off n : Nat} (hlen : off + 32 * d * n ≤ bs.length) :
    (unpackVec d n bs off).map (decompressPoly c d) = mapCoeffs (roundedBack c d) (codesAt bs off d n) := by
  rw [unpackVec_eq_codesAt _ _ _ _ hlen]
  refine mapCoeffs_congr fun f hf x hx => ?_
  obtain ⟨h0, h1⟩ := code_bounds_of_mem hf hx
  rw [decompressCoeff_eq_roundedBack c hd, Int.emod_eq_of_lt h0 h1]

/-! ## The primitive (45_kem.md R266 to R268) -/

theorem kemNoise_eq (c : Cfg) (m : KemCfg) : kemNoise c m = kemNoiseOf c m := by
  funext seed n
  exact noisePoly_eq _ _ _ _ _

theorem kemNoiseOf_length (c : Cfg) (m : KemCfg) (seed : Bytes) (n : Nat) : (kemNoiseOf c m seed n).length = 256 := cbdOf_length _ _

theorem pkeKeygen_eq_none_iff (hl : LegalCfg c) (d : Bytes) :
    pkeKeygen c m d = none ↔ ¬ ∃ ahat, IsMatrix c (slice (hashG c.hash d) 0 32) m.k m.k ahat := by
  rw [← expandMatrix_eq_none_iff hl, pkeKeygen]
  cases expandMatrix c (slice (hashG c.hash d) 0 32) m.k m.k <;> simp

/-- The keys of a seed, by their fields. -/
theorem kemKeysOf_pkeKeygen (hl : LegalCfg c) {d pk skpke : Bytes} (h : pkeKeygen c m d = some (pk, skpke)) :
    KemKeysOf c m d pk skpke ∧ pk.length = kemPkBytes m ∧ skpke.length = 32 * logq c * m.k := by
  have hseed : (slice (hashG c.hash d) 0 32).length = 32 := slice_length (by rw [hashG_length]; decide)
  rw [pkeKeygen] at h
  cases hm : expandMatrix c (slice (hashG c.hash d) 0 32) m.k m.k with
  | none => simp [hm] at h
  | some ahat =>
    have hmat := (isMatrix_iff hl _ _ _ _).2 hm
    have hrows := hmat.row
    simp only [hm, Option.some.injEq, Prod.mk.injEq, kemNoise_eq] at h
    obtain ⟨rfl, rfl⟩ := h
    have hsv : Polys ((List.range m.k).map (kemNoiseOf c m (slice (hashG c.hash d) 32 64))) :=
      polys_map_range fun i => kemNoiseOf_length _ _ _ _
    have hev : Polys ((List.range m.k).map fun i => kemNoiseOf c m (slice (hashG c.hash d) 32 64) (m.k + i)) :=
      polys_map_range fun i => kemNoiseOf_length _ _ _ _
    have ht := polys_zipWith (F := addMod c) (polys_matTimes hl hsv (by simpa using hrows)) hev fun f g => addMod_length hl
    refine ⟨⟨ahat, hmat, ?rho, ?codes, ?transforms⟩, ?publicLength, ?secretLength⟩
    case rho => rw [slice_append_left _ hseed.ge, slice_self hseed]
    case codes =>
      have := codesAt_compressed hl (post := []) (d := m.dt) ht hseed (length_zipWith_matTimes hmat.1 (by simp))
      rwa [List.append_nil] at this
    case transforms =>
      have := codesAt_layout (pre := []) [] (d := logq c) (polys_exactNtt hl hsv) (off := 0) (n := m.k) rfl (by simp)
      rw [List.append_nil, List.nil_append] at this
      rw [this]
      refine mapCoeffs_id fun p hp x hx => ?_
      obtain ⟨f, hf, rfl⟩ := List.mem_map.1 hp
      have hx := (exactNtt_allCoeffs hl (hsv f hf)).forall_mem x hx
      exact Int.emod_eq_of_lt hx.1 (lt_two_pow_logq hl hx)
    case publicLength => rw [List.length_append, hseed, packVec_length, List.length_map, length_zipWith_matTimes hmat.1 (by simp), kemPkBytes]
    case secretLength => simp [packVec_length]

theorem transpose_eq {n : Nat} {ahat : List (List Poly)} (h : ahat.length = n) :
    transpose n ahat = (List.range n).map fun i => (List.range n).map fun j => (ahat.getD j []).getD i zeroPoly := by
  refine List.map_congr_left fun i _ => List.ext_getElem (by simp [h]) fun j h1 h2 => ?_
  have hj : j < ahat.length := by simpa using h1
  rw [List.getElem_map, List.getElem_map, List.getElem_range, List.getD_eq_getElem _ _ hj]

theorem pkeEnc_eq_none_iff (hl : LegalCfg c) (pk msg coins : Bytes) :
    pkeEnc c m pk msg coins = none ↔ ¬ ∃ ahat, IsMatrix c (slice pk 0 32) m.k m.k ahat := by
  rw [← expandMatrix_eq_none_iff hl, pkeEnc]
  cases expandMatrix c (slice pk 0 32) m.k m.k <;> simp

/-- Coefficient `n` of the message's polynomial (43_codec.md R211). -/
theorem getD_msgDec (c : Cfg) (msg : Bytes) {n : Nat} (hn : n < 256) :
    (msgDec c msg).getD n 0 = roundedBack c 1 (bitAt msg n) := by
  have hcode : codeAt 1 (intLe msg) n = bitAt msg n := by rw [← bitOf_intLe, codeAt, Nat.one_mul, Nat.pow_one, bitOf]
  have hbit := bitAt_le_one msg n
  rw [msgDec, decompressPoly, getD_map (by simpa [unpackBytes] using hn), unpackBytes, getD_map_range _ hn, hcode,
    decompressCoeff_eq_roundedBack c le_rfl, Int.emod_eq_of_lt (Int.natCast_nonneg _) (by omega)]

theorem getD_addMod {f g : Poly} (hf : f.length = 256) (hg : g.length = 256) {n : Nat} (hn : n < 256) :
    (addMod c f g).getD n 0 = (f.getD n 0 + g.getD n 0) % c.q := by
  rw [addMod, canon, getD_map (by simp [polyAdd, hf, hg, hn]), polyAdd, getD_zipWith (hf ▸ hn) (hg ▸ hn)]

theorem polys_transpose {rho : Bytes} {k : Nat} {ahat : List (List Poly)} (h : IsMatrix c rho k k ahat) :
    ∀ row ∈ transpose k ahat, row.length = k ∧ Polys row := by
  intro row hrow
  obtain ⟨i, hi, rfl⟩ := List.mem_map.1 hrow
  refine ⟨(List.length_map _).trans h.1, fun f hf => ?_⟩
  obtain ⟨r, hr, rfl⟩ := List.mem_map.1 hf
  obtain ⟨hlen, hpolys⟩ := h.row r hr
  rw [List.getD_eq_getElem _ _ (hlen ▸ List.mem_range.1 hi)]
  exact hpolys _ (List.getElem_mem _)

/-- A ciphertext's two fields: the codes of a vector, then those of one polynomial (45_kem.md R267). -/
theorem ciphertext_fields (hl : LegalCfg c) {u : List Poly} {v : Poly} {k : Nat} (hu : Polys u) (hk : u.length = k)
    (hv : v.length = 256) (du dv : Nat) :
    codesAt (packVec du (u.map (compressPoly c du)) ++ packBytes dv (compressPoly c dv v)) 0 du k = mapCoeffs (roundedCode c du) u
      ∧ codesAt (packVec du (u.map (compressPoly c du)) ++ packBytes dv (compressPoly c dv v)) (32 * du * k) dv 1
          = [v.map (roundedCode c dv)] := by
  have hpre : (packVec du (u.map (compressPoly c du))).length = 32 * du * k := by rw [packVec_length, List.length_map, hk]
  have hone : packVec dv ([v].map (compressPoly c dv)) = packBytes dv (compressPoly c dv v) := List.flatMap_singleton ..
  have hsecond := codesAt_compressed hl (post := []) (d := dv) (fun f hf => List.mem_singleton.1 hf ▸ hv) hpre (n := 1) (v := [v]) rfl
  rw [List.append_nil, hone] at hsecond
  exact ⟨codesAt_compressed hl (pre := []) hu rfl hk, hsecond⟩

/-- The codes of the sum that carries the message. -/
theorem map_roundedCode_message (c : Cfg) (d : Nat) {tr e2 : Poly} (htr : tr.length = 256) (he2 : e2.length = 256) (msg : Bytes) :
    (addMod c (addMod c tr e2) (msgDec c msg)).map (roundedCode c d)
      = (List.range 256).map fun n => roundedCode c d (tr.getD n 0 + e2.getD n 0 + roundedBack c 1 (bitAt msg n)) := by
  have hmsg : (msgDec c msg).length = 256 := by simp [msgDec, decompressPoly, unpackBytes]
  have hsum : (addMod c tr e2).length = 256 := by simp [addMod, canon, polyAdd, htr, he2]
  refine List.ext_getElem (by simp [addMod, canon, polyAdd, htr, he2, hmsg]) fun n h1 h2 => ?_
  have hn : n < 256 := by simpa using h2
  rw [List.getElem_map, List.getElem_map, List.getElem_range, ← List.getD_eq_getElem _ 0, getD_addMod hsum hmsg hn,
    getD_addMod htr he2 hn, getD_msgDec c msg hn, roundedCode_emod_q, ← roundedCode_emod_q, Int.emod_add_emod, roundedCode_emod_q]

/-- The ciphertext by its fields. -/
theorem kemCiphertextOf_pkeEnc (hl : LegalCfg c) (hm : LegalKem c m) {pk msg coins ct : Bytes} (hpk : pk.length = kemPkBytes m)
    (h : pkeEnc c m pk msg coins = some ct) : KemCiphertextOf c m pk msg coins ct ∧ ct.length = ctBytes m := by
  rw [pkeEnc] at h
  cases hA : expandMatrix c (slice pk 0 32) m.k m.k with
  | none => simp [hA] at h
  | some ahat =>
    have hmat := (isMatrix_iff hl _ _ _ _).2 hA
    have hT := polys_transpose hmat
    have hrv : Polys ((List.range m.k).map (kemNoiseOf c m coins)) := polys_map_range fun i => kemNoiseOf_length _ _ _ _
    have he1 : Polys ((List.range m.k).map fun i => kemNoiseOf c m coins (m.k + i)) :=
      polys_map_range fun i => kemNoiseOf_length _ _ _ _
    have he2 := kemNoiseOf_length c m coins (2 * m.k)
    have ht : Polys (mapCoeffs (roundedBack c m.dt) (codesAt pk 32 m.dt m.k)) :=
      polys_mapCoeffs (fun f hf => length_of_mem_codesAt hf) _
    have htr := exactIntt_exactDot_length hl
      (a := (mapCoeffs (roundedBack c m.dt) (codesAt pk 32 m.dt m.k)).map (exactNtt c))
      (v := ((List.range m.k).map (kemNoiseOf c m coins)).map (exactNtt c)) (by simp [codesAt_length]) (polys_exactNtt hl ht)
      (polys_exactNtt hl hrv)
    have hu := polys_zipWith (F := addMod c)
      (polys_matTimes hl hrv (by rw [List.length_map, List.length_range]; exact hT)) he1 fun f g => addMod_length hl
    have hTlen : (transpose m.k ahat).length = m.k := by simp [transpose]
    rw [hA, map_decompressPoly hm.dt.1 (by rw [hpk, kemPkBytes]), kemNoise_eq] at h
    obtain rfl := Option.some.inj h
    have hmsg : (msgDec c msg).length = 256 := by simp [msgDec, decompressPoly, unpackBytes]
    obtain ⟨hfirst, hsecond⟩ := ciphertext_fields hl hu (length_zipWith_matTimes hTlen (by simp)) (addMod_length hl (addMod_length hl htr he2) hmsg) m.du m.dv
    rw [map_roundedCode_message c m.dv htr he2] at hsecond
    refine ⟨⟨ahat, hmat, hfirst.trans (by rw [transpose_eq hmat.1]), hsecond⟩, ?_⟩
    rw [List.length_append, packVec_length, List.length_map, length_zipWith_matTimes hTlen (by simp), packBytes_length, ctBytes]

/-- The decrypted message bit by bit. -/
theorem kemMessageOf_pkeDec (hl : LegalCfg c) (hm : LegalKem c m) {skpke ct : Bytes} (hsk : skpke.length = 32 * logq c * m.k)
    (hct : ct.length = ctBytes m) : KemMessageOf c m skpke ct (pkeDec c m skpke ct) := by
  have hu : Polys (mapCoeffs (roundedBack c m.du) (codesAt ct 0 m.du m.k)) :=
    polys_mapCoeffs (fun f hf => length_of_mem_codesAt hf) _
  have hsu := exactIntt_exactDot_length hl (a := codesAt skpke 0 (logq c) m.k)
    (v := (mapCoeffs (roundedBack c m.du) (codesAt ct 0 m.du m.k)).map (exactNtt c)) (by simp [codesAt_length])
    (fun f hf => length_of_mem_codesAt hf) (polys_exactNtt hl hu)
  have hsecond : decompressPoly c m.dv (unpackBytes m.dv (slice ct (32 * m.du * m.k) (ctBytes m)))
      = (mapCoeffs (roundedBack c m.dv) (codesAt ct (32 * m.du * m.k) m.dv 1)).getD 0 [] := by
    have h := map_decompressPoly (c := c) hm.dv.1 (bs := ct) (off := 32 * m.du * m.k) (n := 1) (by rw [hct, ctBytes]; omega)
    rw [← h]
    simp [unpackVec, ctBytes]
  have hv : ((mapCoeffs (roundedBack c m.dv) (codesAt ct (32 * m.du * m.k) m.dv 1)).getD 0 []).length = 256 :=
    length_getD (polys_mapCoeffs (fun f hf => length_of_mem_codesAt hf) _) (by simp [codesAt_length])
  refine ⟨packBytes_length _ _, fun n hn => ?_⟩
  have hn : n < 256 := hn
  rw [pkeDec, map_decompressPoly hm.du.1 (by rw [hct, ctBytes]; omega), hsecond, unpackVec_eq_codesAt _ _ _ _ (by rw [hsk]; omega)]
  generalize (mapCoeffs (roundedBack c m.dv) (codesAt ct (32 * m.du * m.k) m.dv 1)).getD 0 [] = v at *
  generalize exactIntt c (exactDot c (codesAt skpke 0 (logq c) m.k)
    ((mapCoeffs (roundedBack c m.du) (codesAt ct 0 m.du m.k)).map (exactNtt c))) = su at *
  have hlen : (polySub v su).length = 256 := by simp [polySub, hv, hsu]
  have hbit := bitAt_packBytes (d := 1) (t := 0) (f := compressPoly c 1 (canon c.q (polySub v su)))
    (by simpa [compressPoly, canon] using hlen) hn Nat.zero_lt_one
  rw [Nat.one_mul, Nat.add_zero, pow_zero, Int.ediv_one] at hbit
  rw [msgEnc, hbit, compressPoly, getD_map (by simpa [canon] using hlen ▸ hn), canon, getD_map (hlen ▸ hn), polySub,
    getD_zipWith (hv ▸ hn) (hsu ▸ hn), compressCoeff_eq_roundedCode c 1 _ hl.q_odd, roundedCode_emod_q, ← pow_one (2 : Int),
    roundedCode_emod]

end

/-! ## The commands -/

/-- The two seeds of `KEM_KEYGEN`: two draws, or two halves of one buffer (45_kem.md R270). -/
theorem kemSeeds {s : State} {mode : Nat} {d z : Bytes} {dr1 dr2 : Draws}
    (h : mode = 0 ∧ (d, dr1) = drawEntropy 32 s.draws ∧ (z, dr2) = drawEntropy 32 dr1
      ∨ mode = 1 ∧ operand s 2 + 64 ≤ s.cfg.bmemSize ∧ d.length = 32 ∧ z.length = 32 ∧ HoldsBytes s (operand s 2) (d ++ z)
        ∧ dr2 = s.draws) :
    z.length = 32 ∧ ∃ dr, (mode = 0 ∧ (d, dr) = drawEntropy 32 s.draws
        ∨ mode = 1 ∧ d.length = 32 ∧ HoldsBytes s (operand s 2) d ∧ dr = s.draws)
      ∧ (mode = 0 ∧ (z, dr2) = drawEntropy 32 dr
        ∨ mode = 1 ∧ z.length = 32 ∧ HoldsBytes s (operand s 2 + 32) z ∧ dr2 = dr) := by
  obtain ⟨hmode, h1, h2⟩ | ⟨hmode, -, hd, hz, hbytes, rfl⟩ := h
  · refine ⟨?_, dr1, .inl ⟨hmode, h1⟩, .inl ⟨hmode, h2⟩⟩
    rw [← drawEntropy_length 32 dr1, ← h2]
  · obtain ⟨hd', hz'⟩ := holdsBytes_append hbytes
    rw [hd] at hz'
    exact ⟨hz, s.draws, .inr ⟨hmode, hd, hd', rfl⟩, .inr ⟨hmode, hz, hz', rfl⟩⟩

/-- Settles O58: the two seeds determine the keys, field by field. -/
theorem kemKeygenResult : Obligations.KemKeygenResult := by
  intro s m mode d z dr1 dr2 ⟨hc, _, hb, _⟩ hm hpk hsk hdisj hin
  have hl := (cfgValid_iff_legal s.cfg).1 hc
  have hck : checkError s (.kemKeygen mode) = none := by
    refine checkError_eq_none_of ?_ rfl ?_ ?_
    · obtain ⟨rfl, -⟩ | ⟨rfl, -⟩ := hin <;> simp [legalFields, hm]
    · have hpk' : InBounds s (operand s 0) (kemPkBytes m) := .inr hpk
      have hsk' : InBounds s (operand s 1) (kemSkBytes s.cfg m) := .inr hsk
      obtain ⟨rfl, -⟩ | ⟨rfl, hbuf, -⟩ := hin
      · simp [inputBuffers, outputBuffers, hm, hpk', hsk']
      · have hbuf' : InBounds s (operand s 2) 64 := .inr hbuf
        simp [inputBuffers, outputBuffers, hm, hpk', hsk', hbuf']
    · simpa [outputBuffers, hm] using hdisj
  obtain ⟨hz, dr, h1, h2⟩ := kemSeeds hin
  have hexec := (exec_eq_of_body hck (.kemKeygen mode hm)).trans
    ((seedInput_eq hb.1 h1 _).trans (seedInput_eq (s := { s with draws := dr }) hb.1 h2 _))
  dsimp only at hexec
  refine ⟨fun pk skpke hkeys => ?keys, pkeKeygen_eq_none_iff hl d, fun hnone => ?exhausted⟩
  case exhausted =>
    rw [hexec, kemKeyPair, hnone]
    rfl
  case keys =>
    obtain ⟨hof, hpklen, hsklen⟩ := kemKeysOf_pkeKeygen hl hkeys
    have hsk' : (pk ++ skpke ++ hashH s.cfg.hash pk ++ z).length = kemSkBytes s.cfg m := by
      simp only [List.length_append, hpklen, hsklen, hashH_length, hz, kemSkBytes]
    rw [hexec, kemKeyPair, hkeys]
    refine ⟨_, rfl, hpklen, by rw [hpklen, hsklen, kemSkBytes], hof, ?_⟩
    exact storedTwo_memWrite { s with draws := dr2 } hpklen hsk' hdisj

/-- Settles O59: the ciphertext and the secret of the randomness, drawn or read. -/
theorem kemEncapResult : Obligations.KemEncapResult := by
  intro s m mode pk e msg dr ⟨hc, _, hb, _⟩ hm hlen hpkin hctin hssin hdisj hpk hpkb hin hmsg
  have hl := (cfgValid_iff_legal s.cfg).1 hc
  have hck : checkError s (.kemEncap mode) = none := by
    refine checkError_eq_none_of ?_ (by simp [lengthsMatch, hm, hlen]) ?_ ?_
    · obtain ⟨rfl, -⟩ | ⟨rfl, -⟩ := hin <;> simp [legalFields, hm]
    · have hpk' : InBounds s (operand s 0) (kemPkBytes m) := .inr hpkin
      have hct' : InBounds s (operand s 2) (ctBytes m) := .inr hctin
      have hss' : InBounds s (operand s 3) 32 := .inr hssin
      obtain ⟨rfl, -⟩ | ⟨rfl, hbuf, -⟩ := hin
      · simp [inputBuffers, outputBuffers, hm, hpk', hct', hss']
      · have hbuf' : InBounds s (operand s 4) 32 := .inr hbuf
        simp [inputBuffers, outputBuffers, hm, hpk', hct', hss', hbuf']
    · simpa [outputBuffers, hm] using hdisj
  have hseed : mode = 0 ∧ (e, dr) = drawEntropy 32 s.draws
      ∨ mode = 1 ∧ e.length = 32 ∧ HoldsBytes s (operand s 4) e ∧ dr = s.draws :=
    hin.imp_right fun ⟨hmode, _, h⟩ => ⟨hmode, h⟩
  have hexec := (exec_eq_of_body hck (.kemEncap mode hm)).trans
    ((reading_of_holds _ hb.1 hpk hpkb).trans (seedInput_eq hb.1 hseed _))
  dsimp only at hexec
  refine ⟨fun ct hct => ?encapsulated, pkeEnc_eq_none_iff hl _ _ _, fun hnone => ?exhausted⟩
  case exhausted =>
    rw [hexec, kemEncapsulate, ← hmsg, hnone]
    rfl
  case encapsulated =>
    obtain ⟨hof, hctlen⟩ := kemCiphertextOf_pkeEnc hl (hl.legalKem hm) hpk hct
    rw [hexec, kemEncapsulate, ← hmsg, hct]
    exact ⟨_, rfl, hctlen, hof, storedTwo_memWrite { s with draws := dr } hctlen (xofbBytes_length ..) hdisj⟩

/-- Settles O60: the message is decrypted bit by bit, and the re-encryption decides between it and `z`. -/
theorem kemDecapResult : Obligations.KemDecapResult := by
  intro s m ct pk skpke h z m2 ⟨hc, _, hb, _⟩ hm hctlen hsklen hctin hskin hssin hct hctb hpk hskpke hh hz hsk hm2
  have hl := (cfgValid_iff_legal s.cfg).1 hc
  have hck : checkError s .kemDecap = none := by
    refine checkError_eq_none_of (by simp [legalFields, hm]) (by simp [lengthsMatch, hm, hctlen, hsklen]) ?_
      (by simp [outputBuffers])
    have hct' : InBounds s (operand s 0) (ctBytes m) := .inr hctin
    have hsk' : InBounds s (operand s 2) (kemSkBytes s.cfg m) := .inr hskin
    have hss' : InBounds s (operand s 4) 32 := .inr hssin
    simp [inputBuffers, outputBuffers, hm, hct', hsk', hss']
  have hskb : kemSkBytes s.cfg m = kemPkBytes m + 32 * logq s.cfg * m.k + 64 := rfl
  have hlen : (pk ++ skpke ++ h ++ z).length = kemSkBytes s.cfg m := by
    simp only [List.length_append, hpk, hskpke, hh, hz, hskb]
  have hexec := (exec_eq_of_body hck (.kemDecap hm)).trans
    ((reading_of_holds _ hb.1 hct hctb).trans (reading_of_holds _ hb.1 hlen hsk))
  have hfields : slice (pk ++ skpke ++ h ++ z) 0 (kemPkBytes m) = pk
      ∧ slice (pk ++ skpke ++ h ++ z) (kemPkBytes m) (kemSkBytes s.cfg m - 64) = skpke
      ∧ slice (pk ++ skpke ++ h ++ z) (kemSkBytes s.cfg m - 64) (kemSkBytes s.cfg m - 32) = h
      ∧ slice (pk ++ skpke ++ h ++ z) (kemSkBytes s.cfg m - 32) (kemSkBytes s.cfg m) = z := by
    refine ⟨?_, ?_, slice_field z (by simp [hpk, hskpke, hskb]) (by omega), ?_⟩
    · rw [List.append_assoc, List.append_assoc, slice_append_left _ hpk.ge, slice_self hpk]
    · rw [List.append_assoc (pk ++ skpke), slice_field _ hpk (by omega)]
    · have := slice_field (xs := pk ++ skpke ++ h) (ys := z) [] (a := kemSkBytes s.cfg m - 32) (b := kemSkBytes s.cfg m)
        (by simp only [List.length_append, hpk, hskpke, hh]; omega) (by omega)
      rwa [List.append_nil] at this
  obtain ⟨hf1, hf2, hf3, hf4⟩ := hfields
  refine ⟨hm2 ▸ kemMessageOf_pkeDec hl (hl.legalKem hm) hskpke hct, fun ct2 hct2 => ?decapsulated,
    pkeEnc_eq_none_iff hl _ _ _, fun hnone => ?exhausted⟩
  case exhausted =>
    rw [hexec]
    simp only [kemDecapsulate, hf1, hf2, hf3, ← hm2, hnone]
    rfl
  case decapsulated =>
    obtain ⟨hof, hct2len⟩ := kemCiphertextOf_pkeEnc hl (hl.legalKem hm) hpk hct2
    rw [hexec]
    simp only [kemDecapsulate, hf1, hf2, hf3, hf4, ← hm2, hct2]
    exact ⟨_, rfl, hct2len, hof, stored_memWrite s _ (xofbBytes_length ..)⟩

end Sys2Proof.Machine
end

section
/-! SUPPORT. Rounding and hints of the signature (44_signature.md R224 to R226). -/

namespace Sys2Proof.Machine

/-! ## The centred remainder -/

theorem cmod_eq_sub_mul (a : Int) (n : Nat) : ∃ k, cmod a n = a - n * k := by
  have h : (n : Int) ∣ cmod a n - a := Int.ModEq.dvd (cmod_emod a n).symm
  obtain ⟨k, hk⟩ := h
  exact ⟨-k, by linarith⟩

/-- The centred remainder is the representative in `(-n/2, n/2]`. -/
theorem cmod_unique {a b k : Int} {n : Nat} (hab : a = k * n + b) (hlo : -(n : Int) < 2 * b) (hhi : 2 * b ≤ n) : cmod a n = b := by
  have hn : 0 < n := by omega
  obtain ⟨j, hj⟩ := cmod_eq_sub_mul a n
  obtain ⟨h1, h2⟩ := cmod_bounds (a := a) hn
  have hd : cmod a n - b = n * (k - j) := by rw [hj, hab]; ring
  obtain h0 | h0 | h0 : k - j = 0 ∨ 1 ≤ k - j ∨ k - j ≤ -1 := by omega
  · rw [h0, mul_zero] at hd
    omega
  · have : (n : Int) * 1 ≤ n * (k - j) := mul_le_mul_of_nonneg_left h0 (by omega)
    omega
  · have : (n : Int) * (k - j) ≤ n * -1 := mul_le_mul_of_nonneg_left h0 (by omega)
    omega

/-! ## `power2round` (44_signature.md R224) -/

/-- The parts recompose. -/
theorem power2round_eq (d : Nat) (r : Int) :
    r = (power2round d r).1 * 2 ^ d + (power2round d r).2 ∧ -(2 ^ d : Int) < 2 * (power2round d r).2
      ∧ 2 * (power2round d r).2 ≤ 2 ^ d := by
  obtain ⟨k, hk⟩ := cmod_eq_sub_mul r (2 ^ d)
  have hb := cmod_bounds (a := r) (q := 2 ^ d) (by positivity)
  have hpos : ((2 ^ d : Nat) : Int) ≠ 0 := by positivity
  have hdiv : (r - cmod r (2 ^ d)) / ((2 ^ d : Nat) : Int) = k := by
    rw [hk, sub_sub_cancel, Int.mul_ediv_cancel_left _ hpos]
  rw [power2round, hdiv]
  push_cast at hb hk
  refine ⟨?_, hb⟩
  rw [hk]
  ring

/-- The range of the high part (log 23). -/
theorem power2round_high {q d n : Nat} (hd : 1 ≤ d) (hn : d ≤ n) {r : Int} (h0 : 0 ≤ r) (hq : r < q) (hqn : q ≤ 2 ^ n) :
    0 ≤ (power2round d r).1 ∧ (power2round d r).1 ≤ 2 ^ (n - d)
      ∧ (q - 2 + 2 ^ (d - 1) < 2 ^ n → (power2round d r).1 < 2 ^ (n - d)) := by
  obtain ⟨heq, hlo, hhi⟩ := power2round_eq d r
  generalize (power2round d r).1 = x at *
  generalize (power2round d r).2 = y at *
  have hhalf : (2 : Int) ^ d = 2 * 2 ^ (d - 1) := two_pow_eq_two_mul hd
  have hpos : (0 : Int) < 2 ^ (d - 1) := by positivity
  have hsplit : (2 : Int) ^ (n - d) * 2 ^ d = 2 ^ n := by rw [← pow_add, Nat.sub_add_cancel hn]
  have hqn' : (q : Int) ≤ 2 ^ n := by exact_mod_cast hqn
  have hpow : (0 : Int) < 2 ^ d := by positivity
  refine ⟨?_, ?_, fun hsmall => ?_⟩
  · exact Int.lt_add_one_iff.1 (lt_of_mul_lt_mul_right (a := (2 : Int) ^ d) (by linarith) hpow.le)
  · exact Int.lt_add_one_iff.1 (lt_of_mul_lt_mul_right (a := (2 : Int) ^ d) (by linarith) hpow.le)
  · have hsmall' : ((q - 2 + 2 ^ (d - 1) : Nat) : Int) < 2 ^ n := by exact_mod_cast hsmall
    push_cast at hsmall'
    refine lt_of_mul_lt_mul_right (a := (2 : Int) ^ d) ?_ hpow.le
    omega

/-! ## `decompose` (44_signature.md R225) -/

section
variable {c : Cfg} {g : SigCfg} {r : Int}

/-- `Q - 1` is a multiple of `2*GAMMA2`. -/
theorem LegalSig.q_eq (hl : LegalCfg c) (hg : LegalSig c g) : (c.q : Int) = highCount c g * (2 * g.gamma2) + 1 := by
  have h := Nat.div_mul_cancel (Nat.dvd_of_mod_eq_zero hg.gamma2_dvd)
  have hq := hl.q_nat_pos
  rw [← highCount] at h
  have : ((c.q - 1 : Nat) : Int) = highCount c g * (2 * g.gamma2) := by exact_mod_cast h.symm
  omega

/-- What `decompose` answers, and what its two parts satisfy: they recompose modulo `Q`, the high part counts to `highCount`, the
low part is at most `GAMMA2`, and `-GAMMA2` only where the high part wrapped to 0. -/
structure Decomposes (c : Cfg) (g : SigCfg) (r h l : Int) : Prop where
  congr : ∃ t, h * (2 * g.gamma2) + l = r - t * c.q
  high : 0 ≤ h ∧ h < highCount c g
  low : -(g.gamma2 : Int) ≤ l ∧ l ≤ g.gamma2
  wrapped : l = -g.gamma2 → h = 0

theorem decompose_of_eq (hγ : 1 ≤ g.gamma2) {r1 r0 : Int} (hr : r = r1 * (2 * g.gamma2) + r0) (hlo : -(g.gamma2 : Int) < r0)
    (hhi : r0 ≤ g.gamma2) : decompose c g r = if r - r0 = (c.q : Int) - 1 then (0, r0 - 1) else (r1, r0) := by
  have hcmod : cmod r (2 * g.gamma2) = r0 := cmod_unique (k := r1) (by push_cast; exact hr) (by push_cast; omega) (by push_cast; omega)
  have hdiv : (r - r0) / ((2 * g.gamma2 : Nat) : Int) = r1 := by
    rw [hr, add_sub_cancel_right]
    push_cast
    exact Int.mul_ediv_cancel _ (by omega)
  rw [decompose, hcmod, hdiv]

theorem exists_parts (hγ : 1 ≤ g.gamma2) (r : Int) :
    ∃ r1 r0 : Int, r = r1 * (2 * g.gamma2) + r0 ∧ -(g.gamma2 : Int) < r0 ∧ r0 ≤ g.gamma2 := by
  obtain ⟨k, hk⟩ := cmod_eq_sub_mul r (2 * g.gamma2)
  obtain ⟨h1, h2⟩ := cmod_bounds (a := r) (q := 2 * g.gamma2) (by omega)
  push_cast at hk h1 h2
  exact ⟨k, cmod r (2 * g.gamma2), by rw [hk]; ring, by omega, by omega⟩

theorem decompose_spec (hl : LegalCfg c) (hg : LegalSig c g) (h0 : 0 ≤ r) (hq : r < c.q) :
    Decomposes c g r (highbits c g r) (lowbits c g r) := by
  obtain ⟨r1, r0, hr, hlo, hhi⟩ := exists_parts (g := g) hg.gamma2 r
  have hqe := hg.q_eq hl
  have hγ : (1 : Int) ≤ g.gamma2 := by exact_mod_cast hg.gamma2
  have h256 := hl.q_mod
  have hcount : (0 : Int) < highCount c g := by
    by_contra hneg
    have hle := hg.gamma2_le hl
    have : highCount c g = 0 := by omega
    rw [this] at hqe
    omega
  rw [highbits, lowbits, decompose_of_eq (c := c) hg.gamma2 hr hlo hhi]
  by_cases hwrap : r - r0 = (c.q : Int) - 1
  · rw [if_pos hwrap]
    exact ⟨⟨1, by linarith⟩, ⟨le_rfl, hcount⟩, ⟨by simp only; omega, by simp only; omega⟩, fun _ => rfl⟩
  · rw [if_neg hwrap]
    refine ⟨⟨0, by linarith⟩, ⟨?_, ?_⟩, ⟨hlo.le, hhi⟩, fun h => absurd h hlo.ne'⟩
    · exact Int.lt_add_one_iff.1 (lt_of_mul_lt_mul_right (a := 2 * (g.gamma2 : Int)) (by linarith) (by omega))
    · refine lt_of_le_of_ne ?_ ?_
      · exact Int.lt_add_one_iff.1 (lt_of_mul_lt_mul_right (a := 2 * (g.gamma2 : Int)) (by linarith) (by omega))
      · rintro rfl
        exact hwrap (by linarith)

/-! ## Hints (44_signature.md R226) -/

theorem usehint_zero (c : Cfg) (g : SigCfg) (r : Int) : usehint c g 0 r = highbits c g r := by
  rw [usehint, if_pos rfl, highbits]

theorem usehint_one (c : Cfg) (g : SigCfg) (r : Int) :
    usehint c g 1 r = (if 0 < lowbits c g r then highbits c g r + 1 else highbits c g r - 1) % (highCount c g : Int) := by
  rw [usehint, if_neg one_ne_zero]
  exact (apply_ite (· % (highCount c g : Int)) _ _ _).symm

theorem eq_of_abs_mul_lt {j a : Int} (ha : 0 < a) (h1 : -(2 * a) < j * a) (h2 : j * a < 2 * a) : j = -1 ∨ j = 0 ∨ j = 1 := by
  have h3 : -2 < j := lt_of_mul_lt_mul_right (a := a) (by linarith) ha.le
  have h4 : j < 2 := lt_of_mul_lt_mul_right h2 ha.le
  omega

/-- How the high part can move when a residue changes by at most `GAMMA2`: by one step, around the ring. -/
theorem high_step (hl : LegalCfg c) (hg : LegalSig c g) {r' e h l h' l' : Int} (hd : Decomposes c g r h l)
    (hd' : Decomposes c g r' h' l') (hr' : r' = (r + e) % c.q) (he : e.natAbs ≤ g.gamma2) (hne : h ≠ h') :
    h = (if 0 < l' then h' + 1 else h' - 1) % (highCount c g : Int) := by
  obtain ⟨⟨t, ht⟩, ⟨hh0, hh1⟩, ⟨hl0, hl1⟩, hwrap⟩ := hd
  obtain ⟨⟨t', ht'⟩, ⟨hh0', hh1'⟩, ⟨hl0', hl1'⟩, -⟩ := hd'
  have hqe := hg.q_eq hl
  have hγ : (1 : Int) ≤ g.gamma2 := by exact_mod_cast hg.gamma2
  have hmod := Int.emod_add_mul_ediv (r + e) c.q
  rw [← hr'] at hmod
  have he' : -(g.gamma2 : Int) ≤ e ∧ e ≤ g.gamma2 := by omega
  clear he
  generalize (highCount c g : Int) = n at *
  generalize (g.gamma2 : Int) = γ at *
  obtain ⟨he0, he1⟩ := he'
  obtain ⟨j, hj⟩ : ∃ j : Int, (h' - h) * (2 * γ) + (l' - l - e) = j * (n * (2 * γ) + 1) :=
    ⟨t - t' - (r + e) / c.q, by rw [← hqe]; linarith⟩
  have hα : 0 < 2 * γ := by omega
  have hup : (h' - h) * (2 * γ) ≤ (n - 1) * (2 * γ) := mul_le_mul_of_nonneg_right (by omega) hα.le
  have hdown : -(n - 1) * (2 * γ) ≤ (h' - h) * (2 * γ) := mul_le_mul_of_nonneg_right (by omega) hα.le
  have hnα : 0 ≤ n * (2 * γ) := mul_nonneg (by omega) hα.le
  obtain rfl | rfl | rfl := eq_of_abs_mul_lt (j := j) (a := n * (2 * γ) + 1) (by omega) (by linarith) (by linarith)
  · obtain hi | hi | hi := eq_of_abs_mul_lt (j := n + (h' - h)) hα (by linarith) (by linarith)
    · omega
    · omega
    · obtain ⟨rfl, rfl⟩ : h' = 0 ∧ h = n - 1 := by omega
      rw [if_neg (not_lt.2 (by linarith)), show (0 - 1 : Int) = n - 1 + n * -1 by ring, Int.add_mul_emod_self_left,
        Int.emod_eq_of_lt (by omega) (by omega)]
  · obtain hi | hi | hi := eq_of_abs_mul_lt (j := h' - h) hα (by linarith) (by linarith)
    · have hpos : 0 < l' := by
        rw [hi] at hj
        have : l ≠ -γ := fun h0 => by have := hwrap h0; omega
        omega
      rw [if_pos hpos, Int.emod_eq_of_lt (by omega) (by omega)]
      omega
    · omega
    · rw [hi] at hj
      rw [if_neg (by omega), Int.emod_eq_of_lt (by omega) (by omega)]
      omega
  · obtain hi | hi | hi := eq_of_abs_mul_lt (j := n - (h' - h)) hα (by linarith) (by linarith)
    · omega
    · omega
    · obtain ⟨rfl, rfl⟩ : h' = n - 1 ∧ h = 0 := by omega
      rw [if_pos (by linarith), sub_add_cancel, Int.emod_self]

end

/-- Settles O57: the two parts by `cmod_unique`, and the hint by the one step that `high_step` allows. -/
theorem roundingAndHints : Obligations.RoundingAndHints := by
  intro c g r e hc hg h0 hq
  have hl := (cfgValid_iff_legal c).1 hc
  have hs := hl.legalSig hg
  obtain ⟨heq, hlo, hhi⟩ := power2round_eq g.drop r
  have hqlog : c.q ≤ 2 ^ logq c := by
    have := lt_two_pow_bitlen (c.q - 1)
    have := hl.q_nat_pos
    rw [logq]
    omega
  obtain ⟨hp0, hp1, hp2⟩ := power2round_high hs.drop.1 (by have := hs.drop; omega) h0 hq hqlog
  have hd := decompose_spec hl hs h0 hq
  refine ⟨⟨heq, hlo, hhi, hp0, hp1, hp2⟩, ?recompose, fun r1 r0 hr h1 h2 => decompose_of_eq hs.gamma2 hr h1 h2,
    usehint_zero c g r, usehint_one c g r, rfl, hd.high.1, hd.high.2, ?low, fun he => ?recover⟩
  case recompose =>
    obtain ⟨t, ht⟩ := hd.congr
    change (highbits c g r * (2 * g.gamma2) + lowbits c g r - r) % (c.q : Int) = 0
    exact Int.emod_eq_zero_of_dvd ⟨-t, by rw [ht]; ring⟩
  case low =>
    obtain ⟨h1, h2⟩ := hd.low
    omega
  case recover =>
    have hd' := decompose_spec hl hs (r := (r + e) % c.q) (Int.emod_nonneg _ hl.q_pos.ne') (Int.emod_lt_of_pos _ hl.q_pos)
    by_cases hne : highbits c g r = highbits c g ((r + e) % c.q)
    · rw [makehint, if_pos hne, usehint_zero, hne]
    · rw [makehint, if_neg hne, usehint_one]
      exact (high_step hl hs hd hd' rfl he hne).symm

end Sys2Proof.Machine
end

section
/-! SUPPORT. The hint encoding of the signature (44_signature.md R228, R229). -/

namespace Sys2Proof.Machine

/-! ## Positions -/

/-- A bit polynomial. -/
abbrev BitPoly (f : Poly) : Prop := f.length = 256 ∧ ∀ x ∈ f, x = 0 ∨ x = 1

theorem getD_bitPoly {f : Poly} (hf : BitPoly f) (n : Nat) : f.getD n 0 = 0 ∨ f.getD n 0 = 1 := by
  by_cases hn : n < f.length
  · rw [List.getD_eq_getElem _ _ hn]
    exact hf.2 _ (List.getElem_mem _)
  · exact .inl (List.getD_eq_default _ _ (by omega))

theorem onePositions_pairwise (f : Poly) : (onePositions f).Pairwise (· < ·) := List.pairwise_lt_range.filter _

theorem mem_onePositions {f : Poly} {n : Nat} : n ∈ onePositions f ↔ n < 256 ∧ f.getD n 0 = 1 := by
  rw [onePositions, List.mem_filter, List.mem_range, decide_eq_true_eq]

theorem ascending_iff : ∀ l : List Nat, ascending l = true ↔ l.Pairwise (· < ·)
  | [] => by simp [ascending]
  | [a] => by simp [ascending]
  | a :: b :: l => by
    rw [ascending, Bool.and_eq_true, decide_eq_true_eq, ascending_iff (b :: l), ← List.isChain_iff_pairwise,
      ← List.isChain_iff_pairwise, List.isChain_cons_cons]

theorem getD_polyOfPositions (ps : List Nat) {n : Nat} (hn : n < 256) :
    (polyOfPositions ps).getD n 0 = if n ∈ ps then 1 else 0 := getD_map_range _ hn

theorem polyOfPositions_bitPoly (ps : List Nat) : BitPoly (polyOfPositions ps) := by
  refine ⟨by simp [polyOfPositions], fun x hx => ?_⟩
  obtain ⟨n, -, rfl⟩ := List.mem_map.1 hx
  split
  · exact .inr rfl
  · exact .inl rfl

/-- Positions give the polynomial back. -/
theorem polyOfPositions_onePositions {f : Poly} (hf : BitPoly f) : polyOfPositions (onePositions f) = f := by
  refine List.ext_getElem ((polyOfPositions_bitPoly _).1.trans hf.1.symm) fun n h1 h2 => ?_
  have hn : n < 256 := hf.1 ▸ h2
  rw [← List.getD_eq_getElem _ 0 h1, ← List.getD_eq_getElem _ 0 h2, getD_polyOfPositions _ hn]
  simp only [mem_onePositions, hn, true_and]
  obtain h | h := getD_bitPoly hf n
  · rw [h, if_neg (by decide)]
  · rw [h, if_pos rfl]

/-- An ascending list of positions is that of its polynomial. -/
theorem onePositions_polyOfPositions {ps : List Nat} (hps : ps.Pairwise (· < ·)) (hlt : ∀ n ∈ ps, n < 256) :
    onePositions (polyOfPositions ps) = ps := by
  refine (onePositions_pairwise _).eq_of_mem_iff hps fun n => ?_
  rw [mem_onePositions]
  constructor
  · rintro ⟨hn, h⟩
    rw [getD_polyOfPositions _ hn] at h
    by_contra hmem
    rw [if_neg hmem] at h
    exact zero_ne_one h
  · intro h
    exact ⟨hlt n h, by rw [getD_polyOfPositions _ (hlt n h), if_pos h]⟩

/-! ## Counting ones -/

/-- The ones of a list, by position. -/
theorem length_filter_eq (f : Poly) :
    (f.filter (fun x => x = 1)).length = ((List.range f.length).filter (fun n => f.getD n 0 = 1)).length := by
  have hf : f = (List.range f.length).map (fun n => f.getD n 0) :=
    List.ext_getElem (by simp) fun n h1 h2 => by rw [List.getElem_map, List.getElem_range, List.getD_eq_getElem _ _ h1]
  conv_lhs => rw [hf, List.filter_map, List.length_map]
  rfl

theorem onesIn_nil : onesIn [] = 0 := rfl

theorem onesIn_append (h h' : List Poly) : onesIn (h ++ h') = onesIn h + onesIn h' := by
  rw [onesIn, List.flatten_append, List.filter_append, List.length_append, onesIn, onesIn]

/-- The ones before position `n`. -/
theorem onesIn_take {f : Poly} {n : Nat} (hn : n ≤ f.length) :
    onesIn [f.take n] = ((List.range n).filter (fun k => f.getD k 0 = 1)).length := by
  have hlen : (f.take n).length = n := by simpa using hn
  rw [onesIn, List.flatten_singleton, length_filter_eq, hlen]
  refine congrArg List.length (List.filter_congr fun k hk => ?_)
  rw [getD_take (List.mem_range.1 hk)]

theorem onesIn_singleton {f : Poly} (hf : f.length = 256) : onesIn [f] = (onePositions f).length := by
  rw [onePositions, ← onesIn_take hf.ge, List.take_of_length_le hf.le]

theorem hintWeight_eq_onesIn : ∀ {h : List Poly}, Polys h → hintWeight h = onesIn h
  | [], _ => rfl
  | f :: h, hp => by
    have ih := hintWeight_eq_onesIn fun g hg => hp g (List.mem_cons_of_mem f hg)
    rw [hintWeight] at ih ⊢
    rw [List.map_cons, List.sum_cons, ih, ← onesIn_singleton (hp f List.mem_cons_self), ← onesIn_append, List.singleton_append]

theorem length_flatMap_onePositions (h : List Poly) : (h.flatMap onePositions).length = hintWeight h := by
  rw [List.length_flatMap, hintWeight]

/-! ## The encoding -/

/-- The counts of lists of positions (44_signature.md R228). -/
def countsFrom : Nat → List (List Nat) → List Nat
  | _, [] => []
  | k, p :: ps => (k + p.length) :: countsFrom (k + p.length) ps

theorem runningCounts_eq (k : Nat) (h : List Poly) : runningCounts k h = countsFrom k (h.map onePositions) := by
  induction h generalizing k with
  | nil => rfl
  | cons f h ih => rw [runningCounts, ih, List.map_cons, countsFrom]

theorem countsFrom_length (k : Nat) (ps : List (List Nat)) : (countsFrom k ps).length = ps.length := by
  induction ps generalizing k with
  | nil => rfl
  | cons p ps ih => rw [countsFrom, List.length_cons, ih, List.length_cons]

theorem countsFrom_getElem? : ∀ (ps : List (List Nat)) (k i : Nat), i < ps.length →
    (countsFrom k ps)[i]? = some (k + (ps.take (i + 1)).flatten.length)
  | [], _, _, h => absurd h (Nat.not_lt_zero _)
  | p :: ps, k, 0, _ => by simp [countsFrom]
  | p :: ps, k, i + 1, h => by
    rw [countsFrom, List.getElem?_cons_succ, countsFrom_getElem? ps _ i (Nat.lt_of_succ_lt_succ h), List.take_succ_cons,
      List.flatten_cons, List.length_append, Nat.add_assoc]

/-- The numbers that the encoding's bytes stand for: the positions, zeros up to `omega`, the counts (44_signature.md R228). -/
def hintNumbers (omega : Nat) (ps : List (List Nat)) : List Nat :=
  ps.flatten ++ List.replicate (omega - ps.flatten.length) 0 ++ countsFrom 0 ps

theorem encodeHint_eq (g : SigCfg) (h : List Poly) :
    encodeHint g h = (hintNumbers g.omega (h.map onePositions)).map (BitVec.ofNat 8) := by
  rw [encodeHint, hintNumbers, runningCounts_eq, List.flatMap_def]

theorem hintNumbers_length {omega : Nat} {ps : List (List Nat)} (h : ps.flatten.length ≤ omega) :
    (hintNumbers omega ps).length = omega + ps.length := by
  rw [hintNumbers, List.length_append, List.length_append, List.length_replicate, countsFrom_length]
  omega

theorem mem_countsFrom_le : ∀ (ps : List (List Nat)) (k : Nat), ∀ n ∈ countsFrom k ps, n ≤ k + ps.flatten.length
  | [], _, _, h => absurd h List.not_mem_nil
  | p :: ps, k, n, h => by
    rw [List.flatten_cons, List.length_append]
    obtain rfl | h := List.mem_cons.1 h
    · omega
    · have := mem_countsFrom_le ps _ n h
      omega

theorem hintNumbers_lt {omega : Nat} (ho : omega ≤ 255) {ps : List (List Nat)} (h : ps.flatten.length ≤ omega)
    (hlt : ∀ p ∈ ps, ∀ n ∈ p, n < 256) : ∀ n ∈ hintNumbers omega ps, n < 256 := by
  intro n hn
  rw [hintNumbers, List.mem_append, List.mem_append] at hn
  obtain (hn | hn) | hn := hn
  · obtain ⟨p, hp, hn⟩ := List.mem_flatten.1 hn
    exact hlt p hp n hn
  · rw [List.eq_of_mem_replicate hn]
    decide
  · have := mem_countsFrom_le ps 0 n hn
    omega

theorem map_toNat_map_ofNat {l : List Nat} (h : ∀ n ∈ l, n < 256) : (l.map (BitVec.ofNat 8)).map BitVec.toNat = l := by
  rw [List.map_map]
  refine (List.map_congr_left fun n hn => ?_).trans (List.map_id l)
  rw [Function.comp, BitVec.toNat_ofNat, Nat.mod_eq_of_lt (h n hn), id]

theorem map_ofNat_map_toNat (bs : Bytes) : (bs.map BitVec.toNat).map (BitVec.ofNat 8) = bs := by
  rw [List.map_map]
  refine (List.map_congr_left fun b _ => ?_).trans (List.map_id bs)
  rw [Function.comp, BitVec.ofNat_toNat, BitVec.setWidth_eq, id]

/-! ## The decoding loop (44_signature.md R229) -/

/-- What the loop requires of the positions it finds, polynomial by polynomial from number `i`, after `k` positions. -/
def HintRuns (omega : Nat) (hb : List Nat) : Nat → Nat → List (List Nat) → Prop
  | _, _, [] => True
  | i, k, p :: ps =>
    (hb.getD (omega + i) 0 = k + p.length ∧ k + p.length ≤ omega ∧ ascending p = true ∧ (hb.drop k).take p.length = p)
      ∧ HintRuns omega hb (i + 1) (k + p.length) ps

theorem hintLoop_eq_some_iff {omega : Nat} {hb : List Nat} (hlen : omega ≤ hb.length) : ∀ (n i k : Nat) (ps : List (List Nat)) (k' : Nat),
    hintLoop omega hb n i k = some (ps, k') ↔ ps.length = n ∧ HintRuns omega hb i k ps ∧ k' = k + ps.flatten.length
  | 0, i, k, ps, k' => by
    rw [hintLoop]
    constructor
    · intro h
      cases h
      exact ⟨rfl, trivial, rfl⟩
    · rintro ⟨hps, -, rfl⟩
      rw [List.length_eq_zero_iff.1 hps]
      rfl
  | n + 1, i, k, ps, k' => by
    rw [hintLoop]
    generalize he : hb.getD (omega + i) 0 = e
    constructor
    · intro h
      split at h
      · cases h
      · rename_i hrange
        split at h
        · cases h
        · rename_i hasc
          cases hl : hintLoop omega hb n (i + 1) e with
          | none => rw [hl] at h; cases h
          | some r =>
            obtain ⟨ps', k''⟩ := r
            rw [hl] at h
            cases h
            obtain ⟨hps, hruns, rfl⟩ := (hintLoop_eq_some_iff hlen n (i + 1) e ps' _).1 hl
            have hseg : ((hb.drop k).take (e - k)).length = e - k := by simp; omega
            have hke : k + ((hb.drop k).take (e - k)).length = e := by omega
            refine ⟨by rw [List.length_cons, hps], ⟨⟨by rw [hke, he], by omega, by simpa using hasc, by rw [hseg]⟩, by rwa [hke]⟩, ?_⟩
            rw [List.flatten_cons, List.length_append, ← Nat.add_assoc, hke]
    · rintro ⟨hps, hruns, rfl⟩
      cases ps with
      | nil => exact absurd hps (by simp)
      | cons p ps =>
        obtain ⟨⟨hcount, hle, hasc, htake⟩, hruns⟩ := hruns
        rw [he] at hcount
        have hseg : (hb.drop k).take (e - k) = p := by rw [hcount, Nat.add_sub_cancel_left, htake]
        rw [if_neg (by omega), hseg, hasc, if_neg (by simp), (hintLoop_eq_some_iff hlen n (i + 1) e ps _).2
          ⟨Nat.succ.inj hps, hcount ▸ hruns, rfl⟩, hcount]
        simp [Nat.add_assoc]

/-- The runs of a list that starts with the positions and goes on with the counts. -/
theorem hintRuns_of_layout {omega : Nat} {hb : List Nat} : ∀ (ps : List (List Nat)) (i k : Nat) (xs ys : List Nat),
    (∀ p ∈ ps, ascending p = true) → k + ps.flatten.length ≤ omega → hb.drop k = ps.flatten ++ xs →
      hb.drop (omega + i) = countsFrom k ps ++ ys → HintRuns omega hb i k ps
  | [], _, _, _, _, _, _, _, _ => trivial
  | p :: ps, i, k, xs, ys, hasc, hle, hpos, hcounts => by
    rw [List.flatten_cons, List.length_append] at hle
    rw [List.flatten_cons, List.append_assoc] at hpos
    refine ⟨⟨?_, by omega, hasc p List.mem_cons_self, by rw [hpos, List.take_left]⟩,
      hintRuns_of_layout ps (i + 1) (k + p.length) xs ys (fun q hq => hasc q (List.mem_cons_of_mem p hq)) (by omega) ?_ ?_⟩
    · have h0 : (hb.drop (omega + i))[0]? = some (k + p.length) := by rw [hcounts]; rfl
      rw [List.getElem?_drop, Nat.add_zero] at h0
      rw [List.getD_eq_getElem?_getD, h0, Option.getD_some]
    · rw [← List.drop_drop, hpos, List.drop_left]
    · rw [← Nat.add_assoc, ← List.drop_drop, hcounts]
      rfl

/-- The positions and the counts that runs read. -/
theorem HintRuns.layout {omega : Nat} {hb : List Nat} : ∀ {ps : List (List Nat)} {i k : Nat}, HintRuns omega hb i k ps →
    omega + i + ps.length ≤ hb.length → k ≤ omega →
      (∀ p ∈ ps, ascending p = true) ∧ k + ps.flatten.length ≤ omega ∧ (hb.drop k).take ps.flatten.length = ps.flatten
        ∧ (hb.drop (omega + i)).take ps.length = countsFrom k ps
  | [], _, k, _, _, hk => ⟨fun p hp => absurd hp List.not_mem_nil, hk, rfl, rfl⟩
  | p :: ps, i, k, ⟨⟨hcount, hle, hasc, htake⟩, hruns⟩, hlen, _ => by
    rw [List.length_cons] at hlen
    obtain ⟨h1, h2, h3, h4⟩ := hruns.layout (by omega) hle
    refine ⟨List.forall_mem_cons.2 ⟨hasc, h1⟩, by rw [List.flatten_cons, List.length_append]; omega, ?_, ?_⟩
    · rw [List.flatten_cons, List.length_append, List.take_add, htake, List.drop_drop, h3]
    · have h0 : hb.drop (omega + i) = (k + p.length) :: hb.drop (omega + (i + 1)) := by
        rw [← hcount, List.getD_eq_getElem _ _ (by omega), ← Nat.add_assoc]
        exact List.drop_eq_getElem_cons (by omega)
      rw [h0, List.length_cons, List.take_succ_cons, h4, countsFrom]

/-! ## O56 -/

/-- The position `n` stands in the list of a polynomial's positions after the ones before `n`. -/
theorem onePositions_getElem? {f : Poly} (hf : f.length = 256) {n : Nat} (hn : n < 256) (h1 : f.getD n 0 = 1) :
    (onePositions f)[onesIn [f.take n]]? = some n := by
  have hsplit : List.range 256 = List.range n ++ n :: (List.range (255 - n)).map (n + 1 + ·) := by
    rw [show 256 = (n + 1) + (255 - n) by omega, List.range_add, List.range_succ, List.append_assoc, List.singleton_append]
  rw [onePositions, show ringDegree = 256 from rfl, hsplit, List.filter_append, List.filter_cons_of_pos (by rw [h1]; rfl),
    onesIn_take (by omega), List.getElem?_append_right le_rfl, Nat.sub_self]
  rfl

/-- The positions of a vector, one polynomial's after another's. -/
theorem flatMap_onePositions_getElem? {h : List Poly} (hp : Polys h) {i n : Nat} (hi : i < h.length) (hn : n < 256)
    (h1 : (h.getD i []).getD n 0 = 1) : (h.flatMap onePositions)[onesIn (h.take i) + onesIn [(h.getD i []).take n]]? = some n := by
  have hf : (h.getD i []).length = 256 := by
    rw [List.getD_eq_getElem _ _ hi]
    exact hp _ (List.getElem_mem _)
  have hpos := onePositions_getElem? hf hn h1
  have hsplit : h = h.take i ++ h.getD i [] :: h.drop (i + 1) := by
    rw [List.getD_eq_getElem _ _ hi, List.getElem_cons_drop, List.take_append_drop]
  have hlen : ((h.take i).flatMap onePositions).length = onesIn (h.take i) := by
    rw [length_flatMap_onePositions, hintWeight_eq_onesIn fun g hg => hp g (List.mem_of_mem_take hg)]
  obtain ⟨hlt, -⟩ := List.getElem?_eq_some_iff.1 hpos
  conv_lhs => rw [hsplit, List.flatMap_append, List.flatMap_cons]
  rw [← hsplit, List.getElem?_append_right (by omega), hlen, Nat.add_sub_cancel_left, List.getElem?_append_left hlt, hpos]

/-- The layout of the numbers: positions, zeros, counts. -/
theorem hintNumbers_position {omega : Nat} {ps : List (List Nat)} {k n : Nat} (h : ps.flatten[k]? = some n) :
    (hintNumbers omega ps)[k]? = some n := by
  obtain ⟨hk, -⟩ := List.getElem?_eq_some_iff.1 h
  rw [hintNumbers, List.append_assoc, List.getElem?_append_left hk, h]

theorem hintNumbers_zero {omega : Nat} {ps : List (List Nat)} {k : Nat} (hk : ps.flatten.length ≤ k) (ho : k < omega) :
    (hintNumbers omega ps)[k]? = some 0 := by
  rw [hintNumbers, List.append_assoc, List.getElem?_append_right hk, List.getElem?_append_left (by rw [List.length_replicate]; omega),
    List.getElem?_replicate, if_pos (by omega)]

theorem hintNumbers_drop {omega : Nat} {ps : List (List Nat)} (h : ps.flatten.length ≤ omega) :
    (hintNumbers omega ps).drop omega = countsFrom 0 ps := by
  rw [hintNumbers, List.drop_left' (by rw [List.length_append, List.length_replicate]; omega)]

theorem hintNumbers_take_drop {omega : Nat} {ps : List (List Nat)} (h : ps.flatten.length ≤ omega) :
    ((hintNumbers omega ps).take omega).drop ps.flatten.length = List.replicate (omega - ps.flatten.length) 0 := by
  rw [hintNumbers, List.take_left' (by rw [List.length_append, List.length_replicate]; omega), List.drop_left]

theorem hintNumbers_count {omega : Nat} {ps : List (List Nat)} (h : ps.flatten.length ≤ omega) {i : Nat} (hi : i < ps.length) :
    (hintNumbers omega ps)[omega + i]? = some (ps.take (i + 1)).flatten.length := by
  rw [← List.getElem?_drop, hintNumbers_drop h, countsFrom_getElem? ps 0 i hi, Nat.zero_add]

/-- A list laid out like the numbers of `ps` is them. -/
theorem eq_hintNumbers {omega : Nat} {hb : List Nat} {ps : List (List Nat)} (hlen : hb.length = omega + ps.length)
    (hruns : HintRuns omega hb 0 0 ps) (hzero : ((hb.take omega).drop ps.flatten.length).all (fun b => b = 0) = true) :
    hb = hintNumbers omega ps := by
  obtain ⟨-, hle, hpos, hcounts⟩ := hruns.layout (by omega) (Nat.zero_le _)
  rw [Nat.zero_add] at hle
  have hzeros : (hb.take omega).drop ps.flatten.length = List.replicate (omega - ps.flatten.length) 0 := by
    refine List.eq_replicate_iff.2 ⟨by rw [List.length_drop, List.length_take]; omega, fun b hb => ?_⟩
    exact of_decide_eq_true (List.all_eq_true.1 hzero b hb)
  have hfirst : hb.take omega = ps.flatten ++ List.replicate (omega - ps.flatten.length) 0 := by
    rw [← hzeros]
    conv_lhs => rw [← List.take_append_drop ps.flatten.length (hb.take omega), List.take_take, min_eq_left hle]
    rw [List.drop_zero] at hpos
    rw [hpos]
  have hlast : hb.drop omega = countsFrom 0 ps := by
    rw [← hcounts, Nat.add_zero, List.take_of_length_le (by rw [List.length_drop]; omega)]
  rw [hintNumbers, ← hfirst, ← hlast, List.take_append_drop]

/-- Decoding, over the numbers of the bytes. -/
theorem decodeHint_eq_some_iff {g : SigCfg} {hb : Bytes} {h : List Poly} (hlen : hb.length = g.omega + g.sk) :
    decodeHint g hb = some h ↔ ∃ ps : List (List Nat), ps.length = g.sk ∧ (∀ p ∈ ps, ascending p = true)
      ∧ ps.flatten.length ≤ g.omega ∧ hb.map BitVec.toNat = hintNumbers g.omega ps ∧ h = ps.map polyOfPositions := by
  have hl : g.omega ≤ (hb.map BitVec.toNat).length := by rw [List.length_map]; omega
  rw [decodeHint]
  constructor
  · intro hdec
    cases hloop : hintLoop g.omega (hb.map BitVec.toNat) g.sk 0 0 with
    | none => rw [hloop] at hdec; cases hdec
    | some r =>
      obtain ⟨ps, k⟩ := r
      rw [hloop] at hdec
      obtain ⟨hps, hruns, rfl⟩ := (hintLoop_eq_some_iff hl _ _ _ _ _).1 hloop
      rw [Nat.zero_add] at hdec
      dsimp only at hdec
      split at hdec
      · rename_i hzero
        have hlen' : (hb.map BitVec.toNat).length = g.omega + ps.length := by rw [List.length_map, hlen, hps]
        obtain ⟨hasc, hle, -, -⟩ := hruns.layout hlen'.ge (Nat.zero_le _)
        exact ⟨ps, hps, hasc, by omega, eq_hintNumbers hlen' hruns hzero, (Option.some.inj hdec).symm⟩
      · cases hdec
  · rintro ⟨ps, hps, hasc, hle, hnum, rfl⟩
    have hruns : HintRuns g.omega (hb.map BitVec.toNat) 0 0 ps :=
      hintRuns_of_layout ps 0 0 _ [] hasc (by omega) (by rw [hnum, hintNumbers, List.append_assoc, List.drop_zero])
        (by rw [hnum, Nat.add_zero, hintNumbers_drop hle, List.append_nil])
    rw [(hintLoop_eq_some_iff hl _ _ _ _ _).2 ⟨hps, hruns, rfl⟩]
    dsimp only
    rw [Nat.zero_add, hnum, hintNumbers_take_drop hle, if_pos]
    exact List.all_eq_true.2 fun b hb => decide_eq_true (List.eq_of_mem_replicate hb)

section
variable {g : SigCfg} {h : List Poly} (hlen : h.length = g.sk) (hbit : ∀ f ∈ h, BitPoly f) (ho : g.omega ≤ 255)
  (hw : hintWeight h ≤ g.omega)
include hw

theorem flatten_onePositions_le : (h.map onePositions).flatten.length ≤ g.omega := by
  rwa [← List.flatMap_def, length_flatMap_onePositions]

include hlen

theorem encodeHint_length : (encodeHint g h).length = g.omega + g.sk := by
  rw [encodeHint_eq, List.length_map, hintNumbers_length (flatten_onePositions_le hw), List.length_map, hlen]

include hbit ho

/-- Decoding the encoding gives the hint. -/
theorem decodeHint_encodeHint : decodeHint g (encodeHint g h) = some h := by
  rw [decodeHint_eq_some_iff (encodeHint_length hlen hw)]
  refine ⟨h.map onePositions, by rw [List.length_map, hlen], fun p hp => ?_, flatten_onePositions_le hw, ?_, ?_⟩
  · obtain ⟨f, -, rfl⟩ := List.mem_map.1 hp
    exact (ascending_iff _).2 (onePositions_pairwise f)
  · rw [encodeHint_eq, map_toNat_map_ofNat (hintNumbers_lt ho (flatten_onePositions_le hw) fun p hp n hn => ?_)]
    obtain ⟨f, -, rfl⟩ := List.mem_map.1 hp
    exact (mem_onePositions.1 hn).1
  · rw [List.map_map]
    exact ((List.map_congr_left fun f hf => polyOfPositions_onePositions (hbit f hf)).trans (List.map_id h)).symm

end

/-- A byte string that decodes is the encoding of what it decodes to. -/
theorem encodeHint_of_decodeHint {g : SigCfg} {h : List Poly} {hb : Bytes} (hlen : hb.length = g.omega + g.sk)
    (hdec : decodeHint g hb = some h) : encodeHint g h = hb ∧ hintWeight h ≤ g.omega ∧ h.length = g.sk ∧ ∀ f ∈ h, BitPoly f := by
  obtain ⟨ps, hps, hasc, hle, hnum, rfl⟩ := (decodeHint_eq_some_iff hlen).1 hdec
  have hlt : ∀ p ∈ ps, ∀ n ∈ p, n < 256 := fun p hp n hn => by
    have hmem : n ∈ hb.map BitVec.toNat := by
      rw [hnum, hintNumbers, List.append_assoc]
      exact List.mem_append_left _ (List.mem_flatten.2 ⟨p, hp, hn⟩)
    obtain ⟨b, -, rfl⟩ := List.mem_map.1 hmem
    exact b.isLt
  have hback : (ps.map polyOfPositions).map onePositions = ps := by
    rw [List.map_map]
    exact (List.map_congr_left fun p hp =>
      onePositions_polyOfPositions ((ascending_iff p).1 (hasc p hp)) (hlt p hp)).trans (List.map_id ps)
  refine ⟨by rw [encodeHint_eq, hback, ← hnum, map_ofNat_map_toNat], ?_, by rw [List.length_map, hps], fun f hf => ?_⟩
  · rwa [← length_flatMap_onePositions, List.flatMap_def, hback]
  · obtain ⟨p, -, rfl⟩ := List.mem_map.1 hf
    exact polyOfPositions_bitPoly p

/-- Settles O56: a hint's bytes stand for `hintNumbers`, and hint decoding reads exactly those. -/
theorem hintRoundTrip : Obligations.HintRoundTrip := by
  unfold Obligations.HintRoundTrip
  intro g h hb ho
  refine ⟨fun hlen hbit => ?_, fun hhb hdec => encodeHint_of_decodeHint hhb hdec⟩
  have hp : Polys h := fun f hf => (hbit f hf).1
  have hones : hintWeight h = onesIn h := hintWeight_eq_onesIn hp
  refine ⟨hones, fun hw => ?_⟩
  rw [← hones] at hw
  have hle := flatten_onePositions_le hw
  have hbyte : ∀ {k n : Nat}, (hintNumbers g.omega (h.map onePositions))[k]? = some n →
      (encodeHint g h)[k]? = some (BitVec.ofNat 8 n) := fun hk => by rw [encodeHint_eq, List.getElem?_map, hk, Option.map_some]
  refine ⟨encodeHint_length hlen hw, fun i n hi hn h1 => ?_, fun k hk hko => ?_, fun i hi => ?_,
    decodeHint_encodeHint hlen hbit ho hw⟩
  case refine_1 =>
    refine hbyte (hintNumbers_position ?_)
    rw [← List.flatMap_def]
    exact flatMap_onePositions_getElem? hp (hlen ▸ hi) hn h1
  case refine_2 =>
    refine hbyte (hintNumbers_zero ?_ hko)
    rwa [← List.flatMap_def, length_flatMap_onePositions, hones]
  case refine_3 =>
    refine hbyte ((hintNumbers_count hle (by rw [List.length_map, hlen]; exact hi)).trans (congrArg some ?_))
    rw [← List.map_take, ← List.flatMap_def, length_flatMap_onePositions,
      hintWeight_eq_onesIn fun f hf => hp f (List.mem_of_mem_take hf)]

end Sys2Proof.Machine
end

section
/-! SUPPORT. Key generation and verification of the signature (44_signature.md R232 to R234, R242, R243). -/

namespace Sys2Proof.Machine

section
variable {c : Cfg} {g : SigCfg}

/-! ## Objects of the signature protocol -/

theorem offsetCodes_eq (k : Nat) (v : List Poly) : offsetCodes k v = mapCoeffs (fun x => (k : Int) - x) v := rfl

/-- A vector of `n` polynomials whose offset codes by `k` have `d` bits. -/
def CodesFit (k d n : Nat) (v : List Poly) : Prop :=
  v.length = n ∧ Polys v ∧ ∀ f ∈ v, ∀ x ∈ f, 0 ≤ (k : Int) - x ∧ (k : Int) - x < 2 ^ d

/-- Offset codes packed behind `pre`. -/
theorem codesAt_offsetCodes {pre : Bytes} (post : Bytes) {d k n : Nat} {v : List Poly} (hv : CodesFit k d n v) {off : Nat}
    (hoff : pre.length = off) :
    codesAt (pre ++ packVec d (offsetCodes k v) ++ post) off d n = mapCoeffs (fun x => (k : Int) - x) v := by
  obtain ⟨hn, hp, hfit⟩ := hv
  rw [offsetCodes_eq, codesAt_layout post (polys_mapCoeffs hp _) hoff ((List.length_map _).trans hn), mapCoeffs_mapCoeffs]
  exact mapCoeffs_congr fun f hf x hx => Int.emod_eq_of_lt (hfit f hf x hx).1 (hfit f hf x hx).2

theorem CodesFit.packed_length {k d n : Nat} {v : List Poly} (h : CodesFit k d n v) :
    (packVec d (offsetCodes k v)).length = 32 * d * n := by
  rw [packVec_length, offsetCodes, List.length_map, h.1]

theorem cbdOf_bounds {bs : Bytes} {eta : Nat} {x : Int} (hx : x ∈ cbdOf bs eta) : -(eta : Int) ≤ x ∧ x ≤ eta := by
  obtain ⟨i, -, rfl⟩ := List.mem_map.1 hx
  have h1 := bitSum_le bs (2 * eta * i) eta
  have h2 := bitSum_le bs (2 * eta * i + eta) eta
  omega

/-- The offset codes of a vector of noise have `EB` bits. -/
theorem codesFit_noise (F : Nat → Bytes) (n : Nat) :
    CodesFit g.seta (secretBits g) n ((List.range n).map fun j => cbdOf (F j) g.seta) := by
  refine ⟨by simp, polys_map_range fun j => cbdOf_length _ _, fun f hf x hx => ?_⟩
  obtain ⟨j, -, rfl⟩ := List.mem_map.1 hf
  have h := cbdOf_bounds hx
  have hlt : ((2 * g.seta : Nat) : Int) < 2 ^ secretBits g := by exact_mod_cast lt_two_pow_bitlen (2 * g.seta)
  omega

/-- The offset codes of the low parts have `D` bits. -/
theorem codesFit_low {d n : Nat} (hd : 1 ≤ d) {t : List Poly} (hn : t.length = n) (ht : Polys t) :
    CodesFit (2 ^ (d - 1)) d n (mapCoeffs (fun r => (power2round d r).2) t) := by
  refine ⟨by simpa using hn, polys_mapCoeffs ht _, fun f hf x hx => ?_⟩
  obtain ⟨p, -, rfl⟩ := List.mem_map.1 hf
  obtain ⟨r, -, rfl⟩ := List.mem_map.1 hx
  obtain ⟨-, hlo, hhi⟩ := power2round_eq d r
  have hhalf : (2 : Int) ^ d = 2 * 2 ^ (d - 1) := two_pow_eq_two_mul hd
  push_cast
  omega

/-- The noise vectors of a key pair. -/
theorem sigNoise_eq (c : Cfg) (g : SigCfg) (seed : Bytes) (n : Nat) :
    sigNoise c g seed n = cbdOf (xofbBytes c.hash (seed ++ leBytes 2 n) (64 * g.seta)) g.seta := noisePoly_eq _ _ _ _ _

/-! ## Key generation -/

theorem sigKeyPair_eq_none_iff (hl : LegalCfg c) (xi : Bytes) :
    sigKeyPair c g xi = none ↔ ¬ ∃ ahat, IsMatrix c (slice (xofbBytes c.hash xi 128) 0 32) g.sk g.sl ahat := by
  rw [← expandMatrix_eq_none_iff hl, sigKeyPair]
  cases expandMatrix c (slice (xofbBytes c.hash xi 128) 0 32) g.sk g.sl <;> simp

/-- The secret key's six fields (44_signature.md R234), read where they were written. -/
theorem secretKey_fields {rho key tr : Bytes} {s1 s2 t0 : List Poly} (hrho : rho.length = 32) (hkey : key.length = 32)
    (htr : tr.length = 32) (hs1 : CodesFit g.seta (secretBits g) g.sl s1) (hs2 : CodesFit g.seta (secretBits g) g.sk s2)
    (ht0 : CodesFit (2 ^ (g.drop - 1)) g.drop g.sk t0)
    {sk : Bytes} (hsk : sk = rho ++ key ++ packVec (secretBits g) (offsetCodes g.seta s1)
      ++ packVec (secretBits g) (offsetCodes g.seta s2) ++ packVec g.drop (offsetCodes (2 ^ (g.drop - 1)) t0) ++ tr) :
    sk.length = sigSkBytes g ∧ slice sk 0 32 = rho ∧ slice sk 32 64 = key
      ∧ codesAt sk 64 (secretBits g) g.sl = mapCoeffs (fun x => g.seta - x) s1
      ∧ codesAt sk (64 + 32 * secretBits g * g.sl) (secretBits g) g.sk = mapCoeffs (fun x => g.seta - x) s2
      ∧ codesAt sk (64 + 32 * secretBits g * (g.sl + g.sk)) g.drop g.sk = mapCoeffs (fun x => 2 ^ (g.drop - 1) - x) t0
      ∧ slice sk (sigSkBytes g - 32) (sigSkBytes g) = tr := by
  have hl1 := hs1.packed_length
  have hl2 := hs2.packed_length
  have hl0 := ht0.packed_length
  have hhead : (rho ++ key).length = 64 := by rw [List.length_append, hrho, hkey]
  have hbytes : sigSkBytes g = 64 + 32 * secretBits g * g.sl + 32 * secretBits g * g.sk + 32 * g.drop * g.sk + 32 := by
    rw [sigSkBytes, Nat.mul_add]
    omega
  subst hsk
  refine ⟨?length, ?rho, ?key, ?s1, ?s2, ?t0, ?tr⟩
  case length =>
    simp only [List.length_append, hrho, hkey, htr, hl1, hl2, hl0, hbytes]
  case rho =>
    simp only [List.append_assoc]
    rw [slice_append_left _ hrho.ge, slice_self hrho]
  case key =>
    simp only [List.append_assoc]
    rw [← List.append_assoc, slice_field _ hrho (by rw [hkey])]
  case s1 =>
    rw [List.append_assoc, List.append_assoc]
    exact codesAt_offsetCodes _ hs1 hhead
  case s2 =>
    rw [List.append_assoc _ _ tr]
    exact codesAt_offsetCodes _ hs2 (by rw [List.length_append, hhead, hl1])
  case t0 =>
    refine (codesAt_offsetCodes tr ht0 ?_).trans (mapCoeffs_congr fun f _ x _ => by push_cast; rfl)
    rw [List.length_append, List.length_append, hhead, hl1, hl2, Nat.mul_add, Nat.add_assoc]
  case tr =>
    rw [← List.append_nil (_ ++ tr)]
    refine slice_field [] ?_ (by omega)
    simp only [List.length_append, hrho, hkey, hl1, hl2, hl0, hbytes]
    omega

/-- `A*u + v` of a matrix and vectors that match it. -/
theorem matTimes_add (hl : LegalCfg c) {rho : Bytes} {rows cols : Nat} {ahat : List (List Poly)} {u v : List Poly}
    (hA : IsMatrix c rho rows cols ahat) (hu : u.length = cols ∧ Polys u) (hv : v.length = rows ∧ Polys v) :
    (List.zipWith (addMod c) (matTimes c ahat u) v).length = rows ∧ Polys (List.zipWith (addMod c) (matTimes c ahat u) v) := by
  obtain ⟨hu, hpu⟩ := hu
  obtain ⟨hv, hpv⟩ := hv
  refine ⟨length_zipWith_matTimes hA.1 hv, polys_zipWith (polys_matTimes hl hpu ?_) hpv fun f g => addMod_length hl⟩
  rw [hu]
  exact hA.row

/-- The keys of a seed, by their fields. -/
theorem sigKeysOf_sigKeyPair (hl : LegalCfg c) (hs : LegalSig c g) {xi pk sk : Bytes} (h : sigKeyPair c g xi = some (pk, sk)) :
    SigKeysOf c g xi pk sk ∧ pk.length = sigPkBytes c g ∧ sk.length = sigSkBytes g := by
  have hseed : (slice (xofbBytes c.hash xi 128) 0 32).length = 32 := slice_length (by rw [xofbBytes_length]; decide)
  have hkey : (slice (xofbBytes c.hash xi 128) 96 128).length = 32 := slice_length (by rw [xofbBytes_length])
  rw [sigKeyPair] at h
  cases hm : expandMatrix c (slice (xofbBytes c.hash xi 128) 0 32) g.sk g.sl with
  | none => simp [hm] at h
  | some ahat =>
    have hmat := (isMatrix_iff hl _ _ _ _).2 hm
    simp only [hm, Option.some.injEq, Prod.mk.injEq, sigNoise_eq] at h
    obtain ⟨hpk, hsk⟩ := h
    have hs1 := codesFit_noise (g := g) (fun j => xofbBytes c.hash (slice (xofbBytes c.hash xi 128) 32 96 ++ leBytes 2 j) (64 * g.seta)) g.sl
    have hs2 := codesFit_noise (g := g)
      (fun i => xofbBytes c.hash (slice (xofbBytes c.hash xi 128) 32 96 ++ leBytes 2 (g.sl + i)) (64 * g.seta)) g.sk
    obtain ⟨htlen, ht⟩ := matTimes_add hl hmat ⟨hs1.1, hs1.2.1⟩ ⟨hs2.1, hs2.2.1⟩
    obtain ⟨hlen, h1, h2, h3, h4, h5, h6⟩ := secretKey_fields (g := g) hseed hkey (xofbBytes_length _ _ _) hs1 hs2
      (codesFit_low hs.drop.1 htlen ht) hsk.symm
    refine ⟨⟨ahat, hmat, ?rho, ?t1, h1, h2, h3, h4, ?t0, hpk ▸ h6⟩, ?publicLength, hlen⟩
    case rho => rw [← hpk, slice_append_left _ hseed.ge, slice_self hseed]
    case t1 =>
      have := codesAt_layout (d := t1Bits c g) [] (polys_mapCoeffs ht fun r => (power2round g.drop r).1) hseed ((List.length_map _).trans htlen)
      rw [List.append_nil] at this
      rw [← hpk, this, mapCoeffs_mapCoeffs]
      rfl
    case t0 =>
      rw [h5, mapCoeffs_mapCoeffs]
      rfl
    case publicLength => rw [← hpk, List.length_append, hseed, packVec_length, List.length_map, htlen, sigPkBytes]

/-! ## Verification -/

/-- A bound on every coefficient of a vector that has one. -/
theorem vecNorm_add_lt_iff_of_polys {n b : Nat} {v : List Poly} (hv : Polys v) (hne : 0 < v.length) :
    vecNorm v + b < n ↔ ∀ f ∈ v, ∀ x ∈ f, x.natAbs + b < n := by
  by_cases hb : b < n
  · exact vecNorm_add_lt_iff hb v
  · refine ⟨fun h => by omega, fun h => ?_⟩
    obtain ⟨f, hf⟩ := List.exists_mem_of_length_pos hne
    obtain ⟨x, hx⟩ := List.exists_mem_of_length_pos (l := f) (by rw [hv f hf]; decide)
    have := h f hf x hx
    omega

/-- A coefficient-wise difference, canonical. -/
theorem canon_polySub (q : Nat) (f h : Poly) : canon q (polySub f h) = List.zipWith (fun a b => (a - b) % (q : Int)) f h :=
  List.map_zipWith

/-- The response a signature's bytes hold. -/
abbrev responseOf (g : SigCfg) (sig : Bytes) : List Poly := mapCoeffs (fun x => (g.gamma1 : Int) - x) (codesAt sig 32 (zBits g) g.sl)

/-- The bytes of a signature that encode its hint. -/
abbrev hintBytes (g : SigCfg) (sig : Bytes) : Bytes := slice sig (32 + 32 * zBits g * g.sl) (sigBytes g)

/-- Every coefficient of the response is below `GAMMA1 - BETA`. -/
def ResponseInBound (g : SigCfg) (sig : Bytes) : Prop := ∀ f ∈ responseOf g sig, ∀ x ∈ f, x.natAbs + beta g < g.gamma1

/-- Coefficient `n` of polynomial `j` of the response. -/
theorem mem_responseOf (sig : Bytes) {j n : Nat} (hj : j < g.sl) (hn : n < 256) :
    ∃ f ∈ responseOf g sig, (g.gamma1 : Int) - bitsAt sig (8 * (32 + 32 * zBits g * j) + zBits g * n) (zBits g) ∈ f :=
  ⟨_, List.mem_map_of_mem (List.mem_map_of_mem (List.mem_range.2 hj)),
    List.mem_map_of_mem (f := fun x : Int => (g.gamma1 : Int) - x) (List.mem_map_of_mem (List.mem_range.2 hn))⟩

/-- The challenge seed that verification computes from a hint, a matrix and a challenge (44_signature.md R242). -/
abbrev recomputedSeed (c : Cfg) (g : SigCfg) (sig msg pk : Bytes) (h : List Poly) (ahat : List (List Poly)) (ch : Poly) : Bytes :=
  xofbBytes c.hash (xofbBytes c.hash (xofbBytes c.hash pk 32 ++ msg) 64 ++ packVec (w1Bits c g)
    (List.zipWith (List.zipWith (usehint c g)) h
      (List.zipWith (List.zipWith (fun a b => (a - b) % (c.q : Int))) (matTimes c ahat (responseOf g sig))
        ((mapCoeffs (fun x => x * 2 ^ g.drop) (codesAt pk 32 (t1Bits c g) g.sk)).map (ringMul c ch))))) 32

section
variable {sig msg pk : Bytes} (hs : LegalSig c g) (hsig : sig.length = sigBytes g)

theorem verifyCore_of_malformed (hd : decodeHint g (hintBytes g sig) = none) : verifyCore c g sig msg pk = some false := by
  simp only [verifyCore, hd]

include hs hsig

theorem gamma1_le_vecNorm_iff :
    g.gamma1 ≤ vecNorm (offsetCodes g.gamma1 (unpackVec (zBits g) g.sl sig 32)) + beta g ↔ ¬ ResponseInBound g sig := by
  have hpolys : Polys (responseOf g sig) := polys_mapCoeffs (fun f hf => length_of_mem_codesAt hf) _
  have hlen : 0 < (responseOf g sig).length := by
    rw [responseOf, List.length_map, codesAt_length]
    exact hs.sl.1
  rw [offsetCodes_eq, unpackVec_eq_codesAt _ _ _ _ (by rw [hsig, sigBytes]; omega), ← not_lt,
    vecNorm_add_lt_iff_of_polys hpolys hlen, ResponseInBound]

theorem verifyCore_of_large (h : ¬ ResponseInBound g sig) : verifyCore c g sig msg pk = some false := by
  cases hd : decodeHint g (hintBytes g sig) with
  | none => exact verifyCore_of_malformed hd
  | some _ => simp only [verifyCore, hd, if_pos ((gamma1_le_vecNorm_iff hs hsig).2 h)]

/-- Verification of a well-formed hint and a response within the bound: what is left is the challenge. -/
theorem verifyCore_of_inBound (hpk : pk.length = sigPkBytes c g) {h : List Poly} (hd : decodeHint g (hintBytes g sig) = some h)
    (hb : ResponseInBound g sig) :
    verifyCore c g sig msg pk = (expandMatrix c (slice pk 0 32) g.sk g.sl).bind fun ahat =>
      (sampleInBall c g.tau (slice sig 0 32)).map fun p => decide (slice sig 0 32 = recomputedSeed c g sig msg pk h ahat p.1) := by
  have hlarge : ¬ g.gamma1 ≤ vecNorm (offsetCodes g.gamma1 (unpackVec (zBits g) g.sl sig 32)) + beta g :=
    fun h => (gamma1_le_vecNorm_iff hs hsig).1 h hb
  simp only [verifyCore, hd, if_neg hlarge]
  cases expandMatrix c (slice pk 0 32) g.sk g.sl with
  | none => rfl
  | some ahat =>
    cases sampleInBall c g.tau (slice sig 0 32) with
    | none => rfl
    | some p =>
      simp only [Option.bind_some, Option.map_some, canon_polySub, offsetCodes_eq,
        unpackVec_eq_codesAt (zBits g) g.sl sig 32 (by rw [hsig, sigBytes]; omega),
        unpackVec_eq_codesAt (t1Bits c g) g.sk pk 32 (by rw [hpk, sigPkBytes]), Nat.cast_pow, Nat.cast_ofNat,
        recomputedSeed, responseOf, mapCoeffs, List.zipWith_map_right]

/-- The three ways verification can end, for a hint's bytes and a response. -/
theorem verifyCore_eq_none_iff (hl : LegalCfg c) (hpk : pk.length = sigPkBytes c g) :
    verifyCore c g sig msg pk = none ↔ (∃ h, decodeHint g (hintBytes g sig) = some h) ∧ ResponseInBound g sig
      ∧ ¬ ∃ ahat ch pos, IsMatrix c (slice pk 0 32) g.sk g.sl ahat ∧ IsChallenge c g.tau (slice sig 0 32) ch pos := by
  have htau := hs.tau
  simp only [isMatrix_iff hl, isChallenge_iff c htau.1 (by omega)]
  by_cases hb : ResponseInBound g sig
  · cases hd : decodeHint g (hintBytes g sig) with
    | none => simp [verifyCore_of_malformed hd]
    | some h =>
      rw [verifyCore_of_inBound hs hsig hpk hd hb]
      cases expandMatrix c (slice pk 0 32) g.sk g.sl with
      | none => simp [hb]
      | some ahat =>
        cases sampleInBall c g.tau (slice sig 0 32) with
        | none => simp [hb]
        | some p =>
          obtain ⟨ch, pos⟩ := p
          simp [hb]
  · simp [verifyCore_of_large hs hsig hb, hb]

theorem verifyCore_eq_true_iff (hl : LegalCfg c) (hpk : pk.length = sigPkBytes c g) :
    verifyCore c g sig msg pk = some true ↔ SignatureAccepted c g sig msg pk := by
  have htau := hs.tau
  constructor
  · intro hv
    cases hd : decodeHint g (hintBytes g sig) with
    | none => simp [verifyCore_of_malformed hd] at hv
    | some h =>
      by_cases hb : ResponseInBound g sig
      · rw [verifyCore_of_inBound hs hsig hpk hd hb] at hv
        obtain ⟨ahat, hA, hv⟩ := Option.bind_eq_some_iff.1 hv
        obtain ⟨⟨ch, pos⟩, hch, hv⟩ := Option.map_eq_some_iff.1 hv
        exact ⟨h, ahat, ch, pos, hd, hb, (isMatrix_iff hl _ _ _ _).2 hA, (isChallenge_iff c htau.1 (by omega) _ _ _).2 hch,
          of_decide_eq_true hv⟩
      · simp [verifyCore_of_large hs hsig hb] at hv
  · rintro ⟨h, ahat, ch, pos, hd, hb, hA, hch, hseed⟩
    rw [verifyCore_of_inBound hs hsig hpk hd hb, (isMatrix_iff hl _ _ _ _).1 hA, Option.bind_some,
      (isChallenge_iff c htau.1 (by omega) _ _ _).1 hch, Option.map_some]
    exact congrArg some (decide_eq_true hseed)

end

end

/-! ## The commands -/

/-- Settles O52: the 32 bytes determine the keys, field by field. -/
theorem sigKeygenResult : Obligations.SigKeygenResult := by
  intro s g mode xi d ⟨hc, _, hb, _⟩ hg hpk hsk hdisj hin
  have hl := (cfgValid_iff_legal s.cfg).1 hc
  have hck : checkError s (.sigKeygen mode) = none := by
    refine checkError_eq_none_of ?_ rfl ?_ ?_
    · obtain ⟨rfl, -⟩ | ⟨rfl, -⟩ := hin <;> simp [legalFields, hg]
    · have hpk' : InBounds s (operand s 0) (sigPkBytes s.cfg g) := .inr hpk
      have hsk' : InBounds s (operand s 1) (sigSkBytes g) := .inr hsk
      obtain ⟨rfl, -⟩ | ⟨rfl, hbuf, -⟩ := hin
      · simp [inputBuffers, outputBuffers, hg, hpk', hsk']
      · have hbuf' : InBounds s (operand s 2) 32 := .inr hbuf
        simp [inputBuffers, outputBuffers, hg, hpk', hsk', hbuf']
    · simpa [outputBuffers, hg] using hdisj
  have hseed : mode = 0 ∧ (xi, d) = drawEntropy 32 s.draws
      ∨ mode = 1 ∧ xi.length = 32 ∧ HoldsBytes s (operand s 2) xi ∧ d = s.draws :=
    hin.imp_right fun ⟨hmode, _, h⟩ => ⟨hmode, h⟩
  have hexec := (exec_eq_of_body hck (.sigKeygen mode hg)).trans (seedInput_eq hb.1 hseed _)
  dsimp only at hexec
  refine ⟨fun pk sk hkeys => ?keys, sigKeyPair_eq_none_iff hl xi, fun hnone => ?exhausted⟩
  case exhausted =>
    rw [hexec, hnone]
    rfl
  case keys =>
    obtain ⟨hof, hpklen, hsklen⟩ := sigKeysOf_sigKeyPair hl (hl.legalSig hg) hkeys
    rw [hexec, hkeys]
    exact ⟨_, rfl, hpklen, hsklen, hof, storedTwo_memWrite { s with draws := d } hpklen hsklen hdisj⟩

/-- Settles O54: verification ends by its first failing requirement, and the challenge decides the rest. -/
theorem sigVerifyResult : Obligations.SigVerifyResult := by
  intro s g sig msg pk ⟨hc, _, hb, _⟩ hg hsiglen hpklen hsigin hmsgin hpkin hsig hsigb hmsg hmsgb hpk hpkb
  have hl := (cfgValid_iff_legal s.cfg).1 hc
  have hs := hl.legalSig hg
  have hck : checkError s .sigVerify = none := by
    refine checkError_eq_none_of (by simp [legalFields, hg]) (by simp [lengthsMatch, hg, hsiglen, hpklen]) ?_ (by simp [outputBuffers])
    have hsig' : InBounds s (operand s 0) (sigBytes g) := .inr hsigin
    have hpk' : InBounds s (operand s 4) (sigPkBytes s.cfg g) := .inr hpkin
    simp [inputBuffers, outputBuffers, hg, hsig', hmsgin, hpk']
  have hexec := (exec_eq_of_body hck (.sigVerify hg)).trans ((reading_of_holds _ hb.1 hsig hsigb).trans
    ((reading_of_holds _ hb.1 hmsg hmsgb).trans (reading_of_holds _ hb.1 hpk hpkb)))
  refine ⟨fun ok hok => ?answered, fun hnone => ?exhausted, verifyCore_eq_true_iff hs hsig hl hpk,
    verifyCore_eq_none_iff hs hsig hl hpk, fun hd => verifyCore_of_malformed hd, ?large⟩
  case answered =>
    rw [hexec, hok]
    cases ok <;> rfl
  case exhausted =>
    rw [hexec, hnone]
    rfl
  case large =>
    rintro ⟨j, n, hj, hn, hlarge⟩
    obtain ⟨f, hf, hx⟩ := mem_responseOf sig hj hn
    exact verifyCore_of_large hs hsig fun hbound => absurd hlarge (not_le.2 (hbound f hf _ hx))

end Sys2Proof.Machine
end

section
/-! SUPPORT. Signing (44_signature.md R235 to R240). -/

namespace Sys2Proof.Machine

/-! ## The loop, by its attempts (44_signature.md R239, R240) -/

/-- What the end of a loop over the attempts `attempt + 1 .. last` says of them. -/
def LoopEnd (A : Nat → Attempt) (attempt last : Nat) : SignEnd → Prop
  | .signed sig n => attempt < n ∧ n ≤ last ∧ A n = .signed sig ∧ ∀ k, attempt < k → k < n → A k = .retry
  | .attemptsExhausted => ∀ k, attempt < k → k ≤ last → A k = .retry
  | .streamExhausted => ∃ k, attempt < k ∧ k ≤ last ∧ A k = .exhausted ∧ ∀ j, attempt < j → j < k → A j = .retry

/-- A loop whose first attempt is rejected. -/
theorem LoopEnd.of_retry {A : Nat → Attempt} {attempt last : Nat} (h : A (attempt + 1) = .retry) {e : SignEnd}
    (he : LoopEnd A (attempt + 1) last e) : LoopEnd A attempt last e := by
  have hfirst : ∀ k, attempt < k → k = attempt + 1 ∨ attempt + 1 < k := fun k hk => by omega
  cases e with
  | signed sig n =>
    obtain ⟨h1, h2, h3, h4⟩ := he
    refine ⟨by omega, h2, h3, fun k hk hn => ?_⟩
    obtain rfl | hk := hfirst k hk
    · exact h
    · exact h4 k hk hn
  | attemptsExhausted =>
    intro k hk hl
    obtain rfl | hk := hfirst k hk
    · exact h
    · exact he k hk hl
  | streamExhausted =>
    obtain ⟨k, h1, h2, h3, h4⟩ := he
    refine ⟨k, by omega, h2, h3, fun j hj hk => ?_⟩
    obtain rfl | hj := hfirst j hj
    · exact h
    · exact h4 j hj hk

/-- A loop is exhausted where every attempt is rejected. -/
theorem LoopEnd.eq_attemptsExhausted_iff {A : Nat → Attempt} {last : Nat} {e : SignEnd} (he : LoopEnd A 0 last e) :
    e = .attemptsExhausted ↔ ∀ k, 1 ≤ k → k ≤ last → A k ≠ .exhausted ∧ ¬ ∃ sig, A k = .signed sig := by
  constructor
  · rintro rfl k h1 hk
    rw [he k h1 hk]
    exact ⟨nofun, fun ⟨_, h⟩ => nomatch h⟩
  · intro h
    cases e with
    | attemptsExhausted => rfl
    | signed sig n =>
      obtain ⟨h1, h2, h3, -⟩ := he
      exact absurd ⟨sig, h3⟩ (h n h1 h2).2
    | streamExhausted =>
      obtain ⟨k, h1, h2, h3, -⟩ := he
      exact absurd h3 (h k h1 h2).1

/-- A loop's stream is exhausted where an attempt finds no challenge and none before it is accepted. -/
theorem LoopEnd.eq_streamExhausted_iff {A : Nat → Attempt} {last : Nat} {e : SignEnd} (he : LoopEnd A 0 last e) :
    e = .streamExhausted ↔ ∃ k, 1 ≤ k ∧ k ≤ last ∧ A k = .exhausted ∧ ∀ j, 1 ≤ j → j < k → ¬ ∃ sig, A j = .signed sig := by
  constructor
  · rintro rfl
    obtain ⟨k, h1, h2, h3, h4⟩ := he
    refine ⟨k, h1, h2, h3, fun j hj hk => ?_⟩
    rw [h4 j hj hk]
    exact fun ⟨_, h⟩ => nomatch h
  · rintro ⟨k, h1, h2, h3, h4⟩
    cases e with
    | streamExhausted => rfl
    | signed sig n =>
      obtain ⟨hn1, -, hn3, hn4⟩ := he
      obtain h | rfl | h := Nat.lt_trichotomy k n
      · exact absurd (h3.symm.trans (hn4 k h1 h)) nofun
      · exact absurd (h3.symm.trans hn3) nofun
      · exact absurd ⟨sig, hn3⟩ (h4 n hn1 h)
    | attemptsExhausted => exact absurd (h3.symm.trans (he k h1 h2)) nofun

section
variable (c : Cfg) (g : SigCfg) (k : SigSecret) (ahat : List (List Poly)) (mu rpp : Bytes) (mode : Nat) (d : Draws)

/-- Attempt `n` of the loop: its nonces start at `SL*(n-1)` and in `MODE = 2` its coin is the `n`-th (log 8). -/
def attemptNo (n : Nat) : Attempt :=
  (signAttempt c g k ahat mu rpp mode ((n - 1) * g.sl) (coinsDrawn d (if mode = 2 then n - 1 else 0))).1

theorem signLoop_loopEnd (hm : mode ≤ 2) : ∀ fuel attempt : Nat,
    LoopEnd (attemptNo c g k ahat mu rpp mode d) attempt (attempt + fuel)
      (signLoop c g k ahat mu rpp mode fuel attempt (attempt * g.sl) (coinsDrawn d (if mode = 2 then attempt else 0))).1
  | 0, attempt => fun n h1 h2 => absurd h2 (by omega)
  | fuel + 1, attempt => by
    have hA : attemptNo c g k ahat mu rpp mode d (attempt + 1)
        = (signAttempt c g k ahat mu rpp mode (attempt * g.sl) (coinsDrawn d (if mode = 2 then attempt else 0))).1 := rfl
    have hd := signAttempt_draws c g k ahat mu rpp hm (attempt * g.sl) (coinsDrawn d (if mode = 2 then attempt else 0))
    rw [signLoop]
    generalize signAttempt c g k ahat mu rpp mode (attempt * g.sl) (coinsDrawn d (if mode = 2 then attempt else 0)) = r at hA hd ⊢
    obtain ⟨a, d'⟩ := r
    obtain rfl : d' = coinsDrawn (coinsDrawn d (if mode = 2 then attempt else 0)) (attemptCoins mode a) := hd
    cases a with
    | signed sig => exact ⟨by omega, by omega, hA, fun j h1 h2 => absurd h2 (by omega)⟩
    | exhausted => exact ⟨attempt + 1, by omega, by omega, hA, fun j h1 h2 => absurd h2 (by omega)⟩
    | retry =>
      have ih := signLoop_loopEnd hm fuel (attempt + 1)
      have hcoins : (if mode = 2 then attempt else 0) + attemptCoins mode .retry = if mode = 2 then attempt + 1 else 0 := by
        rw [show attemptCoins mode .retry = if mode = 2 then 1 else 0 from rfl]
        split <;> rfl
      refine LoopEnd.of_retry hA ?_
      dsimp only
      rwa [coinsDrawn_add, hcoins, ← Nat.succ_mul, Nat.add_comm fuel 1, ← Nat.add_assoc]

end

section
variable {c : Cfg} {g : SigCfg} {mode : Nat} {sk msg : Bytes} {d : Draws}

/-! ## What a secret key holds, and what an attempt computes from it -/

/-- `s1` of a secret key (44_signature.md R234). -/
abbrev s1Of (g : SigCfg) (sk : Bytes) : List Poly := mapCoeffs (fun x => (g.seta : Int) - x) (codesAt sk 64 (secretBits g) g.sl)
/-- `s2` of a secret key. -/
abbrev s2Of (g : SigCfg) (sk : Bytes) : List Poly :=
  mapCoeffs (fun x => (g.seta : Int) - x) (codesAt sk (64 + 32 * secretBits g * g.sl) (secretBits g) g.sk)
/-- `t0` of a secret key. -/
abbrev t0Of (g : SigCfg) (sk : Bytes) : List Poly :=
  mapCoeffs (fun x => 2 ^ (g.drop - 1) - x) (codesAt sk (64 + 32 * secretBits g * (g.sl + g.sk)) g.drop g.sk)

theorem decodeSecret_eq (hsk : sk.length = sigSkBytes g) :
    decodeSecret g sk = { rho := slice sk 0 32, key := slice sk 32 64, s1 := s1Of g sk, s2 := s2Of g sk, t0 := t0Of g sk,
                          tr := slice sk (sigSkBytes g - 32) (sigSkBytes g) } := by
  have hbytes : sigSkBytes g = 64 + 32 * secretBits g * g.sl + 32 * secretBits g * g.sk + 32 * g.drop * g.sk + 32 := by
    rw [sigSkBytes, Nat.mul_add]
    omega
  have hmul := Nat.mul_add (32 * secretBits g) g.sl g.sk
  simp only [decodeSecret, offsetCodes_eq, unpackVec_eq_codesAt (secretBits g) g.sl sk 64 (by omega),
    unpackVec_eq_codesAt (secretBits g) g.sk sk (64 + 32 * secretBits g * g.sl) (by omega),
    unpackVec_eq_codesAt g.drop g.sk sk (64 + 32 * secretBits g * (g.sl + g.sk)) (by omega), Nat.cast_pow, Nat.cast_ofNat]

/-- `rho''`, from which an attempt's mask comes (44_signature.md R236). -/
abbrev maskSeedOf (c : Cfg) (g : SigCfg) (sk msg : Bytes) : Bytes := xofbBytes c.hash (slice sk 32 64 ++ messageRepOf c g sk msg) 64

theorem maskVector_eq (c : Cfg) (g : SigCfg) (sk msg : Bytes) (n : Nat) :
    maskVector c g (maskSeedOf c g sk msg) ((n - 1) * g.sl) = maskOf c g sk msg n := by
  rw [maskVector, offsetCodes_eq, mapCoeffs, List.map_map, maskOf]
  refine List.map_congr_left fun j _ => ?_
  rw [Function.comp, unpackBytes, List.map_map]
  refine List.map_congr_left fun i _ => ?_
  rw [Function.comp, codeAt, bitsAt_eq]

/-- The response `z` of attempt `n` with the challenge `ch` (44_signature.md R236). -/
abbrev zOf (c : Cfg) (g : SigCfg) (sk msg : Bytes) (ch : Poly) (n : Nat) : List Poly :=
  List.zipWith (List.zipWith (fun a b => a + cmod b c.q)) (maskOf c g sk msg n) ((s1Of g sk).map (ringMul c ch))
/-- `r`, the commitment less the challenge's share of `s2`. -/
abbrev rOf (c : Cfg) (g : SigCfg) (sk msg : Bytes) (ahat : List (List Poly)) (ch : Poly) (n : Nat) : List Poly :=
  List.zipWith (List.zipWith (fun a b => (a - b) % (c.q : Int))) (matTimes c ahat (maskOf c g sk msg n))
    ((s2Of g sk).map (ringMul c ch))
/-- `ct0`, the challenge's share of `t0`. -/
abbrev ct0Of (c : Cfg) (g : SigCfg) (sk : Bytes) (ch : Poly) : List Poly :=
  mapCoeffs (fun x => cmod x c.q) ((t0Of g sk).map (ringMul c ch))
/-- The hint of attempt `n`. -/
abbrev hintOf (c : Cfg) (g : SigCfg) (sk msg : Bytes) (ahat : List (List Poly)) (ch : Poly) (n : Nat) : List Poly :=
  List.zipWith (List.zipWith (makehint c g)) (rOf c g sk msg ahat ch n) (ct0Of c g sk ch)

/-- The candidate passes its policy's test (44_signature.md R237). -/
abbrev PolicyPasses (c : Cfg) (g : SigCfg) (mode : Nat) (d : Draws) (n : Nat) (z r : List Poly) : Prop :=
  (mode = 0 → WithinBounds c g (beta g) z r) ∧ (mode = 1 → WithinBounds c g (2 * beta g) z r)
    ∧ (mode = 2 → (drawCoin (coinsDrawn d (n - 1))).1 = true ∨ WithinBounds c g (beta g) z r)

/-- The candidate passes the tests of R237 and R238. -/
def Acceptable (c : Cfg) (g : SigCfg) (mode : Nat) (sk msg : Bytes) (d : Draws) (ahat : List (List Poly)) (ch : Poly) (n : Nat) : Prop :=
  PolicyPasses c g mode d n (zOf c g sk msg ch n) (rOf c g sk msg ahat ch n)
    ∧ (∀ f ∈ ct0Of c g sk ch, ∀ x ∈ f, x.natAbs < g.gamma2) ∧ hintWeight (hintOf c g sk msg ahat ch n) ≤ g.omega

/-- The signature that attempt `n` makes with its challenge (44_signature.md R235). -/
abbrev signatureBytes (c : Cfg) (g : SigCfg) (sk msg : Bytes) (ahat : List (List Poly)) (ch : Poly) (n : Nat) : Bytes :=
  challengeSeedOf c g sk msg ahat n ++ packVec (zBits g) (offsetCodes g.gamma1 (zOf c g sk msg ch n))
    ++ encodeHint g (hintOf c g sk msg ahat ch n)

theorem signatureOf_iff {sig : Bytes} {n : Nat} :
    SignatureOf c g mode sk msg d sig n ↔ ∃ ahat ch pos, IsMatrix c (slice sk 0 32) g.sk g.sl ahat
      ∧ IsChallenge c g.tau (slice sig 0 32) ch pos ∧ slice sig 0 32 = challengeSeedOf c g sk msg ahat n
      ∧ codesAt sig 32 (zBits g) g.sl = mapCoeffs (fun x => (g.gamma1 - x) % 2 ^ zBits g) (zOf c g sk msg ch n)
      ∧ hintBytes g sig = encodeHint g (hintOf c g sk msg ahat ch n) ∧ Acceptable c g mode sk msg d ahat ch n := by
  constructor
  · rintro ⟨ahat, ch, pos, hA, hch, hseed, hcodes, hhint, h0, h1, h2, hct, hw⟩
    exact ⟨ahat, ch, pos, hA, hch, hseed, hcodes, hhint, ⟨h0, h1, h2⟩, hct, hw⟩
  · rintro ⟨ahat, ch, pos, hA, hch, hseed, hcodes, hhint, ⟨h0, h1, h2⟩, hct, hw⟩
    exact ⟨ahat, ch, pos, hA, hch, hseed, hcodes, hhint, h0, h1, h2, hct, hw⟩

/-! ## Lengths -/

theorem polys_maskOf (c : Cfg) (g : SigCfg) (sk msg : Bytes) (n : Nat) :
    (maskOf c g sk msg n).length = g.sl ∧ Polys (maskOf c g sk msg n) :=
  ⟨by simp [maskOf], polys_map_range fun j => by simp⟩

theorem ringMul_length (hl : LegalCfg c) {f h : Poly} (hf : f.length = 256) (hh : h.length = 256) : (ringMul c f h).length = 256 := by
  rw [ringMul_eq hl hf hh, canon, List.length_map, negacyclicPoly, List.length_map, List.length_range]

theorem polys_map_ringMul (hl : LegalCfg c) {ch : Poly} (hch : ch.length = 256) {v : List Poly} (hv : Polys v) :
    Polys (v.map (ringMul c ch)) := polys_map fun f hf => ringMul_length hl hch (hv f hf)

theorem length_zipWith_256 {α : Type} (F : Int → Int → α) {f h : Poly} (hf : f.length = 256) (hh : h.length = 256) :
    (List.zipWith F f h).length = 256 := by rw [List.length_zipWith, hf, hh, Nat.min_self]

theorem polys_offset (bs : Bytes) (F : Int → Int) (off w n : Nat) : Polys (mapCoeffs F (codesAt bs off w n)) :=
  polys_mapCoeffs (fun _ hf => length_of_mem_codesAt hf) F

theorem polys_zOf (hl : LegalCfg c) {ch : Poly} (hch : ch.length = 256) (n : Nat) :
    (zOf c g sk msg ch n).length = g.sl ∧ Polys (zOf c g sk msg ch n) := by
  obtain ⟨hlen, hp⟩ := polys_maskOf c g sk msg n
  refine ⟨?_, polys_zipWith hp (polys_map_ringMul hl hch (polys_offset _ _ _ _ _)) fun _ _ => length_zipWith_256 _⟩
  rw [List.length_zipWith, hlen, List.length_map, List.length_map, codesAt_length, Nat.min_self]

theorem hintOf_length {ahat : List (List Poly)} (hA : IsMatrix c (slice sk 0 32) g.sk g.sl ahat) (ch : Poly) (n : Nat) :
    (hintOf c g sk msg ahat ch n).length = g.sk := by
  rw [List.length_zipWith, List.length_zipWith, matTimes_length, hA.1]
  simp [codesAt_length]

/-! ## One attempt (44_signature.md R236 to R238) -/

/-- Attempt `n` of signing a message with the bytes of a secret key. -/
abbrev signingAttempt (c : Cfg) (g : SigCfg) (mode : Nat) (sk msg : Bytes) (d : Draws) (ahat : List (List Poly)) (n : Nat) : Attempt :=
  attemptNo c g (decodeSecret g sk) ahat (messageRepOf c g sk msg) (maskSeedOf c g sk msg) mode d n

theorem policyAccepts_iff (hs : LegalSig c g) (hm : mode ≤ 2) {z r : List Poly} (hz : 0 < z.length ∧ Polys z) (n : Nat) :
    (policyAccepts c g mode z r (coinsDrawn d (if mode = 2 then n - 1 else 0))).1 = true ↔ PolicyPasses c g mode d n z r := by
  have hbound : ∀ {b}, b < g.gamma2 → (boundTest c g b z r = true ↔ WithinBounds c g b z r) := fun hb => by
    simp only [boundTest, Bool.and_eq_true, decide_eq_true_eq, vecNorm_add_lt_iff_of_polys hz.2 hz.1, vecNorm_add_lt_iff hb,
      List.forall_mem_map]
  have hbeta := hs.beta
  obtain rfl | rfl | rfl : mode = 0 ∨ mode = 1 ∨ mode = 2 := by omega
  · rw [policyAccepts_of_le_one (Nat.zero_le 1), hbound (by omega)]
    simp [PolicyPasses]
  · rw [policyAccepts_of_le_one le_rfl, hbound (by omega)]
    simp [PolicyPasses]
  · rw [policyAccepts_two, Bool.or_eq_true, hbound (by omega), if_pos rfl]
    simp [PolicyPasses]

section
variable {ahat : List (List Poly)} {n : Nat} 
/-- The model's `z`, `r` and `ct0` by their coefficients. -/
theorem zipWith_polyAdd_cent (c : Cfg) (ch : Poly) (y v : List Poly) :
    List.zipWith (fun yj sj => polyAdd yj (cent c.q (ringMul c ch sj))) y v
      = List.zipWith (List.zipWith (fun a b => a + cmod b c.q)) y (v.map (ringMul c ch)) := by
  simp only [polyAdd, cent, List.zipWith_map_right]

theorem zipWith_canon_polySub (c : Cfg) (ch : Poly) (w v : List Poly) :
    List.zipWith (fun wi si => canon c.q (polySub wi (ringMul c ch si))) w v
      = List.zipWith (List.zipWith (fun a b => (a - b) % (c.q : Int))) w (v.map (ringMul c ch)) := by
  simp only [canon_polySub, List.zipWith_map_right]

theorem map_cent_ringMul (c : Cfg) (ch : Poly) (v : List Poly) :
    v.map (fun t => cent c.q (ringMul c ch t)) = mapCoeffs (fun x => cmod x c.q) (v.map (ringMul c ch)) := by
  simp only [cent, mapCoeffs, List.map_map, Function.comp_def]

theorem signingAttempt_of_none (h : sampleInBall c g.tau (challengeSeedOf c g sk msg ahat n) = none) :
    signingAttempt c g mode sk msg d ahat n = .exhausted := by
  rw [signingAttempt, attemptNo, signAttempt, maskVector_eq]
  rw [challengeSeedOf, mapCoeffs] at h
  simp only [h]

theorem signingAttempt_of_some (hsk : sk.length = sigSkBytes g) {ch : Poly} {pos : Nat} (h : sampleInBall c g.tau (challengeSeedOf c g sk msg ahat n) = some (ch, pos)) :
    signingAttempt c g mode sk msg d ahat n
      = if (policyAccepts c g mode (zOf c g sk msg ch n) (rOf c g sk msg ahat ch n)
            (coinsDrawn d (if mode = 2 then n - 1 else 0))).1 = true ∧ vecNorm (ct0Of c g sk ch) < g.gamma2
          ∧ hintWeight (hintOf c g sk msg ahat ch n) ≤ g.omega then .signed (signatureBytes c g sk msg ahat ch n) else .retry := by
  rw [signingAttempt, attemptNo, signAttempt, maskVector_eq]
  rw [challengeSeedOf, mapCoeffs] at h
  simp only [h, decodeSecret_eq hsk, zipWith_polyAdd_cent, zipWith_canon_polySub, map_cent_ringMul]
  generalize policyAccepts c g mode (zOf c g sk msg ch n) (rOf c g sk msg ahat ch n) _ = acc
  generalize vecNorm (ct0Of c g sk ch) = norm
  generalize hintWeight (hintOf c g sk msg ahat ch n) = weight
  obtain ⟨accepted, d'⟩ := acc
  cases accepted with
  | false => rfl
  | true =>
    dsimp only
    rw [if_neg (by decide)]
    obtain hct | hct := Nat.lt_or_ge norm g.gamma2
    · obtain hw | hw := Nat.lt_or_ge g.omega weight
      · rw [if_neg (not_le.2 hct), if_pos hw, if_neg fun h => absurd h.2.2 (not_le.2 hw)]
      · rw [if_neg (not_le.2 hct), if_neg (not_lt.2 hw), if_pos ⟨rfl, hct, hw⟩]
        rfl
    · rw [if_pos hct, if_neg fun h => absurd h.2.1 (not_lt.2 hct)]

end

section
variable {ahat : List (List Poly)} {n : Nat} (hl : LegalCfg c) (hs : LegalSig c g) (hm : mode ≤ 2)
include hl hs hm

/-- The model's tests are those of R237 and R238. -/
theorem acceptable_iff {ch : Poly} (hch : ch.length = 256) :
    (policyAccepts c g mode (zOf c g sk msg ch n) (rOf c g sk msg ahat ch n)
          (coinsDrawn d (if mode = 2 then n - 1 else 0))).1 = true ∧ vecNorm (ct0Of c g sk ch) < g.gamma2
        ∧ hintWeight (hintOf c g sk msg ahat ch n) ≤ g.omega
      ↔ Acceptable c g mode sk msg d ahat ch n := by
  obtain ⟨hlen, hz⟩ := polys_zOf (g := g) (sk := sk) (msg := msg) hl hch n
  have hpos := hs.sl
  have hgamma := hs.gamma2
  rw [policyAccepts_iff hs hm ⟨by omega, hz⟩, vecNorm_lt_iff (by omega), Acceptable]

variable (hsk : sk.length = sigSkBytes g)
include hsk

/-- An attempt that finds its challenge is accepted or rejected by its tests. -/
theorem signingAttempt_of_isChallenge {ch : Poly} {pos : Nat}
    (h : IsChallenge c g.tau (challengeSeedOf c g sk msg ahat n) ch pos) :
    (Acceptable c g mode sk msg d ahat ch n → signingAttempt c g mode sk msg d ahat n = .signed (signatureBytes c g sk msg ahat ch n))
      ∧ (¬ Acceptable c g mode sk msg d ahat ch n → signingAttempt c g mode sk msg d ahat n = .retry) := by
  have htau := hs.tau
  have hacc := acceptable_iff (sk := sk) (msg := msg) (d := d) (ahat := ahat) (n := n) hl hs hm (h.inBall htau.1 (by omega)).length
  have hA := signingAttempt_of_some (mode := mode) (d := d) hsk ((isChallenge_iff c htau.1 (by omega) _ _ _).1 h)
  rw [← hacc]
  exact ⟨fun hyes => by rw [hA, if_pos hyes], fun hno => by rw [hA, if_neg hno]⟩

omit hl hm hsk in
theorem signingAttempt_of_no_challenge (h : ¬ ∃ ch pos, IsChallenge c g.tau (challengeSeedOf c g sk msg ahat n) ch pos) :
    signingAttempt c g mode sk msg d ahat n = .exhausted := by
  have htau := hs.tau
  refine signingAttempt_of_none (Option.eq_none_iff_forall_ne_some.2 fun p hp => h ⟨p.1, p.2, ?_⟩)
  exact (isChallenge_iff c htau.1 (by omega) _ _ _).2 hp

theorem signingAttempt_eq_exhausted_iff :
    signingAttempt c g mode sk msg d ahat n = .exhausted
      ↔ ¬ ∃ ch pos, IsChallenge c g.tau (challengeSeedOf c g sk msg ahat n) ch pos := by
  refine ⟨fun hA => ?_, signingAttempt_of_no_challenge hs⟩
  rintro ⟨ch, pos, h⟩
  obtain ⟨hyes, hno⟩ := signingAttempt_of_isChallenge (d := d) hl hs hm hsk h
  by_cases hacc : Acceptable c g mode sk msg d ahat ch n
  · exact absurd ((hyes hacc).symm.trans hA) nofun
  · exact absurd ((hno hacc).symm.trans hA) nofun

theorem signingAttempt_eq_signed_iff {sig : Bytes} :
    signingAttempt c g mode sk msg d ahat n = .signed sig
      ↔ ∃ ch pos, IsChallenge c g.tau (challengeSeedOf c g sk msg ahat n) ch pos ∧ Acceptable c g mode sk msg d ahat ch n
        ∧ sig = signatureBytes c g sk msg ahat ch n := by
  constructor
  · intro hA
    by_cases h : ∃ ch pos, IsChallenge c g.tau (challengeSeedOf c g sk msg ahat n) ch pos
    · obtain ⟨ch, pos, h⟩ := h
      obtain ⟨hyes, hno⟩ := signingAttempt_of_isChallenge (d := d) hl hs hm hsk h
      by_cases hacc : Acceptable c g mode sk msg d ahat ch n
      · exact ⟨ch, pos, h, hacc, Attempt.signed.inj (hA.symm.trans (hyes hacc))⟩
      · exact absurd ((hno hacc).symm.trans hA) nofun
    · exact absurd ((signingAttempt_of_no_challenge hs h).symm.trans hA) nofun
  · rintro ⟨ch, pos, h, hacc, rfl⟩
    exact (signingAttempt_of_isChallenge hl hs hm hsk h).1 hacc

variable (hA : IsMatrix c (slice sk 0 32) g.sk g.sl ahat)
include hA

/-- What an accepted attempt makes is its signature (44_signature.md R235). -/
theorem signatureOf_of_signed {sig : Bytes} (h : signingAttempt c g mode sk msg d ahat n = .signed sig) :
    sig.length = sigBytes g ∧ SignatureOf c g mode sk msg d sig n := by
  have htau := hs.tau
  obtain ⟨ch, pos, hch, hacc, rfl⟩ := (signingAttempt_eq_signed_iff hl hs hm hsk).1 h
  obtain ⟨hzlen, hz⟩ := polys_zOf (g := g) (sk := sk) (msg := msg) hl (hch.inBall htau.1 (by omega)).length n
  obtain ⟨-, -, hweight⟩ := id hacc
  have hseed : (challengeSeedOf c g sk msg ahat n).length = 32 := xofbBytes_length ..
  have hcodes : (packVec (zBits g) (offsetCodes g.gamma1 (zOf c g sk msg ch n))).length = 32 * zBits g * g.sl := by
    rw [packVec_length, offsetCodes, List.length_map, hzlen]
  have hhint := encodeHint_length (hintOf_length (msg := msg) hA ch n) hweight
  have hfirst : slice (signatureBytes c g sk msg ahat ch n) 0 32 = challengeSeedOf c g sk msg ahat n := by
    rw [signatureBytes, List.append_assoc, slice_append_left _ hseed.ge, slice_self hseed]
  refine ⟨by rw [List.length_append, List.length_append, hseed, hcodes, hhint, sigBytes, Nat.add_assoc _ g.omega],
    signatureOf_iff.2 ⟨ahat, ch, pos, hA, hfirst.symm ▸ hch, hfirst, ?codes, ?hint, hacc⟩⟩
  case codes =>
    rw [signatureBytes, offsetCodes_eq, codesAt_layout _ (polys_mapCoeffs hz _) hseed ((List.length_map _).trans hzlen), mapCoeffs_mapCoeffs]
    rfl
  case hint =>
    rw [hintBytes, signatureBytes, ← List.append_nil (_ ++ encodeHint _ _)]
    exact slice_field [] (by rw [List.length_append, hseed, hcodes]) (by rw [hhint, sigBytes, Nat.add_assoc _ g.omega])

/-- An attempt is accepted exactly where it has a signature. -/
theorem exists_signatureOf_iff :
    (∃ sig, SignatureOf c g mode sk msg d sig n) ↔ ∃ sig, signingAttempt c g mode sk msg d ahat n = .signed sig := by
  constructor
  · rintro ⟨sig, h⟩
    obtain ⟨ahat', ch, pos, hA', hch, hseed, -, -, hacc⟩ := signatureOf_iff.1 h
    obtain rfl : ahat' = ahat := Option.some.inj (((isMatrix_iff hl _ _ _ _).1 hA').symm.trans ((isMatrix_iff hl _ _ _ _).1 hA))
    exact ⟨_, (signingAttempt_eq_signed_iff hl hs hm hsk).2 ⟨ch, pos, hseed ▸ hch, hacc, rfl⟩⟩
  · rintro ⟨sig, h⟩
    exact ⟨sig, (signatureOf_of_signed hl hs hm hsk hA h).2⟩

omit hs in
/-- Signing is the loop over its attempts. -/
theorem signMessage_loopEnd :
    LoopEnd (signingAttempt c g mode sk msg d ahat) 0 c.maxSignRetries (signMessage c g mode sk msg d).1 := by
  have h := signLoop_loopEnd c g (decodeSecret g sk) ahat (messageRepOf c g sk msg) (maskSeedOf c g sk msg) mode d hm c.maxSignRetries 0
  rw [Nat.zero_mul, ite_self, coinsDrawn_zero, Nat.zero_add] at h
  have hmsg : signMessage c g mode sk msg d
      = signLoop c g (decodeSecret g sk) ahat (messageRepOf c g sk msg) (maskSeedOf c g sk msg) mode c.maxSignRetries 0 0 d := by
    rw [signMessage, decodeSecret_eq hsk, (isMatrix_iff hl _ _ _ _).1 hA]
    rfl
  rwa [hmsg]

end

theorem signMessage_of_no_matrix (hl : LegalCfg c) (hsk : sk.length = sigSkBytes g)
    (hA : ¬ ∃ ahat, IsMatrix c (slice sk 0 32) g.sk g.sl ahat) : signMessage c g mode sk msg d = (.streamExhausted, d) := by
  rw [signMessage, decodeSecret_eq hsk, (expandMatrix_eq_none_iff hl _ _ _).2 hA]

/-- How signing ends, by its attempts' challenges and signatures (44_signature.md R236, R239; 60_exceptions.md R324). -/
theorem signMessage_eq_attemptsExhausted_iff (hl : LegalCfg c) (hs : LegalSig c g) (hm : mode ≤ 2) (hsk : sk.length = sigSkBytes g) :
    (signMessage c g mode sk msg d).1 = .attemptsExhausted ↔
      ∃ ahat, IsMatrix c (slice sk 0 32) g.sk g.sl ahat ∧ ∀ k, 1 ≤ k → k ≤ c.maxSignRetries →
        (∃ ch pos, IsChallenge c g.tau (challengeSeedOf c g sk msg ahat k) ch pos) ∧ ¬ ∃ sig, SignatureOf c g mode sk msg d sig k := by
  have key : ∀ {ahat}, IsMatrix c (slice sk 0 32) g.sk g.sl ahat → ((signMessage c g mode sk msg d).1 = .attemptsExhausted ↔
      ∀ k, 1 ≤ k → k ≤ c.maxSignRetries → (∃ ch pos, IsChallenge c g.tau (challengeSeedOf c g sk msg ahat k) ch pos)
        ∧ ¬ ∃ sig, SignatureOf c g mode sk msg d sig k) := fun hA => by
    rw [(signMessage_loopEnd hl hm hsk hA).eq_attemptsExhausted_iff]
    simp only [Ne, signingAttempt_eq_exhausted_iff hl hs hm hsk, exists_signatureOf_iff hl hs hm hsk hA, not_not]
  constructor
  · intro h
    by_cases hA : ∃ ahat, IsMatrix c (slice sk 0 32) g.sk g.sl ahat
    · obtain ⟨ahat, hA⟩ := hA
      exact ⟨ahat, hA, (key hA).1 h⟩
    · rw [signMessage_of_no_matrix hl hsk hA] at h
      cases h
  · rintro ⟨ahat, hA, h⟩
    exact (key hA).2 h

theorem signMessage_eq_streamExhausted_iff (hl : LegalCfg c) (hs : LegalSig c g) (hm : mode ≤ 2) (hsk : sk.length = sigSkBytes g) :
    (signMessage c g mode sk msg d).1 = .streamExhausted ↔
      ∀ ahat, IsMatrix c (slice sk 0 32) g.sk g.sl ahat → ∃ k, 1 ≤ k ∧ k ≤ c.maxSignRetries
        ∧ (¬ ∃ ch pos, IsChallenge c g.tau (challengeSeedOf c g sk msg ahat k) ch pos)
        ∧ ∀ j, 1 ≤ j → j < k → ¬ ∃ sig, SignatureOf c g mode sk msg d sig j := by
  have key : ∀ {ahat}, IsMatrix c (slice sk 0 32) g.sk g.sl ahat → ((signMessage c g mode sk msg d).1 = .streamExhausted ↔
      ∃ k, 1 ≤ k ∧ k ≤ c.maxSignRetries ∧ (¬ ∃ ch pos, IsChallenge c g.tau (challengeSeedOf c g sk msg ahat k) ch pos)
        ∧ ∀ j, 1 ≤ j → j < k → ¬ ∃ sig, SignatureOf c g mode sk msg d sig j) := fun hA => by
    rw [(signMessage_loopEnd hl hm hsk hA).eq_streamExhausted_iff]
    simp only [signingAttempt_eq_exhausted_iff hl hs hm hsk, exists_signatureOf_iff hl hs hm hsk hA]
  constructor
  · exact fun h ahat hA => (key hA).1 h
  · intro h
    by_cases hA : ∃ ahat, IsMatrix c (slice sk 0 32) g.sk g.sl ahat
    · obtain ⟨ahat, hA⟩ := hA
      exact (key hA).2 (h ahat hA)
    · rw [signMessage_of_no_matrix hl hsk hA]

/-- What a signed end says: the first acceptable attempt, and its signature. -/
theorem signMessage_signed (hl : LegalCfg c) (hs : LegalSig c g) (hm : mode ≤ 2) (hsk : sk.length = sigSkBytes g) {sig : Bytes} {n : Nat}
    (h : (signMessage c g mode sk msg d).1 = .signed sig n) :
    1 ≤ n ∧ n ≤ c.maxSignRetries ∧ sig.length = sigBytes g ∧ SignatureOf c g mode sk msg d sig n
      ∧ ∀ k, 1 ≤ k → k < n → ¬ ∃ sig', SignatureOf c g mode sk msg d sig' k := by
  by_cases hA : ∃ ahat, IsMatrix c (slice sk 0 32) g.sk g.sl ahat
  · obtain ⟨ahat, hA⟩ := hA
    have hend := signMessage_loopEnd (msg := msg) (d := d) hl hm hsk hA
    rw [h] at hend
    obtain ⟨h1, hn, hsig, hbefore⟩ := hend
    obtain ⟨hlen, hof⟩ := signatureOf_of_signed hl hs hm hsk hA hsig
    refine ⟨h1, hn, hlen, hof, fun k hk hkn => ?_⟩
    rw [exists_signatureOf_iff hl hs hm hsk hA, hbefore k hk hkn]
    exact fun ⟨_, h⟩ => nomatch h
  · rw [signMessage_of_no_matrix hl hsk hA] at h
    cases h

end

/-- Settles O53: the loop's end by its attempts, and an attempt by its candidate's tests. -/
theorem sigSignResult : Obligations.SigSignResult := by
  intro s g mode msg sk d ⟨hc, _, hb, _⟩ hg hm hsklen hmsgin hskin hsigin hmsg hmsgb hsk hskb
  have hl := (cfgValid_iff_legal s.cfg).1 hc
  have hs := hl.legalSig hg
  have hck : checkError s (.sigSign mode) = none := by
    refine checkError_eq_none_of (by simp [legalFields, hg, hm]) (by simp [lengthsMatch, hg, hsklen]) ?_ (by simp [outputBuffers, hg])
    have hsk' : InBounds s (operand s 2) (sigSkBytes g) := .inr hskin
    have hsig' : InBounds s (operand s 4) (sigBytes g) := .inr hsigin
    simp [inputBuffers, outputBuffers, hg, hmsgin, hsk', hsig']
  have hexec := (exec_eq_of_body hck (.sigSign mode hg)).trans
    ((reading_of_holds _ hb.1 hmsg hmsgb).trans (reading_of_holds _ hb.1 hsk hskb))
  refine ⟨fun sig n hsigned => ?signed, signMessage_eq_attemptsExhausted_iff hl hs hm hsk,
    signMessage_eq_streamExhausted_iff hl hs hm hsk, ?exhausted⟩
  case signed =>
    obtain ⟨h1, hn, hlen, hof, hbefore⟩ := signMessage_signed hl hs hm hsk (congrArg Prod.fst hsigned)
    rw [hexec, hsigned]
    exact ⟨_, rfl, h1, hn, hlen, stored_memWrite { s with draws := d } _ hlen, hof, hbefore⟩
  case exhausted =>
    rintro (h | h)
    · rw [hexec, h]
      rfl
    · rw [hexec, h]
      rfl

end Sys2Proof.Machine
end
